-- ==== Sys2Proof/Word.lean ====
section
/-! DEFINITION. The word types of the machine: 32-bit registers, bytes, channel numbers. -/

namespace Sys2Proof

/-- A host register, a command word, an external address (R21, R24, R50). -/
abbrev Word := BitVec 32

/-- A byte of external memory (R11, R59). -/
abbrev Byte := BitVec 8

/-- A channel number, 0 to 3 (R8 NCH_MAX, R14). -/
abbrev Ch := Fin 4

end Sys2Proof
end

