-- ==== Sys2Proof/Syntax.lean ====
section
/-! DEFINITION. The command set (30_encoding.md R73, opcode_table.json) and the actions of a host script (R84). -/

namespace Sys2Proof

/-- One constructor per row of spec/opcode_table.json. A format C command carries its channel. -/
inductive Instr where
  | nop
  | histClear
  | histScan
  | histAdd (c : Ch)
  | treeBuild (c : Ch)
  | codeGen (c : Ch)
  | hdrWrite
  | hdrRead
  | pkInit
  | pkBits
  | pkFlush
  | encSym (c : Ch)
  | packScan
  | rdInit
  | rdBits
  | decSym (c : Ch)
  | decScan
  | predReset
  | predFwd (c : Ch)
  | predInv (c : Ch)
  | csc
  | scale
  | encFrame
  | decFrame
  | passthru
  deriving DecidableEq, Repr

/-- Width of a host register access. Only `word` is inside the spec (R24). -/
inductive AccessSize where
  | byte
  | half
  | word
  deriving DecidableEq, Repr

/-- One thing the host or the platform does to the block (R20, R21, R84). Where the core's own step falls among
them is data too: `elapse` and `wait` let a running command (or the reset sequence) end (log 1). -/
inductive HostAction where
  /-- `WR`, and `CMD` when the offset is 0x00C: a register write. -/
  | write (size : AccessSize) (off : BitVec 12) (v : Word)
  /-- `RD`: a register read. -/
  | read (size : AccessSize) (off : BitVec 12)
  /-- A host write of one byte of external memory. -/
  | memWrite (a : Word) (v : Byte)
  /-- A host read of one byte of external memory. -/
  | memRead (a : Word)
  /-- The `rst` input is asserted (R168). -/
  | rst
  /-- `WAIT`: reads of STATUS until BUSY = 0. -/
  | wait
  /-- The host makes no access while the core, if busy, ends what it runs (R172). -/
  | elapse
  deriving DecidableEq, Repr

end Sys2Proof
end

