-- ==== Sys2Proof/Machine/State.lean ====
section
/-! DEFINITION. The architectural state of ZOE-CORE (10_state.md), external memory, and the model's own fields; the
reasons a step can stop; the state after reset (R49). -/

namespace Sys2Proof.Machine

/-- What the core is doing. STATUS.BUSY is 1 unless `idle` (R28, R168). -/
inductive Phase where
  | idle
  /-- A command word was accepted and its command has not ended. -/
  | running
  /-- The reset sequence runs (R168). -/
  | resetting
  deriving DecidableEq, Repr

/-- CFG, field by field (R30); the reserved bits read 0 and are not stored. -/
structure Cfg where
  bw : BitVec 2
  nch : BitVec 3
  packed : Bool
  mode : BitVec 4
  deriving DecidableEq, Repr

/-- TAB_ADDR (R37). -/
structure TabAddr where
  index : BitVec 12
  ch : BitVec 2
  table : BitVec 2
  deriving DecidableEq, Repr

/-- The bit packer: PK_PTR, PK_ACC, PK_FILL (R45). -/
structure Packer where
  ptr : Word
  acc : Byte
  fill : BitVec 3
  deriving DecidableEq, Repr

/-- The bit reader: RD_PTR, RD_BIT, RD_BUF (R46). -/
structure Reader where
  ptr : Word
  bit : BitVec 3
  buf : Byte
  deriving DecidableEq, Repr

/-- A stored merge node (R42). -/
structure Node where
  left : BitVec 16
  right : BitVec 16
  deriving DecidableEq, Repr

/-- A code table entry (R44). -/
structure CodeEntry where
  valid : Bool
  len : BitVec 7
  bits : BitVec 64
  deriving DecidableEq, Repr

/-- One register per channel (R43). -/
structure Quad (α : Type) where
  c0 : α
  c1 : α
  c2 : α
  c3 : α
  deriving DecidableEq, Repr

/-- The bytes `lo ≤ a < hi` of external memory hold unspecified values (R67), fixed by draw number `draw`. -/
structure Span where
  lo : Nat
  hi : Nat
  draw : Nat
  deriving DecidableEq, Repr

/-- External memory (R50): the bytes whose value is known and not what an unlisted address reads as, the spans whose
bytes R67 leaves unspecified, and, by address, the bytes that EmitByte wrote for PK_BITS, PK_FLUSH, ENC_SYM or HDR_WRITE
and nothing has written since, which R67 and I6 except (log 26). -/
structure Memory where
  cells : List Host.Cell
  loose : List Span
  emitted : List (Nat × Bool)
  deriving DecidableEq, Repr

/-- What a HIST_SCAN found in its input region `lo ≤ a < hi`: the MODEL's record for the host duty R66 (c) (log 11). -/
structure ScanMark where
  lo : Nat
  hi : Nat
  found : Memory
  deriving DecidableEq, Repr

/-- Kind of an external access, the second argument of MEM_OK (R8). -/
inductive AccessKind where
  | read
  | write
  deriving DecidableEq, Repr

/-- Addresses `lo ≤ a < hi` at which the platform's MEM_OK is false for accesses of kind `kind` (R8, R15; log 6). -/
structure Deny where
  kind : AccessKind
  lo : Nat
  hi : Nat
  deriving DecidableEq, Repr

/-- The state of the machine. Every field of INVENTORY.md's '## State'. -/
structure State where
  phase : Phase
  done : Bool
  err : Bool
  ovr : Bool
  errCode : Byte
  irqEn : Bool
  cmd : Word
  cfg : Cfg
  width : BitVec 16
  height : BitVec 16
  inAddr : Word
  inLen : Word
  outAddr : Word
  outCap : Word
  outSize : Word
  errInfo : Word
  argLo : Word
  argHi : Word
  argLen : BitVec 7
  resLo : Word
  resHi : Word
  pk : Packer
  rd : Reader
  tab : TabAddr
  /-- HIST: the nonzero counters, by key `c * 4096 + s` (R41). -/
  hist : List (Nat × Word)
  /-- TREE: the nodes other than (0, 0), by key `c * 4096 + i` (R42). -/
  tree : List (Nat × Node)
  /-- CODE: the entries other than (0, 0, 0), by key `c * 4096 + s` (R44). -/
  code : List (Nat × CodeEntry)
  ncount : Quad Word
  root : Quad Word
  prev : Quad (BitVec 12)
  acc : Quad (BitVec 12)
  mem : Memory
  /-- The model's own: the platform's MEM_OK (log 6). -/
  deny : List Deny
  /-- The model's own: the HIST_SCANs whose PACK_SCAN has not come yet (log 11). -/
  scans : List ScanMark
  /-- The model's own: free values drawn so far (log 14). -/
  draws : Nat
  /-- The model's own: the host's actions still to come (log 1, 2). -/
  script : List HostAction
  /-- The model's own: the data of the host's last read (log 18). -/
  hostData : Word
  deriving DecidableEq, Repr

/-- Reasons the machine stops. An error of a command is no fault: it is an error stop, a next state (R158). -/
inductive Fault where
  /-- Raised by a HOST read or write of external memory at an address the platform says does not exist (R51, log 7).
  Safe: the machine stops where the platform's answer to the host is not given. -/
  | hostAddress (a : Word)
  deriving DecidableEq, Repr

/-- Reasons the model gives no meaning. -/
inductive Refusal where
  /-- Raised by `exec` for a command with no meaning yet. Safe. -/
  | notModelled (mnemonic : String)
  /-- Raised by a host register access that is not 32 bits wide or not 4-byte aligned (R24, I3). Safe. -/
  | registerAccess (size : AccessSize) (off : BitVec 12)
  /-- Raised when, while BUSY is 1, the host writes a byte of a region of the running command or reads its output
  region (R66 (a), R65, I5). Safe. -/
  | dutyRegionWhileBusy (a : Word)
  /-- Raised by a scan or frame command whose input and output regions overlap, and by a reset that would abort one (R66
  (b), R65, I5; log 9). Safe. -/
  | dutyRegionsOverlap
  /-- Raised by PACK_SCAN when bytes of its input region have changed since the HIST_SCAN of the same encode read them,
  and by a reset that would abort it then (R66 (c), R65, I5; log 11). Safe. -/
  | dutyInputChanged
  deriving DecidableEq, Repr

/-- A quad with the same value for every channel. -/
def Quad.all {α : Type} (v : α) : Quad α := ⟨v, v, v, v⟩

/-- The machine right after reset (R25, R49). External memory lists nothing; the model's own fields are empty
(log 3, 6, 11, 14, 18). -/
def State.reset : State where
  phase := .idle
  done := false
  err := false
  ovr := false
  errCode := 0
  irqEn := false
  cmd := 0
  cfg := ⟨0, 1, false, 0⟩
  width := 0
  height := 0
  inAddr := 0
  inLen := 0
  outAddr := 0
  outCap := 0
  outSize := 0
  errInfo := 0
  argLo := 0
  argHi := 0
  argLen := 0
  resLo := 0
  resHi := 0
  pk := ⟨0, 0, 0⟩
  rd := ⟨0, 0, 0⟩
  tab := ⟨0, 0, 0⟩
  hist := []
  tree := []
  code := []
  ncount := .all 0
  root := .all 0
  prev := .all 0
  acc := .all 0
  mem := ⟨[], [], []⟩
  deny := []
  scans := []
  draws := 0
  script := []
  hostData := 0

end Sys2Proof.Machine
end

