-- ==== Sys2Proof/Machine/Flags.lean ====
section
/-! DEFINITION. STATUS and CTRL (R27, R28, R40), the error codes (R152), the interrupt (R159), and what the start, the
completion and the error stop of a command do to them (R156 to R158). -/

namespace Sys2Proof.Machine

/-- The errors of R152. -/
inductive ErrCode where
  | badCmd
  | badCfg
  | badArg
  | sizeMismatch
  | outOverflow
  | hdrTrunc
  | badCount
  | badRef
  | bitUnderrun
  | codeOverflow
  | noCode
  | badState
  | busError
  deriving DecidableEq, Repr

/-- The code STATUS.ERRCODE takes (R152). -/
def ErrCode.code : ErrCode → Byte
  | .badCmd => 0x01
  | .badCfg => 0x02
  | .badArg => 0x03
  | .sizeMismatch => 0x04
  | .outOverflow => 0x05
  | .hdrTrunc => 0x06
  | .badCount => 0x07
  | .badRef => 0x08
  | .bitUnderrun => 0x09
  | .codeOverflow => 0x0A
  | .noCode => 0x0B
  | .badState => 0x0C
  | .busError => 0x0D

/-- STATUS.BUSY (R28). -/
def State.busy (s : State) : Bool := s.phase != .idle

/-- The word STATUS reads: BUSY, DONE, ERR, OVR in bits 0 to 3, ERRCODE in bits 15:8 (R28). -/
def State.statusWord (s : State) : Word :=
  BitVec.ofNat 32 (s.busy.toNat + 2 * s.done.toNat + 4 * s.err.toNat + 8 * s.ovr.toNat + 256 * s.errCode.toNat)

/-- The word CTRL reads: SRST reads 0 (R27). -/
def State.ctrlWord (s : State) : Word := BitVec.ofNat 32 (2 * s.irqEn.toNat)

/-- The interrupt output `irq` (R159). -/
def State.irq (s : State) : Bool := s.irqEn && s.done

/-- A host write of STATUS: write 1 to clear DONE, ERR, OVR; BUSY and ERRCODE do not change (R28). -/
def State.clearStatus (v : Word) (s : State) : State :=
  { s with
    done := s.done && !v.getLsbD 1
    err := s.err && !v.getLsbD 2
    ovr := s.ovr && !v.getLsbD 3 }

/-- Step 1 of an accepted CMD write: OVR is kept (R156). -/
def State.start (w : Word) (s : State) : State :=
  { s with cmd := w, phase := .running, done := false, err := false, errCode := 0, errInfo := 0 }

/-- Completion (R157): ERR and ERRCODE stay as the start left them. -/
def State.finish (s : State) : State := { s with phase := .idle, done := true }

/-- The error stop, this hardware's trap entry (R158). -/
def State.stop (e : ErrCode) (info : Word) (s : State) : State :=
  { s with errCode := e.code, errInfo := info, err := true, done := true, phase := .idle }

/-- A dropped CMD write (R29). -/
def State.dropCmd (s : State) : State := { s with ovr := true }

end Sys2Proof.Machine
end

