-- ==== Sys2Proof/Config.lean ====
section
/-! DEFINITION. What this hardware fixes (00_scope.md R8) and the free values the spec leaves open. -/

namespace Sys2Proof.Config

/-- IDENT, the constant ID reads (R8, R26). -/
def ident : Word := 0x5A4F4507

/-- LEAF_LIMIT: a child reference below it is a symbol (R8, R42). -/
def leafLimit : Nat := 0x8000

/-- MAX_CODE_LEN (R8, R106). -/
def maxCodeLen : Nat := 64

/-- A_MAX: entries of HIST and CODE per channel (R8, R41, R44). -/
def symbols : Nat := 4096

/-- NODES_MAX: entries of TREE per channel (R8, R42). -/
def nodes : Nat := 4095

/-- Size of external memory in bytes (R50). -/
def memSize : Nat := 2 ^ 32

/-- FREE VALUE: the byte at an address of an output region that R67 leaves unspecified, by draw and
address (93_implementation_defined.md I6; log 4). -/
opaque freeByte : Nat → Nat → Byte

/-- FREE VALUE: what a register read returns while BUSY is 1, by draw (R39, I4; log 14). -/
opaque freeWord : Nat → Word

/-- FREE VALUE: how far a command had got when a reset aborted it, by draw (R168; log 5). -/
opaque freeCount : Nat → Nat

end Sys2Proof.Config
end

