-- ==== Sys2Proof/Machine/Sparse.lean ====
section
/-! DEFINITION. Sparse tables: a list of (key, value) pairs with keys strictly rising and no entry equal to the value an
unlisted key has. External memory and the internal tables are held this way. -/

namespace Sys2Proof.Machine.Sparse

/-- The value at key `k`; `d` is what an unlisted key has. -/
def get {β : Type} (d : β) : List (Nat × β) → Nat → β
  | [], _ => d
  | (k', v) :: t, k => if k < k' then d else if k = k' then v else get d t k

/-- `v` put in front, unless it is what an unlisted key has. -/
def consUnless {β : Type} [DecidableEq β] (d : β) (k : Nat) (v : β) (t : List (Nat × β)) : List (Nat × β) :=
  if v = d then t else (k, v) :: t

/-- The table with value `v` at key `k`. -/
def put {β : Type} [DecidableEq β] (d : β) : List (Nat × β) → Nat → β → List (Nat × β)
  | [], k, v => consUnless d k v []
  | (k', v') :: t, k, v =>
    if k < k' then consUnless d k v ((k', v') :: t)
    else if k = k' then consUnless d k v t
    else (k', v') :: put d t k v

/-- The canonical form: keys strictly rising, no entry equal to `d`. -/
abbrev wf {β : Type} [DecidableEq β] (d : β) (t : List (Nat × β)) : Prop :=
  t.Pairwise (fun e f => e.1 < f.1) ∧ ∀ e ∈ t, e.2 ≠ d

end Sys2Proof.Machine.Sparse
end

