-- ==== Sys2Proof/Machine/Memory.lean ====
section
/-! DEFINITION. External memory (20_memory.md R50, R59, R67): reading and writing one byte, leaving a range of bytes
unspecified, and which bytes EmitByte wrote. -/

namespace Sys2Proof.Machine

/-- What a byte nobody has written reads as: the spec gives no power-up contents (DESIGN CHOICE, log 3). -/
def Memory.unlisted : Byte := 0

/-- The span covers address `a`. -/
def Span.covers (p : Span) (a : Nat) : Bool := decide (p.lo ≤ a ∧ a < p.hi)

/-- The byte at address `a`: a free value where R67 leaves it unspecified. -/
def Memory.read (m : Memory) (a : Nat) : Byte :=
  match m.loose.find? (·.covers a) with
  | some p => Config.freeByte p.draw a
  | none => Sparse.get Memory.unlisted m.cells a

/-- A span, unless it is empty. -/
def Span.make (lo hi draw : Nat) : List Span := if lo < hi then [⟨lo, hi, draw⟩] else []

/-- What is left of a span without the addresses `lo ≤ a < hi`. -/
def Span.cut (lo hi : Nat) (p : Span) : List Span :=
  Span.make p.lo (min p.hi lo) p.draw ++ Span.make (max p.lo hi) p.hi p.draw

/-- The spans without the addresses `lo ≤ a < hi`. -/
def Memory.cutLoose (lo hi : Nat) (l : List Span) : List Span := l.flatMap (Span.cut lo hi)

/-- A span put into its place in a rising list of spans that do not meet it. -/
def Memory.insertLoose (q : Span) : List Span → List Span
  | [] => [q]
  | p :: t => if p.hi ≤ q.lo then p :: insertLoose q t else q :: p :: t

/-- The memory with byte `v` at address `a` (R59). A write of an unspecified byte makes it known. -/
def Memory.write (m : Memory) (a : Nat) (v : Byte) : Memory where
  cells := Sparse.put Memory.unlisted m.cells a v
  loose := if m.loose.any (·.covers a) then Memory.cutLoose a (a + 1) m.loose else m.loose
  emitted := Sparse.put false m.emitted a false

/-- The byte at address `a` is one that EmitByte wrote for PK_BITS, PK_FLUSH, ENC_SYM or HDR_WRITE, this command or an
earlier one, and nothing has written since (R67, R113; 93_implementation_defined.md I6; log 26). -/
def Memory.isEmitted (m : Memory) (a : Nat) : Bool := Sparse.get false m.emitted a

/-- The byte at address `a` has been written by EmitByte for one of those commands. -/
def Memory.mark (m : Memory) (a : Nat) : Memory := { m with emitted := Sparse.put false m.emitted a true }

/-- So have the `n` bytes from address `a` on. -/
def Memory.markRun (m : Memory) (a : Nat) : Nat → Memory
  | 0 => m
  | n + 1 => (m.markRun a n).mark (a + n)

/-- The memory after EmitByte has written `v` at address `a` for one of those commands (R113). -/
def Memory.emit (m : Memory) (a : Nat) (v : Byte) : Memory := (m.write a v).mark a

/-- The memory with the bytes `lo ≤ a < hi` unspecified, fixed by draw `n` (R67). -/
def Memory.loosen (m : Memory) (lo hi n : Nat) : Memory :=
  if lo < hi then
    { cells := m.cells.filter (fun e => !decide (lo ≤ e.1 ∧ e.1 < hi))
      loose := Memory.insertLoose ⟨lo, hi, n⟩ (Memory.cutLoose lo hi m.loose)
      emitted := m.emitted.filter (fun e => !decide (lo ≤ e.1 ∧ e.1 < hi)) }
  else m

/-- `m` with the listed bytes as they are in `source`, where EmitByte wrote them. -/
def Memory.keepEmitted (source : Memory) : List (Nat × Bool) → Memory → Memory
  | [], m => m
  | e :: t, m => (source.keepEmitted t m).emit e.1 (source.read e.1)

/-- The memory with the bytes `lo ≤ a < hi` unspecified, fixed by draw `n`, but for those EmitByte wrote (R67; I6, D31). -/
def Memory.loosenUnwritten (m : Memory) (lo hi n : Nat) : Memory :=
  m.keepEmitted (m.emitted.filter (fun e => decide (lo ≤ e.1 ∧ e.1 < hi))) (m.loosen lo hi n)

/-- `m` with the `n` bytes from address `a` on as EmitByte wrote them in `source`. -/
def Memory.emitFrom (source : Memory) (a : Nat) : Nat → Memory → Memory
  | 0, m => m
  | n + 1, m => (source.emitFrom a n m).emit (a + n) (source.read (a + n))

/-- What of a span lies in `lo ≤ a < hi`. -/
def Span.clip (lo hi : Nat) (p : Span) : List Span := Span.make (max p.lo lo) (min p.hi hi) p.draw

/-- The bytes at the addresses `lo ≤ a < hi`, as data. -/
def Memory.window (m : Memory) (lo hi : Nat) : Memory where
  cells := m.cells.filter (fun e => decide (lo ≤ e.1 ∧ e.1 < hi))
  loose := m.loose.flatMap (Span.clip lo hi)
  emitted := []

/-- Two spans in order: the first ends before the second begins, or they touch under different draws. -/
def Span.before (p q : Span) : Prop := p.hi < q.lo ∨ p.hi = q.lo ∧ p.draw ≠ q.draw

/-- The canonical form: cells rising, none equal to what an unlisted address reads as, all inside the address space and
outside the spans; spans not empty, inside the address space and in order; the bytes EmitByte wrote likewise rising, inside
the address space and outside the spans. Equal memories are equal data. -/
structure Memory.wf (m : Memory) : Prop where
  cells : Sparse.wf Memory.unlisted m.cells
  inSpace : ∀ e ∈ m.cells, e.1 < Config.memSize
  apart : ∀ e ∈ m.cells, ∀ p ∈ m.loose, p.covers e.1 = false
  spans : ∀ p ∈ m.loose, p.lo < p.hi ∧ p.hi ≤ Config.memSize
  order : m.loose.Pairwise Span.before
  emitted : Sparse.wf false m.emitted
  written : ∀ e ∈ m.emitted, e.1 < Config.memSize ∧ ∀ p ∈ m.loose, p.covers e.1 = false

end Sys2Proof.Machine
end

