-- ==== Sys2Proof/Machine/Operands.lean ====
section
/-! DEFINITION. The configuration as the rules name it (bw, A, M, NCH, mode), the operands of the unit commands (R75), and
the per-channel tables and registers (R14, R41 to R44). -/

namespace Sys2Proof.Machine

/-! ### Per-channel registers -/

/-- The register of channel `c`. -/
def Quad.get {α : Type} (q : Quad α) (c : Ch) : α :=
  match c with
  | 0 => q.c0
  | 1 => q.c1
  | 2 => q.c2
  | 3 => q.c3

/-- The quad with `v` for channel `c`. -/
def Quad.set {α : Type} (q : Quad α) (c : Ch) (v : α) : Quad α :=
  match c with
  | 0 => { q with c0 := v }
  | 1 => { q with c1 := v }
  | 2 => { q with c2 := v }
  | 3 => { q with c3 := v }

/-- Channels 0 .. n - 1, in ascending order. -/
def channels (n : Nat) : List Ch := ([0, 1, 2, 3] : List Ch).take n

/-! ### Configuration -/

/-- bw: 8, 10 or 12 for BW = 0, 1, 2 (R30). BW = 3 is refused by CheckCfg before any use (log 20). -/
def State.bw (s : State) : Nat :=
  match s.cfg.bw.toNat with
  | 0 => 8
  | 1 => 10
  | _ => 12

/-- A = 2^bw, the alphabet size (R9). -/
def State.alpha (s : State) : Nat := 2 ^ s.bw

/-- NCH, the channel count (R30). -/
def State.nch (s : State) : Nat := s.cfg.nch.toNat

/-- The output modes of R82. -/
inductive OutMode where
  | ident
  | identPacked
  | narrow8
  | grayRgb24
  | grayRgb32
  | grayYuyv8
  | grayYuyv16
  | uyvyRgb24
  | uyvyRgb32
  | rgb24Rgb32
  | rgb24Rgb32Flip
  deriving DecidableEq, Repr

/-- The mode an OUT_MODE value selects; 11 to 15 are reserved (R82). -/
def OutMode.ofField (m : BitVec 4) : Option OutMode :=
  match m.toNat with
  | 0 => some .ident
  | 1 => some .identPacked
  | 2 => some .narrow8
  | 3 => some .grayRgb24
  | 4 => some .grayRgb32
  | 5 => some .grayYuyv8
  | 6 => some .grayYuyv16
  | 7 => some .uyvyRgb24
  | 8 => some .uyvyRgb32
  | 9 => some .rgb24Rgb32
  | 10 => some .rgb24Rgb32Flip
  | _ => none

/-- The output mode. A reserved value is refused by CheckCfg before any use (log 20). -/
def State.outMode (s : State) : OutMode := (OutMode.ofField s.cfg.mode).getD .ident

/-- The mode's needs of NCH and WIDTH (R82, R153). -/
def OutMode.fits (m : OutMode) (nch width : Nat) : Bool :=
  match m with
  | .ident | .identPacked | .narrow8 => true
  | .grayRgb24 | .grayRgb32 | .grayYuyv8 | .grayYuyv16 => nch == 1
  | .uyvyRgb24 | .uyvyRgb32 => nch == 2 && width % 2 == 0
  | .rgb24Rgb32 | .rgb24Rgb32Flip => nch == 3

/-- Rows are written bottom up (R82, R138). -/
def OutMode.flips : OutMode → Bool
  | .grayRgb24 | .grayRgb32 | .uyvyRgb24 | .uyvyRgb32 | .rgb24Rgb32Flip => true
  | .ident | .identPacked | .narrow8 | .grayYuyv8 | .grayYuyv16 | .rgb24Rgb32 => false

/-- u, the bytes of a contiguous storage unit (R80, R81). -/
def State.unit (s : State) : Nat := if s.bw = 8 then 1 else 2

/-- N, the samples of a frame (R10). -/
def State.samples (s : State) : Nat := s.width.toNat * s.height.toNat * s.nch

/-- RawSize, the bytes of a raw frame (R81). -/
def State.rawSize (s : State) : Nat :=
  if s.cfg.packed then (s.samples * s.bw + 7) / 8 else s.samples * s.unit

/-- BPR, the bytes a mode writes per row (R82); IDENT_PACKED has no row boundary. -/
def State.bytesPerRow (s : State) : Nat :=
  match s.outMode with
  | .ident => s.width.toNat * s.nch * s.unit
  | .identPacked => 0
  | .narrow8 => s.width.toNat * s.nch
  | .grayRgb24 => 3 * s.width.toNat
  | .grayRgb32 => 4 * s.width.toNat
  | .grayYuyv8 => 2 * s.width.toNat
  | .grayYuyv16 => 4 * s.width.toNat
  | .uyvyRgb24 => 3 * s.width.toNat
  | .uyvyRgb32 => 4 * s.width.toNat
  | .rgb24Rgb32 => 4 * s.width.toNat
  | .rgb24Rgb32Flip => 4 * s.width.toNat

/-- OutSize, the bytes a decode writes (R83). -/
def State.outBytes (s : State) : Nat :=
  if s.outMode = .identPacked then (s.samples * s.bw + 7) / 8 else s.height.toNat * s.bytesPerRow

/-! ### Operands of the unit commands (R75) -/

/-- ARG, 64 bits unsigned (R35, R75). -/
def State.arg (s : State) : BitVec 64 := s.argHi ++ s.argLo

/-- The count operand n = ARG_LEN[6:0] (R75). -/
def State.count (s : State) : Nat := s.argLen.toNat

/-- The sample, delta and SCALE operand ARG & M (R75). -/
def State.maskedArg (s : State) : Nat := s.arg.toNat % s.alpha

/-- Byte `i` of ARG, the CSC operands (R75). -/
def State.argByte (s : State) (i : Nat) : Nat := s.arg.toNat / 2 ^ (8 * i) % 256

/-- RESULT <- v (R36). -/
def State.setResult (s : State) (v : BitVec 64) : State :=
  { s with resLo := v.extractLsb' 0 32, resHi := v.extractLsb' 32 32 }

/-! ### Internal tables (R41, R42, R44) -/

/-- Key of entry `i` of channel `c`. -/
def tableKey (c : Ch) (i : Nat) : Nat := c.val * Config.symbols + i

/-- An unwritten node (R49). -/
def Node.zero : Node := ⟨0, 0⟩

/-- An invalid code entry (R49). -/
def CodeEntry.none : CodeEntry := ⟨false, 0, 0⟩

/-- HIST[c][sym]. -/
def State.histAt (s : State) (c : Ch) (sym : Nat) : Word := Sparse.get 0 s.hist (tableKey c sym)

/-- TREE[c][i]. -/
def State.nodeAt (s : State) (c : Ch) (i : Nat) : Node := Sparse.get Node.zero s.tree (tableKey c i)

/-- CODE[c][sym]. -/
def State.codeAt (s : State) (c : Ch) (sym : Nat) : CodeEntry := Sparse.get CodeEntry.none s.code (tableKey c sym)

/-- HIST[c][sym] <- v. -/
def State.setHist (s : State) (c : Ch) (sym : Nat) (v : Word) : State :=
  { s with hist := Sparse.put 0 s.hist (tableKey c sym) v }

/-- TREE[c][i] <- n. -/
def State.setNode (s : State) (c : Ch) (i : Nat) (n : Node) : State :=
  { s with tree := Sparse.put Node.zero s.tree (tableKey c i) n }

/-- CODE[c][sym] <- e. -/
def State.setCode (s : State) (c : Ch) (sym : Nat) (e : CodeEntry) : State :=
  { s with code := Sparse.put CodeEntry.none s.code (tableKey c sym) e }

/-- CODE[c][s] <- (0, 0, 0) for every s of channel `c` (R106). -/
def State.clearCodes (s : State) (c : Ch) : State :=
  { s with code := s.code.filter (fun e => e.1 / Config.symbols != c.val) }

end Sys2Proof.Machine
end

