-- ==== Sys2Proof/Machine/Ops.lean ====
section
/-! DEFINITION. The operations every command is written over: the command monad, `raise` and the error stop (R16, R158),
the format and range checks (R52, R153), the memory port (R15), ValidateTree (R109), loops, and reset (R168). -/

namespace Sys2Proof.Machine

/-- How the pseudocode of a command ends early. -/
inductive Stop where
  /-- `raise E(info)` (R16). -/
  | raise (e : ErrCode) (info : Word)
  /-- A host duty is broken: the model has no meaning for the run (R65). -/
  | refuse (r : Refusal)
  deriving DecidableEq, Repr

/-- The pseudocode of a command: it changes the state, and an early end keeps what the steps before it wrote (R158). -/
abbrev Cmd (α : Type) := EStateM Stop State α

/-- `raise E(info)`. -/
def raise {α : Type} (e : ErrCode) (info : Word) : Cmd α := throw (.raise e info)

/-- `if p fails: raise E(info)`. -/
def require (p : Bool) (e : ErrCode) (info : Word) : Cmd Unit := if p then pure () else raise e info

/-! ### Loops -/

/-- `for k in i .. i + n - 1: f k`. -/
def forUp : (n i : Nat) → (Nat → Cmd Unit) → Cmd Unit
  | 0, _, _ => pure ()
  | n + 1, i, f => do
    f i
    forUp n (i + 1) f

/-- `for x in l: f x`. -/
def forEach {α : Type} : List α → (α → Cmd Unit) → Cmd Unit
  | [], _ => pure ()
  | x :: t, f => do
    f x
    forEach t f

/-! ### How a command ends -/

/-- The end of the output region, inside the address space (R50). -/
def State.outTop (s : State) : Nat := min (s.outAddr.toNat + s.outCap.toNat) Config.memSize

/-- The bytes of the output region become unspecified (R67). -/
def State.loosenOut (s : State) : State :=
  { s with mem := s.mem.loosen s.outAddr.toNat s.outTop s.draws, draws := s.draws + 1 }

/-- The bytes of the output region that are not marked as EmitByte's become unspecified (R67; 93_implementation_defined.md I6,
92_eei_decisions.md D31). -/
def State.loosenUnwritten (s : State) : State :=
  { s with mem := s.mem.loosenUnwritten s.outAddr.toNat s.outTop s.draws, draws := s.draws + 1 }

/-- A command: completion (R157), or the error stop (R158) with what `leave` makes of external memory (R67). -/
def commandWith (leave : ErrCode → State → State) (m : Cmd Unit) (s : State) : Host.Outcome State Fault Refusal :=
  match m s with
  | .ok _ t => .next t.finish
  | .error (.raise e info) t => .next ((leave e t).stop e info)
  | .error (.refuse r) _ => .refused r

/-- A command that writes no output region. -/
def command (m : Cmd Unit) (s : State) : Host.Outcome State Fault Refusal := commandWith (fun _ t => t) m s

/-- PACK_SCAN, DEC_SCAN, ENC_FRAME, DEC_FRAME, PASSTHRU: an error stop leaves the output region unspecified (R67; log 4). -/
def commandLoose (m : Cmd Unit) (s : State) : Host.Outcome State Fault Refusal :=
  commandWith (fun _ t => t.loosenOut) m s

/-- The bytes that PK_PTR moved over from `s` to `t` are marked: those EmitByte wrote from `s` to `t` (R113). -/
def State.markSince (s t : State) : State :=
  { t with mem := t.mem.markRun (s.outAddr.toNat + s.pk.ptr.toNat) (t.pk.ptr.toNat - s.pk.ptr.toNat) }

/-- `m`, a pseudocode of PK_BITS, PK_FLUSH, ENC_SYM or HDR_WRITE: the bytes EmitByte wrote for it, to its end or its error,
are marked. For no other command are they (I6, D31; log 26). -/
def marking (m : Cmd Unit) : Cmd Unit := fun s =>
  match m s with
  | .ok _ t => .ok () (s.markSince t)
  | .error e t => .error e (s.markSince t)

/-- PK_BITS, PK_FLUSH, ENC_SYM: an error stop leaves the bytes EmitByte wrote for these commands and HDR_WRITE, and the rest
of the output region unspecified (R67, I6; log 4, 26). -/
def commandEmit (m : Cmd Unit) (s : State) : Host.Outcome State Fault Refusal :=
  commandWith (fun _ t => t.loosenUnwritten) (marking m) s

/-- What an error stop of HDR_WRITE leaves in external memory: as for the other commands that emit, but its rule says
that nothing is written where the packer holds a partial byte or a tree fails ValidateTree (R110, R67). -/
def State.headersLeft (e : ErrCode) (s : State) : State :=
  if e = .badState ∨ e = .badCount ∨ e = .badRef then s else s.loosenUnwritten

/-! ### Checks -/

/-- The checks of CheckCfg that every command but NOP makes (R153). -/
def State.cfgOk (s : State) : Bool := s.cfg.bw != 3 && decide (1 ≤ s.nch) && decide (s.nch ≤ 4)

/-- The output-mode checks of CheckCfg, for DEC_SCAN and DEC_FRAME (R153). -/
def State.modeOk (s : State) : Bool :=
  match OutMode.ofField s.cfg.mode with
  | none => false
  | some m => m.fits s.nch s.width.toNat

/-- CheckCfg() (R153). -/
def checkCfg : Cmd Unit := do
  let s ← get
  require s.cfgOk .badCfg 0

/-- CheckCfg() of DEC_SCAN and DEC_FRAME (R153). -/
def checkCfgDecode : Cmd Unit := do
  checkCfg
  let s ← get
  require s.modeOk .badCfg 0

/-- The input region does not wrap (R52). -/
def State.inFits (s : State) : Bool := decide (s.inAddr.toNat + s.inLen.toNat ≤ Config.memSize)

/-- The output region does not wrap (R52). -/
def State.outFits (s : State) : Bool := decide (s.outAddr.toNat + s.outCap.toNat ≤ Config.memSize)

/-- CheckRanges(in) (R52). -/
def checkIn : Cmd Unit := do
  let s ← get
  require s.inFits .badCfg 0

/-- CheckRanges(out) (R52). -/
def checkOut : Cmd Unit := do
  let s ← get
  require s.outFits .badCfg 0

/-- `if IN_LEN < RawSize: raise SIZE_MISMATCH(RawSize mod 2^32)` (R94, R122, R145). -/
def checkRaw : Cmd Unit := do
  let s ← get
  require (decide (s.rawSize ≤ s.inLen.toNat)) .sizeMismatch (BitVec.ofNat 32 s.rawSize)

/-- The input and output regions have a byte in common. -/
def State.regionsOverlap (s : State) : Bool :=
  decide (max s.inAddr.toNat s.outAddr.toNat
    < min (s.inAddr.toNat + s.inLen.toNat) (s.outAddr.toNat + s.outCap.toNat))

/-- The first address past the input region. -/
def State.inEnd (s : State) : Nat := s.inAddr.toNat + s.inLen.toNat

/-- The region of the scan and the addresses `lo ≤ a < hi` have a byte in common. -/
def ScanMark.meets (m : ScanMark) (lo hi : Nat) : Bool := decide (max m.lo lo < min m.hi hi)

/-- Of the bytes at `lo ≤ a < hi` the scan read, some are not now what it found. -/
def ScanMark.changed (m : ScanMark) (now : Memory) (lo hi : Nat) : Bool :=
  m.meets lo hi && m.found.window (max m.lo lo) (min m.hi hi) != now.window (max m.lo lo) (min m.hi hi)

/-- Bytes of the input region have changed since a HIST_SCAN whose PACK_SCAN has not come yet (R66 (c); log 11). -/
def State.inputChanged (s : State) : Bool := s.scans.any fun m => m.changed s.mem s.inAddr.toNat s.inEnd

/-- The host duty that a run of command `i` breaks, if any: R66 (b), and for PACK_SCAN R66 (c). -/
def State.brokenDuty (s : State) (i : Instr) : Option Refusal :=
  match i with
  | .packScan =>
    if s.regionsOverlap then some .dutyRegionsOverlap else if s.inputChanged then some .dutyInputChanged else none
  | .histScan | .encFrame | .decScan | .decFrame | .passthru =>
    if s.regionsOverlap then some .dutyRegionsOverlap else none
  | .nop | .histClear | .histAdd _ | .treeBuild _ | .codeGen _ | .hdrWrite | .hdrRead | .pkInit | .pkBits | .pkFlush
  | .encSym _ | .rdInit | .rdBits | .decSym _ | .predReset | .predFwd _ | .predInv _ | .csc | .scale => none

/-- The host duties of command `i`: a precondition of its run, before its first check (R65; log 9, 11). -/
def duties (i : Instr) : Cmd Unit := do
  let s ← get
  match s.brokenDuty i with
  | none => pure ()
  | some r => throw (.refuse r)

/-- The scans of other input regions than this one. -/
def State.otherScans (s : State) : List ScanMark := s.scans.filter fun m => !m.meets s.inAddr.toNat s.inEnd

/-- A HIST_SCAN of the input region has completed (log 11). -/
def State.openScan (s : State) : State :=
  { s with
    scans :=
      if s.inLen = 0 then s.otherScans
      else ⟨s.inAddr.toNat, s.inEnd, s.mem.window s.inAddr.toNat s.inEnd⟩ :: s.otherScans }

/-- A PACK_SCAN of the input region has completed, and with it the encode (log 11). -/
def State.closeScan (s : State) : State := { s with scans := s.otherScans }

/-- ENC_FRAME has begun an encode of its own (log 11). -/
def State.forgetScans (s : State) : State := { s with scans := [] }

/-! ### The memory port (R15, R61) -/

/-- MEM_OK(addr, kind) (R8; log 6). -/
def State.memOk (s : State) (k : AccessKind) (a : Nat) : Bool :=
  !s.deny.any (fun d => d.kind == k && decide (d.lo ≤ a) && decide (a < d.hi))

/-- MemRead(addr, 1) (R15). -/
def memRead (a : Nat) : Cmd Byte := do
  let s ← get
  if s.memOk .read a then pure (s.mem.read a) else raise .busError (BitVec.ofNat 32 a)

/-- MemWrite(addr, 1, v) (R15). -/
def memWrite (a : Nat) (v : Byte) : Cmd Unit := do
  let s ← get
  if s.memOk .write a then set { s with mem := s.mem.write a v } else raise .busError (BitVec.ofNat 32 a)

/-! ### ValidateTree (R109) -/

/-- A child reference is a symbol below A or a node below the node count. -/
def refOk (alpha nc : Nat) (r : BitVec 16) : Bool :=
  if r.toNat < Config.leafLimit then decide (r.toNat < alpha) else decide (r.toNat - Config.leafLimit < nc)

/-- Every node below the node count has legal references. -/
def State.refsOk (s : State) (c : Ch) : Bool :=
  (List.range (s.ncount.get c).toNat).all fun i =>
    refOk s.alpha (s.ncount.get c).toNat (s.nodeAt c i).left && refOk s.alpha (s.ncount.get c).toNat (s.nodeAt c i).right

/-- The error ValidateTree(c) raises, if any; its ERR_INFO is the channel. -/
def State.treeFault (s : State) (c : Ch) : Option ErrCode :=
  if s.alpha - 1 < (s.ncount.get c).toNat then some .badCount
  else if (s.ncount.get c).toNat = 0 then
    if s.alpha ≤ (s.root.get c).toNat then some .badRef else none
  else if (s.ncount.get c).toNat ≤ (s.root.get c).toNat then some .badRef
  else if s.refsOk c then none else some .badRef

/-- ERR_INFO of a channel error: the channel in [1:0] (R152). -/
def chanInfo (c : Ch) : Word := BitVec.ofNat 32 c.val

/-- ValidateTree(c) (R109). -/
def validateTree (c : Ch) : Cmd Unit := do
  let s ← get
  match s.treeFault c with
  | none => pure ()
  | some e => raise e (chanInfo c)

/-! ### Bits and numbers -/

/-- The integer difference `(a - b) mod A` (R12, R87). -/
def subMod (a b n : Nat) : Nat := (((a : Int) - (b : Int)) % (n : Int)).toNat

/-- PREV[c] <- v. -/
def State.setPrev (s : State) (c : Ch) (v : Nat) : State := { s with prev := s.prev.set c (BitVec.ofNat 12 v) }

/-- ACC[c] <- v. -/
def State.setAcc (s : State) (c : Ch) (v : Nat) : State := { s with acc := s.acc.set c (BitVec.ofNat 12 v) }

/-! ### Reset (R168) -/

/-- The reset state with external memory and the model's own fields kept. -/
def State.cleared (s : State) : State :=
  { State.reset with
    mem := s.mem
    deny := s.deny
    draws := s.draws
    script := s.script
    hostData := s.hostData }

end Sys2Proof.Machine
end

