-- ==== Sys2Proof/Machine/Predict.lean ====
section
/-! DEFINITION. The sample source and the left-neighbor predictor (40_sample_predict.md): Sample, RowScan, and the commands
PRED_RESET, PRED_FWD, PRED_INV. -/

namespace Sys2Proof.Machine

/-- Bit `7 - (j mod 8)` of a byte: stream bit j of R56. -/
def streamBit (b : Byte) (j : Nat) : Bool := b.getLsbD (7 - j % 8)

/-- `n` bits of the input region from stream bit `j` on, appended to `v` (R85). -/
def packedBits : (n j v : Nat) → Cmd Nat
  | 0, _, v => pure v
  | n + 1, j, v => do
    let s ← get
    let b ← memRead (s.inAddr.toNat + j / 8)
    packedBits n (j + 1) (2 * v + (streamBit b j).toNat)

/-- Sample(k), masked to the low bw bits (R85, R86). -/
def sample (k : Nat) : Cmd Nat := do
  let s ← get
  if s.cfg.packed then
    let v ← packedBits s.bw (k * s.bw) 0
    pure (v % s.alpha)
  else if s.bw = 8 then
    let b ← memRead (s.inAddr.toNat + k)
    pure (b.toNat % s.alpha)
  else
    let lo ← memRead (s.inAddr.toNat + 2 * k)
    let hi ← memRead (s.inAddr.toNat + 2 * k + 1)
    pure ((lo.toNat + 256 * hi.toNat) % s.alpha)

/-- The delta symbol `(s - PREV[c]) mod A` (R87). -/
def State.delta (s : State) (c : Ch) (v : Nat) : Nat := subMod v (s.prev.get c).toNat s.alpha

/-- One sample of RowScan: its delta, PREV[c], and the visit (R88). -/
def scanSample (visit : Nat → Ch → Nat → Cmd Unit) (k : Nat) (c : Ch) : Cmd Unit := do
  let v ← sample k
  let s ← get
  set (s.setPrev c v)
  visit k c (s.delta c v)

/-- One row of RowScan. -/
def scanRow (visit : Nat → Ch → Nat → Cmd Unit) (r : Nat) : Cmd Unit := do
  let s ← get
  forEach (channels s.nch) fun c => modify fun t => t.setPrev c 0
  forUp s.width.toNat 0 fun x =>
    forEach (channels s.nch) fun c =>
      scanSample visit ((r * s.width.toNat + x) * s.nch + c.val) c

/-- RowScan(visit) (R88). -/
def rowScan (visit : Nat → Ch → Nat → Cmd Unit) : Cmd Unit := do
  let s ← get
  forUp s.height.toNat 0 (scanRow visit)

/-- PREV[c] <- 0 and ACC[c] <- 0 for every channel (R89). -/
def State.clearPredictors (s : State) : State := { s with prev := .all 0, acc := .all 0 }

/-- PRED_RESET (R89). -/
def execPredReset (s : State) : Host.Outcome State Fault Refusal :=
  command (do
    checkCfg
    modify State.clearPredictors) s

/-- What PRED_FWD writes: PREV[c] and RESULT (R90). -/
def State.predFwd (s : State) (c : Ch) : State :=
  (s.setPrev c s.maskedArg).setResult (BitVec.ofNat 64 (s.delta c s.maskedArg))

/-- PRED_FWD c (R90). -/
def execPredFwd (c : Ch) (s : State) : Host.Outcome State Fault Refusal :=
  command (do
    checkCfg
    modify fun t => t.predFwd c) s

/-- The accumulator after a delta: `(ACC[c] + d) mod A` (R91, R127). -/
def State.accumulated (s : State) (c : Ch) (d : Nat) : Nat := ((s.acc.get c).toNat + d) % s.alpha

/-- What PRED_INV writes: ACC[c] and RESULT (R91). -/
def State.predInv (s : State) (c : Ch) : State :=
  (s.setAcc c (s.accumulated c s.maskedArg)).setResult (BitVec.ofNat 64 (s.accumulated c s.maskedArg))

/-- PRED_INV c (R91). -/
def execPredInv (c : Ch) (s : State) : Host.Outcome State Fault Refusal :=
  command (do
    checkCfg
    modify fun t => t.predInv c) s

end Sys2Proof.Machine
end

