-- ==== Sys2Proof/Machine/Pack.lean ====
section
/-! DEFINITION. The bit packer, the bit reader and the code emitter (43_bitpack.md): EmitByte, WriteBit, EmitCode, ReadBit,
ReadByte, and the commands PK_INIT, PK_BITS, PK_FLUSH, ENC_SYM, PACK_SCAN, RD_INIT, RD_BITS. -/

namespace Sys2Proof.Machine

/-! ### Packer helpers -/

/-- EmitByte(v) (R113). -/
def emitByte (v : Byte) : Cmd Unit := do
  let s ← get
  require (decide (s.pk.ptr.toNat < s.outCap.toNat)) .outOverflow s.pk.ptr
  memWrite (s.outAddr.toNat + s.pk.ptr.toNat) v
  modify fun t => { t with pk := { t.pk with ptr := t.pk.ptr + 1 } }

/-- PK_ACC <- 0, PK_FILL <- 0. -/
def State.emptyPacker (s : State) : State := { s with pk := { s.pk with acc := 0, fill := 0 } }

/-- (PK_ACC << 1) | b, on 8 bits (R114). -/
def shiftIn (acc : Byte) (b : Bool) : Byte := (acc <<< 1) ||| (BitVec.ofBool b).setWidth 8

/-- WriteBit(b) (R114). -/
def writeBit (b : Bool) : Cmd Unit := do
  let s ← get
  if s.pk.fill = 7 then
    emitByte (shiftIn s.pk.acc b)
    modify State.emptyPacker
  else
    set { s with pk := { s.pk with acc := shiftIn s.pk.acc b, fill := s.pk.fill + 1 } }

/-- `for i from n - 1 down to 0: WriteBit(v[i])` (R115, R119). -/
def writeBits (v : Nat) : Nat → Cmd Unit
  | 0 => pure ()
  | n + 1 => do
    writeBit (v.testBit n)
    writeBits v n

/-- ERR_INFO of NO_CODE: c in [1:0], the symbol in [27:16] (R115, R152). -/
def noCodeInfo (c : Ch) (sym : Nat) : Word := BitVec.ofNat 32 (c.val + sym * 2 ^ 16)

/-- EmitCode(c, s) (R115). -/
def emitCode (c : Ch) (sym : Nat) : Cmd Unit := do
  let s ← get
  require (s.codeAt c sym).valid .noCode (noCodeInfo c sym)
  writeBits (s.codeAt c sym).bits.toNat (s.codeAt c sym).len.toNat

/-- The step of PK_FLUSH and the frame commands that completes a partial byte (R120, R140, R145). -/
def flushPartial : Cmd Unit := do
  let s ← get
  if s.pk.fill.toNat = 0 then pure ()
  else
    emitByte (s.pk.acc <<< (8 - s.pk.fill.toNat))
    modify State.emptyPacker

/-! ### Reader helpers -/

/-- The reader after one bit of its byte is consumed (R116). -/
def Reader.next (r : Reader) : Reader :=
  if r.bit = 7 then { r with bit := 0, ptr := r.ptr + 1 } else { r with bit := r.bit + 1 }

/-- The refill of ReadBit (R116): at a byte boundary the next byte of the input region is loaded into RD_BUF. -/
def refill : Cmd Unit := do
  let s ← get
  if s.rd.bit = 0 then
    require (decide (s.rd.ptr.toNat < s.inLen.toNat)) .bitUnderrun s.rd.ptr
    let v ← memRead (s.inAddr.toNat + s.rd.ptr.toNat)
    set { s with rd := { s.rd with buf := v } }
  else pure ()

/-- ReadBit() (R116). -/
def readBit : Cmd Bool := do
  refill
  let s ← get
  set { s with rd := s.rd.next }
  pure (s.rd.buf.getLsbD (7 - s.rd.bit.toNat))

/-- `n` bits of the input stream appended to `v`, first bit most significant (R124). -/
def readBits : Nat → Nat → Cmd Nat
  | 0, v => pure v
  | n + 1, v => do
    let b ← readBit
    readBits n (2 * v + b.toNat)

/-- ReadByte() (R117). -/
def readByte : Cmd Byte := do
  let s ← get
  require (decide (s.rd.ptr.toNat < s.inLen.toNat)) .hdrTrunc s.rd.ptr
  let v ← memRead (s.inAddr.toNat + s.rd.ptr.toNat)
  set { s with rd := { s.rd with ptr := s.rd.ptr + 1 } }
  pure v

/-! ### Packer commands -/

/-- PK_PTR, PK_ACC, PK_FILL <- 0 (R118). -/
def State.initPacker (s : State) : State := { s with pk := ⟨0, 0, 0⟩ }

/-- PK_INIT (R118). -/
def execPkInit (s : State) : Host.Outcome State Fault Refusal :=
  command (do
    checkCfg
    modify State.initPacker) s

/-- PK_BITS (R119). -/
def execPkBits (s : State) : Host.Outcome State Fault Refusal :=
  commandEmit (do
    checkCfg
    checkOut
    let t ← get
    require (decide (t.count ≤ 64)) .badArg 0
    writeBits t.arg.toNat t.count) s

/-- OUT_SIZE <- PK_PTR (R120, R145). -/
def State.reportPacked (s : State) : State := { s with outSize := s.pk.ptr }

/-- PK_FLUSH (R120). -/
def execPkFlush (s : State) : Host.Outcome State Fault Refusal :=
  commandEmit (do
    checkCfg
    checkOut
    flushPartial
    modify State.reportPacked) s

/-- ENC_SYM c (R121). -/
def execEncSym (c : Ch) (s : State) : Host.Outcome State Fault Refusal :=
  commandEmit (do
    checkCfg
    checkOut
    let t ← get
    require (decide (t.arg.toNat < t.alpha)) .badArg 0
    emitCode c t.arg.toNat) s

/-- The second pass over the frame (R122, R145). -/
def packPass : Cmd Unit := rowScan fun _ c d => emitCode c d

/-- PACK_SCAN (R122). -/
def execPackScan (s : State) : Host.Outcome State Fault Refusal :=
  commandLoose (do
    duties .packScan
    checkCfg
    checkIn
    checkOut
    checkRaw
    packPass
    modify State.closeScan) s

/-! ### Reader commands -/

/-- RD_PTR, RD_BIT, RD_BUF <- 0 (R123). -/
def State.initReader (s : State) : State := { s with rd := ⟨0, 0, 0⟩ }

/-- RD_INIT (R123). -/
def execRdInit (s : State) : Host.Outcome State Fault Refusal :=
  command (do
    checkCfg
    modify State.initReader) s

/-- RD_BITS (R124). -/
def execRdBits (s : State) : Host.Outcome State Fault Refusal :=
  command (do
    checkCfg
    checkIn
    let t ← get
    require (decide (t.count ≤ 64)) .badArg 0
    let v ← readBits t.count 0
    modify fun u => u.setResult (BitVec.ofNat 64 v)) s

end Sys2Proof.Machine
end

