-- ==== Sys2Proof/Machine/DecodeOut.lean ====
section
/-! DEFINITION. The Huffman decoder and the decode output processor (44_decode_output.md): DecodeSymbol, Narrow, CscPixel,
ConvertRow, and the commands DEC_SYM, DEC_SCAN, CSC, SCALE. -/

namespace Sys2Proof.Machine

/-! ### Tree traversal (R126) -/

/-- The child reference that bit `b` selects: 0 left, 1 right (R126). -/
def Node.child (n : Node) (b : Bool) : BitVec 16 := if b then n.right else n.left

/-- The loop of DecodeSymbol from node `node`. Each turn consumes one bit and the input region holds fewer than `fuel`, so
the loop ends at a leaf or with BIT_UNDERRUN and `fuel` is never used up (R126, log 16). -/
def descend (c : Ch) : (fuel node : Nat) → Cmd Nat
  | 0, _ => do
    let s ← get
    raise .bitUnderrun s.rd.ptr
  | fuel + 1, node => do
    let b ← readBit
    let s ← get
    let ref := (s.nodeAt c node).child b
    if ref.toNat < Config.leafLimit then pure ref.toNat else descend c fuel (ref.toNat - Config.leafLimit)

/-- DecodeSymbol(c) (R126). -/
def decodeSymbol (c : Ch) : Cmd Nat := do
  let s ← get
  if (s.ncount.get c).toNat = 0 then pure (s.root.get c).toNat
  else descend c (8 * s.inLen.toNat + 8) (s.root.get c).toNat

/-- DEC_SYM c (R139). -/
def execDecSym (c : Ch) (s : State) : Host.Outcome State Fault Refusal :=
  command (do
    checkCfg
    checkIn
    validateTree c
    let v ← decodeSymbol c
    modify fun t => t.setResult (BitVec.ofNat 64 v)) s

/-! ### Narrowing and colour-space conversion -/

/-- Narrow(v) = v >> (bw - 8) (R128). -/
def narrow (bw v : Nat) : Nat := v / 2 ^ (bw - 8)

/-- clip(x) = min(max(x, 0), 255) (R12). -/
def clip (x : Int) : Nat := (min (max x 0) 255).toNat

/-- The three components of a pixel. -/
structure Rgb where
  r : Nat
  g : Nat
  b : Nat
  deriving DecidableEq, Repr

/-- CscPixel(luma, U, V); `>> 8` is floor division by 256 (R12, R129). -/
def cscPixel (luma u v : Nat) : Rgb :=
  let y : Int := (luma : Int) - 16
  let cb : Int := (u : Int) - 128
  let cr : Int := (v : Int) - 128
  { r := clip ((298 * y + 409 * cr + 128) / 256)
    g := clip ((298 * y - 100 * cb - 208 * cr + 128) / 256)
    b := clip ((298 * y + 516 * cb + 128) / 256) }

/-- A byte of output. -/
def outByte (v : Nat) : Byte := BitVec.ofNat 8 v

/-! ### Output modes (R130 to R138) -/

/-- Bytes of a sample in its contiguous storage unit (R130). -/
def unitBytes (bw v : Nat) : List Byte := if bw = 8 then [outByte v] else [outByte (v % 256), outByte (v / 256)]

/-- A converted pixel in memory order B, G, R, with alpha when asked (R136). -/
def bgrBytes (alpha : Bool) (p : Rgb) : List Byte :=
  [outByte p.b, outByte p.g, outByte p.r] ++ (if alpha then [0xFF] else [])

/-- Groups U, Y0, V, Y1 of narrowed samples, each two pixels (R136). -/
def uyvyBytes (alpha : Bool) : List Nat → List Byte
  | u :: y0 :: v :: y1 :: t => bgrBytes alpha (cscPixel y0 u v) ++ bgrBytes alpha (cscPixel y1 u v) ++ uyvyBytes alpha t
  | _ => []

/-- Triples of narrowed samples, alpha after every third (R137). -/
def rgbaBytes : List Nat → List Byte
  | c0 :: c1 :: c2 :: t => [outByte c0, outByte c1, outByte c2, 0xFF] ++ rgbaBytes t
  | _ => []

/-- The bytes ConvertRow puts for a row of samples, in order (R138). IDENT_PACKED puts none: it writes bits. -/
def rowBytes (m : OutMode) (bw : Nat) (row : List Nat) : List Byte :=
  let n := row.map (narrow bw)
  match m with
  | .ident => row.flatMap (unitBytes bw)
  | .identPacked => []
  | .narrow8 => n.map outByte
  | .grayRgb24 => n.flatMap fun v => [outByte v, outByte v, outByte v]
  | .grayRgb32 => n.flatMap fun v => [outByte v, outByte v, outByte v, 0xFF]
  | .grayYuyv8 => n.flatMap fun v => [outByte v, 0x80]
  | .grayYuyv16 => n.flatMap fun v => [0x80, 0x00, 0x00, outByte v]
  | .uyvyRgb24 => uyvyBytes false n
  | .uyvyRgb32 => uyvyBytes true n
  | .rgb24Rgb32 => rgbaBytes n
  | .rgb24Rgb32Flip => rgbaBytes n

/-- put(v) for each byte, from offset `o` of the output region on (R138). -/
def putBytes : (o : Nat) → List Byte → Cmd Unit
  | _, [] => pure ()
  | o, v :: t => do
    let s ← get
    memWrite (s.outAddr.toNat + o) v
    putBytes (o + 1) t

/-- The output row of decoded row `r` (R82, R138). -/
def State.outRow (s : State) (r : Nat) : Nat := if s.outMode.flips then s.height.toNat - 1 - r else r

/-- ConvertRow(r, row) (R138). -/
def convertRow (r : Nat) (row : List Nat) : Cmd Unit := do
  let s ← get
  if s.outMode = .identPacked then forEach row fun v => writeBits v s.bw
  else putBytes (s.outRow r * s.bytesPerRow) (rowBytes s.outMode s.bw row)

/-! ### DEC_SCAN -/

/-- One sample: decode, accumulate, reconstruct (R127, R140). -/
def decodeSample (c : Ch) : Cmd Nat := do
  let d ← decodeSymbol c
  let s ← get
  set (s.setAcc c (s.accumulated c d))
  pure (s.accumulated c d)

/-- The samples of one pixel, appended to the row so far (held last first). -/
def decodePixel : List Ch → List Nat → Cmd (List Nat)
  | [], row => pure row
  | c :: t, row => do
    let v ← decodeSample c
    decodePixel t (v :: row)

/-- The samples of `n` pixels, appended to the row so far (held last first). -/
def decodePixels (chs : List Ch) : Nat → List Nat → Cmd (List Nat)
  | 0, row => pure row
  | n + 1, row => do
    let row ← decodePixel chs row
    decodePixels chs n row

/-- One row of DEC_SCAN: the accumulators restart, the row is decoded, then converted (R140). -/
def decodeRow (r : Nat) : Cmd Unit := do
  let s ← get
  forEach (channels s.nch) fun c => modify fun t => t.setAcc c 0
  let row ← decodePixels (channels s.nch) s.width.toNat []
  convertRow r row.reverse

/-- OUT_SIZE <- OutSize (R140). -/
def State.reportDecoded (s : State) : State := { s with outSize := BitVec.ofNat 32 s.outBytes }

/-- `if CFG.OUT_MODE = 1: m` (R140). -/
def whenPacked (m : Cmd Unit) : Cmd Unit := do
  let s ← get
  if s.outMode = .identPacked then m else pure ()

/-- The body of DEC_SCAN after its checks (R140). -/
def decScanBody : Cmd Unit := do
  whenPacked (modify State.initPacker)
  let s ← get
  forUp s.height.toNat 0 decodeRow
  whenPacked flushPartial
  modify State.reportDecoded

/-- `if OUT_CAP < OutSize: raise OUT_OVERFLOW(OutSize mod 2^32)` (R140, R147). -/
def checkOutSize : Cmd Unit := do
  let s ← get
  require (decide (s.outBytes ≤ s.outCap.toNat)) .outOverflow (BitVec.ofNat 32 s.outBytes)

/-- DEC_SCAN (R140). -/
def execDecScan (s : State) : Host.Outcome State Fault Refusal :=
  commandLoose (do
    duties .decScan
    checkCfgDecode
    checkIn
    checkOut
    checkOutSize
    let t ← get
    forEach (channels t.nch) validateTree
    decScanBody) s

/-! ### CSC and SCALE -/

/-- The word R | G << 8 | B << 16 (R142). -/
def Rgb.word (p : Rgb) : Nat := p.r + 256 * p.g + 65536 * p.b

/-- CSC (R142). -/
def execCsc (s : State) : Host.Outcome State Fault Refusal :=
  command (do
    checkCfg
    modify fun t => t.setResult (BitVec.ofNat 64 (cscPixel (t.argByte 0) (t.argByte 1) (t.argByte 2)).word)) s

/-- SCALE (R143). -/
def execScale (s : State) : Host.Outcome State Fault Refusal :=
  command (do
    checkCfg
    modify fun t => t.setResult (BitVec.ofNat 64 (narrow t.bw t.maskedArg))) s

end Sys2Proof.Machine
end

