-- ==== Sys2Proof/Machine/Header.lean ====
section
/-! DEFINITION. The tree serializer and deserializer (42_serializer.md): HDR_WRITE and HDR_READ. -/

namespace Sys2Proof.Machine

/-- EmitU16(v) and EmitU32(v): the low `n` bytes of `v`, least significant first (R110). -/
def emitLe : (n v : Nat) → Cmd Unit
  | 0, _ => pure ()
  | n + 1, v => do
    emitByte (BitVec.ofNat 8 (v % 256))
    emitLe n (v / 256)

/-- ReadU16() and ReadU32(): `n` bytes, least significant first (R111). -/
def readLe : Nat → Cmd Nat
  | 0 => pure 0
  | n + 1 => do
    let b ← readByte
    let v ← readLe n
    pure (b.toNat + 256 * v)

/-- The header of channel `c` (R77, R110). -/
def writeHeader (c : Ch) : Cmd Unit := do
  let s ← get
  emitLe 4 (s.ncount.get c).toNat
  emitLe 4 (s.root.get c).toNat
  forUp (s.ncount.get c).toNat 0 fun i => do
    emitLe 2 (s.nodeAt c i).left.toNat
    emitLe 2 (s.nodeAt c i).right.toNat

/-- The body of HDR_WRITE after CheckCfg and CheckRanges (R110). -/
def hdrWriteBody : Cmd Unit := do
  let s ← get
  require (decide (s.pk.fill.toNat = 0)) .badState 0
  forEach (channels s.nch) validateTree
  forEach (channels s.nch) writeHeader

/-- HDR_WRITE (R110). -/
def execHdrWrite (s : State) : Host.Outcome State Fault Refusal :=
  commandWith State.headersLeft (marking do
    checkCfg
    checkOut
    hdrWriteBody) s

/-- TREE[c][i].left <- v. -/
def State.setLeft (s : State) (c : Ch) (i v : Nat) : State :=
  s.setNode c i { s.nodeAt c i with left := BitVec.ofNat 16 v }

/-- TREE[c][i].right <- v. -/
def State.setRight (s : State) (c : Ch) (i v : Nat) : State :=
  s.setNode c i { s.nodeAt c i with right := BitVec.ofNat 16 v }

/-- Node `i` of the header of channel `c`; each reference is stored as it is read (R111, log 15). -/
def readNode (c : Ch) (i : Nat) : Cmd Unit := do
  let l ← readLe 2
  modify fun t => t.setLeft c i l
  let r ← readLe 2
  modify fun t => t.setRight c i r

/-- NCOUNT[c] and ROOT[c] of a header (R111). -/
def State.setTreeRegs (s : State) (c : Ch) (nc rt : Nat) : State :=
  { s with ncount := s.ncount.set c (BitVec.ofNat 32 nc), root := s.root.set c (BitVec.ofNat 32 rt) }

/-- The header of channel `c` (R111). -/
def readHeader (c : Ch) : Cmd Unit := do
  let nc ← readLe 4
  let rt ← readLe 4
  let s ← get
  require (decide (nc ≤ s.alpha - 1)) .badCount (chanInfo c)
  forUp nc 0 (readNode c)
  modify fun t => t.setTreeRegs c nc rt
  validateTree c

/-- The body of HDR_READ after CheckCfg and CheckRanges (R111). -/
def hdrReadBody : Cmd Unit := do
  let s ← get
  require (decide (s.rd.bit.toNat = 0)) .badState 0
  forEach (channels s.nch) readHeader

/-- HDR_READ (R111). -/
def execHdrRead (s : State) : Host.Outcome State Fault Refusal :=
  command (do
    checkCfg
    checkIn
    hdrReadBody) s

end Sys2Proof.Machine
end

