-- ==== Sys2Proof/Machine/Tree.lean ====
section
/-! DEFINITION. The histogram and the Huffman tree builder (41_tree_builder.md): HIST_CLEAR, HIST_SCAN, HIST_ADD,
TREE_BUILD, CODE_GEN. -/

namespace Sys2Proof.Machine

/-! ### Histogram -/

/-- Every counter of every channel to 0 (R93). -/
def State.clearHist (s : State) : State := { s with hist := [] }

/-- HIST[c][sym] <- (HIST[c][sym] + 1) mod 2^32 (R41, R94, R95). -/
def State.bumpHist (s : State) (c : Ch) (sym : Nat) : State := s.setHist c sym (s.histAt c sym + 1)

/-- HIST_CLEAR (R93). -/
def execHistClear (s : State) : Host.Outcome State Fault Refusal :=
  command (do
    checkCfg
    modify State.clearHist) s

/-- The first pass over the frame (R94, R145). -/
def histPass : Cmd Unit := rowScan fun _ c d => modify fun t => t.bumpHist c d

/-- HIST_SCAN (R94). -/
def execHistScan (s : State) : Host.Outcome State Fault Refusal :=
  command (do
    duties .histScan
    checkCfg
    checkIn
    checkRaw
    histPass
    modify State.openScan) s

/-- HIST_ADD c (R95). -/
def execHistAdd (c : Ch) (s : State) : Host.Outcome State Fault Refusal :=
  command (do
    checkCfg
    let t ← get
    require (decide (t.arg.toNat < t.alpha)) .badArg 0
    set (t.bumpHist c t.arg.toNat)) s

/-! ### Tree building (R96 to R98) -/

/-- An entry of the work list. A frequency is a sum of at most 4096 counters below 2^32, so the 64-bit adder of R98 never
wraps and the number is exact (log 17). -/
structure Entry where
  val : BitVec 16
  freq : Nat
  deriving DecidableEq, Repr

/-- Insertion into the work list, held tail first: the scan from the tail passes every entry of strictly lower
frequency (R97). -/
def insertEntry (e : Entry) : List Entry → List Entry
  | [] => [e]
  | x :: t => if x.freq < e.freq then x :: insertEntry e t else e :: x :: t

/-- The symbols `i .. i + n - 1` of nonzero count inserted in ascending order. Each goes after its equals, which is the
stable descending sort of R96. -/
def workFrom (s : State) (c : Ch) : (n i : Nat) → List Entry → List Entry
  | 0, _, l => l
  | n + 1, i, l =>
    workFrom s c n (i + 1)
      (if s.histAt c i = 0 then l else insertEntry ⟨BitVec.ofNat 16 i, (s.histAt c i).toNat⟩ l)

/-- The work list of channel `c`, tail first (R96). -/
def workList (s : State) (c : Ch) : List Entry := workFrom s c s.alpha 0 []

/-- The merges from node index `n` on: the nodes made, and what is left of the work list. `fuel` is at least the length
of the list (log 16). -/
def mergeAll : (fuel n : Nat) → List Entry → List Node × List Entry
  | fuel + 1, n, a :: b :: rest =>
    let r := mergeAll fuel (n + 1) (insertEntry ⟨BitVec.ofNat 16 (Config.leafLimit + n), a.freq + b.freq⟩ rest)
    (⟨b.val, a.val⟩ :: r.1, r.2)
  | _, _, l => ([], l)

/-- All merges of channel `c`. -/
def merges (s : State) (c : Ch) : List Node × List Entry := mergeAll (workList s c).length 0 (workList s c)

/-- TREE[c][i ..] <- the nodes. -/
def State.storeNodes (c : Ch) : Nat → List Node → State → State
  | _, [], s => s
  | i, n :: t, s => State.storeNodes c (i + 1) t (s.setNode c i n)

/-- ROOT[c] after a build (R98, R99, R100, R102). -/
def rootOf (nodes : List Node) (rest : List Entry) : Word :=
  match nodes, rest with
  | _ :: t, _ => BitVec.ofNat 32 t.length
  | [], [e] => e.val.setWidth 32
  | [], _ => 0

/-- What TREE_BUILD c writes: TREE[c][0 .. n - 1], NCOUNT[c], ROOT[c] (R98). -/
def State.buildTree (s : State) (c : Ch) : State :=
  { State.storeNodes c 0 (merges s c).1 s with
    ncount := s.ncount.set c (BitVec.ofNat 32 (merges s c).1.length)
    root := s.root.set c (rootOf (merges s c).1 (merges s c).2) }

/-- TREE_BUILD c (R98). -/
def execTreeBuild (c : Ch) (s : State) : Host.Outcome State Fault Refusal :=
  command (do
    checkCfg
    modify fun t => t.buildTree c) s

/-! ### Code derivation (R105, R106) -/

/-- The code of a leaf reached with path `p` of `len` bits (R106). -/
def writeCode (c : Ch) (sym len p : Nat) : Cmd Unit := do
  if Config.maxCodeLen < len then raise .codeOverflow (chanInfo c) else pure ()
  modify fun t => t.setCode c sym ⟨true, BitVec.ofNat 7 len, BitVec.ofNat 64 p⟩

/-- One child of a node of R106's Visit: a leaf gets its code, a node is visited. Answers the nodes visited so far. -/
def visitChild (c : Ch) (down : (i depth path : Nat) → List Nat → Cmd (List Nat)) (ref : BitVec 16) (len p : Nat)
    (seen : List Nat) : Cmd (List Nat) :=
  if ref.toNat < Config.leafLimit then do
    writeCode c ref.toNat len p
    pure seen
  else down (ref.toNat - Config.leafLimit) len p seen

/-- Visit(i, depth, path) (R106). A path visits distinct nodes below the node count, so `fuel` above the node count is
never used up (log 16). -/
def visit (c : Ch) : (fuel i depth path : Nat) → List Nat → Cmd (List Nat)
  | 0, _, _, _, _ => raise .badRef (chanInfo c)
  | fuel + 1, i, depth, path, seen =>
    if seen.contains i then raise .badRef (chanInfo c)
    else do
      let s ← get
      let seen ← visitChild c (visit c fuel) (s.nodeAt c i).left (depth + 1) (2 * path) (i :: seen)
      visitChild c (visit c fuel) (s.nodeAt c i).right (depth + 1) (2 * path + 1) seen

/-- The body of CODE_GEN c after CheckCfg (R106). -/
def codeGenBody (c : Ch) : Cmd Unit := do
  validateTree c
  modify fun t => t.clearCodes c
  let s ← get
  if (s.ncount.get c).toNat = 0 then
    modify fun t => t.setCode c (s.root.get c).toNat ⟨true, 0, 0⟩
  else
    let _ ← visit c ((s.ncount.get c).toNat + 1) (s.root.get c).toNat 0 0 []

/-- CODE_GEN c (R106). -/
def execCodeGen (c : Ch) (s : State) : Host.Outcome State Fault Refusal :=
  command (do
    checkCfg
    codeGenBody c) s

end Sys2Proof.Machine
end

