-- ==== Sys2Proof/Machine/Frame.lean ====
section
/-! DEFINITION. The frame commands (45_frame.md): NOP, ENC_FRAME, DEC_FRAME, PASSTHRU. -/

namespace Sys2Proof.Machine

/-- NOP (R144): no CheckCfg. -/
def execNop (s : State) : Host.Outcome State Fault Refusal := command (pure ()) s

/-- The tree and the codes of one channel (R145). -/
def buildChannel (c : Ch) : Cmd Unit := do
  modify fun t => t.buildTree c
  codeGenBody c

/-- ENC_FRAME after its checks (R145). -/
def encFrameBody : Cmd Unit := do
  modify State.forgetScans
  modify State.clearHist
  histPass
  let s ← get
  forEach (channels s.nch) buildChannel
  modify State.initPacker
  hdrWriteBody
  packPass
  flushPartial
  modify State.reportPacked

/-- ENC_FRAME (R145). -/
def execEncFrame (s : State) : Host.Outcome State Fault Refusal :=
  commandLoose (do
    duties .encFrame
    checkCfg
    checkIn
    checkOut
    checkRaw
    encFrameBody) s

/-- DEC_FRAME (R147). -/
def execDecFrame (s : State) : Host.Outcome State Fault Refusal :=
  commandLoose (do
    duties .decFrame
    checkCfgDecode
    checkIn
    checkOut
    checkOutSize
    modify State.initReader
    hdrReadBody
    decScanBody) s

/-- The copy of byte `k` (R149). -/
def copyByte (k : Nat) : Cmd Unit := do
  let s ← get
  let v ← memRead (s.inAddr.toNat + k)
  memWrite (s.outAddr.toNat + k) v

/-- OUT_SIZE <- RawSize (R149). -/
def State.reportRaw (s : State) : State := { s with outSize := BitVec.ofNat 32 s.rawSize }

/-- PASSTHRU (R149). -/
def execPassthru (s : State) : Host.Outcome State Fault Refusal :=
  commandLoose (do
    duties .passthru
    checkCfg
    checkIn
    checkOut
    let t ← get
    require (decide (t.inLen.toNat = t.rawSize)) .sizeMismatch (BitVec.ofNat 32 t.rawSize)
    require (decide (t.rawSize ≤ t.outCap.toNat)) .outOverflow (BitVec.ofNat 32 t.rawSize)
    forUp t.rawSize 0 copyByte
    modify State.reportRaw) s

end Sys2Proof.Machine
end

