-- ==== Sys2Proof/Machine/Dispatch.lean ====
section
/-! DEFINITION. The meaning of each command: one arm per constructor of Instr. -/

namespace Sys2Proof.Machine

def exec (i : Instr) (s : State) : Host.Outcome State Fault Refusal :=
  match i with
  | .nop => Sys2Proof.Machine.execNop s
  | .histClear => Sys2Proof.Machine.execHistClear s
  | .histScan => Sys2Proof.Machine.execHistScan s
  | .histAdd c => Sys2Proof.Machine.execHistAdd c s
  | .treeBuild c => Sys2Proof.Machine.execTreeBuild c s
  | .codeGen c => Sys2Proof.Machine.execCodeGen c s
  | .hdrWrite => Sys2Proof.Machine.execHdrWrite s
  | .hdrRead => Sys2Proof.Machine.execHdrRead s
  | .pkInit => Sys2Proof.Machine.execPkInit s
  | .pkBits => Sys2Proof.Machine.execPkBits s
  | .pkFlush => Sys2Proof.Machine.execPkFlush s
  | .encSym c => Sys2Proof.Machine.execEncSym c s
  | .packScan => Sys2Proof.Machine.execPackScan s
  | .rdInit => Sys2Proof.Machine.execRdInit s
  | .rdBits => Sys2Proof.Machine.execRdBits s
  | .decSym c => Sys2Proof.Machine.execDecSym c s
  | .decScan => Sys2Proof.Machine.execDecScan s
  | .predReset => Sys2Proof.Machine.execPredReset s
  | .predFwd c => Sys2Proof.Machine.execPredFwd c s
  | .predInv c => Sys2Proof.Machine.execPredInv c s
  | .csc => Sys2Proof.Machine.execCsc s
  | .scale => Sys2Proof.Machine.execScale s
  | .encFrame => Sys2Proof.Machine.execEncFrame s
  | .decFrame => Sys2Proof.Machine.execDecFrame s
  | .passthru => Sys2Proof.Machine.execPassthru s

end Sys2Proof.Machine
end

