-- ==== Sys2Proof/WellFormed.lean ====
section
/-! DEFINITION. Well-formed command words and host actions. An `Instr` is well formed by its type: a channel is a
`Fin 4` (R72: any CH is legal whatever CFG.NCH is). -/

namespace Sys2Proof

/-- A row of the opcode map: the word `w` is this row's when `w &&& mask = value`. -/
structure OpRow where
  mask : Word
  value : Word
  deriving DecidableEq, Repr

/-- Format N: the whole word is OP. -/
def rowN (op : Word) : OpRow := ⟨0xFFFFFFFF, op⟩

/-- Format C: everything but CH is OP. -/
def rowC (op : Word) : OpRow := ⟨0xFFFFFCFF, op⟩

/-- The opcode map of R73, in the table's order. -/
def opRows : List OpRow :=
  [rowN 0x00, rowN 0x10, rowN 0x11, rowC 0x12, rowC 0x13, rowC 0x14, rowN 0x18, rowN 0x19] ++
  [rowN 0x20, rowN 0x21, rowN 0x22, rowC 0x23, rowN 0x24, rowN 0x28, rowN 0x29, rowC 0x2A, rowN 0x2B] ++
  [rowN 0x30, rowC 0x31, rowC 0x32, rowN 0x38, rowN 0x39, rowN 0x40, rowN 0x41, rowN 0x42]

def OpRow.covers (r : OpRow) (w : Word) : Bool := w &&& r.mask == r.value

/-- A command word encodes a command when a row of R73 matches it; every other word is illegal (R74). -/
def wordWellFormed (w : Word) : Bool := opRows.any (·.covers w)

/-- The channel operand of a format C command. -/
def Instr.channel : Instr → Option Ch
  | .histAdd c | .treeBuild c | .codeGen c | .encSym c | .decSym c | .predFwd c | .predInv c => some c
  | .nop | .histClear | .histScan | .hdrWrite | .hdrRead | .pkInit | .pkBits | .pkFlush | .packScan | .rdInit
  | .rdBits | .decScan | .predReset | .csc | .scale | .encFrame | .decFrame | .passthru => none

/-- A host register access inside the spec is 32 bits wide and 4-byte aligned (R24). -/
def accessWellFormed (size : AccessSize) (off : BitVec 12) : Bool :=
  size == .word && off.toNat % 4 == 0

/-- A host action inside the spec. -/
def HostAction.wellFormed : HostAction → Bool
  | .write size off _ | .read size off => accessWellFormed size off
  | .memWrite _ _ | .memRead _ | .rst | .wait | .elapse => true

end Sys2Proof
end

