-- ==== Sys2Proof/Decode.lean ====
section
/-! DEFINITION. Decoding and encoding of command words (30_encoding.md R72 to R74). -/

namespace Sys2Proof

/-- Why a word encodes no command (R74). -/
inductive Illegal where
  /-- OP is a reserved value. -/
  | reservedOp
  /-- w[31:10] is not zero. -/
  | reservedBits
  /-- Format N with w[9:8] not zero. -/
  | channelInFormatN
  deriving DecidableEq, Repr

/-- What the decoder reads from a word. -/
inductive Decoded where
  | ok (i : Instr)
  | illegal (why : Illegal)
  deriving DecidableEq, Repr

def Decoded.toOption : Decoded → Option Instr
  | .ok i => some i
  | .illegal _ => none

/-- OP = w[7:0] (R72). -/
def opOf (w : Word) : BitVec 8 := w.extractLsb' 0 8

/-- CH = w[9:8] (R72). -/
def chOf (w : Word) : Ch := ⟨(w.extractLsb' 8 2).toNat, (w.extractLsb' 8 2).isLt⟩

/-- w[31:10] (R72). -/
def reservedOf (w : Word) : BitVec 22 := w.extractLsb' 10 22

/-- A format N command needs CH = 0 (R72). -/
def formatN (c : Ch) (i : Instr) : Decoded := if c = 0 then .ok i else .illegal .channelInFormatN

/-- The command of an OP value with channel field `c` (R73). -/
def decodeOp (op : Nat) (c : Ch) : Decoded :=
  match op with
  | 0x00 => formatN c .nop
  | 0x10 => formatN c .histClear
  | 0x11 => formatN c .histScan
  | 0x12 => .ok (.histAdd c)
  | 0x13 => .ok (.treeBuild c)
  | 0x14 => .ok (.codeGen c)
  | 0x18 => formatN c .hdrWrite
  | 0x19 => formatN c .hdrRead
  | 0x20 => formatN c .pkInit
  | 0x21 => formatN c .pkBits
  | 0x22 => formatN c .pkFlush
  | 0x23 => .ok (.encSym c)
  | 0x24 => formatN c .packScan
  | 0x28 => formatN c .rdInit
  | 0x29 => formatN c .rdBits
  | 0x2A => .ok (.decSym c)
  | 0x2B => formatN c .decScan
  | 0x30 => formatN c .predReset
  | 0x31 => .ok (.predFwd c)
  | 0x32 => .ok (.predInv c)
  | 0x38 => formatN c .csc
  | 0x39 => formatN c .scale
  | 0x40 => formatN c .encFrame
  | 0x41 => formatN c .decFrame
  | 0x42 => formatN c .passthru
  | _ => .illegal .reservedOp

/-- Decoding of a command word; mode bits do not exist and nothing else is read (R72). -/
def decode (w : Word) : Decoded :=
  if reservedOf w ≠ 0 then .illegal .reservedBits else decodeOp (opOf w).toNat (chOf w)

/-- The OP value of a command (R73). -/
def opcode : Instr → Word
  | .nop => 0x00
  | .histClear => 0x10
  | .histScan => 0x11
  | .histAdd _ => 0x12
  | .treeBuild _ => 0x13
  | .codeGen _ => 0x14
  | .hdrWrite => 0x18
  | .hdrRead => 0x19
  | .pkInit => 0x20
  | .pkBits => 0x21
  | .pkFlush => 0x22
  | .encSym _ => 0x23
  | .packScan => 0x24
  | .rdInit => 0x28
  | .rdBits => 0x29
  | .decSym _ => 0x2A
  | .decScan => 0x2B
  | .predReset => 0x30
  | .predFwd _ => 0x31
  | .predInv _ => 0x32
  | .csc => 0x38
  | .scale => 0x39
  | .encFrame => 0x40
  | .decFrame => 0x41
  | .passthru => 0x42

/-- The command word: OP, and CH at bits 9:8 in format C (R72). -/
def encode (i : Instr) : Word :=
  match i.channel with
  | none => opcode i
  | some c => opcode i ||| (BitVec.ofNat 32 c.val <<< 8)

/-- The decoder on a table row's bits: one 32-bit word; bits above `nbits` are 0. -/
def decodeTableWord (nbits w : Nat) : Option Instr :=
  if w < 2 ^ nbits ∧ w < 2 ^ 32 then (decode (BitVec.ofNat 32 w)).toOption else none

/-! Every constructor's decoding, on a word written from R73: OP in hexadecimal, CH at bits 9:8. -/

theorem decode_nop : decode 0x00000000 = .ok .nop := by decide
theorem decode_histClear : decode 0x00000010 = .ok .histClear := by decide
theorem decode_histScan : decode 0x00000011 = .ok .histScan := by decide
theorem decode_histAdd : decode 0x00000312 = .ok (.histAdd 3) := by decide
theorem decode_treeBuild : decode 0x00000313 = .ok (.treeBuild 3) := by decide
theorem decode_codeGen : decode 0x00000114 = .ok (.codeGen 1) := by decide
theorem decode_hdrWrite : decode 0x00000018 = .ok .hdrWrite := by decide
theorem decode_hdrRead : decode 0x00000019 = .ok .hdrRead := by decide
theorem decode_pkInit : decode 0x00000020 = .ok .pkInit := by decide
theorem decode_pkBits : decode 0x00000021 = .ok .pkBits := by decide
theorem decode_pkFlush : decode 0x00000022 = .ok .pkFlush := by decide
theorem decode_encSym : decode 0x00000223 = .ok (.encSym 2) := by decide
theorem decode_packScan : decode 0x00000024 = .ok .packScan := by decide
theorem decode_rdInit : decode 0x00000028 = .ok .rdInit := by decide
theorem decode_rdBits : decode 0x00000029 = .ok .rdBits := by decide
theorem decode_decSym : decode 0x0000012A = .ok (.decSym 1) := by decide
theorem decode_decScan : decode 0x0000002B = .ok .decScan := by decide
theorem decode_predReset : decode 0x00000030 = .ok .predReset := by decide
theorem decode_predFwd : decode 0x00000131 = .ok (.predFwd 1) := by decide
theorem decode_predInv : decode 0x00000232 = .ok (.predInv 2) := by decide
theorem decode_csc : decode 0x00000038 = .ok .csc := by decide
theorem decode_scale : decode 0x00000039 = .ok .scale := by decide
theorem decode_encFrame : decode 0x00000040 = .ok .encFrame := by decide
theorem decode_decFrame : decode 0x00000041 = .ok .decFrame := by decide
theorem decode_passthru : decode 0x00000042 = .ok .passthru := by decide

/-! Illegal words (R74; vectors CE1 to CE3, L3-6 line 7). -/

theorem decode_reservedOp : decode 0x00000001 = .illegal .reservedOp := by decide
theorem decode_channelInFormatN : decode 0x00000110 = .illegal .channelInFormatN := by decide
theorem decode_reservedBits : decode 0x00000400 = .illegal .reservedBits := by decide

end Sys2Proof
end

