-- ==== Sys2Proof/Machine/HostPort.lean ====
section
/-! DEFINITION. The host's side of the block: the register map (10_state.md R24 to R39), the table window (R38), CMD writes
(R29, R156), reset (R168), and the host's accesses to external memory under its duties (20_memory.md R66). -/

namespace Sys2Proof.Machine

/-! ### The register map (R25) -/

/-- The listed registers. -/
inductive Reg where
  | id
  | ctrl
  | status
  | cmd
  | cfg
  | width
  | height
  | inAddr
  | inLen
  | outAddr
  | outCap
  | outSize
  | errInfo
  | argLo
  | argHi
  | argLen
  | resultLo
  | resultHi
  | pkPtr
  | pkState
  | rdPtr
  | rdState
  | tabAddr
  | tabData0
  | tabData1
  | tabData2
  deriving DecidableEq, Repr

/-- The register at an offset of the aperture; `none` for an unlisted offset (R24, R25). -/
def Reg.at (off : BitVec 12) : Option Reg :=
  match off.toNat with
  | 0x000 => some .id
  | 0x004 => some .ctrl
  | 0x008 => some .status
  | 0x00C => some .cmd
  | 0x010 => some .cfg
  | 0x014 => some .width
  | 0x018 => some .height
  | 0x020 => some .inAddr
  | 0x024 => some .inLen
  | 0x028 => some .outAddr
  | 0x02C => some .outCap
  | 0x030 => some .outSize
  | 0x034 => some .errInfo
  | 0x040 => some .argLo
  | 0x044 => some .argHi
  | 0x048 => some .argLen
  | 0x050 => some .resultLo
  | 0x054 => some .resultHi
  | 0x060 => some .pkPtr
  | 0x064 => some .pkState
  | 0x068 => some .rdPtr
  | 0x06C => some .rdState
  | 0x070 => some .tabAddr
  | 0x074 => some .tabData0
  | 0x078 => some .tabData1
  | 0x07C => some .tabData2
  | _ => none

/-! ### The table window (R37, R38) -/

/-- The table TAB_ADDR selects (R37). -/
inductive TableSel where
  | hist
  | tree
  | code
  | chan
  deriving DecidableEq, Repr

def TabAddr.sel (t : TabAddr) : TableSel :=
  match t.table.toNat with
  | 0 => .hist
  | 1 => .tree
  | 2 => .code
  | _ => .chan

/-- The channel TAB_ADDR selects. -/
def TabAddr.channel (t : TabAddr) : Ch := ⟨t.ch.toNat, t.ch.isLt⟩

/-- A channel register through the window: 0 NCOUNT, 1 ROOT, 2 PREV, 3 ACC; any other INDEX reads 0 (R38). -/
def State.readChan (s : State) (c : Ch) (i : Nat) : Word :=
  match i with
  | 0 => s.ncount.get c
  | 1 => s.root.get c
  | 2 => (s.prev.get c).setWidth 32
  | 3 => (s.acc.get c).setWidth 32
  | _ => 0

/-- A write of a channel register through the window; PREV and ACC take bits 11:0 (R38). -/
def State.writeChan (s : State) (c : Ch) (i : Nat) (v : Word) : State :=
  match i with
  | 0 => { s with ncount := s.ncount.set c v }
  | 1 => { s with root := s.root.set c v }
  | 2 => { s with prev := s.prev.set c (v.setWidth 12) }
  | 3 => { s with acc := s.acc.set c (v.setWidth 12) }
  | _ => s

/-- A node as TAB_DATA0 shows it: left in [15:0], right in [31:16] (R38). -/
def Node.word (n : Node) : Word := n.right ++ n.left

/-- The node a word written to TAB_DATA0 gives (R38). -/
def Node.ofWord (v : Word) : Node := ⟨v.extractLsb' 0 16, v.extractLsb' 16 16⟩

/-- TAB_DATA0 (R38). -/
def State.readTab0 (s : State) : Word :=
  let i := s.tab.index.toNat
  match s.tab.sel with
  | .hist => s.histAt s.tab.channel i
  | .tree => if i < Config.nodes then (s.nodeAt s.tab.channel i).word else 0
  | .code =>
    let e := s.codeAt s.tab.channel i
    BitVec.ofNat 32 (e.len.toNat + e.valid.toNat * 2 ^ 31)
  | .chan => s.readChan s.tab.channel i

/-- TAB_DATA1: the low word of the code bits, 0 for the other tables (R38). -/
def State.readTab1 (s : State) : Word :=
  match s.tab.sel with
  | .code => (s.codeAt s.tab.channel s.tab.index.toNat).bits.extractLsb' 0 32
  | .hist | .tree | .chan => 0

/-- TAB_DATA2: the high word of the code bits, 0 for the other tables (R38). -/
def State.readTab2 (s : State) : Word :=
  match s.tab.sel with
  | .code => (s.codeAt s.tab.channel s.tab.index.toNat).bits.extractLsb' 32 32
  | .hist | .tree | .chan => 0

/-- A write of TAB_DATA0; CODE is read-only (R38, R44). -/
def State.writeTab0 (s : State) (v : Word) : State :=
  let i := s.tab.index.toNat
  match s.tab.sel with
  | .hist => s.setHist s.tab.channel i v
  | .tree => if i < Config.nodes then s.setNode s.tab.channel i (Node.ofWord v) else s
  | .code => s
  | .chan => s.writeChan s.tab.channel i v

/-! ### Register words (R25 to R37, R45, R46) -/

/-- The word CFG reads (R30). -/
def Cfg.word (c : Cfg) : Word :=
  BitVec.ofNat 32 (c.bw.toNat + 4 * c.nch.toNat + 32 * c.packed.toNat + 256 * c.mode.toNat)

/-- The fields a word written to CFG gives; every encoding is stored (R30). -/
def Cfg.ofWord (v : Word) : Cfg :=
  ⟨v.extractLsb' 0 2, v.extractLsb' 2 3, v.getLsbD 5, v.extractLsb' 8 4⟩

/-- The word TAB_ADDR reads (R37). -/
def TabAddr.word (t : TabAddr) : Word :=
  BitVec.ofNat 32 (t.index.toNat + 2 ^ 12 * t.ch.toNat + 2 ^ 16 * t.table.toNat)

/-- The fields a word written to TAB_ADDR gives (R37). -/
def TabAddr.ofWord (v : Word) : TabAddr := ⟨v.extractLsb' 0 12, v.extractLsb' 12 2, v.extractLsb' 16 2⟩

/-- PK_STATE: PK_FILL in [3:0], PK_ACC in [15:8] (R25, R45). -/
def Packer.stateWord (p : Packer) : Word := BitVec.ofNat 32 (p.fill.toNat + 256 * p.acc.toNat)

/-- RD_STATE: RD_BIT in [3:0], RD_BUF in [15:8] (R25, R46). -/
def Reader.stateWord (r : Reader) : Word := BitVec.ofNat 32 (r.bit.toNat + 256 * r.buf.toNat)

/-- What a register reads while BUSY is 0 (R25). -/
def State.readReg (s : State) : Reg → Word
  | .id => Config.ident
  | .ctrl => s.ctrlWord
  | .status => s.statusWord
  | .cmd => s.cmd
  | .cfg => s.cfg.word
  | .width => s.width.setWidth 32
  | .height => s.height.setWidth 32
  | .inAddr => s.inAddr
  | .inLen => s.inLen
  | .outAddr => s.outAddr
  | .outCap => s.outCap
  | .outSize => s.outSize
  | .errInfo => s.errInfo
  | .argLo => s.argLo
  | .argHi => s.argHi
  | .argLen => s.argLen.setWidth 32
  | .resultLo => s.resLo
  | .resultHi => s.resHi
  | .pkPtr => s.pk.ptr
  | .pkState => s.pk.stateWord
  | .rdPtr => s.rd.ptr
  | .rdState => s.rd.stateWord
  | .tabAddr => s.tab.word
  | .tabData0 => s.readTab0
  | .tabData1 => s.readTab1
  | .tabData2 => s.readTab2

/-! ### Which regions a command has (R66; the operand columns of R73) -/

/-- The command reads the input region. -/
def Instr.usesIn : Instr → Bool
  | .histScan | .hdrRead | .packScan | .rdBits | .decSym _ | .decScan | .encFrame | .decFrame | .passthru => true
  | .nop | .histClear | .histAdd _ | .treeBuild _ | .codeGen _ | .hdrWrite | .pkInit | .pkBits | .pkFlush | .encSym _
  | .rdInit | .predReset | .predFwd _ | .predInv _ | .csc | .scale => false

/-- The command writes the output region. -/
def Instr.usesOut : Instr → Bool
  | .hdrWrite | .pkBits | .pkFlush | .encSym _ | .packScan | .decScan | .encFrame | .decFrame | .passthru => true
  | .nop | .histClear | .histScan | .histAdd _ | .treeBuild _ | .codeGen _ | .hdrRead | .pkInit | .rdInit | .rdBits
  | .decSym _ | .predReset | .predFwd _ | .predInv _ | .csc | .scale => false

/-- The command the core runs, if it runs one: none while the reset sequence runs, so that external memory is then open to
the host, which is the model's choice (log 27). -/
def State.runningInstr (s : State) : Option Instr :=
  match s.phase with
  | .running => (decode s.cmd).toOption
  | .idle | .resetting => none

/-- The running command reads the input region. -/
def State.inBusy (s : State) : Bool := (s.runningInstr.map Instr.usesIn).getD false

/-- The running command writes the output region. -/
def State.outBusy (s : State) : Bool := (s.runningInstr.map Instr.usesOut).getD false

/-- Address `a` is a byte of the input region (R32). -/
def State.inRegion (s : State) (a : Nat) : Bool :=
  decide (s.inAddr.toNat ≤ a ∧ a < s.inAddr.toNat + s.inLen.toNat)

/-- Address `a` is a byte of the output region (R32). -/
def State.outRegion (s : State) (a : Nat) : Bool :=
  decide (s.outAddr.toNat ≤ a ∧ a < s.outAddr.toNat + s.outCap.toNat)

/-! ### Reset (R168) -/

/-- The commands that store through EmitByte alone and whose written bytes are exact (R67, R113; I6). -/
def Instr.emits : Instr → Bool
  | .hdrWrite | .pkBits | .pkFlush | .encSym _ => true
  | .nop | .histClear | .histScan | .histAdd _ | .treeBuild _ | .codeGen _ | .hdrRead | .pkInit | .packScan | .rdInit
  | .rdBits | .decSym _ | .decScan | .predReset | .predFwd _ | .predInv _ | .csc | .scale | .encFrame | .decFrame
  | .passthru => false

/-- Of the bytes that command `i` would emit, the first `n` are written, `n` a free number of at most all of them: the
command is cut short at whatever point it has reached (R168; log 5). The bytes of the output region that EmitByte has not
written for one of these commands become unspecified (R67, I6). -/
def State.abortedEmit (s : State) (i : Instr) : State :=
  match exec i s with
  | .next t =>
    State.loosenUnwritten { s with
      mem := t.mem.emitFrom (s.outAddr.toNat + s.pk.ptr.toNat)
        (Config.freeCount s.draws % (t.pk.ptr.toNat - s.pk.ptr.toNat + 1)) s.mem
      draws := s.draws + 1 }
  | .fault _ | .refused _ => s

/-- What the abort of a running command leaves in external memory: for the commands of `Instr.emits` the bytes EmitByte
wrote, and otherwise an unspecified output region where the command writes one (R67, R168). The command keeps its host duties:
the reset of one that breaks them is refused (`State.resetTo`; log 9, 11). -/
def State.aborted (s : State) : State :=
  match s.runningInstr with
  | none => s
  | some i => if Instr.emits i then s.abortedEmit i else if Instr.usesOut i then s.loosenOut else s

/-- The `rst` input, or a write of 1 to CTRL.SRST: the reset sequence starts, with every register and table at its reset
value and BUSY 1 (R168, log 13). -/
def State.beginReset (s : State) : State := { s.aborted.cleared with phase := .resetting }

/-- The host duty that the running command breaks, if it breaks one (R66). -/
def State.dutyOwed (s : State) : Option Refusal := s.runningInstr.bind s.brokenDuty

/-- The outcome of a host action that resets the block and leaves `t`: where it would abort a command that breaks a host
duty, the run has no meaning (R65, I5; log 9, 11). -/
def State.resetTo (s t : State) : Host.Outcome State Fault Refusal :=
  match s.dutyOwed with
  | none => .next t
  | some r => .refused r

/-- A write of `v` at offset `off` is one of 1 to CTRL.SRST (R27). -/
def isSoftReset (off : BitVec 12) (v : Word) : Bool := Reg.at off == some .ctrl && v.getLsbD 0

/-! ### Register writes -/

/-- A write of CTRL: SRST resets, otherwise IRQ_EN is stored (R27). -/
def State.writeCtrl (v : Word) (s : State) : State :=
  if v.getLsbD 0 then s.beginReset else { s with irqEn := v.getLsbD 1 }

/-- An accepted CMD write: a word that encodes a command starts it, an illegal word stops at once with BAD_CMD (R29, R74,
R156). -/
def State.acceptCmd (w : Word) (s : State) : State :=
  match decode w with
  | .ok _ => s.start w
  | .illegal _ => (s.start w).stop .badCmd 0

/-- A register write while BUSY is 0 (R25). -/
def State.writeIdle (s : State) (r : Reg) (v : Word) : State :=
  match r with
  | .ctrl => s.writeCtrl v
  | .status => s.clearStatus v
  | .cmd => s.acceptCmd v
  | .cfg => { s with cfg := Cfg.ofWord v }
  | .width => { s with width := v.setWidth 16 }
  | .height => { s with height := v.setWidth 16 }
  | .inAddr => { s with inAddr := v }
  | .inLen => { s with inLen := v }
  | .outAddr => { s with outAddr := v }
  | .outCap => { s with outCap := v }
  | .argLo => { s with argLo := v }
  | .argHi => { s with argHi := v }
  | .argLen => { s with argLen := v.setWidth 7 }
  | .tabAddr => { s with tab := TabAddr.ofWord v }
  | .tabData0 => s.writeTab0 v
  | .id | .outSize | .errInfo | .resultLo | .resultHi | .pkPtr | .pkState | .rdPtr | .rdState | .tabData1 | .tabData2 => s

/-- A register write while a command runs: CTRL and STATUS take it, CMD drops it and sets OVR, no other register takes
it (R29, R39). -/
def State.writeRunning (s : State) (r : Reg) (v : Word) : State :=
  match r with
  | .ctrl => s.writeCtrl v
  | .status => s.clearStatus v
  | .cmd => s.dropCmd
  | .id | .cfg | .width | .height | .inAddr | .inLen | .outAddr | .outCap | .outSize | .errInfo | .argLo | .argHi
  | .argLen | .resultLo | .resultHi | .pkPtr | .pkState | .rdPtr | .rdState | .tabAddr | .tabData0 | .tabData1
  | .tabData2 => s

/-- A 32-bit aligned host write (R24, R25, R39; while the reset sequence runs every write is ignored, R168). -/
def State.hostWrite (s : State) (off : BitVec 12) (v : Word) : State :=
  match Reg.at off with
  | none => s
  | some r =>
    match s.phase with
    | .idle => s.writeIdle r v
    | .running => s.writeRunning r v
    | .resetting => s

/-! ### Register reads -/

/-- The host receives `v`. -/
def State.deliver (s : State) (v : Word) : State := { s with hostData := v }

/-- The host receives an unspecified value (R39). -/
def State.deliverFree (s : State) : State :=
  { s with hostData := Config.freeWord s.draws, draws := s.draws + 1 }

/-- The registers a read while BUSY is 1 returns the value of (R39). -/
def Reg.readableBusy : Reg → Bool
  | .id | .ctrl | .status => true
  | .cmd | .cfg | .width | .height | .inAddr | .inLen | .outAddr | .outCap | .outSize | .errInfo | .argLo | .argHi
  | .argLen | .resultLo | .resultHi | .pkPtr | .pkState | .rdPtr | .rdState | .tabAddr | .tabData0 | .tabData1
  | .tabData2 => false

/-- A 32-bit aligned host read (R24, R25, R39). -/
def State.hostRead (s : State) (off : BitVec 12) : State :=
  match Reg.at off with
  | none => s.deliver 0
  | some r => if s.busy && !r.readableBusy then s.deliverFree else s.deliver (s.readReg r)

/-! ### The host's actions -/

/-- A host write of a byte of external memory. While a command runs, a byte of its regions is off limits (R66 (a)); while
the reset sequence runs none is (log 27). -/
def State.hostMemWrite (s : State) (a : Word) (v : Byte) : Host.Outcome State Fault Refusal :=
  if s.inBusy && s.inRegion a.toNat || s.outBusy && s.outRegion a.toNat then .refused (.dutyRegionWhileBusy a)
  else if s.memOk .write a.toNat then .next { s with mem := s.mem.write a.toNat v }
  else .fault (.hostAddress a)

/-- A host read of a byte of external memory. While a command runs, its output region is off limits (R66 (a)); while the
reset sequence runs no byte is (log 27). -/
def State.hostMemRead (s : State) (a : Word) : Host.Outcome State Fault Refusal :=
  if s.outBusy && s.outRegion a.toNat then .refused (.dutyRegionWhileBusy a)
  else if s.memOk .read a.toNat then .next (s.deliver ((s.mem.read a.toNat).setWidth 32))
  else .fault (.hostAddress a)

/-- The outcome of a 32-bit aligned host write. -/
def State.written (s : State) (off : BitVec 12) (v : Word) : Host.Outcome State Fault Refusal :=
  if isSoftReset off v then s.resetTo (s.hostWrite off v) else .next (s.hostWrite off v)

/-- One access of the host, or the assertion of `rst`. `wait` here is its last STATUS read; `elapse` is no access. -/
def State.hostAct (s : State) (act : HostAction) : Host.Outcome State Fault Refusal :=
  match act with
  | .write size off v =>
    if accessWellFormed size off then s.written off v else .refused (.registerAccess size off)
  | .read size off =>
    if accessWellFormed size off then .next (s.hostRead off) else .refused (.registerAccess size off)
  | .memWrite a v => s.hostMemWrite a v
  | .memRead a => s.hostMemRead a
  | .rst => s.resetTo s.beginReset
  | .wait => .next (s.deliver s.statusWord)
  | .elapse => .next s

end Sys2Proof.Machine
end

