-- ==== Sys2Proof/Machine/Turn.lean ====
section
/-! DEFINITION. One turn of the core and one turn of the host, which Step.lean calls. -/

namespace Sys2Proof.Machine

/-- The command word the core fetches: the word of the CMD write itself (R70). -/
def State.fetch (s : State) : Decoded := decode s.cmd

/-- The core runs the fetched word to its end as one atomic step (R65): an illegal word stops with BAD_CMD and changes
nothing else (R74, R156). -/
def State.runCommand (s : State) : Host.Outcome State Fault Refusal :=
  match s.fetch with
  | .ok i => exec i s
  | .illegal _ => .next (s.stop .badCmd 0)

/-- The core's turn: it runs its command, or ends its reset sequence (R168), or, idle, keeps every register (R167). -/
def State.coreTurn (s : State) : Host.Outcome State Fault Refusal :=
  match s.phase with
  | .running => s.runCommand
  | .resetting => .next { s with phase := .idle }
  | .idle => .next s

/-- The script moves on to `rest`. -/
def State.proceed (s : State) (rest : List HostAction) : State := { s with script := rest }

/-- One step: the next action of the script. `elapse` is the core's turn. `wait` is the core's turn while BUSY is 1, and then
one read of STATUS. With no action left the core's command still ends (R172). -/
def State.turn (s : State) : Host.Outcome State Fault Refusal :=
  match s.script with
  | [] => s.coreTurn
  | .elapse :: rest => (s.proceed rest).coreTurn
  | .wait :: rest => if s.busy then s.coreTurn else (s.proceed rest).hostAct .wait
  | .write size off v :: rest => (s.proceed rest).hostAct (.write size off v)
  | .read size off :: rest => (s.proceed rest).hostAct (.read size off)
  | .memWrite a v :: rest => (s.proceed rest).hostAct (.memWrite a v)
  | .memRead a :: rest => (s.proceed rest).hostAct (.memRead a)
  | .rst :: rest => (s.proceed rest).hostAct .rst

/-- `s` as the accepted CMD write of `w` leaves it, with the core's turn next (R156; log 2). -/
def State.accept (s : State) (w : Word) : State := (s.start w).proceed (.elapse :: s.script)

end Sys2Proof.Machine
end

