-- ==== Sys2Proof/Machine/Step.lean ====
section
/-! DEFINITION. The step of the machine, and how an instruction is placed where the next step fetches it. -/

namespace Sys2Proof.Machine

/-- One step of the machine. -/
def step (s : State) : Host.Outcome State Fault Refusal := s.turn

/-- `s` with the command word `w` accepted by CMD, so that the next step is the core's run of it. A command word is 32
bits; the bits above `nbits` are 0 (log 2). -/
def State.withFetchWord (s : State) (nbits w : Nat) : State := s.accept (BitVec.ofNat 32 (w % 2 ^ nbits))

end Sys2Proof.Machine
end

