-- ==== Sys2Proof/Safety.lean ====
section
/-! DEFINITION. What counts as a safe run, and the invariant of the machine, in the terms the statements use. -/

namespace Sys2Proof.Machine

/-- The step answers a next state: no fault, no refusal. -/
def Goes (s : State) : Prop := ∃ t, step s = .next t

/-- The machine runs `n` steps from `s` without a fault or a refusal: every host access is inside the spec (R24), to
existing memory (R51), and keeps the host duties R66 (a) to (c). -/
def RunsSafely : Nat → State → Prop
  | 0, _ => True
  | n + 1, s => ∃ t, step s = .next t ∧ RunsSafely n t

/-- A key of a per-channel table with `n` entries a channel (R41, R42, R44). -/
def KeyBelow (n k : Nat) : Prop := k / Config.symbols < 4 ∧ k % Config.symbols < n

/-- A code entry as R44 describes it: at most 64 bits, the bits at `len` and above zero. -/
def CodeEntry.fits (e : CodeEntry) : Prop :=
  e.valid = true ∧ e.len.toNat ≤ Config.maxCodeLen ∧ e.bits.toNat < 2 ^ e.len.toNat

/-- The invariant every step keeps. -/
structure Inv (s : State) : Prop where
  /-- Memory has its canonical form. -/
  mem : s.mem.wf
  /-- Every unspecified span was drawn before now. -/
  drawn : ∀ p ∈ s.mem.loose, p.draw < s.draws
  /-- What a scan found is memory in canonical form, drawn before now. -/
  scans : ∀ m ∈ s.scans, m.found.wf ∧ ∀ p ∈ m.found.loose, p.draw < s.draws
  /-- HIST holds its nonzero counters, for channels 0 to 3 and symbols 0 to 4095 (R41). -/
  hist : Sparse.wf 0 s.hist ∧ ∀ e ∈ s.hist, KeyBelow Config.symbols e.1
  /-- TREE holds its nodes other than (0, 0), for channels 0 to 3 and indices 0 to 4094 (R42). -/
  tree : Sparse.wf Node.zero s.tree ∧ ∀ e ∈ s.tree, KeyBelow Config.nodes e.1
  /-- CODE holds its valid entries, each of at most 64 bits (R44). -/
  code : Sparse.wf CodeEntry.none s.code ∧ ∀ e ∈ s.code, KeyBelow Config.symbols e.1 ∧ e.2.fits
  /-- PK_ACC holds PK_FILL bits, right-aligned (R45, R114). -/
  packer : s.pk.acc.toNat < 2 ^ s.pk.fill.toNat
  /-- While BUSY is 1, DONE, ERR, ERRCODE and ERR_INFO are clear (R28, R34, R156, R168). -/
  busy : s.phase ≠ .idle → s.done = false ∧ s.err = false ∧ s.errCode = 0 ∧ s.errInfo = 0
  /-- Only a word that encodes a command runs; an illegal word stops at once (R74). -/
  legal : s.phase = .running → ∃ i, decode s.cmd = .ok i
  /-- ERRCODE is a code of R152, and not 0x00 while ERR is set. -/
  codes : s.errCode.toNat ≤ 0x0D ∧ (s.err = true → s.errCode ≠ 0)

end Sys2Proof.Machine
end

