-- ==== Sys2Proof/Certificates/Slice0/Obligations.lean ====
section
/-! DEFINITION. The statements for the provers. `Sys2Proof.Spec` holds the vocabulary they are written in, read from the
rules of spec/ and not from the model's own functions. -/

namespace Sys2Proof.Spec

open Sys2Proof.Machine

/-! ### How a command ends -/

/-- The outcome of a step. -/
abbrev Out := Host.Outcome State Fault Refusal

/-- Completion with the other effects those of `t` (R157). -/
def completed (t : State) : Out := .next { t with phase := .idle, done := true }

/-- Error stop with the other effects those of `t` (R158). -/
def stopped (t : State) (code : Byte) (info : Word) : Out :=
  .next { t with phase := .idle, done := true, err := true, errCode := code, errInfo := info }

/-- `s` with the status fields of `t`: everything else is unchanged. -/
def withStatus (s t : State) : State :=
  { s with phase := t.phase, done := t.done, err := t.err, errCode := t.errCode, errInfo := t.errInfo }

/-! ### The format (R9, R10, R30, R52, R81 to R83, R153) -/

/-- bw. -/
def bitWidth (s : State) : Nat := if s.cfg.bw = 0 then 8 else if s.cfg.bw = 1 then 10 else 12

/-- A. -/
def alphabet (s : State) : Nat := 2 ^ bitWidth s

/-- NCH. -/
def nch (s : State) : Nat := s.cfg.nch.toNat

/-- The checks of CheckCfg that every command but NOP makes (R153). -/
def FormatLegal (s : State) : Prop := s.cfg.bw ≠ 3 ∧ 1 ≤ nch s ∧ nch s ≤ 4

/-- The checks of CheckCfg that DEC_SCAN and DEC_FRAME make as well (R153). -/
def ModeLegal (s : State) : Prop :=
  s.cfg.mode.toNat ≤ 10 ∧ (3 ≤ s.cfg.mode.toNat ∧ s.cfg.mode.toNat ≤ 6 → nch s = 1) ∧
    (s.cfg.mode.toNat = 7 ∨ s.cfg.mode.toNat = 8 → nch s = 2 ∧ s.width.toNat % 2 = 0) ∧
    (s.cfg.mode.toNat = 9 ∨ s.cfg.mode.toNat = 10 → nch s = 3)

/-- The input region does not wrap (R52). -/
def InFits (s : State) : Prop := s.inAddr.toNat + s.inLen.toNat ≤ 2 ^ 32

/-- The output region does not wrap (R52). -/
def OutFits (s : State) : Prop := s.outAddr.toNat + s.outCap.toNat ≤ 2 ^ 32

/-- Address `a` is in the input region (R32). -/
def InRegion (s : State) (a : Nat) : Prop := s.inAddr.toNat ≤ a ∧ a < s.inAddr.toNat + s.inLen.toNat

/-- Address `a` is in the output region (R32). -/
def OutRegion (s : State) (a : Nat) : Prop := s.outAddr.toNat ≤ a ∧ a < s.outAddr.toNat + s.outCap.toNat

/-- The host duty R66 (b): the regions do not overlap. -/
def Apart (s : State) : Prop := ∀ a, ¬(InRegion s a ∧ OutRegion s a)

/-- MEM_OK is true for a read of the first `n` bytes of the input region (R8). -/
def Readable (s : State) (n : Nat) : Prop := ∀ k < n, s.memOk .read (s.inAddr.toNat + k) = true

/-- MEM_OK is true for a write at the offsets `lo ≤ k < hi` of the output region (R8). -/
def Writable (s : State) (lo hi : Nat) : Prop := ∀ k < hi, lo ≤ k → s.memOk .write (s.outAddr.toNat + k) = true

/-- N (R10). -/
def frameSamples (s : State) : Nat := s.width.toNat * s.height.toNat * nch s

/-- u (R81). -/
def storageUnit (s : State) : Nat := if bitWidth s = 8 then 1 else 2

/-- RawSize (R81). -/
def rawBytes (s : State) : Nat :=
  if s.cfg.packed then (frameSamples s * bitWidth s + 7) / 8 else frameSamples s * storageUnit s

/-- The bytes per row of the modes that have rows (R82). -/
def rowSize (s : State) : Nat :=
  match s.cfg.mode.toNat with
  | 0 => s.width.toNat * nch s * storageUnit s
  | 2 => s.width.toNat * nch s
  | 3 => 3 * s.width.toNat
  | 4 => 4 * s.width.toNat
  | 5 => 2 * s.width.toNat
  | 6 => 4 * s.width.toNat
  | 7 => 3 * s.width.toNat
  | 8 => 4 * s.width.toNat
  | 9 => 4 * s.width.toNat
  | 10 => 4 * s.width.toNat
  | _ => 0

/-- OutSize (R83). -/
def decodedBytes (s : State) : Nat :=
  if s.cfg.mode = 1 then (frameSamples s * bitWidth s + 7) / 8 else s.height.toNat * rowSize s

/-- ARG (R75). -/
def argument (s : State) : Nat := s.argHi.toNat * 2 ^ 32 + s.argLo.toNat

/-- `s` with ARG holding `v`. -/
def withArg (s : State) (v : BitVec 64) : State :=
  { s with argLo := v.extractLsb' 0 32, argHi := v.extractLsb' 32 32 }

/-- RESULT, as one number (R36). -/
def result (s : State) : Nat := s.resHi.toNat * 2 ^ 32 + s.resLo.toNat

/-- The commands that read the input region and write the output region of R66 (b). -/
def scanCommands : List Instr := [.histScan, .packScan, .encFrame, .decScan, .decFrame, .passthru]

/-- The commands that store through EmitByte alone, whose written bytes are exact (R67, R113). -/
def Emits (i : Instr) : Prop := i ∈ [Instr.hdrWrite, .pkBits, .pkFlush] ∨ ∃ c, i = .encSym c

/-- The byte at `a` is one that EmitByte wrote for a command of `Emits`, an earlier one or this one, and nothing has written
since: R67 and I6 keep its value when such a command stops on an error or is aborted (log 26). -/
def Emitted (s : State) (a : Nat) : Prop := s.mem.isEmitted a = true

/-- The byte at `a` keeps its value when a command of `Emits` that does not write it stops or is aborted (R67, I6). -/
def Kept (s : State) (a : Nat) : Prop := ¬OutRegion s a ∨ Emitted s a

/-- Address `a` is between the packer's byte pointers of `s` and `t`: the bytes EmitByte writes from `s` to `t` (R113). -/
def Stored (s t : State) (a : Nat) : Prop :=
  s.outAddr.toNat + s.pk.ptr.toNat ≤ a ∧ a < s.outAddr.toNat + t.pk.ptr.toNat

/-- A command of `Emits` stopped before it wrote a byte: nothing changes but the bytes R67 leaves unspecified. -/
def StopsUnwritten (s : State) (o : Out) (code : Byte) (info : Word) : Prop :=
  ∃ t, o = .next t ∧ t = { withStatus s t with mem := t.mem, draws := t.draws } ∧ t.phase = .idle ∧ t.done = true ∧
    t.err = true ∧ t.errCode = code ∧ t.errInfo = info ∧ ∀ a, Kept s a → t.mem.read a = s.mem.read a

/-- The byte at `a` is the same in both memories: the same known byte, or unspecified by the same draw. -/
def SameByte (m n : Memory) (a : Nat) : Prop :=
  (m.loose.find? (·.covers a)).map Span.draw = (n.loose.find? (·.covers a)).map Span.draw ∧
    Sparse.get Memory.unlisted m.cells a = Sparse.get Memory.unlisted n.cells a

/-- The host duty R66 (c): the bytes of the input region are as the HIST_SCANs of the open encodes found them (log 11). -/
def InputKept (s : State) : Prop :=
  ∀ m ∈ s.scans, ∀ a, InRegion s a → m.lo ≤ a → a < m.hi → SameByte m.found s.mem a

/-- The host duties a command has as a precondition: R66 (b), and R66 (c) for PACK_SCAN. -/
def DutiesKept (i : Instr) (s : State) : Prop := (i ∈ scanCommands → Apart s) ∧ (i = .packScan → InputKept s)

/-- The commands that read the input region (R73, R52). -/
def UsesInput (i : Instr) : Prop :=
  i ∈ [Instr.histScan, .hdrRead, .packScan, .rdBits, .decScan, .encFrame, .decFrame, .passthru] ∨ ∃ c, i = .decSym c

/-- The commands that write the output region (R73, R52). -/
def UsesOutput (i : Instr) : Prop :=
  i ∈ [Instr.hdrWrite, .pkBits, .pkFlush, .packScan, .decScan, .encFrame, .decFrame, .passthru] ∨ ∃ c, i = .encSym c

/-- The greater of two words. -/
def greater (a b : Word) : Word := if a.toNat < b.toNat then b else a

/-! ### Bits -/

/-- The number whose binary digits are `l`, most significant first. -/
def valueOf (l : List Bool) : Nat := l.foldl (fun a b => 2 * a + b.toNat) 0

/-- The low `n` bits of `v`, most significant first. -/
def bitsOf (n v : Nat) : List Bool := (List.range n).map fun i => v.testBit (n - 1 - i)

/-- Stream bit `j` in its byte: bit 7 - (j mod 8) (R56). -/
def bitOfByte (b : Byte) (j : Nat) : Bool := b.getLsbD (7 - j % 8)

/-- The low `n` bytes of `v`, least significant first (R54). -/
def littleEndian (n v : Nat) : List Byte := (List.range n).map fun b => BitVec.ofNat 8 (v / 256 ^ b)

/-- `bits` as whole bytes, the last one completed with zero bits (R78, R120). -/
def paddedBytes (bits : List Bool) : List Byte :=
  (List.range ((bits.length + 7) / 8)).map fun j =>
    BitVec.ofNat 8 (valueOf (((bits ++ List.replicate 7 false).drop (8 * j)).take 8))

/-- The bytes `l` stand in memory from address `a` on. -/
def BytesAt (m : Memory) (a : Nat) (l : List Byte) : Prop := ∀ j < l.length, m.read (a + j) = l.getD j 0

/-! ### Samples and deltas (R80, R85 to R87) -/

/-- Sample(k). -/
def sampleAt (s : State) (k : Nat) : Nat :=
  if s.cfg.packed then
    valueOf ((List.range (bitWidth s)).map fun i =>
      bitOfByte (s.mem.read (s.inAddr.toNat + (k * bitWidth s + i) / 8)) (k * bitWidth s + i))
  else if bitWidth s = 8 then (s.mem.read (s.inAddr.toNat + k)).toNat
  else ((s.mem.read (s.inAddr.toNat + 2 * k)).toNat + 256 * (s.mem.read (s.inAddr.toNat + 2 * k + 1)).toNat) % alphabet s

/-- d_k: the sample at the start of a row, else the difference to the channel's sample before it (R87). -/
def deltaAt (s : State) (k : Nat) : Nat :=
  if k / nch s % s.width.toNat = 0 then sampleAt s k
  else (sampleAt s k + alphabet s - sampleAt s (k - nch s)) % alphabet s

/-- The channel of sample `k`, for `n` channels (R80). -/
def channelOf (n k : Nat) : Ch := Fin.ofNat 4 (k % n)

/-- How often symbol `d` is the delta of a sample of channel `c`. -/
def occurrences (s : State) (c : Ch) (d : Nat) : Nat :=
  ((List.range (frameSamples s)).filter fun k => k % nch s == c.val && deltaAt s k == d).length

/-- PREV[c] after RowScan (R88). -/
def prevAfterScan (s : State) (c : Ch) : BitVec 12 :=
  if c.val < nch s ∧ s.height ≠ 0 then
    if s.width = 0 then 0
    else BitVec.ofNat 12
      (sampleAt s (((s.height.toNat - 1) * s.width.toNat + (s.width.toNat - 1)) * nch s + c.val))
  else s.prev.get c

/-! ### Trees (R77, R79, R98, R109) -/

/-- A stored tree. -/
structure Tree where
  root : Nat
  nodes : List Node
  deriving DecidableEq, Repr

/-- The stored tree of channel `c`. -/
def treeOf (s : State) (c : Ch) : Tree :=
  ⟨(s.root.get c).toNat, (List.range (s.ncount.get c).toNat).map fun i => s.nodeAt c i⟩

/-- A child reference inside an alphabet of `a` symbols and a tree of `n` nodes. -/
def RefLegal (a n : Nat) (r : BitVec 16) : Prop :=
  if r.toNat < 0x8000 then r.toNat < a else r.toNat - 0x8000 < n

/-- The tree passes ValidateTree (R109). -/
def Tree.Legal (a : Nat) (t : Tree) : Prop :=
  t.nodes.length ≤ a - 1 ∧ (if t.nodes = [] then t.root < a else t.root < t.nodes.length) ∧
    ∀ n ∈ t.nodes, RefLegal a t.nodes.length n.left ∧ RefLegal a t.nodes.length n.right

/-- The child reference at the end of a path of branches from node `i`, 0 left and 1 right; a path ends at a leaf. -/
def Tree.follow (t : Tree) : List Bool → Nat → Option (BitVec 16)
  | [], _ => none
  | b :: rest, i =>
    match t.nodes[i]? with
    | none => none
    | some n =>
      if rest = [] then some (if b then n.right else n.left)
      else if (if b then n.right else n.left).toNat < 0x8000 then none
      else t.follow rest ((if b then n.right else n.left).toNat - 0x8000)

/-- `path` is a code path of symbol `sym`: empty in a tree of no nodes, else the branches to a leaf (R79, R126). -/
def Tree.CodePath (t : Tree) (sym : Nat) (path : List Bool) : Prop :=
  if t.nodes = [] then path = [] ∧ t.root = sym
  else ∃ r : BitVec 16, t.follow path t.root = some r ∧ r.toNat < 0x8000 ∧ r.toNat = sym

/-- No node is reached by two paths, nor the root again (R106). -/
def Tree.Unshared (t : Tree) : Prop :=
  ∀ (p q : List Bool) (r : BitVec 16), t.follow p t.root = some r → t.follow q t.root = some r → 0x8000 ≤ r.toNat →
    p = q ∧ r.toNat - 0x8000 ≠ t.root

/-- No leaf is deeper than 64 (R106). -/
def Tree.Shallow (t : Tree) : Prop :=
  ∀ (p : List Bool) (r : BitVec 16), t.follow p t.root = some r → r.toNat < 0x8000 → p.length ≤ 64

/-- Path `p` is walked before path `q`: the left child before the right (R105). -/
def walkedBefore : List Bool → List Bool → Bool
  | a :: p, b :: q => if a = b then walkedBefore p q else b
  | _, _ => false

/-- The header of a tree (R77). -/
def Tree.header (t : Tree) : List Byte :=
  littleEndian 4 t.nodes.length ++ littleEndian 4 t.root ++
    t.nodes.flatMap fun n => littleEndian 2 n.left.toNat ++ littleEndian 2 n.right.toNat

/-- The headers of channels 0 .. NCH - 1 (R76). -/
def headersOf (s : State) : List Byte := (List.range (nch s)).flatMap fun c => (treeOf s (Fin.ofNat 4 c)).header

/-- The work list of R96: (symbol, frequency) for every symbol of nonzero count, in descending frequency, equal
frequencies in ascending symbol order. -/
def WorkList (s : State) (c : Ch) (l : List (Nat × Nat)) : Prop :=
  l.Pairwise (fun e f => f.2 < e.2 ∨ f.2 = e.2 ∧ e.1 < f.1) ∧
    ∀ v f, (v, f) ∈ l ↔ v < alphabet s ∧ f = (s.histAt c v).toNat ∧ f ≠ 0

/-- `Merges n l nodes rest`: the merge steps of R97 take work list `l` (head first) to `rest` and make `nodes`, the first
of them with index `n`. The new entry goes after every entry of frequency at least the sum. -/
inductive Merges : Nat → List (Nat × Nat) → List Node → List (Nat × Nat) → Prop
  | stop {n : Nat} {l : List (Nat × Nat)} (h : l.length ≤ 1) : Merges n l [] l
  | merge {n : Nat} {front back rest : List (Nat × Nat)} {second tail : Nat × Nat} {nodes : List Node}
      (stays : ∀ e, front.getLast? = some e → tail.2 + second.2 ≤ e.2)
      (passed : ∀ e ∈ back, e.2 < tail.2 + second.2)
      (next : Merges (n + 1) (front ++ (0x8000 + n, tail.2 + second.2) :: back) nodes rest) :
      Merges n (front ++ back ++ [second, tail]) (⟨BitVec.ofNat 16 second.1, BitVec.ofNat 16 tail.1⟩ :: nodes) rest

/-- ROOT after the merges: the last node, else the symbol that is left, else 0 (R98, R99, R100, R102). -/
def rootAfter (nodes : List Node) (rest : List (Nat × Nat)) : Nat :=
  if nodes.length ≠ 0 then nodes.length - 1 else ((rest.head?).map Prod.fst).getD 0

/-- The tree TREE_BUILD gives from the counters of channel `c` (R96 to R98). -/
def BuiltTree (s : State) (c : Ch) (t : Tree) : Prop :=
  ∃ l rest, WorkList s c l ∧ Merges 0 l t.nodes rest ∧ t.root = rootAfter t.nodes rest

/-- The symbols of nonzero count. -/
def nonzeroSymbols (s : State) (c : Ch) : List Nat := (List.range (alphabet s)).filter fun v => s.histAt c v != 0

/-! ### The packer and the reader (R45, R46, R113 to R117) -/

/-- The bits of a code entry, first-emitted first (R44). -/
def codeBits (e : CodeEntry) : List Bool := bitsOf e.len.toNat e.bits.toNat

/-- The bits the packer holds, earliest first (R45). -/
def heldBits (p : Packer) : List Bool := bitsOf p.fill.toNat p.acc.toNat

/-- The packer and the stored bytes of `t` are those of `s` with `bits` appended MSB-first (R114). -/
def Packed (s t : State) (bits : List Bool) : Prop :=
  t.pk.ptr.toNat = s.pk.ptr.toNat + (heldBits s.pk ++ bits).length / 8 ∧
  t.pk.fill.toNat = (heldBits s.pk ++ bits).length % 8 ∧
  t.pk.acc.toNat = valueOf ((heldBits s.pk ++ bits).drop (8 * ((heldBits s.pk ++ bits).length / 8))) ∧
  ∀ j < (heldBits s.pk ++ bits).length / 8,
    (t.mem.read (s.outAddr.toNat + s.pk.ptr.toNat + j)).toNat =
      valueOf (((heldBits s.pk ++ bits).drop (8 * j)).take 8)

/-- `bits` are appended, and no other byte changes (R114). -/
def Appended (s t : State) (bits : List Bool) : Prop :=
  Packed s t bits ∧ ∀ a, ¬(s.outAddr.toNat + s.pk.ptr.toNat ≤ a ∧
    a < s.outAddr.toNat + s.pk.ptr.toNat + (heldBits s.pk ++ bits).length / 8) → t.mem.read a = s.mem.read a

/-- The bytes that appending `n` bits completes, if any, fit the output region and MEM_OK accepts them. -/
def Room (s : State) (n : Nat) : Prop :=
  ((s.pk.fill.toNat + n) / 8 ≠ 0 → s.pk.ptr.toNat + (s.pk.fill.toNat + n) / 8 ≤ s.outCap.toNat) ∧
    Writable s s.pk.ptr.toNat (s.pk.ptr.toNat + (s.pk.fill.toNat + n) / 8)

/-- The `kept + 1`-th of the bits to be appended completes a byte, and PK_PTR has no room for it. -/
def NoRoomAt (s : State) (kept : Nat) : Prop :=
  s.pk.fill.toNat + kept = 8 * (s.outCap.toNat - s.pk.ptr.toNat) + 7

/-- A unit command that appends `bits` stopped with OUT_OVERFLOW at PK_PTR, with the first `kept` of them appended (R113,
R114) and the bytes it did not write as R67 says. -/
def Overflowed (s : State) (o : Out) (bits : List Bool) (kept : Nat) : Prop :=
  ∃ t, o = .next t ∧ t = { withStatus s t with mem := t.mem, draws := t.draws, pk := t.pk } ∧ t.phase = .idle ∧
    t.done = true ∧ t.err = true ∧ t.errCode = 0x05 ∧ t.errInfo = t.pk.ptr ∧ t.pk.ptr = greater s.pk.ptr s.outCap ∧
    Packed s t (bits.take kept) ∧ ∀ a, ¬Stored s t a → Kept s a → t.mem.read a = s.mem.read a

/-- RD_PTR when the `j`-th next bit is read, counted from 0. -/
def readOffset (s : State) (j : Nat) : Word := s.rd.ptr + BitVec.ofNat 32 ((s.rd.bit.toNat + j) / 8)

/-- The byte the `j`-th next bit is taken from: RD_BUF while the byte in it is consumed, else the input region's. -/
def readFrom (s : State) (j : Nat) : Byte :=
  if s.rd.bit ≠ 0 ∧ (s.rd.bit.toNat + j) / 8 = 0 then s.rd.buf
  else s.mem.read (s.inAddr.toNat + (readOffset s j).toNat)

/-- The `j`-th next bit of the input stream. -/
def nextBit (s : State) (j : Nat) : Bool := bitOfByte (readFrom s j) (s.rd.bit.toNat + j)

/-- The `n` next bits of the input stream. -/
def streamBits (s : State) (n : Nat) : List Bool := (List.range n).map (nextBit s)

/-- The next `n` bits are inside the input region and MEM_OK accepts the refills they need. -/
def Available (s : State) (n : Nat) : Prop :=
  ∀ j < n, (s.rd.bit.toNat + j) % 8 = 0 →
    (readOffset s j).toNat < s.inLen.toNat ∧ s.memOk .read (s.inAddr.toNat + (readOffset s j).toNat) = true

/-- The `n`-th next bit needs a byte at or past the end of the input region. -/
def EndsAt (s : State) (n : Nat) : Prop :=
  (s.rd.bit.toNat + n) % 8 = 0 ∧ s.inLen.toNat ≤ (readOffset s n).toNat

/-- The reader after `n` bits. -/
def readerAfter (s : State) (n : Nat) : Reader :=
  if n = 0 then s.rd
  else ⟨s.rd.ptr + BitVec.ofNat 32 ((s.rd.bit.toNat + n) / 8), BitVec.ofNat 3 ((s.rd.bit.toNat + n) % 8), readFrom s (n - 1)⟩

/-! ### The decode output (R82, R127 to R138) -/

/-- The reconstructed sample `k` of the deltas `d`: their sum along the row, mod A (R127). -/
def reconstructed (s : State) (d : Nat → Nat) (k : Nat) : Nat :=
  ((List.range (k / nch s % s.width.toNat + 1)).map fun x => d (k - x * nch s)).sum % alphabet s

/-- clip (R12). -/
def clip255 (x : Int) : Nat := if x < 0 then 0 else if 255 < x then 255 else x.toNat

/-- The component of CscPixel(luma, U, V) that stands at place `i` of the order B, G, R (R129, R136). -/
def colour (luma u v : Nat) (i : Nat) : Nat :=
  if i = 0 then clip255 ((298 * ((luma : Int) - 16) + 516 * ((u : Int) - 128) + 128) / 256)
  else if i = 1 then
    clip255 ((298 * ((luma : Int) - 16) - 100 * ((u : Int) - 128) - 208 * ((v : Int) - 128) + 128) / 256)
  else clip255 ((298 * ((luma : Int) - 16) + 409 * ((v : Int) - 128) + 128) / 256)

/-- Byte `b` of an output row with samples `row` and narrowed samples `n`, in the modes that have rows (R82). -/
def rowByte (s : State) (row n : Nat → Nat) (b : Nat) : Nat :=
  match s.cfg.mode.toNat with
  | 0 => if bitWidth s = 8 then row b else row (b / 2) / 256 ^ (b % 2) % 256
  | 2 => n b
  | 3 => n (b / 3)
  | 4 => if b % 4 = 3 then 0xFF else n (b / 4)
  | 5 => if b % 2 = 0 then n (b / 2) else 0x80
  | 6 => if b % 4 = 0 then 0x80 else if b % 4 = 3 then n (b / 4) else 0
  | 7 => colour (n (4 * (b / 6) + 1 + 2 * (b / 3 % 2))) (n (4 * (b / 6))) (n (4 * (b / 6) + 2)) (b % 3)
  | 8 => if b % 4 = 3 then 0xFF
    else colour (n (4 * (b / 8) + 1 + 2 * (b / 4 % 2))) (n (4 * (b / 8))) (n (4 * (b / 8) + 2)) (b % 4)
  | 9 => if b % 4 = 3 then 0xFF else n (3 * (b / 4) + b % 4)
  | 10 => if b % 4 = 3 then 0xFF else n (3 * (b / 4) + b % 4)
  | _ => 0

/-- The decoded row that output row `r` shows (R82). -/
def shownRow (s : State) (r : Nat) : Nat :=
  if s.cfg.mode.toNat ∈ [3, 4, 7, 8, 10] then s.height.toNat - 1 - r else r

/-- Byte `o` of the output of a decode with reconstructed samples `v` (R82, R138). -/
def outputByte (s : State) (v : Nat → Nat) (o : Nat) : Nat :=
  if s.cfg.mode = 1 then
    valueOf ((List.range 8).map fun i =>
      decide (8 * o + i < frameSamples s * bitWidth s) &&
        (v ((8 * o + i) / bitWidth s)).testBit (bitWidth s - 1 - (8 * o + i) % bitWidth s))
  else
    rowByte s (fun j => v (shownRow s (o / rowSize s) * s.width.toNat * nch s + j))
      (fun j => v (shownRow s (o / rowSize s) * s.width.toNat * nch s + j) / 2 ^ (bitWidth s - 8)) (o % rowSize s)

/-- ACC[c] after a decode with reconstructed samples `v` (R140). -/
def accAfterDecode (s : State) (v : Nat → Nat) (c : Ch) : BitVec 12 :=
  if c.val < nch s ∧ s.height ≠ 0 then
    if s.width = 0 then 0
    else BitVec.ofNat 12 (v (((s.height.toNat - 1) * s.width.toNat + (s.width.toNat - 1)) * nch s + c.val))
  else s.acc.get c

/-- The packer after a decode: at the end of the output in mode 1, else unchanged (R140). -/
def packerAfterDecode (s : State) : Packer :=
  if s.cfg.mode = 1 then ⟨BitVec.ofNat 32 (decodedBytes s), 0, 0⟩ else s.pk

/-- What DEC_SCAN and DEC_FRAME leave at completion, for reconstructed samples `v` (R140). -/
def Decoded (s t : State) (v : Nat → Nat) : Prop :=
  (∀ o < decodedBytes s, (t.mem.read (s.outAddr.toNat + o)).toNat = outputByte s v o) ∧
  (∀ a, ¬(s.outAddr.toNat ≤ a ∧ a < s.outAddr.toNat + decodedBytes s) → t.mem.read a = s.mem.read a) ∧
  (∀ c, t.acc.get c = accAfterDecode s v c) ∧ t.pk = packerAfterDecode s ∧
  t.outSize = BitVec.ofNat 32 (decodedBytes s)

/-- The code bits `bits` of a frame with deltas `d`, each coded by its channel's tree (R78). -/
def FrameCode (s : State) (trees : Ch → Tree) (d : Nat → Nat) (bits : List Bool) : Prop :=
  ∃ path : Nat → List Bool, bits = (List.range (frameSamples s)).flatMap path ∧
    ∀ k < frameSamples s, (trees (channelOf (nch s) k)).CodePath (d k) (path k)

/-- The code bits of the first `n` samples of the frame (R78). -/
def scanBits (s : State) (n : Nat) : List Bool :=
  (List.range n).flatMap fun k => codeBits (s.codeAt (channelOf (nch s) k) (deltaAt s k))

/-! ### Malformed headers (R111) -/

/-- From offset `start` the input region has the headers of the legal trees `trees`, then that of `bad` for the next channel,
and reading it stops with `code` after `len` bytes: HDR_TRUNC where the input region ends inside it, BAD_COUNT after its first
8 bytes for a count above A - 1, BAD_REF after all of it when the tree is not legal. -/
def BadHeader (s : State) (start : Nat) (trees : List Tree) (bad : Tree) (code : Byte) (len : Nat) : Prop :=
  trees.length < nch s ∧ (∀ t ∈ trees, t.Legal (alphabet s)) ∧ bad.nodes.length < 2 ^ 32 ∧ bad.root < 2 ^ 32 ∧
    start + len ≤ s.inLen.toNat ∧ Readable s s.inLen.toNat ∧
    (∀ j < len, s.mem.read (s.inAddr.toNat + start + j) = (trees.flatMap Tree.header ++ bad.header).getD j 0) ∧
    (code = 0x06 ∧ bad.nodes.length ≤ alphabet s - 1 ∧ start + len = s.inLen.toNat ∧
        (trees.flatMap Tree.header).length ≤ len ∧ len < (trees.flatMap Tree.header).length + bad.header.length ∨
      code = 0x07 ∧ alphabet s - 1 < bad.nodes.length ∧ len = (trees.flatMap Tree.header).length + 8 ∨
      code = 0x08 ∧ bad.nodes.length ≤ alphabet s - 1 ∧ ¬bad.Legal (alphabet s) ∧
        len = (trees.flatMap Tree.header).length + bad.header.length)

/-- What that stop leaves: RD_PTR past the bytes read, the channels before loaded, the channels after unchanged; of the channel
of `bad` nothing (BAD_COUNT), all (BAD_REF), or the nodes read whole, with NCOUNT and ROOT unchanged (HDR_TRUNC). Whether a
node read in part has its left reference is the model's choice (log 15) and is left open here. -/
def BadHeaderLeft (s t : State) (start : Nat) (trees : List Tree) (bad : Tree) (code : Byte) (len : Nat) : Prop :=
  t.phase = .idle ∧ t.done = true ∧ t.err = true ∧ t.errCode = code ∧
    t.errInfo = (if code = 0x06 then s.inLen else BitVec.ofNat 32 trees.length) ∧ t.rd.ptr.toNat = start + len ∧
    (∀ c : Ch, ∀ h : c.val < trees.length, treeOf t c = trees[c.val]) ∧
    (∀ c : Ch, trees.length < c.val → t.ncount.get c = s.ncount.get c ∧ t.root.get c = s.root.get c ∧
      ∀ i < 4096, t.nodeAt c i = s.nodeAt c i) ∧
    ∀ c : Ch, c.val = trees.length →
      (code = 0x08 → treeOf t c = bad) ∧
      (code ≠ 0x08 → t.ncount.get c = s.ncount.get c ∧ t.root.get c = s.root.get c) ∧
      (code = 0x07 → ∀ i < 4096, t.nodeAt c i = s.nodeAt c i) ∧
      (code = 0x06 → ∀ i < 4096,
        ((trees.flatMap Tree.header).length + 8 + 4 * (i + 1) ≤ len → t.nodeAt c i = bad.nodes.getD i ⟨0, 0⟩) ∧
        (len ≤ (trees.flatMap Tree.header).length + 8 + 4 * i → t.nodeAt c i = s.nodeAt c i))

/-! ### The memory accesses of a command (R15) -/

/-- The first offset of the input region that no refill has loaded yet. -/
def loadedTo (r : Reader) : Nat := if r.bit = 0 then r.ptr.toNat else (r.ptr + 1).toNat

/-- The offsets of the input region that command `i` reads from `s` to its completion `t`: from the first up to the second. -/
def readOffsets (i : Instr) (s t : State) : Nat × Nat :=
  match i with
  | .histScan | .packScan | .encFrame | .passthru => (0, rawBytes s)
  | .hdrRead => (s.rd.ptr.toNat, t.rd.ptr.toNat)
  | .rdBits | .decSym _ | .decScan => (loadedTo s.rd, loadedTo t.rd)
  | .decFrame => (0, loadedTo t.rd)
  | _ => (0, 0)

/-- The offsets of the output region that command `i` writes from `s` to its completion `t`. -/
def writeOffsets (i : Instr) (s t : State) : Nat × Nat :=
  match i with
  | .pkBits | .pkFlush | .encSym _ | .hdrWrite | .packScan => (s.pk.ptr.toNat, t.pk.ptr.toNat)
  | .encFrame => (0, t.outSize.toNat)
  | .decScan | .decFrame => (0, decodedBytes s)
  | .passthru => (0, rawBytes s)
  | _ => (0, 0)

/-- Command `i` accesses address `a` from `s` to its completion `t`. -/
def Accesses (i : Instr) (s t : State) (kind : AccessKind) (a : Nat) : Prop :=
  match kind with
  | .read => ∃ k, (readOffsets i s t).1 ≤ k ∧ k < (readOffsets i s t).2 ∧ a = s.inAddr.toNat + k
  | .write => ∃ k, (writeOffsets i s t).1 ≤ k ∧ k < (writeOffsets i s t).2 ∧ a = s.outAddr.toNat + k

/-! ### Lists of unit commands -/

/-- Command `i` for each ARG of a list; answers the RESULT of each, and the last state. -/
def feedArgs (i : Instr) : List (BitVec 64) → State → Option (List Nat × State)
  | [], s => some ([], s)
  | v :: rest, s =>
    match exec i (withArg s v) with
    | .next t => (feedArgs i rest t).map fun r => (result t :: r.1, r.2)
    | _ => none

/-- PK_BITS for each (value, count) of a list; every command completes. -/
def packAll : List (BitVec 64 × BitVec 7) → State → Option State
  | [], s => some s
  | (v, n) :: rest, s =>
    match exec .pkBits { withArg s v with argLen := n } with
    | .next t => if t.err then none else packAll rest t
    | _ => none

/-- RD_BITS for each count of a list; every command completes; answers the RESULT of each. -/
def readAll : List (BitVec 7) → State → Option (List Nat)
  | [], _ => some []
  | n :: rest, s =>
    match exec .rdBits { s with argLen := n } with
    | .next t => if t.err then none else (readAll rest t).map fun r => result t :: r
    | _ => none

/-! ### Host accesses -/

/-- A 32-bit register write by the host, as the next step. -/
def write (s : State) (off : BitVec 12) (v : Word) : Out := step { s with script := .write .word off v :: s.script }

/-- A 32-bit register read by the host, as the next step; the data is in `hostData`. -/
def read (s : State) (off : BitVec 12) : Out := step { s with script := .read .word off :: s.script }

/-- The read of `off` returns `v` and does nothing else (R60). -/
def Reads (s : State) (off : BitVec 12) (v : Word) : Prop := read s off = .next { s with hostData := v }

/-- The offsets R25 lists. -/
def listedOffsets : List (BitVec 12) :=
  [0x000, 0x004, 0x008, 0x00C, 0x010, 0x014, 0x018, 0x020, 0x024, 0x028, 0x02C, 0x030, 0x034] ++
  [0x040, 0x044, 0x048, 0x050, 0x054, 0x060, 0x064, 0x068, 0x06C, 0x070, 0x074, 0x078, 0x07C]

/-- The RW registers that read back what is written, each with the bits it has (R25). -/
def readWriteRegisters : List (BitVec 12 × Word) :=
  [(0x010, 0x00000F3F), (0x014, 0x0000FFFF), (0x018, 0x0000FFFF), (0x020, 0xFFFFFFFF), (0x024, 0xFFFFFFFF)] ++
  [(0x028, 0xFFFFFFFF), (0x02C, 0xFFFFFFFF), (0x040, 0xFFFFFFFF), (0x044, 0xFFFFFFFF), (0x048, 0x0000007F)] ++
  [(0x070, 0x00033FFF)]

/-- The registers no write changes (R25, R38). -/
def readOnlyRegisters : List (BitVec 12) :=
  [0x000, 0x030, 0x034, 0x050, 0x054, 0x060, 0x064, 0x068, 0x06C, 0x078, 0x07C]

/-- What the registers read while BUSY is 0, by offset, but CTRL, STATUS and the table window (R25, R26, R30 to R37, R45,
R46). -/
def registerWords (s : State) : List (BitVec 12 × Word) :=
  [(0x000, 0x5A4F4507), (0x00C, s.cmd)] ++
  [(0x010, 0#20 ++ s.cfg.mode ++ 0#2 ++ BitVec.ofBool s.cfg.packed ++ s.cfg.nch ++ s.cfg.bw)] ++
  [(0x014, 0#16 ++ s.width), (0x018, 0#16 ++ s.height), (0x020, s.inAddr), (0x024, s.inLen), (0x028, s.outAddr)] ++
  [(0x02C, s.outCap), (0x030, s.outSize), (0x034, s.errInfo), (0x040, s.argLo), (0x044, s.argHi)] ++
  [(0x048, 0#25 ++ s.argLen), (0x050, s.resLo), (0x054, s.resHi), (0x060, s.pk.ptr)] ++
  [(0x064, 0#16 ++ s.pk.acc ++ 0#5 ++ s.pk.fill), (0x068, s.rd.ptr), (0x06C, 0#16 ++ s.rd.buf ++ 0#5 ++ s.rd.bit)] ++
  [(0x070, 0#14 ++ s.tab.table ++ 0#2 ++ s.tab.ch ++ s.tab.index)]

/-- What a write of `v` to an RW register leaves while BUSY is 0, by offset (R25, R30 to R32, R35, R37). -/
def registerWrites (s : State) (v : Word) : List (BitVec 12 × State) :=
  [(0x010, { s with cfg := ⟨v.extractLsb' 0 2, v.extractLsb' 2 3, v.getLsbD 5, v.extractLsb' 8 4⟩ })] ++
  [(0x014, { s with width := v.extractLsb' 0 16 }), (0x018, { s with height := v.extractLsb' 0 16 })] ++
  [(0x020, { s with inAddr := v }), (0x024, { s with inLen := v }), (0x028, { s with outAddr := v })] ++
  [(0x02C, { s with outCap := v }), (0x040, { s with argLo := v }), (0x044, { s with argHi := v })] ++
  [(0x048, { s with argLen := v.extractLsb' 0 7 })] ++
  [(0x070, { s with tab := ⟨v.extractLsb' 0 12, v.extractLsb' 12 2, v.extractLsb' 16 2⟩ })]

/-- The host writes the byte `v` to address `a` of external memory, as the next step. -/
def storeByte (s : State) (a : Word) (v : Byte) : Out := step { s with script := .memWrite a v :: s.script }

/-- The host reads the byte at address `a` of external memory, as the next step; the data is in `hostData`. -/
def loadByte (s : State) (a : Word) : Out := step { s with script := .memRead a :: s.script }

/-- A command that reads the input region, and has `a` in it, is running. -/
def InputBusy (s : State) (a : Nat) : Prop :=
  s.phase = .running ∧ (∃ i, decode s.cmd = .ok i ∧ UsesInput i) ∧ InRegion s a

/-- A command that writes the output region, and has `a` in it, is running. -/
def OutputBusy (s : State) (a : Nat) : Prop :=
  s.phase = .running ∧ (∃ i, decode s.cmd = .ok i ∧ UsesOutput i) ∧ OutRegion s a

/-- The next step is the host's `rst`, or its write of CTRL with bit 0 set (R168). -/
def ResetNext (s : State) (rest : List HostAction) : Prop :=
  s.script = .rst :: rest ∨
    ∃ v : Word, v.getLsbD 0 = true ∧ s.phase ≠ .resetting ∧ s.script = .write .word 0x004 v :: rest

/-- The command that runs, if one runs, keeps the host duties (R66). -/
def RunKeepsDuties (s : State) : Prop := s.phase = .running → ∀ i, decode s.cmd = .ok i → DutiesKept i s

/-- Every register, table entry and unit state at its reset value (R25, R49). -/
def AtReset (t : State) : Prop :=
  (∀ off : BitVec 12, off.toNat % 4 = 0 →
    Reads t off (if off = 0x000 then 0x5A4F4507 else if off = 0x010 then 0x00000004 else 0)) ∧
  (∀ (c : Ch) (i : Nat), t.histAt c i = 0 ∧ t.nodeAt c i = ⟨0, 0⟩ ∧ t.codeAt c i = ⟨false, 0, 0⟩) ∧
  (∀ c : Ch, t.ncount.get c = 0 ∧ t.root.get c = 0 ∧ t.prev.get c = 0 ∧ t.acc.get c = 0) ∧
  t.pk = ⟨0, 0, 0⟩ ∧ t.rd = ⟨0, 0, 0⟩ ∧ t.phase = .idle ∧ t.irq = false

/-! ### Command words (R72 to R74) -/

/-- The OP values R74 reserves. -/
def ReservedOp (op : Nat) : Prop :=
  0x01 ≤ op ∧ op ≤ 0x0F ∨ 0x15 ≤ op ∧ op ≤ 0x17 ∨ 0x1A ≤ op ∧ op ≤ 0x1F ∨ 0x25 ≤ op ∧ op ≤ 0x27 ∨
  0x2C ≤ op ∧ op ≤ 0x2F ∨ 0x33 ≤ op ∧ op ≤ 0x37 ∨ 0x3A ≤ op ∧ op ≤ 0x3F ∨ 0x43 ≤ op ∧ op ≤ 0xFF

/-- The OP values of the format C commands (R73); every other OP that is not reserved is format N. -/
def formatC : List Nat := [0x12, 0x13, 0x14, 0x23, 0x2A, 0x31, 0x32]

/-- A command word that encodes no command (R74). -/
def IllegalWord (w : Word) : Prop :=
  ReservedOp (w.toNat % 256) ∨ w.toNat / 1024 ≠ 0 ∨ w.toNat % 256 ∉ formatC ∧ w.toNat / 256 % 4 ≠ 0

end Sys2Proof.Spec

section Statements

open Sys2Proof Sys2Proof.Machine Sys2Proof.Spec

/-! ### Reset, registers and the host's accesses -/

/-- The invariant holds after reset. -/
def Obligations.ResetStateMeetsInvariant : Prop := Inv State.reset

/-- R168 and R49, from any state: `rst`, or a write of CTRL with bit 0 set, starts the reset sequence; while it runs STATUS
reads BUSY and every register write is ignored; when it ends every register and table is at its reset value. External memory
is unchanged outside the output region of an aborted command; an aborted PK_BITS, PK_FLUSH, ENC_SYM or HDR_WRITE has written
some first bytes of those it would write, and of the others in its output region those that EmitByte wrote are unchanged
(R67, I6). The model's reset state holds those values too. The model's choices: reset is two steps and ignores a CMD write in
between without OVR (log 13), how far an aborted command got is free (log 5), which bytes count as written by EmitByte (log
26), and a reset that would abort a command with a broken host duty is refused (log 9, 11; OverlappingRegionsRefused). -/
def Obligations.ResetRestoresEveryRegister : Prop :=
  AtReset State.reset ∧ ∀ (s : State) (rest : List HostAction), Inv s → ResetNext s rest → RunKeepsDuties s →
    ∃ t, step s = .next t ∧ t.script = rest ∧ t.phase = .resetting ∧ t.irq = false ∧ Reads t 0x008 1 ∧
      (∀ (off : BitVec 12) (v : Word), off.toNat % 4 = 0 → write t off v = .next t) ∧
      AtReset { t with phase := .idle } ∧
      (step { t with script := .elapse :: rest } = .next { t with phase := .idle }) ∧
      (∀ a, ¬(s.phase = .running ∧ OutRegion s a) → t.mem.read a = s.mem.read a) ∧
      ∀ i, s.phase = .running → decode s.cmd = .ok i →
        (¬UsesOutput i → t.mem = s.mem) ∧
        (Emits i → ∃ u n, exec i s = .next u ∧ s.pk.ptr.toNat + n ≤ u.pk.ptr.toNat ∧ ∀ a,
          if s.outAddr.toNat + s.pk.ptr.toNat ≤ a ∧ a < s.outAddr.toNat + s.pk.ptr.toNat + n then
            t.mem.read a = u.mem.read a
          else Kept s a → t.mem.read a = s.mem.read a)

/-- R25, R26 and R30 to R37, R45, R46: while BUSY is 0 each register reads its own fields at its own offset; a write of an RW
register lands in the fields R25 gives it and changes nothing else, and reads back the bits the register has; CTRL stores its
bit 1; a write of a read-only register changes nothing. -/
def Obligations.RegistersReadBack : Prop :=
  ∀ (s : State) (v : Word), s.phase = .idle →
    (∀ r ∈ registerWords s, Reads s r.1 r.2) ∧
    (∀ r ∈ registerWrites s v, write s r.1 v = .next r.2) ∧
    (∀ r ∈ readWriteRegisters, ∃ t, write s r.1 v = .next t ∧ Reads t r.1 (v &&& r.2)) ∧
    Reads s 0x004 (if s.irqEn then 2 else 0) ∧
    (v.getLsbD 0 = false → write s 0x004 v = .next { s with irqEn := v.getLsbD 1 }) ∧
    (∀ off ∈ readOnlyRegisters, write s off v = .next s)

/-- R24: an unlisted offset reads 0 and a write of it changes nothing; an access that is not 32 bits wide or not 4-byte
aligned is refused (I3). That an unlisted offset reads 0 also while BUSY is 1, where R39 could be meant to cover it, is the
model's choice (log 24), and so is the refusal as an action of the model (log 19). -/
def Obligations.UnlistedAndMisalignedAccesses : Prop :=
  ∀ (s : State) (off : BitVec 12) (v : Word) (size : AccessSize) (rest : List HostAction),
    (off.toNat % 4 = 0 → off ∉ listedOffsets → Reads s off 0 ∧ write s off v = .next s) ∧
    (size ≠ .word ∨ off.toNat % 4 ≠ 0 →
      step { s with script := .write size off v :: rest } = .refused (.registerAccess size off) ∧
      step { s with script := .read size off :: rest } = .refused (.registerAccess size off))

/-- R38, the table window while BUSY is 0: what the three words read, what a write of TAB_DATA0 changes, and that nothing
else changes. -/
def Obligations.TableWindowReadsAndWrites : Prop :=
  ∀ (s : State) (c : Ch) (v : Word), Inv s → s.phase = .idle → s.tab.ch.toNat = c.val →
    (s.tab.table = 0 → Reads s 0x074 (s.histAt c s.tab.index.toNat) ∧ Reads s 0x078 0 ∧ Reads s 0x07C 0 ∧
      ∃ t, write s 0x074 v = .next t ∧ t = { s with hist := t.hist } ∧ ∀ (d : Ch) (i : Nat), i < 4096 →
        t.histAt d i = if d = c ∧ i = s.tab.index.toNat then v else s.histAt d i) ∧
    (s.tab.table = 1 → s.tab.index.toNat ≤ 4094 →
      Reads s 0x074 ((s.nodeAt c s.tab.index.toNat).right ++ (s.nodeAt c s.tab.index.toNat).left) ∧
      Reads s 0x078 0 ∧ Reads s 0x07C 0 ∧
      ∃ t, write s 0x074 v = .next t ∧ t = { s with tree := t.tree } ∧ ∀ (d : Ch) (i : Nat), i < 4096 →
        t.nodeAt d i = if d = c ∧ i = s.tab.index.toNat then ⟨v.extractLsb' 0 16, v.extractLsb' 16 16⟩ else s.nodeAt d i) ∧
    (s.tab.table = 1 → s.tab.index.toNat = 4095 →
      Reads s 0x074 0 ∧ Reads s 0x078 0 ∧ Reads s 0x07C 0 ∧ write s 0x074 v = .next s) ∧
    (s.tab.table = 2 →
      Reads s 0x074 (BitVec.ofNat 32 ((s.codeAt c s.tab.index.toNat).valid.toNat * 2 ^ 31 +
        (s.codeAt c s.tab.index.toNat).len.toNat)) ∧
      Reads s 0x078 ((s.codeAt c s.tab.index.toNat).bits.extractLsb' 0 32) ∧
      Reads s 0x07C ((s.codeAt c s.tab.index.toNat).bits.extractLsb' 32 32) ∧ write s 0x074 v = .next s) ∧
    (s.tab.table = 3 → Reads s 0x078 0 ∧ Reads s 0x07C 0 ∧
      (s.tab.index = 0 → Reads s 0x074 (s.ncount.get c) ∧ write s 0x074 v = .next { s with ncount := s.ncount.set c v }) ∧
      (s.tab.index = 1 → Reads s 0x074 (s.root.get c) ∧ write s 0x074 v = .next { s with root := s.root.set c v }) ∧
      (s.tab.index = 2 → Reads s 0x074 ((s.prev.get c).setWidth 32) ∧
        write s 0x074 v = .next { s with prev := s.prev.set c (v.extractLsb' 0 12) }) ∧
      (s.tab.index = 3 → Reads s 0x074 ((s.acc.get c).setWidth 32) ∧
        write s 0x074 v = .next { s with acc := s.acc.set c (v.extractLsb' 0 12) }) ∧
      (4 ≤ s.tab.index.toNat → Reads s 0x074 0 ∧ write s 0x074 v = .next s)) ∧
    write s 0x078 v = .next s ∧ write s 0x07C v = .next s

/-- R28: a write of STATUS clears DONE, ERR and OVR where it has a 1, leaves BUSY and ERRCODE, and is taken while BUSY is
1; STATUS reads BUSY, DONE, ERR, OVR and ERRCODE. -/
def Obligations.StatusWriteOneToClear : Prop :=
  ∀ (s : State) (v : Word), s.phase ≠ .resetting →
    (write s 0x008 v = .next { s with
      done := s.done && !v.getLsbD 1
      err := s.err && !v.getLsbD 2
      ovr := s.ovr && !v.getLsbD 3 }) ∧
    ∃ w, Reads s 0x008 w ∧ (w.getLsbD 0 = true ↔ s.phase ≠ .idle) ∧ w.getLsbD 1 = s.done ∧ w.getLsbD 2 = s.err ∧
      w.getLsbD 3 = s.ovr ∧ w.extractLsb' 8 8 = s.errCode ∧ w.extractLsb' 4 4 = 0 ∧ w.extractLsb' 16 16 = 0

/-- R39, and the dropped write of R29. While BUSY is 1, reads of ID, CTRL and STATUS return their values and a read of any
other register a free value, with no other effect. While a command runs, a write to any register other than CTRL, STATUS and CMD
has no effect, and a CMD write sets OVR and nothing else. (While the reset sequence runs every write is ignored, R168:
ResetRestoresEveryRegister.) External memory, R20 and R66 (a): while a command runs a host write of a byte of its regions and a
host read of its output region are refused; any other access writes or reads that one byte. Which regions a command has is the
model's choice (log 10), and so are the fault of a host access where MEM_OK is false (log 7) and that the reset sequence
restricts no access to memory (log 27). -/
def Obligations.BusyWindow : Prop :=
  (∀ (s : State) (a : Word) (v : Byte), Inv s →
    (InputBusy s a.toNat ∨ OutputBusy s a.toNat → storeByte s a v = .refused (.dutyRegionWhileBusy a)) ∧
    (¬InputBusy s a.toNat → ¬OutputBusy s a.toNat →
      (s.memOk .write a.toNat = true → ∃ t, storeByte s a v = .next t ∧ t = { s with mem := t.mem } ∧
        ∀ b, t.mem.read b = if b = a.toNat then v else s.mem.read b) ∧
      (s.memOk .write a.toNat = false → storeByte s a v = .fault (.hostAddress a))) ∧
    (OutputBusy s a.toNat → loadByte s a = .refused (.dutyRegionWhileBusy a)) ∧
    (¬OutputBusy s a.toNat →
      (s.memOk .read a.toNat = true → loadByte s a = .next { s with hostData := 0#24 ++ s.mem.read a.toNat }) ∧
      (s.memOk .read a.toNat = false → loadByte s a = .fault (.hostAddress a)))) ∧
  ∀ (s : State) (off : BitVec 12) (v : Word), s.phase ≠ .idle → off ∈ listedOffsets →
    Reads s 0x000 0x5A4F4507 ∧ Reads s 0x004 (if s.irqEn then 2 else 0) ∧
    Reads s 0x008 (BitVec.ofNat 32
      (1 + 2 * s.done.toNat + 4 * s.err.toNat + 8 * s.ovr.toNat + 256 * s.errCode.toNat)) ∧
    (off ≠ 0x000 → off ≠ 0x004 → off ≠ 0x008 →
      read s off = .next { s with hostData := Config.freeWord s.draws, draws := s.draws + 1 }) ∧
    (s.phase = .running →
      (off ≠ 0x004 → off ≠ 0x008 → off ≠ 0x00C → write s off v = .next s) ∧
      (write s 0x00C v = .next { s with ovr := true }) ∧
      (v.getLsbD 0 = false → write s 0x004 v = .next { s with irqEn := v.getLsbD 1 }) ∧
      write s 0x008 v = .next { s with
        done := s.done && !v.getLsbD 1
        err := s.err && !v.getLsbD 2
        ovr := s.ovr && !v.getLsbD 3 })

/-- R159: `irq` is IRQ_EN and DONE; the end of a command, by completion or error stop, raises it where IRQ_EN is set; a write of
1 to DONE, the start of a command, `rst` and a write of CTRL.SRST clear it; writes of CTRL mask and unmask it without a change
of DONE. The CMD write of an illegal word ends at once, so `irq` is then IRQ_EN (R74, R156). A reset that would abort a
command with a broken host duty is refused (R65; the model's choice of place, log 9, 11). -/
def Obligations.InterruptIsEnabledDone : Prop :=
  ∀ s : State, (s.irq = true ↔ s.irqEn = true ∧ s.done = true) ∧
    (s.phase ≠ .resetting → ∃ t, write s 0x008 2 = .next t ∧ t.irq = false) ∧
    (∀ i t, s.irqEn = true → exec i s = .next t → t.irq = true) ∧
    (s.phase = .idle → ∀ w i, decode w = .ok i → ∃ t, write s 0x00C w = .next t ∧ t.irq = false) ∧
    (s.phase = .idle → ∀ w, IllegalWord w → ∃ t, write s 0x00C w = .next t ∧ t.irq = s.irqEn) ∧
    (Inv s → RunKeepsDuties s →
      (s.phase ≠ .resetting → ∀ v : Word, v.getLsbD 0 = true → ∃ t, write s 0x004 v = .next t ∧ t.irq = false) ∧
      ∃ t, step { s with script := .rst :: s.script } = .next t ∧ t.irq = false) ∧
    (s.phase ≠ .resetting → write s 0x004 0 = .next { s with irqEn := false }) ∧
    (s.phase ≠ .resetting → s.done = true → ∃ t, write s 0x004 2 = .next t ∧ t.irq = true)

/-! ### Command words and the core's turn -/

/-- Every word that encodes a command encodes exactly one, and it is the decoded one: `decode` and `encode` are inverse. -/
def Obligations.DecodeAndEncodeAgree : Prop := ∀ (w : Word) (i : Instr), decode w = .ok i ↔ w = encode i

/-- R74, whole: which words are illegal; an illegal word is accepted by CMD and stops at once, in the step of the CMD write
(R156), with BAD_CMD, and nothing else changes but CMD. -/
def Obligations.IllegalWordsStop : Prop :=
  (∀ w : Word, IllegalWord w ↔ ¬∃ i, decode w = .ok i) ∧
    ∀ (s : State) (w : Word), s.phase = .idle → IllegalWord w → write s 0x00C w = stopped { s with cmd := w } 0x01 0

/-- Words written out from R72 and R73, one for each family and each kind of illegal word. -/
def Obligations.SampleWordsDecode : Prop :=
  decode 0x00000000 = .ok .nop ∧ decode 0x00000312 = .ok (.histAdd 3) ∧ decode 0x00000113 = .ok (.treeBuild 1) ∧
    decode 0x00000018 = .ok .hdrWrite ∧ decode 0x00000223 = .ok (.encSym 2) ∧ decode 0x00000029 = .ok .rdBits ∧
    decode 0x0000012A = .ok (.decSym 1) ∧ decode 0x00000231 = .ok (.predFwd 2) ∧ decode 0x00000039 = .ok .scale ∧
    decode 0x00000040 = .ok .encFrame ∧ (decode 0x00000110).toOption = none ∧ (decode 0x00000412).toOption = none ∧
    (decode 0x00000043).toOption = none

/-- A step of a running core is `exec` of the command its word decodes to, with the script moved on; so is the step of a
state with a word placed by `withFetchWord`, from the state the acceptance leaves. An idle core changes nothing (R167). That
the core's turn falls where the script has `elapse`, `wait` or no action left, and what `withFetchWord` leaves, are the
model's choices (log 1, 2, 23). -/
def Obligations.StepRunsTheDecodedCommand : Prop :=
  (∀ (s : State) (i : Instr), s.phase = .running → decode s.cmd = .ok i →
    (s.script = [] → step s = exec i s) ∧
    (∀ rest, s.script = .elapse :: rest → step s = exec i { s with script := rest }) ∧
    (∀ rest, s.script = .wait :: rest → step s = exec i s)) ∧
  (∀ (s : State) (nbits w : Nat) (i : Instr), decode (BitVec.ofNat 32 (w % 2 ^ nbits)) = .ok i →
    step (s.withFetchWord nbits w) = exec i { s with
      cmd := BitVec.ofNat 32 (w % 2 ^ nbits)
      phase := .running
      done := false
      err := false
      errCode := 0
      errInfo := 0 }) ∧
  ∀ s : State, s.phase = .idle → (s.script = [] → step s = .next s) ∧
    ∀ rest, s.script = .elapse :: rest → step s = .next { s with script := rest }

/-- R156: what an accepted CMD write sets, and that the core's next turn runs the pseudocode of the command the word encodes
(the model runs it in the core's own step: the model's choice, log 1). -/
def Obligations.CommandWriteStartsCommand : Prop :=
  ∀ (s : State) (w : Word) (i : Instr) (rest : List HostAction), s.phase = .idle → w = encode i →
    s.script = .write .word 0x00C w :: .elapse :: rest →
    ∃ t, step s = .next t ∧ t = { s with
        cmd := w, phase := .running, done := false, err := false, errCode := 0, errInfo := 0
        script := .elapse :: rest } ∧
      t.irq = false ∧ step t = exec i { t with script := rest }

/-- R172 and R84: a host that waits for a running command, its duties kept, reads STATUS with BUSY = 0 and DONE = 1 at the
second step; one that waits for the reset sequence reads STATUS with BUSY = 0. WAIT as the core's turn and then one STATUS read
is the model's choice (log 23), and so is the core's turn as a step of its own (log 1). An illegal word is never waited for: it
stops in the step of its CMD write (R74). -/
def Obligations.WaitEndsWithBusyClear : Prop :=
  (∀ (s : State) (i : Instr) (rest : List HostAction), Inv s → s.phase = .running → decode s.cmd = .ok i → DutiesKept i s →
    s.script = .wait :: rest →
    ∃ t u, step s = .next t ∧ step t = .next u ∧ u.script = rest ∧ u.phase = .idle ∧ u.hostData.getLsbD 0 = false ∧
      u.hostData.getLsbD 1 = true) ∧
  ∀ (s : State) (rest : List HostAction), s.phase = .resetting → s.script = .wait :: rest →
    ∃ t, step s = .next t ∧
      step t = .next { s with phase := .idle, script := rest, hostData := t.statusWord } ∧ t.statusWord.getLsbD 0 = false

/-- Every step keeps the invariant, from every state that meets it. -/
def Obligations.StepKeepsInvariant : Prop := ∀ s t : State, Inv s → step s = .next t → Inv t

/-! ### Rules of every command -/

/-- R157, R158, R172, R150: a command never faults; it is refused only where the host duty R66 (b), or for PACK_SCAN R66 (c), is
broken; when it ends the core is idle with DONE set, and either nothing is reported or one error of R152 is. -/
def Obligations.EveryCommandEnds : Prop :=
  ∀ (i : Instr) (s : State), (∀ f, exec i s ≠ .fault f) ∧
    (Inv s → ∀ r, exec i s = .refused r →
      r = .dutyRegionsOverlap ∧ i ∈ scanCommands ∧ ¬Apart s ∨ r = .dutyInputChanged ∧ i = .packScan ∧ ¬InputKept s) ∧
    ∀ t, exec i s = .next t → t.phase = .idle ∧ t.done = true ∧
      (s.err = false → s.errCode = 0 → s.errInfo = 0 →
        t.err = false ∧ t.errCode = 0 ∧ t.errInfo = 0 ∨
        t.err = true ∧ 1 ≤ t.errCode.toNat ∧ t.errCode.toNat ≤ 0x0D)

/-- R153 and R52: every command but NOP, its host duties kept (R65), stops with BAD_CFG on an illegal format, and on a
region it uses that wraps. Nothing else changes, but that the output region is unspecified after the stop of a command that
writes it (R67, read widely: the model's choice, log 4), save the bytes EmitByte wrote where HDR_WRITE, PK_BITS, PK_FLUSH or
ENC_SYM stops (I6; which bytes those are, log 26). -/
def Obligations.FormatChecksStop : Prop :=
  ∀ (i : Instr) (s : State), Inv s → i ≠ .nop → DutiesKept i s →
    (¬FormatLegal s ∨ (i = .decScan ∨ i = .decFrame) ∧ ¬ModeLegal s ∨ UsesInput i ∧ ¬InFits s ∨
      UsesOutput i ∧ ¬OutFits s) →
    ∃ t, exec i s = .next t ∧ t = { withStatus s t with mem := t.mem, draws := t.draws } ∧
      t.phase = .idle ∧ t.done = true ∧ t.err = true ∧ t.errCode = 0x02 ∧ t.errInfo = 0 ∧
      (∀ a, ¬OutRegion s a ∨ Emits i ∧ Emitted s a → t.mem.read a = s.mem.read a) ∧
      (¬UsesOutput i → exec i s = stopped s 0x02 0)

/-- The size checks of R94, R122, R145, R149, R140 and R147, the host duties kept (R65): SIZE_MISMATCH reports RawSize, and the
OUT_OVERFLOW a decode or a copy raises up front the size it would write, both mod 2^32. Nothing else changes, but that the
output region of all but HIST_SCAN is unspecified after the stop (the model's choice, log 4). -/
def Obligations.SizeChecksStop : Prop :=
  ∀ (i : Instr) (s : State) (code : Byte) (size : Nat), Inv s → DutiesKept i s → FormatLegal s → InFits s →
    (UsesOutput i → OutFits s) →
    (i ∈ [Instr.histScan, .packScan, .encFrame] ∧ s.inLen.toNat < rawBytes s ∧ code = 0x04 ∧ size = rawBytes s ∨
      i = .passthru ∧ s.inLen.toNat ≠ rawBytes s ∧ code = 0x04 ∧ size = rawBytes s ∨
      i = .passthru ∧ s.inLen.toNat = rawBytes s ∧ s.outCap.toNat < rawBytes s ∧ code = 0x05 ∧ size = rawBytes s ∨
      (i = .decScan ∨ i = .decFrame) ∧ ModeLegal s ∧ s.outCap.toNat < decodedBytes s ∧ code = 0x05 ∧
        size = decodedBytes s) →
    ∃ t, exec i s = .next t ∧ t = { withStatus s t with mem := t.mem, draws := t.draws } ∧
      t.phase = .idle ∧ t.done = true ∧ t.err = true ∧ t.errCode = code ∧ t.errInfo = BitVec.ofNat 32 size ∧
      (∀ a, ¬OutRegion s a → t.mem.read a = s.mem.read a) ∧
      (i = .histScan → exec i s = stopped s code (BitVec.ofNat 32 size))

/-- R65 and R66 (b): a scan or frame command whose regions overlap is refused, whatever else the state holds, and so is the
reset that would abort one. That a run that breaks the duty is refused is R65 and I5; where it is, before the command's first
check and at a reset that comes before the core's turn, is the model's choice (log 9). -/
def Obligations.OverlappingRegionsRefused : Prop :=
  ∀ (i : Instr) (s : State), i ∈ scanCommands → ¬Apart s →
    exec i s = .refused .dutyRegionsOverlap ∧
    ∀ rest, s.phase = .running → decode s.cmd = .ok i → ResetNext s rest → step s = .refused .dutyRegionsOverlap

/-- R36, whole: which commands write RESULT, that an error stop leaves it, and what `RESULT <- v` writes. -/
def Obligations.ResultWriters : Prop :=
  (∀ (i : Instr) (s t : State), exec i s = .next t →
    (i ∉ [Instr.rdBits, .csc, .scale] → (∀ c, i ≠ .decSym c ∧ i ≠ .predFwd c ∧ i ≠ .predInv c) →
      t.resLo = s.resLo ∧ t.resHi = s.resHi) ∧
    (s.err = false → t.err = true → t.resLo = s.resLo ∧ t.resHi = s.resHi)) ∧
  ∀ (s : State) (v : BitVec 64), s.setResult v = { s with resLo := v.extractLsb' 0 32, resHi := v.extractLsb' 32 32 }

/-- R33: which commands write OUT_SIZE and with what; an error stop does not write it. -/
def Obligations.OutSizeWriters : Prop :=
  ∀ (i : Instr) (s t : State), exec i s = .next t →
    (i ∉ [Instr.pkFlush, .encFrame, .decScan, .decFrame, .passthru] → t.outSize = s.outSize) ∧
    (s.err = false → t.err = true → t.outSize = s.outSize) ∧
    (t.err = false → (i = .pkFlush ∨ i = .encFrame → t.outSize = t.pk.ptr) ∧
      (i = .decScan ∨ i = .decFrame → t.outSize = BitVec.ofNat 32 (decodedBytes s)) ∧
      (i = .passthru → t.outSize = BitVec.ofNat 32 (rawBytes s)))

/-- Frame of the commands that store nothing and change no table: NOP, PRED_RESET, PRED_FWD, PRED_INV, CSC, SCALE, PK_INIT,
RD_INIT, RD_BITS, DEC_SYM. Every field not named is unchanged, memory among them. -/
def Obligations.FrameOfUnitCommands : Prop :=
  ∀ (s t : State) (c : Ch),
    (exec .nop s = .next t → t = withStatus s t) ∧
    (exec .predReset s = .next t → t = { withStatus s t with prev := t.prev, acc := t.acc }) ∧
    (exec (.predFwd c) s = .next t → t = { withStatus s t with prev := t.prev, resLo := t.resLo, resHi := t.resHi } ∧
      ∀ d ≠ c, t.prev.get d = s.prev.get d) ∧
    (exec (.predInv c) s = .next t → t = { withStatus s t with acc := t.acc, resLo := t.resLo, resHi := t.resHi } ∧
      ∀ d ≠ c, t.acc.get d = s.acc.get d) ∧
    (exec .csc s = .next t ∨ exec .scale s = .next t → t = { withStatus s t with resLo := t.resLo, resHi := t.resHi }) ∧
    (exec .pkInit s = .next t → t = { withStatus s t with pk := t.pk }) ∧
    (exec .rdInit s = .next t → t = { withStatus s t with rd := t.rd }) ∧
    (exec .rdBits s = .next t ∨ exec (.decSym c) s = .next t →
      t = { withStatus s t with rd := t.rd, resLo := t.resLo, resHi := t.resHi })

/-- Frame of the commands that change a table and store nothing: HIST_CLEAR, HIST_ADD, HIST_SCAN, TREE_BUILD, CODE_GEN,
HDR_READ. Every field not named is unchanged, memory among them, and so is every table entry and channel register the
command's rule does not name. `scans` is the model's own record of a HIST_SCAN (log 11). -/
def Obligations.FrameOfTableCommands : Prop :=
  ∀ (s t : State) (c : Ch), Inv s →
    (exec .histClear s = .next t → t = { withStatus s t with hist := t.hist }) ∧
    (exec (.histAdd c) s = .next t → t = { withStatus s t with hist := t.hist } ∧
      ∀ (d : Ch) (i : Nat), i < 4096 → (d ≠ c ∨ i ≠ argument s) → t.histAt d i = s.histAt d i) ∧
    (exec .histScan s = .next t → t = { withStatus s t with hist := t.hist, prev := t.prev, scans := t.scans } ∧
      (∀ (d : Ch) (i : Nat), i < 4096 → (nch s ≤ d.val ∨ alphabet s ≤ i) → t.histAt d i = s.histAt d i) ∧
      ∀ d : Ch, nch s ≤ d.val → t.prev.get d = s.prev.get d) ∧
    (exec (.treeBuild c) s = .next t → t = { withStatus s t with tree := t.tree, ncount := t.ncount, root := t.root } ∧
      ∀ d ≠ c, t.ncount.get d = s.ncount.get d ∧ t.root.get d = s.root.get d ∧
        ∀ i < 4096, t.nodeAt d i = s.nodeAt d i) ∧
    (exec (.codeGen c) s = .next t → t = { withStatus s t with code := t.code } ∧
      ∀ d ≠ c, ∀ i < 4096, t.codeAt d i = s.codeAt d i) ∧
    (exec .hdrRead s = .next t →
      t = { withStatus s t with tree := t.tree, ncount := t.ncount, root := t.root, rd := t.rd } ∧
      t.rd.bit = s.rd.bit ∧ t.rd.buf = s.rd.buf ∧
      ∀ d : Ch, nch s ≤ d.val → t.ncount.get d = s.ncount.get d ∧ t.root.get d = s.root.get d ∧
        ∀ i < 4096, t.nodeAt d i = s.nodeAt d i)

/-- Frame of the commands that store through the packer: PK_BITS, PK_FLUSH, ENC_SYM, HDR_WRITE. The bytes stored are
OUT_ADDR + PK_PTR onward, as far as PK_PTR has moved (R113). At completion every other byte is unchanged; at an error stop
every other byte outside the output region, and every one that EmitByte wrote, is unchanged, and each of the rest is a free
value (R67, I6), but where HDR_WRITE stops with BAD_STATE, BAD_COUNT or BAD_REF, which writes nothing (R110). The model's
choices: a static check leaves free values too (log 4), and which bytes count as written by EmitByte (log 26). -/
def Obligations.FrameOfPackerCommands : Prop :=
  ∀ (i : Instr) (s t : State) (c : Ch), Inv s → i ∈ [Instr.pkBits, .pkFlush, .encSym c, .hdrWrite] →
    exec i s = .next t →
    t = { withStatus s t with mem := t.mem, draws := t.draws, pk := t.pk, outSize := t.outSize } ∧
    (i ≠ .pkFlush → t.outSize = s.outSize) ∧ s.pk.ptr.toNat ≤ t.pk.ptr.toNat ∧
    (∀ a, ¬Stored s t a → t.err = false ∨ Kept s a → t.mem.read a = s.mem.read a) ∧
    (∀ a, Emitted t a ↔ Stored s t a ∨ Emitted s a) ∧
    (t.err = false → t.draws = s.draws) ∧
    (s.err = false → t.err = true →
      if i = .hdrWrite ∧ (t.errCode = 0x0C ∨ t.errCode = 0x07 ∨ t.errCode = 0x08) then t.mem = s.mem ∧ t.draws = s.draws
      else t.draws = s.draws + 1 ∧
        ∀ a < 2 ^ 32, OutRegion s a → ¬Emitted t a → t.mem.read a = Config.freeByte s.draws a)

/-- Frame of PACK_SCAN, DEC_SCAN, ENC_FRAME, DEC_FRAME and PASSTHRU. Outside the output region every byte of memory is
unchanged (R53, R67); at completion so is every byte the command does not store to. No byte becomes one that R67 and I6 keep
exact for PK_BITS, PK_FLUSH, ENC_SYM and HDR_WRITE (D31). `scans` is the model's own record of the HIST_SCANs (log 11). -/
def Obligations.FrameOfFrameCommands : Prop :=
  ∀ (s t : State), Inv s →
    (exec .packScan s = .next t →
      t = { withStatus s t with mem := t.mem, draws := t.draws, pk := t.pk, prev := t.prev, scans := t.scans } ∧
      (∀ d : Ch, nch s ≤ d.val → t.prev.get d = s.prev.get d) ∧
      (∀ a, ¬OutRegion s a → t.mem.read a = s.mem.read a) ∧
      (∀ a, Emitted t a → Emitted s a) ∧
      (t.err = false → ∀ a, ¬(s.outAddr.toNat + s.pk.ptr.toNat ≤ a ∧ a < s.outAddr.toNat + t.pk.ptr.toNat) →
        t.mem.read a = s.mem.read a)) ∧
    (exec .decScan s = .next t →
      t = { withStatus s t with
        mem := t.mem, draws := t.draws, pk := t.pk, rd := t.rd, acc := t.acc, outSize := t.outSize } ∧
      (s.cfg.mode ≠ 1 → t.pk = s.pk) ∧ (∀ d : Ch, nch s ≤ d.val → t.acc.get d = s.acc.get d) ∧
      (∀ a, ¬OutRegion s a → t.mem.read a = s.mem.read a) ∧
      (∀ a, Emitted t a → Emitted s a) ∧
      (t.err = false → ∀ a, ¬(s.outAddr.toNat ≤ a ∧ a < s.outAddr.toNat + decodedBytes s) →
        t.mem.read a = s.mem.read a)) ∧
    (exec .encFrame s = .next t →
      t = { withStatus s t with
        mem := t.mem, draws := t.draws, pk := t.pk, prev := t.prev, hist := t.hist, tree := t.tree
        code := t.code, ncount := t.ncount, root := t.root, outSize := t.outSize, scans := t.scans } ∧
      (∀ d : Ch, nch s ≤ d.val → t.prev.get d = s.prev.get d ∧ t.ncount.get d = s.ncount.get d ∧
        t.root.get d = s.root.get d ∧ ∀ i < 4096, t.nodeAt d i = s.nodeAt d i ∧ t.codeAt d i = s.codeAt d i) ∧
      (∀ a, ¬OutRegion s a → t.mem.read a = s.mem.read a) ∧
      (∀ a, Emitted t a → Emitted s a) ∧
      (t.err = false → ∀ a, ¬(s.outAddr.toNat ≤ a ∧ a < s.outAddr.toNat + t.outSize.toNat) →
        t.mem.read a = s.mem.read a)) ∧
    (exec .decFrame s = .next t →
      t = { withStatus s t with
        mem := t.mem, draws := t.draws, pk := t.pk, rd := t.rd, acc := t.acc, tree := t.tree, ncount := t.ncount
        root := t.root, outSize := t.outSize } ∧
      (s.cfg.mode ≠ 1 → t.pk = s.pk) ∧
      (∀ d : Ch, nch s ≤ d.val → t.acc.get d = s.acc.get d ∧ t.ncount.get d = s.ncount.get d ∧
        t.root.get d = s.root.get d ∧ ∀ i < 4096, t.nodeAt d i = s.nodeAt d i) ∧
      (∀ a, ¬OutRegion s a → t.mem.read a = s.mem.read a) ∧
      (∀ a, Emitted t a → Emitted s a) ∧
      (t.err = false → ∀ a, ¬(s.outAddr.toNat ≤ a ∧ a < s.outAddr.toNat + decodedBytes s) →
        t.mem.read a = s.mem.read a)) ∧
    (exec .passthru s = .next t →
      t = { withStatus s t with mem := t.mem, draws := t.draws, outSize := t.outSize } ∧
      (∀ a, ¬OutRegion s a → t.mem.read a = s.mem.read a) ∧
      (∀ a, Emitted t a → Emitted s a) ∧
      (t.err = false → ∀ a, ¬(s.outAddr.toNat ≤ a ∧ a < s.outAddr.toNat + rawBytes s) →
        t.mem.read a = s.mem.read a))

/-! ### NOP, the clearing commands, the predictor, CSC and SCALE -/

/-- R144: NOP completes whatever CFG holds and writes nothing but STATUS; after its CMD write STATUS reads DONE and OVR as
it was; a word with OP 0x00 and a bit of w[31:8] set is not NOP. -/
def Obligations.NopCompletes : Prop :=
  (∀ s : State, exec .nop s = completed s) ∧
  (∀ (s : State) (rest : List HostAction), s.phase = .idle → s.script = .write .word 0x00C 0 :: .elapse :: rest →
    ∃ t u, step s = .next t ∧ step t = .next u ∧
      u = { s with
        cmd := 0, script := rest, done := true, err := false, errCode := 0, errInfo := 0 } ∧
      Reads u 0x008 (if s.ovr then 0x0000000A else 0x00000002) ∧ (s.irqEn = true → u.irq = true)) ∧
  ∀ w : Word, w.toNat % 256 = 0 → w ≠ 0 → IllegalWord w

/-- R89, R93, R118 and R123: PRED_RESET, HIST_CLEAR, PK_INIT and RD_INIT complete for every legal format, each with all its
registers or entries cleared, whatever NCH and BW are. -/
def Obligations.ClearingCommandsComplete : Prop :=
  ∀ s : State, FormatLegal s →
    exec .predReset s = completed { s with prev := ⟨0, 0, 0, 0⟩, acc := ⟨0, 0, 0, 0⟩ } ∧
    exec .pkInit s = completed { s with pk := ⟨0, 0, 0⟩ } ∧
    exec .rdInit s = completed { s with rd := ⟨0, 0, 0⟩ } ∧
    ∃ t, exec .histClear s = .next t ∧ t = { s with hist := t.hist, phase := .idle, done := true } ∧
      ∀ (c : Ch) (i : Nat), i < 4096 → t.histAt c i = 0

/-- R90 and R91: PRED_FWD and PRED_INV complete for every legal format; the operand is ARG mod A, and a PREV or ACC above M
counts mod A. -/
def Obligations.PredictorCommandsComplete : Prop :=
  ∀ (s : State) (c : Ch), FormatLegal s →
    (∃ t, exec (.predFwd c) s = .next t ∧
      t = { s with prev := t.prev, resLo := t.resLo, resHi := t.resHi, phase := .idle, done := true } ∧
      (∀ d : Ch, t.prev.get d = if d = c then BitVec.ofNat 12 (argument s % alphabet s) else s.prev.get d) ∧
      result t < alphabet s ∧
      (result t + (s.prev.get c).toNat) % alphabet s = argument s % alphabet s) ∧
    (∃ t, exec (.predInv c) s = .next t ∧
      t = { s with acc := t.acc, resLo := t.resLo, resHi := t.resHi, phase := .idle, done := true } ∧
      (∀ d : Ch, t.acc.get d =
        if d = c then BitVec.ofNat 12 (((s.acc.get c).toNat + argument s) % alphabet s) else s.acc.get d) ∧
      result t = ((s.acc.get c).toNat + argument s) % alphabet s)

/-- R92: from PREV[c] = ACC[c] = 0, PRED_INV of the results of PRED_FWD gives every sample back, mod A. -/
def Obligations.PredictorMirrors : Prop :=
  ∀ (s : State) (c : Ch) (row : List (BitVec 64)), FormatLegal s → s.prev.get c = 0 → s.acc.get c = 0 →
    ∃ deltas t samples u, feedArgs (.predFwd c) row s = some (deltas, t) ∧
      feedArgs (.predInv c) (deltas.map (BitVec.ofNat 64)) t = some (samples, u) ∧
      samples = row.map fun v => v.toNat % alphabet s

/-- R142, R129 and R143: CSC and SCALE complete for every legal format, with the converted pixel R | G << 8 | B << 16 and
with the top 8 bits of ARG & M. -/
def Obligations.PixelCommandsComplete : Prop :=
  ∀ s : State, FormatLegal s →
    (exec .csc s = completed { s with
      resHi := 0
      resLo := BitVec.ofNat 32
        (colour (argument s % 256) (argument s / 256 % 256) (argument s / 65536 % 256) 2 +
          256 * colour (argument s % 256) (argument s / 256 % 256) (argument s / 65536 % 256) 1 +
          65536 * colour (argument s % 256) (argument s / 256 % 256) (argument s / 65536 % 256) 0) }) ∧
    exec .scale s = completed { s with
      resHi := 0, resLo := BitVec.ofNat 32 (argument s % alphabet s / 2 ^ (bitWidth s - 8)) }

/-! ### Histogram, tree and codes -/

/-- R95: HIST_ADD counts one occurrence, mod 2^32, for a symbol inside the alphabet; the whole 64-bit ARG is compared, and
a symbol outside it stops with BAD_ARG. -/
def Obligations.HistAddCounts : Prop :=
  ∀ (s : State) (c : Ch), Inv s → FormatLegal s →
    (argument s < alphabet s →
      ∃ t, exec (.histAdd c) s = .next t ∧ t = { s with hist := t.hist, phase := .idle, done := true } ∧
        ∀ (d : Ch) (i : Nat), i < 4096 →
          t.histAt d i = if d = c ∧ i = argument s then s.histAt d i + 1 else s.histAt d i) ∧
    (alphabet s ≤ argument s → exec (.histAdd c) s = stopped s 0x03 0)

/-- R94 and R88: HIST_SCAN completes when the raw frame is inside a readable input region apart from the output region; it
adds to each counter the occurrences of its delta, mod 2^32, and leaves the last samples in PREV. The model's record of it
(log 11) holds the bytes of the input region, so that a later change of one of them breaks R66 (c). -/
def Obligations.HistScanCounts : Prop :=
  ∀ s : State, Inv s → FormatLegal s → InFits s → rawBytes s ≤ s.inLen.toNat → Apart s → Readable s (rawBytes s) →
    ∃ t, exec .histScan s = .next t ∧
      t = { s with hist := t.hist, prev := t.prev, scans := t.scans, phase := .idle, done := true } ∧
      (∀ m, InputKept { t with mem := m } ↔ ∀ a, InRegion s a → SameByte s.mem m a) ∧
      (∀ (c : Ch) (i : Nat), i < 4096 → t.histAt c i = s.histAt c i + BitVec.ofNat 32 (occurrences s c i)) ∧
      ∀ c : Ch, t.prev.get c = prevAfterScan s c

/-- R98, with R96, R97 and R99: TREE_BUILD completes for every legal format, with the nodes, the count and the root that the
merge steps give from the sorted work list; the other nodes are unchanged. -/
def Obligations.TreeBuildMerges : Prop :=
  ∀ (s : State) (c : Ch), Inv s → FormatLegal s →
    ∃ l nodes rest t, WorkList s c l ∧ Merges 0 l nodes rest ∧ exec (.treeBuild c) s = .next t ∧
      t = { s with
        tree := t.tree
        ncount := s.ncount.set c (BitVec.ofNat 32 nodes.length)
        root := s.root.set c (BitVec.ofNat 32 (rootAfter nodes rest))
        phase := .idle
        done := true } ∧
      ∀ (d : Ch) (i : Nat), i < 4096 →
        t.nodeAt d i = if d = c ∧ i < nodes.length then nodes.getD i ⟨0, 0⟩ else s.nodeAt d i

/-- R103, R100 and R102: the shape of the tree TREE_BUILD gives from m nonzero counters: for m of 2 or more, m - 1 nodes with
the root the last, child nodes of smaller index, every nonzero symbol a leaf exactly once and no other leaf, and a tree that
passes ValidateTree; for m = 1 no node and the symbol as root; for m = 0 no node and root 0. -/
def Obligations.TreeBuildShape : Prop :=
  ∀ (s t : State) (c : Ch), Inv s → FormatLegal s → exec (.treeBuild c) s = .next t →
    (treeOf t c).Legal (alphabet s) ∧
    (2 ≤ (nonzeroSymbols s c).length →
      (t.ncount.get c).toNat = (nonzeroSymbols s c).length - 1 ∧
      (t.root.get c).toNat = (nonzeroSymbols s c).length - 2 ∧
      (∀ i < (t.ncount.get c).toNat, ∀ r : BitVec 16, r = (t.nodeAt c i).left ∨ r = (t.nodeAt c i).right →
        0x8000 ≤ r.toNat → r.toNat - 0x8000 < i) ∧
      ∀ v < 0x8000, (((treeOf t c).nodes.flatMap fun n => [n.left, n.right]).count (BitVec.ofNat 16 v)) =
        if v ∈ nonzeroSymbols s c then 1 else 0) ∧
    (∀ v, nonzeroSymbols s c = [v] → (t.ncount.get c).toNat = 0 ∧ (t.root.get c).toNat = v) ∧
    (nonzeroSymbols s c = [] → (t.ncount.get c).toNat = 0 ∧ (t.root.get c).toNat = 0)

/-- R106 and R105: CODE_GEN completes on a legal tree with no shared node and no leaf deeper than 64. The code of a symbol is
its path, of as many bits as its depth (none in a degenerate channel); a symbol that is a leaf twice keeps the path walked
last; every other entry of the channel is invalid. -/
def Obligations.CodeGenAssignsPaths : Prop :=
  ∀ (s : State) (c : Ch), Inv s → FormatLegal s → (treeOf s c).Legal (alphabet s) → (treeOf s c).Unshared →
    (treeOf s c).Shallow →
    ∃ t, exec (.codeGen c) s = .next t ∧ t = { s with code := t.code, phase := .idle, done := true } ∧
      (∀ sym < 4096, ∀ path, (treeOf s c).CodePath sym path →
        (∀ other, (treeOf s c).CodePath sym other → other = path ∨ walkedBefore other path = true) →
        t.codeAt c sym = ⟨true, BitVec.ofNat 7 path.length, BitVec.ofNat 64 (valueOf path)⟩) ∧
      (∀ sym < 4096, (¬∃ path, (treeOf s c).CodePath sym path) → t.codeAt c sym = ⟨false, 0, 0⟩) ∧
      ∀ d ≠ c, ∀ sym < 4096, t.codeAt d sym = s.codeAt d sym

/-- R106: on a legal tree, a node reached twice stops CODE_GEN with BAD_REF when no leaf is too deep, a leaf deeper than 64
stops it with CODE_OVERFLOW when no node is shared, and one of the two when both hold; ERR_INFO is the channel. -/
def Obligations.CodeGenStopsOnBadShapes : Prop :=
  ∀ (s : State) (c : Ch), Inv s → FormatLegal s → (treeOf s c).Legal (alphabet s) →
    ¬((treeOf s c).Unshared ∧ (treeOf s c).Shallow) →
    ∃ t, exec (.codeGen c) s = .next t ∧ t = { withStatus s t with code := t.code } ∧ t.phase = .idle ∧ t.done = true ∧
      t.err = true ∧ t.errInfo = BitVec.ofNat 32 c.val ∧ (t.errCode = 0x08 ∨ t.errCode = 0x0A) ∧
      ((treeOf s c).Shallow → t.errCode = 0x08) ∧ ((treeOf s c).Unshared → t.errCode = 0x0A)

/-- R109: a stored tree that fails ValidateTree stops CODE_GEN, DEC_SYM, HDR_WRITE and DEC_SCAN before any change, BAD_COUNT
for the node count and BAD_REF for a reference; HDR_WRITE and DEC_SCAN report their first bad channel. HDR_WRITE then writes
nothing (R110); the output region of DEC_SCAN is unspecified after the stop (R67, read widely: the model's choice, log 4). -/
def Obligations.BadTreesStop : Prop :=
  (∀ (s : State) (c : Ch), Inv s → FormatLegal s → ModeLegal s → InFits s → OutFits s → Apart s →
    decodedBytes s ≤ s.outCap.toNat → c.val < nch s → ¬(treeOf s c).Legal (alphabet s) →
    (∀ d : Ch, d.val < c.val → (treeOf s d).Legal (alphabet s)) →
    ∃ t, exec .decScan s = .next t ∧ t = { withStatus s t with mem := t.mem, draws := t.draws } ∧ t.phase = .idle ∧
      t.done = true ∧ t.err = true ∧ t.errCode = (if alphabet s - 1 < (s.ncount.get c).toNat then 0x07 else 0x08) ∧
      t.errInfo = BitVec.ofNat 32 c.val ∧ ∀ a, ¬OutRegion s a → t.mem.read a = s.mem.read a) ∧
  ∀ (i : Instr) (s : State) (c : Ch), FormatLegal s → ¬(treeOf s c).Legal (alphabet s) →
    (i = .codeGen c ∨ i = .decSym c ∧ InFits s ∨
      i = .hdrWrite ∧ OutFits s ∧ s.pk.fill = 0 ∧ c.val < nch s ∧
        ∀ d : Ch, d.val < c.val → (treeOf s d).Legal (alphabet s)) →
    exec i s = stopped s (if alphabet s - 1 < (s.ncount.get c).toNat then 0x07 else 0x08) (BitVec.ofNat 32 c.val)

/-- R79: after a CODE_GEN that completes, no code of the channel is a prefix of the code of another symbol. -/
def Obligations.CodesArePrefixFree : Prop :=
  ∀ (s t : State) (c : Ch), Inv s → s.err = false → exec (.codeGen c) s = .next t → t.err = false →
    ∀ v < 4096, ∀ w < 4096, v ≠ w → (t.codeAt c v).valid = true → (t.codeAt c w).valid = true →
      ¬codeBits (t.codeAt c v) <+: codeBits (t.codeAt c w)

/-! ### Headers -/

/-- R110, R77 and R76: HDR_WRITE completes on legal trees with an empty packer and room, and writes the headers of channels
0 .. NCH - 1 from PK_PTR on. Without room for all of them it stops with OUT_OVERFLOW at PK_PTR, the bytes before written
and those that EmitByte wrote earlier exact (R113, R67; which those are is the model's choice, log 26). -/
def Obligations.HdrWriteWritesHeaders : Prop :=
  ∀ s : State, Inv s → FormatLegal s → OutFits s → s.pk.fill = 0 →
    (∀ c : Ch, c.val < nch s → (treeOf s c).Legal (alphabet s)) →
    (s.pk.ptr.toNat + (headersOf s).length ≤ s.outCap.toNat →
      Writable s s.pk.ptr.toNat (s.pk.ptr.toNat + (headersOf s).length) →
      ∃ t, exec .hdrWrite s = .next t ∧
        t = { s with
          mem := t.mem
          pk := { s.pk with ptr := s.pk.ptr + BitVec.ofNat 32 (headersOf s).length }
          phase := .idle
          done := true } ∧
        BytesAt t.mem (s.outAddr.toNat + s.pk.ptr.toNat) (headersOf s) ∧
        ∀ a, ¬(s.outAddr.toNat + s.pk.ptr.toNat ≤ a ∧
          a < s.outAddr.toNat + s.pk.ptr.toNat + (headersOf s).length) → t.mem.read a = s.mem.read a) ∧
    (s.outCap.toNat < s.pk.ptr.toNat + (headersOf s).length → Writable s s.pk.ptr.toNat s.outCap.toNat →
      ∃ t, exec .hdrWrite s = .next t ∧
        t = { withStatus s t with
          mem := t.mem, draws := t.draws, pk := { s.pk with ptr := greater s.pk.ptr s.outCap } } ∧
        t.phase = .idle ∧ t.done = true ∧ t.err = true ∧ t.errCode = 0x05 ∧ t.errInfo = t.pk.ptr ∧
        BytesAt t.mem (s.outAddr.toNat + s.pk.ptr.toNat) ((headersOf s).take (s.outCap.toNat - s.pk.ptr.toNat)) ∧
        ∀ a, ¬Stored s t a → Kept s a → t.mem.read a = s.mem.read a)

/-- R111: HDR_READ completes on the headers of legal trees at a byte boundary, loads them, and moves RD_PTR past them. -/
def Obligations.HdrReadLoadsTrees : Prop :=
  ∀ (s : State) (trees : List Tree), Inv s → FormatLegal s → InFits s → s.rd.bit = 0 → trees.length = nch s →
    (∀ t ∈ trees, t.Legal (alphabet s)) →
    s.rd.ptr.toNat + (trees.flatMap Tree.header).length ≤ s.inLen.toNat → Readable s s.inLen.toNat →
    BytesAt s.mem (s.inAddr.toNat + s.rd.ptr.toNat) (trees.flatMap Tree.header) →
    ∃ t, exec .hdrRead s = .next t ∧
      t = { s with
        tree := t.tree
        ncount := t.ncount
        root := t.root
        rd := { s.rd with ptr := s.rd.ptr + BitVec.ofNat 32 (trees.flatMap Tree.header).length }
        phase := .idle
        done := true } ∧
      (∀ c : Ch, ∀ h : c.val < trees.length, treeOf t c = trees[c.val]) ∧
      (∀ c : Ch, nch s ≤ c.val → t.ncount.get c = s.ncount.get c ∧ t.root.get c = s.root.get c) ∧
      ∀ (c : Ch) (i : Nat), i < 4096 → (nch s ≤ c.val ∨ (t.ncount.get c).toNat ≤ i) → t.nodeAt c i = s.nodeAt c i

/-- R112: HDR_READ of the bytes a completed HDR_WRITE wrote, with the same CFG, restores NCOUNT, ROOT and the nodes of every
channel below NCH, and moves RD_PTR as far as HDR_WRITE moved PK_PTR. -/
def Obligations.HeadersRoundTrip : Prop :=
  ∀ s t u : State, Inv s → Inv u → s.err = false → exec .hdrWrite s = .next t → t.err = false → u.cfg = s.cfg →
    InFits u → u.rd.bit = 0 → u.inAddr.toNat + u.rd.ptr.toNat = s.outAddr.toNat + s.pk.ptr.toNat →
    u.rd.ptr.toNat + (t.pk.ptr.toNat - s.pk.ptr.toNat) ≤ u.inLen.toNat → Readable u u.inLen.toNat →
    (∀ a, s.outAddr.toNat + s.pk.ptr.toNat ≤ a → a < s.outAddr.toNat + t.pk.ptr.toNat →
      u.mem.read a = t.mem.read a) →
    ∃ v, exec .hdrRead u = .next v ∧ v.err = u.err ∧ v.errCode = u.errCode ∧
      (∀ c : Ch, c.val < nch s → v.ncount.get c = s.ncount.get c ∧ v.root.get c = s.root.get c ∧
        ∀ i < (s.ncount.get c).toNat, v.nodeAt c i = s.nodeAt c i) ∧
      v.rd.ptr.toNat - u.rd.ptr.toNat = t.pk.ptr.toNat - s.pk.ptr.toNat

/-- The unit state and stream errors of R110, R111, R117 and R147: a partial byte in the packer or the reader is BAD_STATE;
an input region that ends inside the first 8 header bytes is HDR_TRUNC at RD_PTR, with the bytes before it consumed; a first
node count above A - 1 is BAD_COUNT after those 8 bytes. In the header of any channel, after legal ones, HDR_READ and
DEC_FRAME stop with HDR_TRUNC, BAD_COUNT or BAD_REF, and leave what R111 says; the output region of DEC_FRAME is then
unspecified (R67). HDR_WRITE with a partial byte writes nothing (R110, SR4 of 95_test_vectors.md). -/
def Obligations.HeaderCommandsStop : Prop :=
  (∀ (s : State) (trees : List Tree) (bad : Tree) (code : Byte) (len : Nat), Inv s → FormatLegal s → InFits s →
    (s.rd.bit = 0 → BadHeader s s.rd.ptr.toNat trees bad code len →
      ∃ t, exec .hdrRead s = .next t ∧ BadHeaderLeft s t s.rd.ptr.toNat trees bad code len ∧
        t = { withStatus s t with
          tree := t.tree, ncount := t.ncount, root := t.root, rd := { s.rd with ptr := t.rd.ptr } }) ∧
    (ModeLegal s → OutFits s → Apart s → decodedBytes s ≤ s.outCap.toNat → BadHeader s 0 trees bad code len →
      ∃ t, exec .decFrame s = .next t ∧ BadHeaderLeft s t 0 trees bad code len ∧
        t = { withStatus s t with
          tree := t.tree, ncount := t.ncount, root := t.root, rd := ⟨t.rd.ptr, 0, 0⟩, mem := t.mem, draws := t.draws } ∧
        ∀ a, ¬OutRegion s a → t.mem.read a = s.mem.read a)) ∧
  ∀ s : State, FormatLegal s →
    (OutFits s → s.pk.fill ≠ 0 → exec .hdrWrite s = stopped s 0x0C 0) ∧
    (InFits s → s.rd.bit ≠ 0 → exec .hdrRead s = stopped s 0x0C 0) ∧
    (InFits s → s.rd.bit = 0 → Readable s s.inLen.toNat → s.inLen.toNat < s.rd.ptr.toNat + 8 →
      exec .hdrRead s = stopped { s with rd := { s.rd with ptr := greater s.rd.ptr s.inLen } } 0x06 (greater s.rd.ptr s.inLen)) ∧
    (InFits s → s.rd.bit = 0 → Readable s s.inLen.toNat → s.rd.ptr.toNat + 8 ≤ s.inLen.toNat →
      (∀ count, BytesAt s.mem (s.inAddr.toNat + s.rd.ptr.toNat) (littleEndian 4 count) → count < 2 ^ 32 →
        alphabet s - 1 < count →
        exec .hdrRead s = stopped { s with rd := { s.rd with ptr := s.rd.ptr + 8 } } 0x07 0))

/-! ### The packer and the reader -/

/-- R119: PK_BITS completes for a count of at most 64 with room for the bytes it completes, and appends the low n bits of
ARG, most significant first. A count above 64 stops with BAD_ARG, the packer and the bytes that EmitByte wrote unchanged and
the rest of the output region unspecified (R67, I6; the model's choices, log 4 and 26). -/
def Obligations.PkBitsAppends : Prop :=
  ∀ s : State, Inv s → FormatLegal s → OutFits s →
    (s.argLen.toNat ≤ 64 → Room s s.argLen.toNat →
      ∃ t, exec .pkBits s = .next t ∧ t = { s with mem := t.mem, pk := t.pk, phase := .idle, done := true } ∧
        Appended s t (bitsOf s.argLen.toNat (argument s))) ∧
    (64 < s.argLen.toNat → StopsUnwritten s (exec .pkBits s) 0x03 0)

/-- R113, R114 and R119: when a byte completes with PK_PTR at or past OUT_CAP, PK_BITS stops with OUT_OVERFLOW at that
PK_PTR, and the bits before it stay appended; the bytes that EmitByte wrote earlier stay (R67, I6; which those are is the
model's choice, log 26). -/
def Obligations.PkBitsOverflows : Prop :=
  ∀ (s : State) (kept : Nat), Inv s → FormatLegal s → OutFits s → s.argLen.toNat ≤ 64 → kept < s.argLen.toNat →
    NoRoomAt s kept → Writable s s.pk.ptr.toNat s.outCap.toNat →
    Overflowed s (exec .pkBits s) (bitsOf s.argLen.toNat (argument s)) kept

/-- R120: PK_FLUSH completes a partial byte with zero bits, writes it, and reports PK_PTR in OUT_SIZE; with no partial byte
it only reports; a full output region stops it, the packer and the bytes that EmitByte wrote unchanged (R67, I6; which
those are is the model's choice, log 26). -/
def Obligations.PkFlushWritesPartialByte : Prop :=
  ∀ s : State, Inv s → FormatLegal s → OutFits s →
    (s.pk.fill = 0 → exec .pkFlush s = completed { s with outSize := s.pk.ptr }) ∧
    (s.pk.fill ≠ 0 → s.pk.ptr.toNat < s.outCap.toNat → Writable s s.pk.ptr.toNat (s.pk.ptr.toNat + 1) →
      ∃ t, exec .pkFlush s = .next t ∧
        t = { s with
          mem := t.mem, pk := ⟨s.pk.ptr + 1, 0, 0⟩, outSize := s.pk.ptr + 1, phase := .idle, done := true } ∧
        (t.mem.read (s.outAddr.toNat + s.pk.ptr.toNat)).toNat = s.pk.acc.toNat * 2 ^ (8 - s.pk.fill.toNat) ∧
        ∀ a, a ≠ s.outAddr.toNat + s.pk.ptr.toNat → t.mem.read a = s.mem.read a) ∧
    (s.pk.fill ≠ 0 → s.outCap.toNat ≤ s.pk.ptr.toNat → StopsUnwritten s (exec .pkFlush s) 0x05 s.pk.ptr)

/-- R121 and R115: ENC_SYM appends the code of the symbol ARG; a symbol without a code is NO_CODE, with the channel in [1:0]
and the symbol in [27:16]; a symbol outside the alphabet is BAD_ARG; a code without room is OUT_OVERFLOW, the bits before it
appended (R113). An error leaves the bytes that EmitByte wrote and the rest of the output region unspecified (R67, I6; the
model's choices, log 4 and 26). -/
def Obligations.EncSymAppendsCode : Prop :=
  ∀ (s : State) (c : Ch), Inv s → FormatLegal s → OutFits s →
    (argument s < alphabet s → (s.codeAt c (argument s)).valid = true →
      Room s (codeBits (s.codeAt c (argument s))).length →
      ∃ t, exec (.encSym c) s = .next t ∧ t = { s with mem := t.mem, pk := t.pk, phase := .idle, done := true } ∧
        Appended s t (codeBits (s.codeAt c (argument s)))) ∧
    (argument s < alphabet s → (s.codeAt c (argument s)).valid = true →
      ∀ kept < (codeBits (s.codeAt c (argument s))).length, NoRoomAt s kept →
      Writable s s.pk.ptr.toNat s.outCap.toNat →
      Overflowed s (exec (.encSym c) s) (codeBits (s.codeAt c (argument s))) kept) ∧
    (argument s < alphabet s → (s.codeAt c (argument s)).valid = false →
      StopsUnwritten s (exec (.encSym c) s) 0x0B (BitVec.ofNat 32 (c.val + argument s * 65536))) ∧
    (alphabet s ≤ argument s → StopsUnwritten s (exec (.encSym c) s) 0x03 0)

/-- R122, R88 and R78: PACK_SCAN completes when every delta of the frame has a code and there is room, and appends the codes in
raster order; it neither initialises nor flushes the packer. The first delta without a code stops it with NO_CODE, a byte
without room with OUT_OVERFLOW at PK_PTR (R113). Where bytes of the input region have changed since the HIST_SCAN of the encode
it is refused (R66 (c), R65), and so is a reset that would abort it (what counts as changed, and the place of the refusal,
are the model's choices, log 11). -/
def Obligations.PackScanAppendsCodes : Prop :=
  (∀ s : State, Inv s → Apart s → ¬InputKept s → exec .packScan s = .refused .dutyInputChanged ∧
    ∀ rest, s.phase = .running → decode s.cmd = .ok .packScan → ResetNext s rest →
      step s = .refused .dutyInputChanged) ∧
  ∀ s : State, Inv s → FormatLegal s → InFits s → OutFits s → rawBytes s ≤ s.inLen.toNat → Apart s → InputKept s →
    Readable s (rawBytes s) →
    ((∀ k < frameSamples s, (s.codeAt (channelOf (nch s) k) (deltaAt s k)).valid = true) →
      (Room s (scanBits s (frameSamples s)).length →
        ∃ t, exec .packScan s = .next t ∧
          t = { s with mem := t.mem, pk := t.pk, prev := t.prev, scans := t.scans, phase := .idle, done := true } ∧
          Appended s t (scanBits s (frameSamples s)) ∧ ∀ c : Ch, t.prev.get c = prevAfterScan s c) ∧
      ∀ kept < (scanBits s (frameSamples s)).length, NoRoomAt s kept → Writable s s.pk.ptr.toNat s.outCap.toNat →
        ∃ t, exec .packScan s = .next t ∧ t.phase = .idle ∧ t.done = true ∧ t.err = true ∧ t.errCode = 0x05 ∧
          t.errInfo = t.pk.ptr ∧ t.pk.ptr = greater s.pk.ptr s.outCap ∧ t.pk.fill = 7) ∧
    ∀ k < frameSamples s, (∀ j < k, (s.codeAt (channelOf (nch s) j) (deltaAt s j)).valid = true) →
      (s.codeAt (channelOf (nch s) k) (deltaAt s k)).valid = false → Room s (scanBits s k).length →
      ∃ t, exec .packScan s = .next t ∧ t.phase = .idle ∧ t.done = true ∧ t.err = true ∧ t.errCode = 0x0B ∧
        t.errInfo = BitVec.ofNat 32 (k % nch s + deltaAt s k * 65536)

/-- R124 and R116: RD_BITS completes when its bits are available; RESULT is the n next bits of the stream, first bit most
significant, and the reader is n bits further. A count above 64 stops with BAD_ARG. -/
def Obligations.RdBitsReadsStream : Prop :=
  ∀ s : State, FormatLegal s → InFits s →
    (s.argLen.toNat ≤ 64 → Available s s.argLen.toNat →
      ∃ t, exec .rdBits s = .next t ∧
        t = { s with
          rd := readerAfter s s.argLen.toNat, resLo := t.resLo, resHi := t.resHi, phase := .idle, done := true } ∧
        result t = valueOf (streamBits s s.argLen.toNat)) ∧
    (64 < s.argLen.toNat → exec .rdBits s = stopped s 0x03 0)

/-- R124 and R116: RD_BITS that needs a byte at or past the end of the input region stops with BIT_UNDERRUN at RD_PTR; the bits
already read stay consumed and RESULT is unchanged. -/
def Obligations.RdBitsUnderruns : Prop :=
  ∀ (s : State) (m : Nat), FormatLegal s → InFits s → s.argLen.toNat ≤ 64 → m < s.argLen.toNat → Available s m →
    EndsAt s m → exec .rdBits s = stopped { s with rd := readerAfter s m } 0x09 (readOffset s m)

/-- R125: values appended by PK_BITS after PK_INIT and flushed are read back by RD_BITS of the same counts after RD_INIT, mod
2^n each, whatever the alignment. -/
def Obligations.PackedBitsReadBack : Prop :=
  ∀ (s : State) (items : List (BitVec 64 × BitVec 7)), Inv s → s.err = false → FormatLegal s → OutFits s →
    (∀ e ∈ items, e.2.toNat ≤ 64) → (items.map fun e => e.2.toNat).sum ≤ 8 * s.outCap.toNat →
    Writable s 0 s.outCap.toNat →
    ∃ t u v, exec .pkInit s = .next t ∧ packAll items t = some u ∧ exec .pkFlush u = .next v ∧ v.err = false ∧
      v.outSize.toNat = ((items.map fun e => e.2.toNat).sum + 7) / 8 ∧
      ∀ r : State, r.err = false → FormatLegal r → InFits r → r.inAddr = s.outAddr →
        v.outSize.toNat ≤ r.inLen.toNat → Readable r r.inLen.toNat →
        (∀ k < v.outSize.toNat, r.mem.read (s.outAddr.toNat + k) = v.mem.read (s.outAddr.toNat + k)) →
        ∃ q, exec .rdInit r = .next q ∧
          readAll (items.map Prod.snd) q = some (items.map fun e => e.1.toNat % 2 ^ e.2.toNat)

/-- R126 and R139: DEC_SYM follows the stream's bits from the root to a leaf, 0 left and 1 right, answers the leaf's symbol,
and consumes exactly the path; a degenerate channel answers its root and reads no bit. A stream that ends inside the path stops
it with BIT_UNDERRUN, the bits read consumed. -/
def Obligations.DecSymFollowsTree : Prop :=
  ∀ (s : State) (c : Ch), FormatLegal s → InFits s → (treeOf s c).Legal (alphabet s) →
    (∀ sym n, (treeOf s c).CodePath sym (streamBits s n) → Available s n →
      ∃ t, exec (.decSym c) s = .next t ∧
        t = { s with rd := readerAfter s n, resLo := t.resLo, resHi := t.resHi, phase := .idle, done := true } ∧
        result t = sym) ∧
    (∀ n, (treeOf s c).nodes ≠ [] → (∀ m ≤ n, ¬∃ sym, (treeOf s c).CodePath sym (streamBits s m)) → Available s n →
      EndsAt s n → exec (.decSym c) s = stopped { s with rd := readerAfter s n } 0x09 (readOffset s n))

/-! ### Scans, frames and the copy -/

/-- R140, with R126 to R138: DEC_SCAN completes when the stream from the reader's position holds the code bits of the frame, and
writes the converted rows of the reconstructed samples in the output mode. A stream that ends inside the code bits stops it with
BIT_UNDERRUN at RD_PTR, the bits read consumed and the output region unspecified. -/
def Obligations.DecScanWritesFrame : Prop :=
  ∀ (s : State) (d : Nat → Nat) (bits : List Bool), Inv s → FormatLegal s → ModeLegal s → InFits s → OutFits s →
    decodedBytes s ≤ s.outCap.toNat → (∀ c : Ch, c.val < nch s → (treeOf s c).Legal (alphabet s)) → Apart s →
    Writable s 0 (decodedBytes s) → FrameCode s (treeOf s) d bits →
    (Available s bits.length → streamBits s bits.length = bits →
      ∃ t, exec .decScan s = .next t ∧
        t = { s with
          mem := t.mem, rd := readerAfter s bits.length, acc := t.acc, pk := t.pk, outSize := t.outSize
          phase := .idle, done := true } ∧
        Decoded s t (reconstructed s d)) ∧
    ∀ n < bits.length, Available s n → streamBits s n = bits.take n → EndsAt s n →
      ∃ t, exec .decScan s = .next t ∧
        t = { withStatus s t with
          mem := t.mem, draws := t.draws, rd := readerAfter s n, acc := t.acc, pk := t.pk } ∧
        t.phase = .idle ∧ t.done = true ∧ t.err = true ∧ t.errCode = 0x09 ∧ t.errInfo = readOffset s n ∧
        (s.cfg.mode ≠ 1 → t.pk = s.pk) ∧ ∀ a, ¬OutRegion s a → t.mem.read a = s.mem.read a

/-- R147: DEC_FRAME completes when the input region starts with the headers of legal trees followed by the code bits of the
frame; it loads the trees and writes the converted rows. Bits and bytes after the last code bit are ignored. An input region
that ends inside the code bits stops it with BIT_UNDERRUN, ERR_INFO and RD_PTR its length, the trees loaded and the output
region unspecified. -/
def Obligations.DecFrameWritesFrame : Prop :=
  ∀ (s : State) (trees : List Tree) (d : Nat → Nat) (bits : List Bool), Inv s → FormatLegal s → ModeLegal s →
    InFits s → OutFits s → decodedBytes s ≤ s.outCap.toNat → Apart s → Writable s 0 (decodedBytes s) →
    trees.length = nch s → (∀ t ∈ trees, t.Legal (alphabet s)) → BytesAt s.mem s.inAddr.toNat (trees.flatMap Tree.header) →
    FrameCode s (fun c => trees.getD c.val ⟨0, []⟩) d bits →
    (trees.flatMap Tree.header).length ≤ s.inLen.toNat → Readable s s.inLen.toNat →
    (∀ j < bits.length, (trees.flatMap Tree.header).length + j / 8 < s.inLen.toNat →
      bitOfByte (s.mem.read (s.inAddr.toNat + (trees.flatMap Tree.header).length + j / 8)) j = bits.getD j false) →
    ∃ t, exec .decFrame s = .next t ∧ (∀ c : Ch, ∀ h : c.val < trees.length, treeOf t c = trees[c.val]) ∧
      ((trees.flatMap Tree.header).length + (bits.length + 7) / 8 ≤ s.inLen.toNat →
        t = { s with
          tree := t.tree, ncount := t.ncount, root := t.root
          mem := t.mem, rd := t.rd, acc := t.acc, pk := t.pk, outSize := t.outSize, phase := .idle, done := true } ∧
        t.rd.ptr.toNat = (trees.flatMap Tree.header).length + bits.length / 8 ∧ t.rd.bit.toNat = bits.length % 8 ∧
        Decoded s t (reconstructed s d)) ∧
      (s.inLen.toNat < (trees.flatMap Tree.header).length + (bits.length + 7) / 8 →
        t = { withStatus s t with
          tree := t.tree, ncount := t.ncount, root := t.root
          mem := t.mem, draws := t.draws, rd := t.rd, acc := t.acc, pk := t.pk } ∧
        t.phase = .idle ∧ t.done = true ∧ t.err = true ∧ t.errCode = 0x09 ∧ t.errInfo = s.inLen ∧
        t.rd.ptr = s.inLen ∧ t.rd.bit = 0 ∧ ∀ a, ¬OutRegion s a → t.mem.read a = s.mem.read a)

/-- R149: PASSTHRU completes when IN_LEN is exactly RawSize and the output region holds it, and copies the bytes. -/
def Obligations.PassthruCopies : Prop :=
  ∀ s : State, Inv s → FormatLegal s → InFits s → OutFits s → s.inLen.toNat = rawBytes s →
    rawBytes s ≤ s.outCap.toNat → Apart s → Readable s (rawBytes s) → Writable s 0 (rawBytes s) →
    ∃ t, exec .passthru s = .next t ∧
      t = { s with mem := t.mem, outSize := BitVec.ofNat 32 (rawBytes s), phase := .idle, done := true } ∧
      (∀ k < rawBytes s, t.mem.read (s.outAddr.toNat + k) = s.mem.read (s.inAddr.toNat + k)) ∧
      ∀ a, ¬(s.outAddr.toNat ≤ a ∧ a < s.outAddr.toNat + rawBytes s) → t.mem.read a = s.mem.read a

/-- R145, R76 to R78 and R107: ENC_FRAME completes with a capacity of a full tree and 64 bits a sample for each channel. It
leaves the counts of this frame alone in HIST, the trees TREE_BUILD gives from them (R98, R104), legal, and its codes the paths in
them, an empty packer, and in the output region the headers followed by the codes of the deltas in raster order, zero-padded. -/
def Obligations.EncFrameWritesStream : Prop :=
  ∀ s : State, Inv s → FormatLegal s → InFits s → OutFits s → rawBytes s ≤ s.inLen.toNat → Apart s →
    Readable s (rawBytes s) → Writable s 0 s.outCap.toNat →
    nch s * (8 + 4 * (alphabet s - 1)) + 8 * frameSamples s ≤ s.outCap.toNat →
    ∃ t stream, exec .encFrame s = .next t ∧
      t = { s with
        hist := t.hist, tree := t.tree, ncount := t.ncount, root := t.root, code := t.code, prev := t.prev
        scans := t.scans, mem := t.mem, pk := ⟨t.outSize, 0, 0⟩, outSize := BitVec.ofNat 32 stream.length, phase := .idle, done := true } ∧
      (∀ (c : Ch) (i : Nat), i < 4096 → t.histAt c i = BitVec.ofNat 32 (occurrences s c i)) ∧
      (∀ c : Ch, t.prev.get c = prevAfterScan s c) ∧
      (∀ c : Ch, c.val < nch s → (treeOf t c).Legal (alphabet s) ∧ BuiltTree t c (treeOf t c)) ∧
      (∀ k < frameSamples s, (t.codeAt (channelOf (nch s) k) (deltaAt s k)).valid = true ∧
        (treeOf t (channelOf (nch s) k)).CodePath (deltaAt s k)
          (codeBits (t.codeAt (channelOf (nch s) k) (deltaAt s k)))) ∧
      stream = headersOf t ++ paddedBytes ((List.range (frameSamples s)).flatMap fun k =>
        codeBits (t.codeAt (channelOf (nch s) k) (deltaAt s k))) ∧
      stream.length ≤ s.outCap.toNat ∧ BytesAt t.mem s.outAddr.toNat stream

/-- R146: with a capacity of RawSize plus the largest headers ENC_FRAME completes, and its stream stays within that bound. With a
capacity below the length of its stream it stops with OUT_OVERFLOW, ERR_INFO the capacity (R145). -/
def Obligations.EncFrameStaysInBound : Prop :=
  (∀ (s t : State) (cap : Word), Inv s → s.err = false → exec .encFrame s = .next t → t.err = false →
    cap.toNat < t.outSize.toNat →
    ∃ u, exec .encFrame { s with outCap := cap } = .next u ∧ u.phase = .idle ∧ u.done = true ∧ u.err = true ∧
      u.errCode = 0x05 ∧ u.errInfo = cap ∧ u.pk.ptr = cap ∧ u.outSize = s.outSize) ∧
  ∀ s : State, Inv s → s.err = false → s.errCode = 0 → FormatLegal s → InFits s → OutFits s →
    rawBytes s ≤ s.inLen.toNat → Apart s →
    Readable s (rawBytes s) → Writable s 0 s.outCap.toNat →
    rawBytes s + nch s * (8 + 4 * (alphabet s - 1)) ≤ s.outCap.toNat →
    ∃ t, exec .encFrame s = .next t ∧ t.done = true ∧ t.err = false ∧ t.errCode = 0 ∧
      t.outSize.toNat ≤ rawBytes s + nch s * (8 + 4 * (alphabet s - 1))

/-- R145, the empty frame: NCH headers of 8 zero bytes, no code bits, and OUT_SIZE = 8 x NCH. -/
def Obligations.EncFrameOfEmptyFrame : Prop :=
  ∀ s : State, Inv s → FormatLegal s → InFits s → OutFits s → s.width = 0 ∨ s.height = 0 → Apart s →
    8 * nch s ≤ s.outCap.toNat → Writable s 0 (8 * nch s) →
    ∃ t, exec .encFrame s = .next t ∧
      t = { s with
        hist := [], ncount := t.ncount, root := t.root, code := t.code, prev := t.prev, scans := t.scans
        mem := t.mem, pk := ⟨BitVec.ofNat 32 (8 * nch s), 0, 0⟩, outSize := BitVec.ofNat 32 (8 * nch s)
        phase := .idle, done := true } ∧
      (∀ c : Ch, c.val < nch s → treeOf t c = ⟨0, []⟩) ∧
      BytesAt t.mem s.outAddr.toNat (List.replicate (8 * nch s) 0) ∧
      ∀ a, ¬(s.outAddr.toNat ≤ a ∧ a < s.outAddr.toNat + 8 * nch s) → t.mem.read a = s.mem.read a

/-- R148 and R141: a DEC_FRAME in the identity mode of the layout, with the same format, of the stream a completed ENC_FRAME
wrote completes and writes the raw frame: every byte of a contiguous frame of in-range samples, every stream bit of a packed
one; OUT_SIZE is RawSize. -/
def Obligations.FramesRoundTrip : Prop :=
  ∀ s t u : State, Inv s → Inv u → s.err = false → exec .encFrame s = .next t → t.err = false →
    (s.cfg.packed = false → bitWidth s ≠ 8 → ∀ k < frameSamples s,
      (s.mem.read (s.inAddr.toNat + 2 * k)).toNat + 256 * (s.mem.read (s.inAddr.toNat + 2 * k + 1)).toNat < alphabet s) →
    u.cfg = { s.cfg with mode := if s.cfg.packed then 1 else 0 } → u.width = s.width → u.height = s.height →
    u.inAddr = s.outAddr → t.outSize.toNat ≤ u.inLen.toNat → InFits u → OutFits u →
    rawBytes s ≤ u.outCap.toNat → Apart u → Readable u u.inLen.toNat → Writable u 0 (rawBytes s) →
    (∀ k < t.outSize.toNat, u.mem.read (s.outAddr.toNat + k) = t.mem.read (s.outAddr.toNat + k)) →
    ∃ v, exec .decFrame u = .next v ∧ v.done = true ∧ v.err = u.err ∧ v.errCode = u.errCode ∧
      v.outSize = BitVec.ofNat 32 (rawBytes s) ∧
      (s.cfg.packed = false → ∀ k < rawBytes s,
        v.mem.read (u.outAddr.toNat + k) = s.mem.read (s.inAddr.toNat + k)) ∧
      (s.cfg.packed = true → ∀ j < frameSamples s * bitWidth s,
        bitOfByte (v.mem.read (u.outAddr.toNat + j / 8)) j = bitOfByte (s.mem.read (s.inAddr.toNat + j / 8)) j)

/-- R48: the result of a frame command does not depend on stale tables, channel registers or unit state: memory, OUT_SIZE and
status are the same, and at completion so are the tables and registers it writes, HIST, and PREV and ACC where there is a row,
the trees and codes of the channels below NCH, and the packer and the reader (R145, R147). -/
def Obligations.FrameCommandsIgnoreStaleTables : Prop :=
  ∀ (i : Instr) (s u t : State), Inv s → Inv u → i = .encFrame ∨ i = .decFrame →
    u = { s with
      hist := u.hist, tree := u.tree, code := u.code, ncount := u.ncount, root := u.root
      prev := u.prev, acc := u.acc, pk := u.pk, rd := u.rd } →
    exec i s = .next t →
    ∃ v, exec i u = .next v ∧ v.mem = t.mem ∧ v.draws = t.draws ∧ v.outSize = t.outSize ∧ v.phase = t.phase ∧
      v.done = t.done ∧ v.err = t.err ∧ v.errCode = t.errCode ∧ v.errInfo = t.errInfo ∧
      (s.err = false → t.err = false →
        (∀ c : Ch, c.val < nch s → treeOf v c = treeOf t c) ∧
        (i = .encFrame → v.hist = t.hist ∧ v.pk = t.pk ∧ ∀ c : Ch, c.val < nch s →
          (∀ sym < 4096, v.codeAt c sym = t.codeAt c sym) ∧ (s.height ≠ 0 → v.prev.get c = t.prev.get c)) ∧
        (i = .decFrame → v.rd = t.rd ∧ (s.cfg.mode = 1 → v.pk = t.pk) ∧
          (s.height ≠ 0 → ∀ c : Ch, c.val < nch s → v.acc.get c = t.acc.get c)))

/-- R15, R152, R113, R116 and R154. For every command that accesses memory, MEM_OK decides nothing but this: where a command
completes over a memory that accepts every access, it completes alike if MEM_OK accepts the accesses it makes, and stops
with BUS_ERROR at the address of a refused one if not. The first access of PK_FLUSH, RD_BITS and HDR_READ, exactly: a
refused access changes nothing but what R67 leaves unspecified of the output region of PK_FLUSH (log 26), and the bounds
check comes first. -/
def Obligations.RefusedAccessesStop : Prop :=
  (∀ (i : Instr) (s t : State), Inv s → s.err = false → exec i { s with deny := [] } = .next t → t.err = false →
    ((∀ kind a, Accesses i s t kind a → s.memOk kind a = true) → exec i s = .next { t with deny := s.deny }) ∧
    ∀ kind a, Accesses i s t kind a → s.memOk kind a = false →
      ∃ u kind' a', exec i s = .next u ∧ u.phase = .idle ∧ u.done = true ∧ u.err = true ∧ u.errCode = 0x0D ∧
        u.errInfo = BitVec.ofNat 32 a' ∧ Accesses i s t kind' a' ∧ s.memOk kind' a' = false) ∧
  ∀ s : State, Inv s → FormatLegal s →
    (OutFits s → s.pk.fill ≠ 0 → s.memOk .write (s.outAddr.toNat + s.pk.ptr.toNat) = false →
      if s.pk.ptr.toNat < s.outCap.toNat then StopsUnwritten s (exec .pkFlush s) 0x0D (s.outAddr + s.pk.ptr)
      else StopsUnwritten s (exec .pkFlush s) 0x05 s.pk.ptr) ∧
    (InFits s → s.rd.bit = 0 → 1 ≤ s.argLen.toNat → s.argLen.toNat ≤ 64 →
      s.memOk .read (s.inAddr.toNat + s.rd.ptr.toNat) = false →
      exec .rdBits s =
        if s.rd.ptr.toNat < s.inLen.toNat then stopped s 0x0D (s.inAddr + s.rd.ptr) else stopped s 0x09 s.rd.ptr) ∧
    (InFits s → s.rd.bit = 0 → s.memOk .read (s.inAddr.toNat + s.rd.ptr.toNat) = false →
      exec .hdrRead s =
        if s.rd.ptr.toNat < s.inLen.toNat then stopped s 0x0D (s.inAddr + s.rd.ptr) else stopped s 0x06 s.rd.ptr)

end Statements
end

