-- ==== Sys2Proof/Laws/Cmd.lean ====
section
/-! SUPPORT. Laws of the command monad: how a command runs, how it ends, and rules for sequences and loops. -/

namespace Sys2Proof.Machine

variable {α β : Type}

/-! ### Running -/

@[simp] theorem Cmd.pure_run (a : α) (s : State) : (pure a : Cmd α) s = .ok a s := rfl

@[simp] theorem Cmd.get_run (s : State) : (get : Cmd State) s = .ok s s := rfl

@[simp] theorem Cmd.set_run (t s : State) : (set t : Cmd Unit) s = .ok () t := rfl

@[simp] theorem Cmd.modify_run (f : State → State) (s : State) : (modify f : Cmd Unit) s = .ok () (f s) := rfl

@[simp] theorem Cmd.throw_run (e : Stop) (s : State) : (throw e : Cmd α) s = .error e s := rfl

@[simp] theorem raise_run (e : ErrCode) (info : Word) (s : State) : (raise e info : Cmd α) s = .error (.raise e info) s :=
  rfl

theorem require_run (p : Bool) (e : ErrCode) (info : Word) (s : State) :
    require p e info s = if p then .ok () s else .error (.raise e info) s := by
  cases p <;> rfl

theorem Cmd.bind_run (m : Cmd α) (f : α → Cmd β) (s : State) :
    (m >>= f) s = match m s with
      | .ok a t => f a t
      | .error e t => .error e t := by
  show EStateM.bind m f s = _
  unfold EStateM.bind
  cases m s <;> rfl

@[simp] theorem Cmd.get_bind_run (f : State → Cmd β) (s : State) : ((get : Cmd State) >>= f) s = f s s := rfl

/-! ### Inversion of a sequence -/

theorem Cmd.bind_ok {m : Cmd α} {f : α → Cmd β} {s t : State} {b : β} :
    (m >>= f) s = .ok b t ↔ ∃ a u, m s = .ok a u ∧ f a u = .ok b t := by
  rw [Cmd.bind_run]
  cases m s <;> simp

theorem Cmd.bind_error {m : Cmd α} {f : α → Cmd β} {s t : State} {e : Stop} :
    (m >>= f) s = .error e t ↔ m s = .error e t ∨ ∃ a u, m s = .ok a u ∧ f a u = .error e t := by
  rw [Cmd.bind_run]
  cases m s <;> simp

/-! ### What a command's ends keep -/

/-- The state a result carries. -/
def resultState : EStateM.Result Stop State α → State
  | .ok _ t => t
  | .error _ t => t

/-- However `m` ends, the state it ends in stands in relation `R` to the state it starts in. -/
def Keeps (R : State → State → Prop) (m : Cmd α) : Prop := ∀ s, R s (resultState (m s))

variable {R : State → State → Prop}

theorem Keeps.pure (hr : ∀ s, R s s) (a : α) : Keeps R (pure a : Cmd α) := fun s => hr s

theorem Keeps.raise (hr : ∀ s, R s s) (e : ErrCode) (info : Word) : Keeps R (raise e info : Cmd α) := fun s => hr s

theorem Keeps.get (hr : ∀ s, R s s) : Keeps R (get : Cmd State) := fun s => hr s

theorem Keeps.modify {f : State → State} (h : ∀ s, R s (f s)) : Keeps R (modify f : Cmd Unit) := h

theorem Keeps.require (hr : ∀ s, R s s) (p : Bool) (e : ErrCode) (info : Word) : Keeps R (require p e info) := fun s => by
  cases p <;> exact hr s

theorem Keeps.bind (ht : ∀ s t u, R s t → R t u → R s u) {m : Cmd α} {f : α → Cmd β} (hm : Keeps R m)
    (hf : ∀ a, Keeps R (f a)) : Keeps R (m >>= f) := fun s => by
  have h := hm s
  rw [Cmd.bind_run]
  cases hms : m s with
  | ok a t =>
    rw [hms] at h
    exact ht _ _ _ h (hf a t)
  | error e t =>
    rw [hms] at h
    exact h

theorem Keeps.ite {p : Prop} [Decidable p] {m n : Cmd α} (hm : Keeps R m) (hn : Keeps R n) :
    Keeps R (if p then m else n) := by
  split
  · exact hm
  · exact hn

theorem Keeps.forUp (hr : ∀ s, R s s) (ht : ∀ s t u, R s t → R t u → R s u) {f : Nat → Cmd Unit} (hf : ∀ i, Keeps R (f i))
    (n i : Nat) : Keeps R (forUp n i f) := by
  induction n generalizing i with
  | zero => exact Keeps.pure hr ()
  | succ n ih => exact Keeps.bind ht (hf i) fun _ => ih (i + 1)

theorem Keeps.forEach (hr : ∀ s, R s s) (ht : ∀ s t u, R s t → R t u → R s u) {f : α → Cmd Unit} (hf : ∀ x, Keeps R (f x))
    (l : List α) : Keeps R (forEach l f) := by
  induction l with
  | nil => exact Keeps.pure hr ()
  | cons x t ih => exact Keeps.bind ht (hf x) fun _ => ih

/-! ### Loops that complete -/

/-- A counted loop whose body completes and keeps an invariant indexed by the counter completes with the invariant at the
end. -/
theorem forUp_completes {f : Nat → Cmd Unit} (P : Nat → State → Prop) {n i : Nat}
    (hf : ∀ k s, i ≤ k → k < i + n → P k s → ∃ t, f k s = .ok () t ∧ P (k + 1) t) {s : State} (h : P i s) :
    ∃ t, forUp n i f s = .ok () t ∧ P (i + n) t := by
  induction n generalizing i s with
  | zero => exact ⟨s, rfl, h⟩
  | succ n ih =>
    obtain ⟨t, ht, hP⟩ := hf i s le_rfl (by omega) h
    obtain ⟨u, hu, hQ⟩ := ih (i := i + 1) (fun k s h1 h2 => hf k s (by omega) (by omega)) hP
    refine ⟨u, ?_, by rwa [show i + (n + 1) = i + 1 + n by omega]⟩
    show (f i >>= fun _ => forUp n (i + 1) f) s = _
    exact Cmd.bind_ok.2 ⟨(), t, ht, hu⟩

/-- A loop over a list, likewise, with an invariant indexed by what is done and what is left. -/
theorem forEach_completes {f : α → Cmd Unit} (P : List α → State → Prop) {l : List α}
    (hf : ∀ x t s, P (x :: t) s → ∃ u, f x s = .ok () u ∧ P t u) {s : State} (h : P l s) :
    ∃ t, forEach l f s = .ok () t ∧ P [] t := by
  induction l generalizing s with
  | nil => exact ⟨s, rfl, h⟩
  | cons x t ih =>
    obtain ⟨u, hu, hP⟩ := hf x t s h
    obtain ⟨v, hv, hQ⟩ := ih hP
    exact ⟨v, Cmd.bind_ok.2 ⟨(), u, hu, hv⟩, hQ⟩

/-! ### How a command ends -/

/-- Everything a command can answer, whatever its error stop leaves in memory. -/
theorem commandWith_cases (leave : ErrCode → State → State) (m : Cmd Unit) (s : State) :
    (∃ u, m s = .ok () u ∧ commandWith leave m s = .next u.finish) ∨
    (∃ e info u, m s = .error (.raise e info) u ∧ commandWith leave m s = .next ((leave e u).stop e info)) ∨
    (∃ r u, m s = .error (.refuse r) u ∧ commandWith leave m s = .refused r) := by
  unfold commandWith
  cases h : m s with
  | ok a t => exact .inl ⟨t, rfl, rfl⟩
  | error e t =>
    cases e with
    | raise e info => exact .inr (.inl ⟨e, info, t, rfl, rfl⟩)
    | refuse r => exact .inr (.inr ⟨r, t, rfl, rfl⟩)

/-- Everything `command` can answer. -/
theorem command_cases (m : Cmd Unit) (s : State) :
    (∃ u, m s = .ok () u ∧ command m s = .next u.finish) ∨
    (∃ e info u, m s = .error (.raise e info) u ∧ command m s = .next (u.stop e info)) ∨
    (∃ r u, m s = .error (.refuse r) u ∧ command m s = .refused r) := commandWith_cases _ m s

/-- Everything `commandLoose` can answer. -/
theorem commandLoose_cases (m : Cmd Unit) (s : State) :
    (∃ u, m s = .ok () u ∧ commandLoose m s = .next u.finish) ∨
    (∃ e info u, m s = .error (.raise e info) u ∧ commandLoose m s = .next (u.loosenOut.stop e info)) ∨
    (∃ r u, m s = .error (.refuse r) u ∧ commandLoose m s = .refused r) := commandWith_cases _ m s

/-- Everything the commands that mark their bytes can answer, whatever their error stop leaves in memory. -/
theorem commandWith_marking_cases (leave : ErrCode → State → State) (m : Cmd Unit) (s : State) :
    (∃ u, m s = .ok () u ∧ commandWith leave (marking m) s = .next (s.markSince u).finish) ∨
    (∃ e info u, m s = .error (.raise e info) u ∧
      commandWith leave (marking m) s = .next ((leave e (s.markSince u)).stop e info)) ∨
    (∃ r u, m s = .error (.refuse r) u ∧ commandWith leave (marking m) s = .refused r) := by
  unfold commandWith marking
  cases h : m s with
  | ok a t => exact .inl ⟨t, rfl, rfl⟩
  | error e t =>
    cases e with
    | raise e info => exact .inr (.inl ⟨e, info, t, rfl, rfl⟩)
    | refuse r => exact .inr (.inr ⟨r, t, rfl, rfl⟩)

/-- Everything `commandEmit` can answer. -/
theorem commandEmit_cases (m : Cmd Unit) (s : State) :
    (∃ u, m s = .ok () u ∧ commandEmit m s = .next (s.markSince u).finish) ∨
    (∃ e info u, m s = .error (.raise e info) u ∧
      commandEmit m s = .next ((s.markSince u).loosenUnwritten.stop e info)) ∨
    (∃ r u, m s = .error (.refuse r) u ∧ commandEmit m s = .refused r) := commandWith_marking_cases _ m s

theorem commandWith_of_ok {leave : ErrCode → State → State} {m : Cmd Unit} {s t : State} (h : m s = .ok () t) :
    commandWith leave m s = .next t.finish := by
  unfold commandWith
  rw [h]

theorem command_of_ok {m : Cmd Unit} {s t : State} (h : m s = .ok () t) : command m s = .next t.finish :=
  commandWith_of_ok h

theorem commandLoose_of_ok {m : Cmd Unit} {s t : State} (h : m s = .ok () t) : commandLoose m s = .next t.finish :=
  commandWith_of_ok h

theorem marking_of_ok {m : Cmd Unit} {s t : State} (h : m s = .ok () t) : marking m s = .ok () (s.markSince t) := by
  unfold marking
  rw [h]

theorem commandEmit_of_ok {m : Cmd Unit} {s t : State} (h : m s = .ok () t) :
    commandEmit m s = .next (s.markSince t).finish := commandWith_of_ok (marking_of_ok h)

end Sys2Proof.Machine
end

