-- ==== Sys2Proof/Laws/Sparse.lean ====
section
/-! SUPPORT. Laws of sparse tables: reading after writing, and the canonical form. -/

namespace Sys2Proof.Machine.Sparse

variable {β : Type} {d : β}

/-- A key below every listed key is unlisted. -/
theorem get_of_lt {t : List (Nat × β)} {k : Nat} (h : ∀ e ∈ t, k < e.1) : get d t k = d := by
  cases t with
  | nil => rfl
  | cons e t => simp [get, h e (by simp)]

/-- In rising order a key is either listed or reads `d`. -/
theorem get_eq_of_mem {t : List (Nat × β)} (ht : t.Pairwise (fun e f => e.1 < f.1)) {k : Nat} {v : β}
    (h : (k, v) ∈ t) : get d t k = v := by
  induction t with
  | nil => simp at h
  | cons e t ih =>
    obtain ⟨k', v'⟩ := e
    obtain ⟨hlt, ht⟩ := List.pairwise_cons.1 ht
    obtain heq | hmem := List.mem_cons.1 h
    · obtain ⟨rfl, rfl⟩ := Prod.mk.inj heq
      simp [get]
    · have hk := hlt _ hmem
      simp only at hk
      simp [get, show ¬k < k' by omega, show k ≠ k' by omega, ih ht hmem]

theorem get_eq_default {t : List (Nat × β)} {k : Nat} (h : ∀ e ∈ t, e.1 ≠ k) : get d t k = d := by
  induction t with
  | nil => rfl
  | cons e t ih =>
    have he := h e (by simp)
    simp only [get, show k ≠ e.1 from fun x => he x.symm, if_false]
    split
    · rfl
    · exact ih fun f hf => h f (by simp [hf])

variable [DecidableEq β]

theorem get_consUnless_same {t : List (Nat × β)} {k : Nat} {v : β} (h : ∀ e ∈ t, k < e.1) :
    get d (consUnless d k v t) k = v := by
  unfold consUnless
  split
  · rename_i hv; rw [get_of_lt h, hv]
  · simp [get]

theorem get_consUnless_other {t : List (Nat × β)} {k j : Nat} {v : β} (h : ∀ e ∈ t, k < e.1) (hj : j ≠ k) :
    get d (consUnless d k v t) j = get d t j := by
  unfold consUnless
  split
  · rfl
  · simp only [get, hj, if_false]
    split
    · exact (get_of_lt fun e he => by have := h e he; omega).symm
    · rfl

/-- Every key of the table after a write is the written one or an old one. -/
theorem mem_put {t : List (Nat × β)} {k : Nat} {v : β} {e : Nat × β} (h : e ∈ put d t k v) :
    e ∈ t ∨ e = (k, v) ∧ v ≠ d := by
  induction t with
  | nil =>
    simp only [put, consUnless] at h
    split at h <;> simp_all
  | cons f t ih =>
    obtain ⟨k', v'⟩ := f
    simp only [put] at h
    split at h
    · simp only [consUnless] at h
      split at h <;> simp_all
      tauto
    · split at h
      · simp only [consUnless] at h
        split at h <;> simp_all
        tauto
      · obtain rfl | h := List.mem_cons.1 h
        · simp
        · obtain h | h := ih h
          · simp [h]
          · exact .inr h

theorem put_rising {t : List (Nat × β)} {k : Nat} {v : β} (ht : t.Pairwise (fun e f => e.1 < f.1)) :
    (put d t k v).Pairwise (fun e f => e.1 < f.1) := by
  induction t with
  | nil => simp only [put, consUnless]; split <;> simp
  | cons f t ih =>
    obtain ⟨k', v'⟩ := f
    obtain ⟨hlt, ht'⟩ := List.pairwise_cons.1 ht
    simp only [put]
    split
    · rename_i hk
      simp only [consUnless]
      split
      · exact ht
      · refine List.pairwise_cons.2 ⟨fun e he => ?_, ht⟩
        obtain rfl | he := List.mem_cons.1 he
        · exact hk
        · have := hlt e he
          simp only at this ⊢
          omega
    · split
      · rename_i hk
        simp only [consUnless]
        split
        · exact ht'
        · exact List.pairwise_cons.2 ⟨by simpa [hk] using hlt, ht'⟩
      · refine List.pairwise_cons.2 ⟨fun e he => ?_, ih ht'⟩
        obtain he | ⟨rfl, -⟩ := mem_put he
        · exact hlt e he
        · simp only
          omega

/-- A write keeps the canonical form. -/
theorem put_wf {t : List (Nat × β)} {k : Nat} {v : β} (h : wf d t) : wf d (put d t k v) := by
  refine ⟨put_rising h.1, fun e he => ?_⟩
  obtain he | ⟨rfl, hv⟩ := mem_put he
  · exact h.2 e he
  · exact hv

/-- Dropping entries keeps the canonical form. -/
theorem filter_wf {t : List (Nat × β)} {p : Nat × β → Bool} (h : wf d t) : wf d (t.filter p) :=
  ⟨h.1.filter _, fun e he => h.2 e (List.mem_filter.1 he).1⟩

/-- A read after a write to the same key gives the value written. -/
theorem get_put_same {t : List (Nat × β)} {k : Nat} {v : β} (ht : t.Pairwise (fun e f => e.1 < f.1)) :
    get d (put d t k v) k = v := by
  induction t with
  | nil => exact get_consUnless_same (by simp)
  | cons f t ih =>
    obtain ⟨k', v'⟩ := f
    obtain ⟨hlt, ht'⟩ := List.pairwise_cons.1 ht
    simp only [put]
    split
    · rename_i hk
      refine get_consUnless_same fun e he => ?_
      obtain rfl | he := List.mem_cons.1 he
      · exact hk
      · have := hlt e he
        simp only at this
        omega
    · split
      · rename_i hk
        exact get_consUnless_same (by simpa [hk] using hlt)
      · rename_i h1 h2
        simp only [get, h1, h2, if_false]
        exact ih ht'

/-- A write leaves every other key alone. -/
theorem get_put_other {t : List (Nat × β)} {k j : Nat} {v : β} (ht : t.Pairwise (fun e f => e.1 < f.1)) (hj : j ≠ k) :
    get d (put d t k v) j = get d t j := by
  induction t with
  | nil => exact get_consUnless_other (by simp) hj
  | cons f t ih =>
    obtain ⟨k', v'⟩ := f
    obtain ⟨hlt, ht'⟩ := List.pairwise_cons.1 ht
    simp only [put]
    split
    · rename_i hk
      refine get_consUnless_other (fun e he => ?_) hj
      obtain rfl | he := List.mem_cons.1 he
      · exact hk
      · have := hlt e he
        simp only at this
        omega
    · split
      · rename_i hk
        rw [get_consUnless_other (by simpa [hk] using hlt) hj]
        simp only [get, show j ≠ k' by omega, if_false]
        split
        · exact get_of_lt fun e he => by have := hlt e he; simp only at this; omega
        · rfl
      · simp only [get]
        rw [ih ht']

omit [DecidableEq β] in
/-- Dropping entries by key reads `d` at the dropped keys and leaves the others alone. -/
theorem get_filter {t : List (Nat × β)} {p : Nat → Bool} (ht : t.Pairwise (fun e f => e.1 < f.1)) (k : Nat) :
    get d (t.filter fun e => p e.1) k = if p k then get d t k else d := by
  induction t with
  | nil => simp [get]
  | cons f t ih =>
    obtain ⟨k', v'⟩ := f
    obtain ⟨hlt, ht'⟩ := List.pairwise_cons.1 ht
    have tail : k < k' → get d (t.filter fun e => p e.1) k = d := fun h =>
      get_of_lt fun e he => by have := hlt e (List.mem_filter.1 he).1; simp only at this; omega
    rw [List.filter_cons]
    by_cases hp : p k' = true
    · simp only [hp, if_true, get]
      by_cases h1 : k < k'
      · simp [h1]
      · by_cases h2 : k = k'
        · simp [h2, hp]
        · simp [h1, h2, ih ht']
    · have hp' : p k' = false := by simpa using hp
      simp only [hp', Bool.false_eq_true, if_false, get]
      by_cases h1 : k < k'
      · simp [h1, tail h1]
      · by_cases h2 : k = k'
        · subst h2
          rw [ih ht']; simp [hp']
        · simp [h1, h2, ih ht']

/-- Canonical tables that read the same everywhere are equal. -/
theorem ext {t u : List (Nat × β)} (ht : wf d t) (hu : wf d u) (h : ∀ k, get d t k = get d u k) : t = u := by
  have first : ∀ {k : Nat} {v : β} {t u : List (Nat × β)}, wf d ((k, v) :: t) → (∀ e ∈ u, k < e.1) →
      get d ((k, v) :: t) k ≠ get d u k := fun {k v t u} hw hlt => by
    rw [get_of_lt hlt]
    simpa [get] using hw.2 (k, v) (by simp)
  induction t generalizing u with
  | nil =>
    cases u with
    | nil => rfl
    | cons f u => exact absurd (h f.1).symm (first hu (by simp))
  | cons e t ih =>
    cases u with
    | nil => exact absurd (h e.1) (first ht (by simp))
    | cons f u =>
      obtain ⟨k, v⟩ := e
      obtain ⟨j, w⟩ := f
      obtain ⟨ht1, ht2⟩ := List.pairwise_cons.1 ht.1
      obtain ⟨hu1, hu2⟩ := List.pairwise_cons.1 hu.1
      simp only at ht1 hu1
      have hkj : k = j := by
        rcases Nat.lt_trichotomy k j with hlt | heq | hlt
        · refine absurd (h k) (first ht fun e he => ?_)
          obtain rfl | he := List.mem_cons.1 he
          · exact hlt
          · exact Nat.lt_trans hlt (hu1 e he)
        · exact heq
        · refine absurd (h j).symm (first hu fun e he => ?_)
          obtain rfl | he := List.mem_cons.1 he
          · exact hlt
          · exact Nat.lt_trans hlt (ht1 e he)
      subst hkj
      have hvw : v = w := by simpa [get] using h k
      subst hvw
      congr 1
      refine ih ⟨ht2, fun e he => ht.2 e (by simp [he])⟩ ⟨hu2, fun e he => hu.2 e (by simp [he])⟩ fun i => ?_
      by_cases hi : i ≤ k
      · rw [get_of_lt fun e he => Nat.lt_of_le_of_lt hi (ht1 e he), get_of_lt fun e he => Nat.lt_of_le_of_lt hi (hu1 e he)]
      · simpa [get, show ¬i < k by omega, show i ≠ k by omega] using h i

end Sys2Proof.Machine.Sparse
end

