-- ==== Sys2Proof/Laws/Memory.lean ====
section
/-! SUPPORT. Laws of external memory: a read after a write, what leaving bytes unspecified changes, which bytes EmitByte
wrote, and that every memory operation keeps the canonical form. -/

namespace Sys2Proof.Machine

/-! ### Spans -/

/-- The draw that fixes the byte at address `b`, if it is unspecified. -/
def Memory.drawAt (l : List Span) (b : Nat) : Option Nat := (l.find? (·.covers b)).map (·.draw)

theorem Memory.read_eq (m : Memory) (b : Nat) :
    m.read b = match Memory.drawAt m.loose b with
      | some n => Config.freeByte n b
      | none => Sparse.get Memory.unlisted m.cells b := by
  unfold Memory.read Memory.drawAt
  cases m.loose.find? (·.covers b) <;> rfl

theorem Memory.drawAt_append (l m : List Span) (b : Nat) :
    Memory.drawAt (l ++ m) b = (Memory.drawAt l b).or (Memory.drawAt m b) := by
  unfold Memory.drawAt
  rw [List.find?_append]
  cases l.find? (·.covers b) <;> rfl

theorem Memory.drawAt_make (lo hi n b : Nat) :
    Memory.drawAt (Span.make lo hi n) b = if lo ≤ b ∧ b < hi then some n else none := by
  unfold Span.make Memory.drawAt
  by_cases h : lo ≤ b ∧ b < hi
  · have hlt : lo < hi := by omega
    simp [hlt, Span.covers, h]
  · split <;> simp [Span.covers, h]

theorem Memory.drawAt_cut (lo hi b : Nat) (p : Span) :
    Memory.drawAt (Span.cut lo hi p) b = if (lo ≤ b ∧ b < hi) ∨ p.covers b = false then none else some p.draw := by
  unfold Span.cut
  rw [Memory.drawAt_append, Memory.drawAt_make, Memory.drawAt_make]
  have hc : p.covers b = decide (p.lo ≤ b ∧ b < p.hi) := rfl
  rw [hc]
  by_cases hp : p.lo ≤ b ∧ b < p.hi
  · by_cases hb : lo ≤ b ∧ b < hi
    · rw [if_neg (by omega), if_neg (by omega), if_pos (.inl hb)]
      rfl
    · rw [if_neg (c := _ ∨ _) (by simp only [hb, hp]; simp)]
      by_cases hlo : b < lo
      · rw [if_pos (by omega)]
        rfl
      · rw [if_neg (by omega), if_pos (by omega)]
        rfl
  · rw [if_neg (by omega), if_neg (by omega), if_pos (.inr (by simpa using hp))]
    rfl

theorem Memory.drawAt_cons (p : Span) (l : List Span) (b : Nat) :
    Memory.drawAt (p :: l) b = if p.covers b then some p.draw else Memory.drawAt l b := by
  unfold Memory.drawAt
  rw [List.find?_cons]
  cases p.covers b <;> rfl

theorem Memory.drawAt_cutLoose (lo hi b : Nat) (l : List Span) :
    Memory.drawAt (Memory.cutLoose lo hi l) b = if lo ≤ b ∧ b < hi then none else Memory.drawAt l b := by
  induction l with
  | nil => simp [Memory.cutLoose, Memory.drawAt]
  | cons p t ih =>
    have hsplit : Memory.cutLoose lo hi (p :: t) = Span.cut lo hi p ++ Memory.cutLoose lo hi t := rfl
    rw [hsplit, Memory.drawAt_append, ih, Memory.drawAt_cut, Memory.drawAt_cons]
    by_cases hb : lo ≤ b ∧ b < hi
    · simp [hb]
    · cases hc : p.covers b <;> simp [hb]

theorem Memory.drawAt_insertLoose (q : Span) (l : List Span) (b : Nat)
    (h : q.covers b = true → Memory.drawAt l b = none) :
    Memory.drawAt (Memory.insertLoose q l) b = if q.covers b then some q.draw else Memory.drawAt l b := by
  induction l with
  | nil => rw [Memory.insertLoose, Memory.drawAt_cons]
  | cons p t ih =>
    simp only [Memory.insertLoose]
    split
    · rw [Memory.drawAt_cons, Memory.drawAt_cons]
      rw [Memory.drawAt_cons] at h
      cases hp : p.covers b
      · simp only [hp, Bool.false_eq_true, if_false] at h ⊢
        exact ih h
      · cases hq : q.covers b
        · simp
        · simp [hp, hq] at h
    · rw [Memory.drawAt_cons]

theorem Memory.drawAt_eq_none {l : List Span} {b : Nat} (h : ∀ p ∈ l, p.covers b = false) :
    Memory.drawAt l b = none := by
  unfold Memory.drawAt
  rw [List.find?_eq_none.2 fun p hp => by simp [h p hp]]
  rfl

/-! ### Reading after writing -/

/-- A read after a write to the same address gives the byte written (R60). -/
theorem Memory.read_write_same {m : Memory} (hm : m.wf) (a : Nat) (v : Byte) : (m.write a v).read a = v := by
  have hnone : Memory.drawAt (m.write a v).loose a = none := by
    unfold Memory.write
    by_cases h : m.loose.any (·.covers a) = true
    · simp [h, Memory.drawAt_cutLoose]
    · simp only [h]
      exact Memory.drawAt_eq_none fun p hp => by simpa using fun hc => h (List.any_eq_true.2 ⟨p, hp, hc⟩)
  rw [Memory.read_eq, hnone]
  exact Sparse.get_put_same hm.cells.1

/-- A write leaves every other address alone. -/
theorem Memory.read_write_other {m : Memory} (hm : m.wf) {a b : Nat} (v : Byte) (h : b ≠ a) :
    (m.write a v).read b = m.read b := by
  have hdraw : Memory.drawAt (m.write a v).loose b = Memory.drawAt m.loose b := by
    unfold Memory.write
    by_cases hc : m.loose.any (·.covers a) = true
    · simp only [hc, if_true]
      rw [Memory.drawAt_cutLoose, if_neg (by omega)]
    · simp [hc]
  rw [Memory.read_eq, Memory.read_eq, hdraw]
  have hget : Sparse.get Memory.unlisted (m.write a v).cells b = Sparse.get Memory.unlisted m.cells b :=
    Sparse.get_put_other hm.cells.1 h
  rw [hget]

theorem Memory.read_write {m : Memory} (hm : m.wf) (a b : Nat) (v : Byte) :
    (m.write a v).read b = if b = a then v else m.read b := by
  split
  · rename_i h; rw [h]; exact read_write_same hm a v
  · rename_i h; exact read_write_other hm v h

/-- Leaving bytes unspecified changes no byte outside the range (R67). -/
theorem Memory.read_loosen_outside {m : Memory} (hm : m.wf) {lo hi n b : Nat} (h : ¬(lo ≤ b ∧ b < hi)) :
    (m.loosen lo hi n).read b = m.read b := by
  unfold Memory.loosen
  split
  · have hq : (Span.mk lo hi n).covers b = false := by simpa [Span.covers] using h
    rw [Memory.read_eq, Memory.read_eq]
    simp only
    rw [Memory.drawAt_insertLoose _ _ _ (by simp [hq]), Memory.drawAt_cutLoose]
    simp only [hq, h, Bool.false_eq_true, if_false]
    rw [Sparse.get_filter (p := fun k => !decide (lo ≤ k ∧ k < hi)) hm.cells.1]
    simp [h]
  · rfl

/-- The bytes left unspecified are free values (R67). -/
theorem Memory.read_loosen_inside {m : Memory} {lo hi n b : Nat} (h : lo ≤ b ∧ b < hi) :
    (m.loosen lo hi n).read b = Config.freeByte n b := by
  have hlt : lo < hi := by omega
  have hq : (Span.mk lo hi n).covers b = true := by simpa [Span.covers] using h
  unfold Memory.loosen
  simp only [hlt, if_true]
  rw [Memory.read_eq]
  simp only
  rw [Memory.drawAt_insertLoose _ _ _ (by simp [Memory.drawAt_cutLoose, h])]
  simp [hq]

/-! ### The canonical form -/

theorem Span.covers_eq_true {p : Span} {a : Nat} : p.covers a = true ↔ p.lo ≤ a ∧ a < p.hi := by
  simp [Span.covers]

theorem Span.covers_eq_false {p : Span} {a : Nat} : p.covers a = false ↔ ¬(p.lo ≤ a ∧ a < p.hi) := by
  simp [Span.covers]

/-- A piece of a cut span lies in the span, outside the range, and keeps its draw. -/
theorem Span.mem_cut {lo hi : Nat} {p q : Span} (h : q ∈ Span.cut lo hi p) :
    q.lo < q.hi ∧ p.lo ≤ q.lo ∧ q.hi ≤ p.hi ∧ (q.hi ≤ lo ∨ hi ≤ q.lo) ∧ q.draw = p.draw := by
  simp only [Span.cut, Span.make, List.mem_append] at h
  rcases h with h | h <;> split at h <;> simp at h <;> subst h <;> simp_all

theorem Span.cut_ordered {lo hi : Nat} (h : lo < hi) (p : Span) : (Span.cut lo hi p).Pairwise Span.before := by
  unfold Span.cut Span.make Span.before
  split <;> split <;> simp
  omega

theorem Memory.mem_cutLoose {lo hi : Nat} {l : List Span} {q : Span} (h : q ∈ Memory.cutLoose lo hi l) :
    ∃ p ∈ l, q ∈ Span.cut lo hi p := by
  simpa [Memory.cutLoose, List.mem_flatMap] using h

theorem Memory.cutLoose_ordered {lo hi : Nat} (h : lo < hi) {l : List Span} (hl : l.Pairwise Span.before)
    : (Memory.cutLoose lo hi l).Pairwise Span.before := by
  induction l with
  | nil => simp [Memory.cutLoose]
  | cons p t ih =>
    obtain ⟨hp, ht⟩ := List.pairwise_cons.1 hl
    show (Span.cut lo hi p ++ Memory.cutLoose lo hi t).Pairwise Span.before
    refine List.pairwise_append.2 ⟨Span.cut_ordered h p, ih ht, fun q hq r hr => ?_⟩
    obtain ⟨p', hp', hr⟩ := Memory.mem_cutLoose hr
    have h1 := Span.mem_cut hq
    have h2 := Span.mem_cut hr
    have h3 := hp p' hp'
    simp only [Span.before] at h3 ⊢
    omega

theorem Memory.mem_insertLoose {q r : Span} {l : List Span} : r ∈ Memory.insertLoose q l ↔ r = q ∨ r ∈ l := by
  induction l with
  | nil => simp [Memory.insertLoose]
  | cons p t ih =>
    simp only [Memory.insertLoose]
    split <;> simp [ih]
    tauto

theorem Memory.insertLoose_ordered {q : Span} {l : List Span} (hq : q.lo < q.hi) (hl : l.Pairwise Span.before)
    (hne : ∀ p ∈ l, p.lo < p.hi) (hapart : ∀ p ∈ l, p.hi ≤ q.lo ∨ q.hi ≤ p.lo) (hdraw : ∀ p ∈ l, p.draw ≠ q.draw) :
    (Memory.insertLoose q l).Pairwise Span.before := by
  induction l with
  | nil => simp [Memory.insertLoose]
  | cons p t ih =>
    obtain ⟨hp, ht⟩ := List.pairwise_cons.1 hl
    have hp0 := hne p (by simp)
    have hpa := hapart p (by simp)
    have hpd := hdraw p (by simp)
    simp only [Memory.insertLoose]
    split
    · rename_i hle
      refine List.pairwise_cons.2 ⟨fun r hr => ?_, ih ht (fun r hr => hne r (by simp [hr]))
        (fun r hr => hapart r (by simp [hr])) (fun r hr => hdraw r (by simp [hr]))⟩
      obtain rfl | hr := Memory.mem_insertLoose.1 hr
      · simp only [Span.before]; omega
      · exact hp r hr
    · rename_i hle
      refine List.pairwise_cons.2 ⟨fun r hr => ?_, hl⟩
      obtain rfl | hr := List.mem_cons.1 hr
      · simp only [Span.before]; omega
      · have h1 := hp r hr
        have h2 := hne r (by simp [hr])
        simp only [Span.before] at h1 ⊢
        omega

/-- A write inside the address space keeps the canonical form. -/
theorem Memory.write_wf {m : Memory} (hm : m.wf) {a : Nat} (v : Byte) (ha : a < Config.memSize) : (m.write a v).wf := by
  have hcell : ∀ e ∈ (m.write a v).cells, e ∈ m.cells ∨ e.1 = a := fun e he => by
    obtain h | ⟨rfl, -⟩ := Sparse.mem_put he
    · exact .inl h
    · exact .inr rfl
  have hspan : ∀ q ∈ (m.write a v).loose, q.lo < q.hi ∧ (q.hi ≤ a ∨ a < q.lo) ∧
      ∃ p ∈ m.loose, p.lo ≤ q.lo ∧ q.hi ≤ p.hi := fun q hq => by
    unfold Memory.write at hq
    by_cases h : m.loose.any (·.covers a) = true
    · simp only [h, if_true] at hq
      obtain ⟨p, hp, hq⟩ := Memory.mem_cutLoose hq
      have := Span.mem_cut hq
      exact ⟨this.1, by omega, p, hp, by omega, by omega⟩
    · simp only [h] at hq
      have h1 := hm.spans q hq
      have h2 : q.covers a = false := by simpa using fun hc => h (List.any_eq_true.2 ⟨q, hq, hc⟩)
      rw [Span.covers_eq_false] at h2
      exact ⟨h1.1, by omega, q, hq, le_rfl, le_rfl⟩
  have hemit : ∀ e ∈ (m.write a v).emitted, e ∈ m.emitted ∧ e.1 < Config.memSize := fun e he => by
    obtain h | ⟨-, h2⟩ := Sparse.mem_put he
    · exact ⟨h, (hm.written e h).1⟩
    · exact absurd rfl h2
  refine ⟨Sparse.put_wf hm.cells, fun e he => ?_, fun e he q hq => ?_, fun q hq => ?_, ?_, Sparse.put_wf hm.emitted,
    fun e he => ⟨(hemit e he).2, fun q hq => ?_⟩⟩
  · obtain h | h := hcell e he
    · exact hm.inSpace e h
    · omega
  · obtain ⟨h1, h2, p, hp, h3, h4⟩ := hspan q hq
    rw [Span.covers_eq_false]
    obtain h | h := hcell e he
    · have := hm.apart e h p hp
      rw [Span.covers_eq_false] at this
      omega
    · omega
  · obtain ⟨h1, -, p, hp, h3, h4⟩ := hspan q hq
    have := hm.spans p hp
    omega
  · unfold Memory.write
    by_cases h : m.loose.any (·.covers a) = true
    · simp only [h, if_true]
      exact Memory.cutLoose_ordered (by omega) hm.order
    · simp only [h]
      exact hm.order
  · obtain ⟨-, -, p, hp, h3, h4⟩ := hspan q hq
    have := Span.covers_eq_false.1 ((hm.written e (hemit e he).1).2 p hp)
    rw [Span.covers_eq_false]
    omega

/-- Leaving bytes of the address space unspecified under a new draw keeps the canonical form. -/
theorem Memory.loosen_wf {m : Memory} (hm : m.wf) {lo hi n : Nat} (hhi : hi ≤ Config.memSize)
    (hn : ∀ p ∈ m.loose, p.draw ≠ n) : (m.loosen lo hi n).wf := by
  unfold Memory.loosen
  split
  · rename_i hlt
    have hspan : ∀ q ∈ Memory.insertLoose ⟨lo, hi, n⟩ (Memory.cutLoose lo hi m.loose),
        q = ⟨lo, hi, n⟩ ∨ q.lo < q.hi ∧ (q.hi ≤ lo ∨ hi ≤ q.lo) ∧ q.draw ≠ n ∧
          ∃ p ∈ m.loose, p.lo ≤ q.lo ∧ q.hi ≤ p.hi := fun q hq => by
      obtain rfl | hq := Memory.mem_insertLoose.1 hq
      · exact .inl rfl
      · obtain ⟨p, hp, hq⟩ := Memory.mem_cutLoose hq
        have h1 := Span.mem_cut hq
        have h2 := hn p hp
        exact .inr ⟨h1.1, h1.2.2.2.1, by omega, p, hp, by omega, by omega⟩
    have hcells : ∀ e ∈ m.cells.filter (fun e => !decide (lo ≤ e.1 ∧ e.1 < hi)), e ∈ m.cells ∧ ¬(lo ≤ e.1 ∧ e.1 < hi) :=
      fun e he => by
      obtain ⟨h1, h2⟩ := List.mem_filter.1 he
      exact ⟨h1, of_decide_eq_false (by simpa only [Bool.not_eq_true'] using h2)⟩
    have hemit : ∀ e ∈ m.emitted.filter (fun e => !decide (lo ≤ e.1 ∧ e.1 < hi)),
        e ∈ m.emitted ∧ ¬(lo ≤ e.1 ∧ e.1 < hi) := fun e he => by
      obtain ⟨h1, h2⟩ := List.mem_filter.1 he
      exact ⟨h1, of_decide_eq_false (by simpa only [Bool.not_eq_true'] using h2)⟩
    refine ⟨Sparse.filter_wf hm.cells, fun e he => hm.inSpace e (hcells e he).1, fun e he q hq => ?_, fun q hq => ?_, ?_,
      Sparse.filter_wf hm.emitted, fun e he => ⟨(hm.written e (hemit e he).1).1, fun q hq => ?_⟩⟩
    · rw [Span.covers_eq_false]
      obtain ⟨he1, he2⟩ := hcells e he
      obtain rfl | ⟨h1, -, -, p, hp, h3, h4⟩ := hspan q hq
      · exact he2
      · have := hm.apart e he1 p hp
        rw [Span.covers_eq_false] at this
        omega
    · obtain rfl | ⟨h1, -, -, p, hp, h3, h4⟩ := hspan q hq
      · exact ⟨hlt, hhi⟩
      · have := hm.spans p hp
        omega
    · refine Memory.insertLoose_ordered hlt (Memory.cutLoose_ordered hlt hm.order) ?_ ?_ ?_ <;>
        intro q hq <;> obtain ⟨p, hp, hq⟩ := Memory.mem_cutLoose hq <;> have h1 := Span.mem_cut hq
      · exact h1.1
      · exact h1.2.2.2.1
      · rw [h1.2.2.2.2]; exact hn p hp
    · rw [Span.covers_eq_false]
      obtain ⟨he1, he2⟩ := hemit e he
      obtain rfl | ⟨h1, -, -, p, hp, h3, h4⟩ := hspan q hq
      · exact he2
      · have := (hm.written e he1).2 p hp
        rw [Span.covers_eq_false] at this
        omega
  · exact hm

/-! ### The bytes EmitByte wrote -/

theorem Memory.isEmitted_iff {m : Memory} (hm : m.wf) (b : Nat) : m.isEmitted b = true ↔ ∃ e ∈ m.emitted, e.1 = b := by
  unfold Memory.isEmitted
  constructor
  · intro h
    by_contra hn
    rw [Sparse.get_eq_default fun e he hb => hn ⟨e, he, hb⟩] at h
    exact absurd h (by simp)
  · rintro ⟨⟨k, v⟩, he, rfl⟩
    rw [Sparse.get_eq_of_mem hm.emitted.1 he]
    simpa using hm.emitted.2 _ he

theorem Memory.isEmitted_write {m : Memory} (hm : m.wf) (a b : Nat) (v : Byte) :
    (m.write a v).isEmitted b = if b = a then false else m.isEmitted b := by
  show Sparse.get false (Sparse.put false m.emitted a false) b = _
  split
  · rename_i h; rw [h]; exact Sparse.get_put_same hm.emitted.1
  · rename_i h; exact Sparse.get_put_other hm.emitted.1 h

theorem Memory.isEmitted_mark {m : Memory} (hm : m.wf) (a b : Nat) :
    (m.mark a).isEmitted b = if b = a then true else m.isEmitted b := by
  show Sparse.get false (Sparse.put false m.emitted a true) b = _
  split
  · rename_i h; rw [h]; exact Sparse.get_put_same hm.emitted.1
  · rename_i h; exact Sparse.get_put_other hm.emitted.1 h

@[simp] theorem Memory.read_mark (m : Memory) (a b : Nat) : (m.mark a).read b = m.read b := rfl

/-- A written byte is known. -/
theorem Memory.write_known (m : Memory) (a : Nat) (v : Byte) : ∀ p ∈ (m.write a v).loose, p.covers a = false := by
  intro q hq
  unfold Memory.write at hq
  by_cases h : m.loose.any (·.covers a) = true
  · simp only [h, if_true] at hq
    obtain ⟨p, -, hq⟩ := Memory.mem_cutLoose hq
    have := Span.mem_cut hq
    rw [Span.covers_eq_false]
    omega
  · simp only [h] at hq
    simpa using fun hc => h (List.any_eq_true.2 ⟨q, hq, hc⟩)

theorem Memory.mark_wf {m : Memory} (hm : m.wf) {a : Nat} (ha : a < Config.memSize)
    (hk : ∀ p ∈ m.loose, p.covers a = false) : (m.mark a).wf :=
  ⟨hm.cells, hm.inSpace, hm.apart, hm.spans, hm.order, Sparse.put_wf hm.emitted, fun e he => by
    obtain h | ⟨rfl, -⟩ := Sparse.mem_put he
    · exact hm.written e h
    · exact ⟨ha, hk⟩⟩

@[simp] theorem Memory.mark_loose (m : Memory) (a : Nat) : (m.mark a).loose = m.loose := rfl

@[simp] theorem Memory.markRun_loose (m : Memory) (a : Nat) : ∀ n, (m.markRun a n).loose = m.loose
  | 0 => rfl
  | n + 1 => Memory.markRun_loose m a n

@[simp] theorem Memory.read_markRun (m : Memory) (a b : Nat) : ∀ n, (m.markRun a n).read b = m.read b
  | 0 => rfl
  | n + 1 => Memory.read_markRun m a b n

/-- Marking known bytes keeps the canonical form, and marks them and no other. -/
theorem Memory.markRun_spec {m : Memory} (hm : m.wf) {a n : Nat} (h : a + n ≤ Config.memSize)
    (hk : ∀ b, a ≤ b → b < a + n → ∀ p ∈ m.loose, p.covers b = false) :
    (m.markRun a n).wf ∧ ∀ b, (m.markRun a n).isEmitted b = if a ≤ b ∧ b < a + n then true else m.isEmitted b := by
  induction n with
  | zero => exact ⟨hm, fun b => by simp [Memory.markRun]⟩
  | succ n ih =>
    obtain ⟨hw, hb⟩ := ih (by omega) fun b h1 h2 => hk b h1 (by omega)
    refine ⟨Memory.mark_wf hw (by omega) ?_, fun b => ?_⟩
    · rw [Memory.markRun_loose]
      exact hk _ (by omega) (by omega)
    · rw [Memory.markRun, Memory.isEmitted_mark hw, hb]
      by_cases hbn : b = a + n
      · rw [if_pos hbn, if_pos (by omega)]
      · rw [if_neg hbn]
        by_cases hr : a ≤ b ∧ b < a + n
        · rw [if_pos hr, if_pos (by omega)]
        · rw [if_neg hr, if_neg (by omega)]

theorem Memory.emit_wf {m : Memory} (hm : m.wf) {a : Nat} (v : Byte) (ha : a < Config.memSize) : (m.emit a v).wf :=
  Memory.mark_wf (Memory.write_wf hm v ha) ha (Memory.write_known m a v)

/-- EmitByte changes the byte it writes, as any write does. -/
theorem Memory.read_emit {m : Memory} (hm : m.wf) (a b : Nat) (v : Byte) :
    (m.emit a v).read b = if b = a then v else m.read b := Memory.read_write hm a b v

theorem Memory.isEmitted_emit {m : Memory} (hm : m.wf) {a : Nat} (ha : a < Config.memSize) (b : Nat) (v : Byte) :
    (m.emit a v).isEmitted b = if b = a then true else m.isEmitted b := by
  unfold Memory.emit
  rw [Memory.isEmitted_mark (Memory.write_wf hm v ha), Memory.isEmitted_write hm]
  split <;> rfl

theorem Memory.isEmitted_loosen {m : Memory} (hm : m.wf) (lo hi n b : Nat) :
    (m.loosen lo hi n).isEmitted b = if lo ≤ b ∧ b < hi then false else m.isEmitted b := by
  unfold Memory.loosen
  split
  · show Sparse.get false (m.emitted.filter _) b = _
    rw [Sparse.get_filter (p := fun k => !decide (lo ≤ k ∧ k < hi)) hm.emitted.1]
    by_cases h : lo ≤ b ∧ b < hi <;> simp [h, Memory.isEmitted]
  · rw [if_neg (by omega)]

/-- Emitting bytes that exist keeps the canonical form. -/
theorem Memory.emitFrom_wf (source : Memory) {m : Memory} (hm : m.wf) {a n : Nat} (h : a + n ≤ Config.memSize) :
    (source.emitFrom a n m).wf := by
  induction n with
  | zero => exact hm
  | succ n ih => exact Memory.emit_wf (ih (by omega)) _ (by omega)

/-- The emitted bytes are the source's, the others stay. -/
theorem Memory.read_emitFrom (source : Memory) {m : Memory} (hm : m.wf) {a n : Nat} (h : a + n ≤ Config.memSize) (b : Nat) :
    (source.emitFrom a n m).read b = if a ≤ b ∧ b < a + n then source.read b else m.read b := by
  induction n with
  | zero => simp [Memory.emitFrom]
  | succ n ih =>
    rw [Memory.emitFrom, Memory.read_emit (Memory.emitFrom_wf source hm (by omega)), ih (by omega)]
    by_cases hb : b = a + n
    · rw [if_pos hb, if_pos (by omega), hb]
    · rw [if_neg hb]
      by_cases hr : a ≤ b ∧ b < a + n
      · rw [if_pos hr, if_pos (by omega)]
      · rw [if_neg hr, if_neg (by omega)]

theorem Memory.isEmitted_emitFrom (source : Memory) {m : Memory} (hm : m.wf) {a n : Nat} (h : a + n ≤ Config.memSize)
    (b : Nat) : (source.emitFrom a n m).isEmitted b = if a ≤ b ∧ b < a + n then true else m.isEmitted b := by
  induction n with
  | zero => simp [Memory.emitFrom]
  | succ n ih =>
    rw [Memory.emitFrom, Memory.isEmitted_emit (Memory.emitFrom_wf source hm (by omega)) (by omega), ih (by omega)]
    by_cases hb : b = a + n
    · rw [if_pos hb, if_pos (by omega)]
    · rw [if_neg hb]
      by_cases hr : a ≤ b ∧ b < a + n
      · rw [if_pos hr, if_pos (by omega)]
      · rw [if_neg hr, if_neg (by omega)]

/-- Everything `keepEmitted` does, for bytes that exist. -/
theorem Memory.keepEmitted_spec (source : Memory) {m : Memory} (hm : m.wf) :
    ∀ l : List (Nat × Bool), (∀ e ∈ l, e.1 < Config.memSize) → (source.keepEmitted l m).wf ∧
      ∀ b, (source.keepEmitted l m).read b = (if ∃ e ∈ l, e.1 = b then source.read b else m.read b) ∧
        ((source.keepEmitted l m).isEmitted b = true ↔ (∃ e ∈ l, e.1 = b) ∨ m.isEmitted b = true)
  | [], _ => ⟨hm, fun b => by simp [Memory.keepEmitted]⟩
  | e :: t, h => by
    obtain ⟨hw, hb⟩ := Memory.keepEmitted_spec source hm t fun e he => h e (by simp [he])
    refine ⟨Memory.emit_wf hw _ (h e (by simp)), fun b => ⟨?_, ?_⟩⟩
    · rw [Memory.keepEmitted, Memory.read_emit hw, (hb b).1]
      by_cases hbe : b = e.1
      · simp [hbe]
      · have : ¬e.1 = b := fun he => hbe he.symm
        simp [hbe, this]
    · rw [Memory.keepEmitted, Memory.isEmitted_emit hw (h e (by simp))]
      by_cases hbe : b = e.1
      · simp [hbe]
      · have : ¬e.1 = b := fun he => hbe he.symm
        simp [hbe, this, (hb b).2]

/-- Leaving the bytes of a range that EmitByte did not write unspecified: the canonical form, every byte, and that no
byte ceases to be one EmitByte wrote (R67, I6). -/
theorem Memory.loosenUnwritten_spec {m : Memory} (hm : m.wf) {lo hi n : Nat} (hhi : hi ≤ Config.memSize)
    (hn : ∀ p ∈ m.loose, p.draw ≠ n) :
    (m.loosenUnwritten lo hi n).wf ∧ ∀ b,
      (m.loosenUnwritten lo hi n).read b =
        (if (lo ≤ b ∧ b < hi) ∧ m.isEmitted b = false then Config.freeByte n b else m.read b) ∧
      (m.loosenUnwritten lo hi n).isEmitted b = m.isEmitted b := by
  have hmem : ∀ e ∈ m.emitted.filter (fun e => decide (lo ≤ e.1 ∧ e.1 < hi)), e.1 < Config.memSize := fun e he =>
    (hm.written e (List.mem_filter.1 he).1).1
  have hin : ∀ b, (∃ e ∈ m.emitted.filter (fun e => decide (lo ≤ e.1 ∧ e.1 < hi)), e.1 = b) ↔
      (lo ≤ b ∧ b < hi) ∧ m.isEmitted b = true := fun b => by
    rw [Memory.isEmitted_iff hm]
    constructor
    · rintro ⟨e, he, rfl⟩
      obtain ⟨h1, h2⟩ := List.mem_filter.1 he
      exact ⟨of_decide_eq_true h2, e, h1, rfl⟩
    · rintro ⟨h, e, he, rfl⟩
      exact ⟨e, List.mem_filter.2 ⟨he, decide_eq_true h⟩, rfl⟩
  obtain ⟨hw, hb⟩ := Memory.keepEmitted_spec m (Memory.loosen_wf hm (lo := lo) hhi hn) _ hmem
  refine ⟨hw, fun b => ⟨?_, ?_⟩⟩
  · unfold Memory.loosenUnwritten
    rw [(hb b).1]
    by_cases hr : lo ≤ b ∧ b < hi
    · cases he : m.isEmitted b
      · rw [if_neg (by rw [hin, he]; simp), if_pos ⟨hr, rfl⟩, Memory.read_loosen_inside hr]
      · rw [if_pos ((hin b).2 ⟨hr, he⟩), if_neg (by simp)]
    · rw [if_neg (by rw [hin]; simp [hr]), if_neg (by simp [hr]), Memory.read_loosen_outside hm hr]
  · unfold Memory.loosenUnwritten
    rw [Bool.eq_iff_iff, (hb b).2, hin, Memory.isEmitted_loosen hm]
    by_cases hr : lo ≤ b ∧ b < hi <;> simp [hr]

/-! ### The draws of the unspecified bytes: no write draws, and leaving bytes unspecified draws one -/

theorem Memory.draw_cutLoose {lo hi : Nat} {l : List Span} {P : Nat → Prop} (h : ∀ p ∈ l, P p.draw) :
    ∀ p ∈ Memory.cutLoose lo hi l, P p.draw := fun q hq => by
  obtain ⟨p, hp, hq⟩ := Memory.mem_cutLoose hq
  rw [(Span.mem_cut hq).2.2.2.2]
  exact h p hp

theorem Memory.draw_write {m : Memory} {P : Nat → Prop} (h : ∀ p ∈ m.loose, P p.draw) (a : Nat) (v : Byte) :
    ∀ p ∈ (m.write a v).loose, P p.draw := by
  unfold Memory.write
  by_cases hc : m.loose.any (·.covers a) = true
  · simp only [hc, if_true]
    exact Memory.draw_cutLoose h
  · simp only [hc]
    exact h

theorem Memory.draw_emit {m : Memory} {P : Nat → Prop} (h : ∀ p ∈ m.loose, P p.draw) (a : Nat) (v : Byte) :
    ∀ p ∈ (m.emit a v).loose, P p.draw := Memory.draw_write h a v

theorem Memory.draw_emitFrom (source : Memory) {m : Memory} {P : Nat → Prop} (h : ∀ p ∈ m.loose, P p.draw) (a : Nat) :
    ∀ n, ∀ p ∈ (source.emitFrom a n m).loose, P p.draw
  | 0 => h
  | n + 1 => Memory.draw_emit (Memory.draw_emitFrom source h a n) _ _

theorem Memory.draw_keepEmitted (source : Memory) {m : Memory} {P : Nat → Prop} (h : ∀ p ∈ m.loose, P p.draw) :
    ∀ l, ∀ p ∈ (source.keepEmitted l m).loose, P p.draw
  | [] => h
  | _ :: t => Memory.draw_emit (Memory.draw_keepEmitted source h t) _ _

theorem Memory.draw_loosen {m : Memory} {P : Nat → Prop} {n : Nat} (h : ∀ p ∈ m.loose, P p.draw) (hn : P n) (lo hi : Nat) :
    ∀ p ∈ (m.loosen lo hi n).loose, P p.draw := by
  unfold Memory.loosen
  split
  · intro p hp
    obtain rfl | hp := Memory.mem_insertLoose.1 hp
    · exact hn
    · exact Memory.draw_cutLoose h p hp
  · exact h

theorem Memory.draw_loosenUnwritten {m : Memory} {P : Nat → Prop} {n : Nat} (h : ∀ p ∈ m.loose, P p.draw) (hn : P n)
    (lo hi : Nat) : ∀ p ∈ (m.loosenUnwritten lo hi n).loose, P p.draw :=
  Memory.draw_keepEmitted m (Memory.draw_loosen h hn lo hi) _

/-! ### Equal bytes are equal data -/

theorem Memory.drawAt_before {l : List Span} {lo b : Nat} (h : ∀ p ∈ l, lo ≤ p.lo) (hb : b < lo) :
    Memory.drawAt l b = none :=
  Memory.drawAt_eq_none fun p hp => Span.covers_eq_false.2 fun hc => by
    have := h p hp
    omega

theorem Memory.drawAt_head {p : Span} {l : List Span} {b : Nat} (h : p.lo ≤ b ∧ b < p.hi) :
    Memory.drawAt (p :: l) b = some p.draw := by
  rw [Memory.drawAt_cons, if_pos (Span.covers_eq_true.2 h)]

/-- What a list of spans in order says at the end of its first span: not that span's draw. -/
theorem Memory.drawAt_end {p : Span} {l : List Span} (h : (p :: l).Pairwise Span.before) :
    Memory.drawAt (p :: l) p.hi ≠ some p.draw := by
  rw [Memory.drawAt_cons, if_neg (by simp [Span.covers])]
  intro hd
  unfold Memory.drawAt at hd
  cases hf : l.find? (·.covers p.hi) with
  | none => simp [hf] at hd
  | some q =>
    rw [hf] at hd
    have hq := Span.covers_eq_true.1 (by simpa using List.find?_some hf : q.covers p.hi = true)
    have hb := (List.pairwise_cons.1 h).1 q (List.mem_of_find?_eq_some hf)
    simp only [Span.before] at hb
    have hqd : q.draw = p.draw := by simpa using hd
    omega

/-- Two lists of spans in order that say the same of every address are the same list. -/
theorem Memory.loose_ext {l m : List Span} (hl : l.Pairwise Span.before) (hm : m.Pairwise Span.before)
    (hl0 : ∀ p ∈ l, p.lo < p.hi) (hm0 : ∀ p ∈ m, p.lo < p.hi)
    (h : ∀ b, Memory.drawAt l b = Memory.drawAt m b) : l = m := by
  have hle : ∀ {p : Span} {t : List Span}, (p :: t).Pairwise Span.before → (∀ q ∈ p :: t, q.lo < q.hi) →
      ∀ q ∈ p :: t, p.lo ≤ q.lo := fun {p t} ho hne q hq => by
    obtain rfl | hq := List.mem_cons.1 hq
    · exact le_rfl
    · have h1 := (List.pairwise_cons.1 ho).1 q hq
      have h2 := hne p (by simp)
      simp only [Span.before] at h1
      omega
  induction l generalizing m with
  | nil =>
    cases m with
    | nil => rfl
    | cons q t =>
      have h0 := hm0 q (by simp)
      have := h q.lo
      rw [Memory.drawAt_head ⟨le_rfl, h0⟩] at this
      exact absurd this (by simp [Memory.drawAt])
  | cons p t ih =>
    have hp0 := hl0 p (by simp)
    cases m with
    | nil =>
      have := h p.lo
      rw [Memory.drawAt_head ⟨le_rfl, hp0⟩] at this
      exact absurd this (by simp [Memory.drawAt])
    | cons q u =>
      have hq0 := hm0 q (by simp)
      have hlo : p.lo = q.lo := by
        rcases Nat.lt_trichotomy p.lo q.lo with hlt | heq | hlt
        · have := h p.lo
          rw [Memory.drawAt_head ⟨le_rfl, hp0⟩, Memory.drawAt_before (hle hm hm0) hlt] at this
          exact absurd this (by simp)
        · exact heq
        · have := h q.lo
          rw [Memory.drawAt_head ⟨le_rfl, hq0⟩, Memory.drawAt_before (hle hl hl0) hlt] at this
          exact absurd this (by simp)
      have hdraw : p.draw = q.draw := by
        have := h p.lo
        rw [Memory.drawAt_head ⟨le_rfl, hp0⟩, Memory.drawAt_head (by omega)] at this
        exact Option.some.inj this
      have hhi : p.hi = q.hi := by
        rcases Nat.lt_trichotomy p.hi q.hi with hlt | heq | hlt
        · have := h p.hi
          rw [Memory.drawAt_head (p := q) (by omega), ← hdraw] at this
          exact absurd this (Memory.drawAt_end hl)
        · exact heq
        · have := h q.hi
          rw [Memory.drawAt_head (p := p) (by omega), hdraw] at this
          exact absurd this.symm (Memory.drawAt_end hm)
      have hpq : p = q := by
        obtain ⟨a, b, c⟩ := p
        obtain ⟨a', b', c'⟩ := q
        simp only at hlo hdraw hhi
        subst hlo hdraw hhi
        rfl
      subst hpq
      congr 1
      refine ih (List.pairwise_cons.1 hl).2 (List.pairwise_cons.1 hm).2 (fun r hr => hl0 r (by simp [hr]))
        (fun r hr => hm0 r (by simp [hr])) fun b => ?_
      have hb := h b
      rw [Memory.drawAt_cons, Memory.drawAt_cons] at hb
      cases hc : p.covers b with
      | false => simpa [hc] using hb
      | true =>
        have hcov := Span.covers_eq_true.1 hc
        have hnone : ∀ {v : List Span}, (p :: v).Pairwise Span.before → (∀ r ∈ p :: v, r.lo < r.hi) →
            Memory.drawAt v b = none := fun {v} ho hne =>
          Memory.drawAt_before (lo := p.hi) (fun r hr => by
            have h1 := (List.pairwise_cons.1 ho).1 r hr
            simp only [Span.before] at h1
            omega) hcov.2
        rw [hnone hl hl0, hnone hm hm0]

/-- Canonical memories with the same bytes, known or unspecified, of the same origin, are equal. -/
theorem Memory.ext_bytes {m n : Memory} (hm : m.wf) (hn : n.wf)
    (h : ∀ a, Memory.drawAt m.loose a = Memory.drawAt n.loose a ∧
      Sparse.get Memory.unlisted m.cells a = Sparse.get Memory.unlisted n.cells a)
    (he : ∀ a, m.isEmitted a = n.isEmitted a) : m = n := by
  have h1 := Memory.loose_ext hm.order hn.order (fun p hp => (hm.spans p hp).1) (fun p hp => (hn.spans p hp).1)
    fun b => (h b).1
  have h2 := Sparse.ext hm.cells hn.cells fun b => (h b).2
  have h3 := Sparse.ext hm.emitted hn.emitted he
  obtain ⟨a, b, c⟩ := m
  obtain ⟨d, e, f⟩ := n
  simp only at h1 h2 h3
  subst h1 h2 h3
  rfl

/-! ### Windows -/

theorem Memory.drawAt_window (m : Memory) (lo hi b : Nat) :
    Memory.drawAt (m.window lo hi).loose b = if lo ≤ b ∧ b < hi then Memory.drawAt m.loose b else none := by
  show Memory.drawAt (m.loose.flatMap (Span.clip lo hi)) b = _
  induction m.loose with
  | nil => simp [Memory.drawAt]
  | cons p t ih =>
    rw [List.flatMap_cons, Memory.drawAt_append, ih, Memory.drawAt_cons, Span.clip, Memory.drawAt_make]
    have hc : p.covers b = decide (p.lo ≤ b ∧ b < p.hi) := rfl
    rw [hc]
    by_cases hp : p.lo ≤ b ∧ b < p.hi
    · by_cases hb : lo ≤ b ∧ b < hi
      · rw [if_pos (by omega)]
        simp [hp, hb]
      · rw [if_neg (by omega)]
        simp [hb]
    · rw [if_neg (by omega)]
      simp [hp]

theorem Memory.get_window {m : Memory} (hm : m.wf) (lo hi b : Nat) :
    Sparse.get Memory.unlisted (m.window lo hi).cells b =
      if lo ≤ b ∧ b < hi then Sparse.get Memory.unlisted m.cells b else Memory.unlisted := by
  show Sparse.get Memory.unlisted (m.cells.filter _) b = _
  rw [Sparse.get_filter (p := fun k => decide (lo ≤ k ∧ k < hi)) hm.cells.1]
  by_cases h : lo ≤ b ∧ b < hi <;> simp [h]

/-- A window shows its bytes. -/
theorem Memory.read_window {m : Memory} (hm : m.wf) {lo hi b : Nat} (h : lo ≤ b ∧ b < hi) :
    (m.window lo hi).read b = m.read b := by
  rw [Memory.read_eq, Memory.read_eq, Memory.drawAt_window, Memory.get_window hm, if_pos h, if_pos h]

theorem Span.mem_clip {lo hi : Nat} {p q : Span} (h : q ∈ Span.clip lo hi p) :
    q.lo < q.hi ∧ p.lo ≤ q.lo ∧ q.hi ≤ p.hi ∧ lo ≤ q.lo ∧ q.hi ≤ hi ∧ q.draw = p.draw := by
  simp only [Span.clip, Span.make] at h
  split at h <;> simp at h
  subst h
  simp_all

theorem Memory.mem_window_loose {m : Memory} {lo hi : Nat} {q : Span} (h : q ∈ (m.window lo hi).loose) :
    ∃ p ∈ m.loose, q ∈ Span.clip lo hi p := by
  simpa [Memory.window, List.mem_flatMap] using h

/-- A window has the canonical form. -/
theorem Memory.window_wf {m : Memory} (hm : m.wf) (lo hi : Nat) : (m.window lo hi).wf := by
  have hcells : ∀ e ∈ (m.window lo hi).cells, e ∈ m.cells := fun e he => (List.mem_filter.1 he).1
  refine ⟨Sparse.filter_wf hm.cells, fun e he => hm.inSpace e (hcells e he), fun e he q hq => ?_, fun q hq => ?_, ?_,
    ⟨List.Pairwise.nil, fun e he => absurd he (List.not_mem_nil)⟩, fun e he => absurd he (List.not_mem_nil)⟩
  · obtain ⟨p, hp, hq⟩ := Memory.mem_window_loose hq
    have h1 := Span.mem_clip hq
    have h2 := Span.covers_eq_false.1 (hm.apart e (hcells e he) p hp)
    rw [Span.covers_eq_false]
    omega
  · obtain ⟨p, hp, hq⟩ := Memory.mem_window_loose hq
    have h1 := Span.mem_clip hq
    have h2 := hm.spans p hp
    omega
  · show (m.loose.flatMap (Span.clip lo hi)).Pairwise Span.before
    have ho := hm.order
    revert ho
    induction m.loose with
    | nil => simp
    | cons p t ih =>
      intro ho
      obtain ⟨hp, ht⟩ := List.pairwise_cons.1 ho
      rw [List.flatMap_cons]
      refine List.pairwise_append.2 ⟨?_, ih ht, fun q hq r hr => ?_⟩
      · unfold Span.clip Span.make
        split <;> simp
      · obtain ⟨p', hp', hr⟩ := List.mem_flatMap.1 hr
        have h1 := Span.mem_clip hq
        have h2 := Span.mem_clip hr
        have h3 := hp p' hp'
        simp only [Span.before] at h3 ⊢
        omega

/-- Windows are equal exactly when every byte in them is, known or unspecified. -/
theorem Memory.window_eq_iff {m n : Memory} (hm : m.wf) (hn : n.wf) (lo hi : Nat) :
    m.window lo hi = n.window lo hi ↔ ∀ a, lo ≤ a → a < hi →
      Memory.drawAt m.loose a = Memory.drawAt n.loose a ∧
        Sparse.get Memory.unlisted m.cells a = Sparse.get Memory.unlisted n.cells a := by
  constructor
  · intro h a h1 h2
    have hd := Memory.drawAt_window m lo hi a
    have hg := Memory.get_window hm lo hi a
    rw [h, Memory.drawAt_window] at hd
    rw [h, Memory.get_window hn] at hg
    simp only [h1, h2, and_self, if_true] at hd hg
    exact ⟨hd.symm, hg.symm⟩
  · intro h
    refine Memory.ext_bytes (Memory.window_wf hm lo hi) (Memory.window_wf hn lo hi) (fun a => ?_) fun a => rfl
    rw [Memory.drawAt_window, Memory.drawAt_window, Memory.get_window hm, Memory.get_window hn]
    by_cases hb : lo ≤ a ∧ a < hi
    · simpa [hb] using h a hb.1 hb.2
    · simp [hb]

/-- A window inside a window. -/
theorem Memory.window_window {m : Memory} (hm : m.wf) {lo hi lo' hi' : Nat} (h1 : lo ≤ lo') (h2 : hi' ≤ hi) :
    (m.window lo hi).window lo' hi' = m.window lo' hi' :=
  (Memory.window_eq_iff (Memory.window_wf hm lo hi) hm lo' hi').2 fun a ha hb => by
    rw [Memory.drawAt_window, Memory.get_window hm, if_pos (by omega), if_pos (by omega)]
    exact ⟨rfl, rfl⟩

end Sys2Proof.Machine
end

