-- ==== Sys2Proof/Laws/State.lean ====
section
/-! SUPPORT. What each named update of the state does to each field, so that no proof unfolds an update. -/

namespace Sys2Proof.Machine

/-! ### Per-channel registers -/

@[simp] theorem Quad.get_all {α : Type} (v : α) (c : Ch) : (Quad.all v).get c = v := by fin_cases c <;> rfl

@[simp] theorem Quad.get_set_same {α : Type} (q : Quad α) (c : Ch) (v : α) : (q.set c v).get c = v := by
  fin_cases c <;> rfl

theorem Quad.get_set_other {α : Type} (q : Quad α) {c d : Ch} (v : α) (h : d ≠ c) : (q.set c v).get d = q.get d := by
  fin_cases c <;> fin_cases d <;> first | rfl | exact absurd rfl h

theorem Quad.get_set {α : Type} (q : Quad α) (c d : Ch) (v : α) : (q.set c v).get d = if d = c then v else q.get d := by
  split
  · rename_i h; rw [h, get_set_same]
  · rename_i h; exact get_set_other q v h

theorem Quad.ext_get {α : Type} {p q : Quad α} (h : ∀ c, p.get c = q.get c) : p = q := by
  obtain ⟨a, b, c, d⟩ := p
  obtain ⟨a', b', c', d'⟩ := q
  have h0 := h 0
  have h1 := h 1
  have h2 := h 2
  have h3 := h 3
  simp only [Quad.get] at h0 h1 h2 h3
  subst h0 h1 h2 h3
  rfl

/-! ### `State.start` -/

@[simp] theorem State.start_phase (w : Word) (s : State) : (s.start w).phase = .running := rfl
@[simp] theorem State.start_done (w : Word) (s : State) : (s.start w).done = false := rfl
@[simp] theorem State.start_err (w : Word) (s : State) : (s.start w).err = false := rfl
@[simp] theorem State.start_ovr (w : Word) (s : State) : (s.start w).ovr = s.ovr := rfl
@[simp] theorem State.start_errCode (w : Word) (s : State) : (s.start w).errCode = 0 := rfl
@[simp] theorem State.start_irqEn (w : Word) (s : State) : (s.start w).irqEn = s.irqEn := rfl
@[simp] theorem State.start_cmd (w : Word) (s : State) : (s.start w).cmd = w := rfl
@[simp] theorem State.start_cfg (w : Word) (s : State) : (s.start w).cfg = s.cfg := rfl
@[simp] theorem State.start_width (w : Word) (s : State) : (s.start w).width = s.width := rfl
@[simp] theorem State.start_height (w : Word) (s : State) : (s.start w).height = s.height := rfl
@[simp] theorem State.start_inAddr (w : Word) (s : State) : (s.start w).inAddr = s.inAddr := rfl
@[simp] theorem State.start_inLen (w : Word) (s : State) : (s.start w).inLen = s.inLen := rfl
@[simp] theorem State.start_outAddr (w : Word) (s : State) : (s.start w).outAddr = s.outAddr := rfl
@[simp] theorem State.start_outCap (w : Word) (s : State) : (s.start w).outCap = s.outCap := rfl
@[simp] theorem State.start_outSize (w : Word) (s : State) : (s.start w).outSize = s.outSize := rfl
@[simp] theorem State.start_errInfo (w : Word) (s : State) : (s.start w).errInfo = 0 := rfl
@[simp] theorem State.start_argLo (w : Word) (s : State) : (s.start w).argLo = s.argLo := rfl
@[simp] theorem State.start_argHi (w : Word) (s : State) : (s.start w).argHi = s.argHi := rfl
@[simp] theorem State.start_argLen (w : Word) (s : State) : (s.start w).argLen = s.argLen := rfl
@[simp] theorem State.start_resLo (w : Word) (s : State) : (s.start w).resLo = s.resLo := rfl
@[simp] theorem State.start_resHi (w : Word) (s : State) : (s.start w).resHi = s.resHi := rfl
@[simp] theorem State.start_pk (w : Word) (s : State) : (s.start w).pk = s.pk := rfl
@[simp] theorem State.start_rd (w : Word) (s : State) : (s.start w).rd = s.rd := rfl
@[simp] theorem State.start_tab (w : Word) (s : State) : (s.start w).tab = s.tab := rfl
@[simp] theorem State.start_hist (w : Word) (s : State) : (s.start w).hist = s.hist := rfl
@[simp] theorem State.start_tree (w : Word) (s : State) : (s.start w).tree = s.tree := rfl
@[simp] theorem State.start_code (w : Word) (s : State) : (s.start w).code = s.code := rfl
@[simp] theorem State.start_ncount (w : Word) (s : State) : (s.start w).ncount = s.ncount := rfl
@[simp] theorem State.start_root (w : Word) (s : State) : (s.start w).root = s.root := rfl
@[simp] theorem State.start_prev (w : Word) (s : State) : (s.start w).prev = s.prev := rfl
@[simp] theorem State.start_acc (w : Word) (s : State) : (s.start w).acc = s.acc := rfl
@[simp] theorem State.start_mem (w : Word) (s : State) : (s.start w).mem = s.mem := rfl
@[simp] theorem State.start_deny (w : Word) (s : State) : (s.start w).deny = s.deny := rfl
@[simp] theorem State.start_scans (w : Word) (s : State) : (s.start w).scans = s.scans := rfl
@[simp] theorem State.start_draws (w : Word) (s : State) : (s.start w).draws = s.draws := rfl
@[simp] theorem State.start_script (w : Word) (s : State) : (s.start w).script = s.script := rfl
@[simp] theorem State.start_hostData (w : Word) (s : State) : (s.start w).hostData = s.hostData := rfl

/-! ### `State.finish` -/

@[simp] theorem State.finish_phase (s : State) : s.finish.phase = .idle := rfl
@[simp] theorem State.finish_done (s : State) : s.finish.done = true := rfl
@[simp] theorem State.finish_err (s : State) : s.finish.err = s.err := rfl
@[simp] theorem State.finish_ovr (s : State) : s.finish.ovr = s.ovr := rfl
@[simp] theorem State.finish_errCode (s : State) : s.finish.errCode = s.errCode := rfl
@[simp] theorem State.finish_irqEn (s : State) : s.finish.irqEn = s.irqEn := rfl
@[simp] theorem State.finish_cmd (s : State) : s.finish.cmd = s.cmd := rfl
@[simp] theorem State.finish_cfg (s : State) : s.finish.cfg = s.cfg := rfl
@[simp] theorem State.finish_width (s : State) : s.finish.width = s.width := rfl
@[simp] theorem State.finish_height (s : State) : s.finish.height = s.height := rfl
@[simp] theorem State.finish_inAddr (s : State) : s.finish.inAddr = s.inAddr := rfl
@[simp] theorem State.finish_inLen (s : State) : s.finish.inLen = s.inLen := rfl
@[simp] theorem State.finish_outAddr (s : State) : s.finish.outAddr = s.outAddr := rfl
@[simp] theorem State.finish_outCap (s : State) : s.finish.outCap = s.outCap := rfl
@[simp] theorem State.finish_outSize (s : State) : s.finish.outSize = s.outSize := rfl
@[simp] theorem State.finish_errInfo (s : State) : s.finish.errInfo = s.errInfo := rfl
@[simp] theorem State.finish_argLo (s : State) : s.finish.argLo = s.argLo := rfl
@[simp] theorem State.finish_argHi (s : State) : s.finish.argHi = s.argHi := rfl
@[simp] theorem State.finish_argLen (s : State) : s.finish.argLen = s.argLen := rfl
@[simp] theorem State.finish_resLo (s : State) : s.finish.resLo = s.resLo := rfl
@[simp] theorem State.finish_resHi (s : State) : s.finish.resHi = s.resHi := rfl
@[simp] theorem State.finish_pk (s : State) : s.finish.pk = s.pk := rfl
@[simp] theorem State.finish_rd (s : State) : s.finish.rd = s.rd := rfl
@[simp] theorem State.finish_tab (s : State) : s.finish.tab = s.tab := rfl
@[simp] theorem State.finish_hist (s : State) : s.finish.hist = s.hist := rfl
@[simp] theorem State.finish_tree (s : State) : s.finish.tree = s.tree := rfl
@[simp] theorem State.finish_code (s : State) : s.finish.code = s.code := rfl
@[simp] theorem State.finish_ncount (s : State) : s.finish.ncount = s.ncount := rfl
@[simp] theorem State.finish_root (s : State) : s.finish.root = s.root := rfl
@[simp] theorem State.finish_prev (s : State) : s.finish.prev = s.prev := rfl
@[simp] theorem State.finish_acc (s : State) : s.finish.acc = s.acc := rfl
@[simp] theorem State.finish_mem (s : State) : s.finish.mem = s.mem := rfl
@[simp] theorem State.finish_deny (s : State) : s.finish.deny = s.deny := rfl
@[simp] theorem State.finish_scans (s : State) : s.finish.scans = s.scans := rfl
@[simp] theorem State.finish_draws (s : State) : s.finish.draws = s.draws := rfl
@[simp] theorem State.finish_script (s : State) : s.finish.script = s.script := rfl
@[simp] theorem State.finish_hostData (s : State) : s.finish.hostData = s.hostData := rfl

/-! ### `State.stop` -/

@[simp] theorem State.stop_phase (e : ErrCode) (info : Word) (s : State) : (s.stop e info).phase = .idle := rfl
@[simp] theorem State.stop_done (e : ErrCode) (info : Word) (s : State) : (s.stop e info).done = true := rfl
@[simp] theorem State.stop_err (e : ErrCode) (info : Word) (s : State) : (s.stop e info).err = true := rfl
@[simp] theorem State.stop_ovr (e : ErrCode) (info : Word) (s : State) : (s.stop e info).ovr = s.ovr := rfl
@[simp] theorem State.stop_errCode (e : ErrCode) (info : Word) (s : State) : (s.stop e info).errCode = e.code := rfl
@[simp] theorem State.stop_irqEn (e : ErrCode) (info : Word) (s : State) : (s.stop e info).irqEn = s.irqEn := rfl
@[simp] theorem State.stop_cmd (e : ErrCode) (info : Word) (s : State) : (s.stop e info).cmd = s.cmd := rfl
@[simp] theorem State.stop_cfg (e : ErrCode) (info : Word) (s : State) : (s.stop e info).cfg = s.cfg := rfl
@[simp] theorem State.stop_width (e : ErrCode) (info : Word) (s : State) : (s.stop e info).width = s.width := rfl
@[simp] theorem State.stop_height (e : ErrCode) (info : Word) (s : State) : (s.stop e info).height = s.height := rfl
@[simp] theorem State.stop_inAddr (e : ErrCode) (info : Word) (s : State) : (s.stop e info).inAddr = s.inAddr := rfl
@[simp] theorem State.stop_inLen (e : ErrCode) (info : Word) (s : State) : (s.stop e info).inLen = s.inLen := rfl
@[simp] theorem State.stop_outAddr (e : ErrCode) (info : Word) (s : State) : (s.stop e info).outAddr = s.outAddr := rfl
@[simp] theorem State.stop_outCap (e : ErrCode) (info : Word) (s : State) : (s.stop e info).outCap = s.outCap := rfl
@[simp] theorem State.stop_outSize (e : ErrCode) (info : Word) (s : State) : (s.stop e info).outSize = s.outSize := rfl
@[simp] theorem State.stop_errInfo (e : ErrCode) (info : Word) (s : State) : (s.stop e info).errInfo = info := rfl
@[simp] theorem State.stop_argLo (e : ErrCode) (info : Word) (s : State) : (s.stop e info).argLo = s.argLo := rfl
@[simp] theorem State.stop_argHi (e : ErrCode) (info : Word) (s : State) : (s.stop e info).argHi = s.argHi := rfl
@[simp] theorem State.stop_argLen (e : ErrCode) (info : Word) (s : State) : (s.stop e info).argLen = s.argLen := rfl
@[simp] theorem State.stop_resLo (e : ErrCode) (info : Word) (s : State) : (s.stop e info).resLo = s.resLo := rfl
@[simp] theorem State.stop_resHi (e : ErrCode) (info : Word) (s : State) : (s.stop e info).resHi = s.resHi := rfl
@[simp] theorem State.stop_pk (e : ErrCode) (info : Word) (s : State) : (s.stop e info).pk = s.pk := rfl
@[simp] theorem State.stop_rd (e : ErrCode) (info : Word) (s : State) : (s.stop e info).rd = s.rd := rfl
@[simp] theorem State.stop_tab (e : ErrCode) (info : Word) (s : State) : (s.stop e info).tab = s.tab := rfl
@[simp] theorem State.stop_hist (e : ErrCode) (info : Word) (s : State) : (s.stop e info).hist = s.hist := rfl
@[simp] theorem State.stop_tree (e : ErrCode) (info : Word) (s : State) : (s.stop e info).tree = s.tree := rfl
@[simp] theorem State.stop_code (e : ErrCode) (info : Word) (s : State) : (s.stop e info).code = s.code := rfl
@[simp] theorem State.stop_ncount (e : ErrCode) (info : Word) (s : State) : (s.stop e info).ncount = s.ncount := rfl
@[simp] theorem State.stop_root (e : ErrCode) (info : Word) (s : State) : (s.stop e info).root = s.root := rfl
@[simp] theorem State.stop_prev (e : ErrCode) (info : Word) (s : State) : (s.stop e info).prev = s.prev := rfl
@[simp] theorem State.stop_acc (e : ErrCode) (info : Word) (s : State) : (s.stop e info).acc = s.acc := rfl
@[simp] theorem State.stop_mem (e : ErrCode) (info : Word) (s : State) : (s.stop e info).mem = s.mem := rfl
@[simp] theorem State.stop_deny (e : ErrCode) (info : Word) (s : State) : (s.stop e info).deny = s.deny := rfl
@[simp] theorem State.stop_scans (e : ErrCode) (info : Word) (s : State) : (s.stop e info).scans = s.scans := rfl
@[simp] theorem State.stop_draws (e : ErrCode) (info : Word) (s : State) : (s.stop e info).draws = s.draws := rfl
@[simp] theorem State.stop_script (e : ErrCode) (info : Word) (s : State) : (s.stop e info).script = s.script := rfl
@[simp] theorem State.stop_hostData (e : ErrCode) (info : Word) (s : State) : (s.stop e info).hostData = s.hostData := rfl

/-! ### `State.clearStatus` -/

@[simp] theorem State.clearStatus_phase (v : Word) (s : State) : (s.clearStatus v).phase = s.phase := rfl
@[simp] theorem State.clearStatus_done (v : Word) (s : State) : (s.clearStatus v).done = (s.done && !v.getLsbD 1) := rfl
@[simp] theorem State.clearStatus_err (v : Word) (s : State) : (s.clearStatus v).err = (s.err && !v.getLsbD 2) := rfl
@[simp] theorem State.clearStatus_ovr (v : Word) (s : State) : (s.clearStatus v).ovr = (s.ovr && !v.getLsbD 3) := rfl
@[simp] theorem State.clearStatus_errCode (v : Word) (s : State) : (s.clearStatus v).errCode = s.errCode := rfl
@[simp] theorem State.clearStatus_irqEn (v : Word) (s : State) : (s.clearStatus v).irqEn = s.irqEn := rfl
@[simp] theorem State.clearStatus_cmd (v : Word) (s : State) : (s.clearStatus v).cmd = s.cmd := rfl
@[simp] theorem State.clearStatus_cfg (v : Word) (s : State) : (s.clearStatus v).cfg = s.cfg := rfl
@[simp] theorem State.clearStatus_width (v : Word) (s : State) : (s.clearStatus v).width = s.width := rfl
@[simp] theorem State.clearStatus_height (v : Word) (s : State) : (s.clearStatus v).height = s.height := rfl
@[simp] theorem State.clearStatus_inAddr (v : Word) (s : State) : (s.clearStatus v).inAddr = s.inAddr := rfl
@[simp] theorem State.clearStatus_inLen (v : Word) (s : State) : (s.clearStatus v).inLen = s.inLen := rfl
@[simp] theorem State.clearStatus_outAddr (v : Word) (s : State) : (s.clearStatus v).outAddr = s.outAddr := rfl
@[simp] theorem State.clearStatus_outCap (v : Word) (s : State) : (s.clearStatus v).outCap = s.outCap := rfl
@[simp] theorem State.clearStatus_outSize (v : Word) (s : State) : (s.clearStatus v).outSize = s.outSize := rfl
@[simp] theorem State.clearStatus_errInfo (v : Word) (s : State) : (s.clearStatus v).errInfo = s.errInfo := rfl
@[simp] theorem State.clearStatus_argLo (v : Word) (s : State) : (s.clearStatus v).argLo = s.argLo := rfl
@[simp] theorem State.clearStatus_argHi (v : Word) (s : State) : (s.clearStatus v).argHi = s.argHi := rfl
@[simp] theorem State.clearStatus_argLen (v : Word) (s : State) : (s.clearStatus v).argLen = s.argLen := rfl
@[simp] theorem State.clearStatus_resLo (v : Word) (s : State) : (s.clearStatus v).resLo = s.resLo := rfl
@[simp] theorem State.clearStatus_resHi (v : Word) (s : State) : (s.clearStatus v).resHi = s.resHi := rfl
@[simp] theorem State.clearStatus_pk (v : Word) (s : State) : (s.clearStatus v).pk = s.pk := rfl
@[simp] theorem State.clearStatus_rd (v : Word) (s : State) : (s.clearStatus v).rd = s.rd := rfl
@[simp] theorem State.clearStatus_tab (v : Word) (s : State) : (s.clearStatus v).tab = s.tab := rfl
@[simp] theorem State.clearStatus_hist (v : Word) (s : State) : (s.clearStatus v).hist = s.hist := rfl
@[simp] theorem State.clearStatus_tree (v : Word) (s : State) : (s.clearStatus v).tree = s.tree := rfl
@[simp] theorem State.clearStatus_code (v : Word) (s : State) : (s.clearStatus v).code = s.code := rfl
@[simp] theorem State.clearStatus_ncount (v : Word) (s : State) : (s.clearStatus v).ncount = s.ncount := rfl
@[simp] theorem State.clearStatus_root (v : Word) (s : State) : (s.clearStatus v).root = s.root := rfl
@[simp] theorem State.clearStatus_prev (v : Word) (s : State) : (s.clearStatus v).prev = s.prev := rfl
@[simp] theorem State.clearStatus_acc (v : Word) (s : State) : (s.clearStatus v).acc = s.acc := rfl
@[simp] theorem State.clearStatus_mem (v : Word) (s : State) : (s.clearStatus v).mem = s.mem := rfl
@[simp] theorem State.clearStatus_deny (v : Word) (s : State) : (s.clearStatus v).deny = s.deny := rfl
@[simp] theorem State.clearStatus_scans (v : Word) (s : State) : (s.clearStatus v).scans = s.scans := rfl
@[simp] theorem State.clearStatus_draws (v : Word) (s : State) : (s.clearStatus v).draws = s.draws := rfl
@[simp] theorem State.clearStatus_script (v : Word) (s : State) : (s.clearStatus v).script = s.script := rfl
@[simp] theorem State.clearStatus_hostData (v : Word) (s : State) : (s.clearStatus v).hostData = s.hostData := rfl

/-! ### `State.setResult` -/

@[simp] theorem State.setResult_phase (s : State) (v : BitVec 64) : (s.setResult v).phase = s.phase := rfl
@[simp] theorem State.setResult_done (s : State) (v : BitVec 64) : (s.setResult v).done = s.done := rfl
@[simp] theorem State.setResult_err (s : State) (v : BitVec 64) : (s.setResult v).err = s.err := rfl
@[simp] theorem State.setResult_ovr (s : State) (v : BitVec 64) : (s.setResult v).ovr = s.ovr := rfl
@[simp] theorem State.setResult_errCode (s : State) (v : BitVec 64) : (s.setResult v).errCode = s.errCode := rfl
@[simp] theorem State.setResult_irqEn (s : State) (v : BitVec 64) : (s.setResult v).irqEn = s.irqEn := rfl
@[simp] theorem State.setResult_cmd (s : State) (v : BitVec 64) : (s.setResult v).cmd = s.cmd := rfl
@[simp] theorem State.setResult_cfg (s : State) (v : BitVec 64) : (s.setResult v).cfg = s.cfg := rfl
@[simp] theorem State.setResult_width (s : State) (v : BitVec 64) : (s.setResult v).width = s.width := rfl
@[simp] theorem State.setResult_height (s : State) (v : BitVec 64) : (s.setResult v).height = s.height := rfl
@[simp] theorem State.setResult_inAddr (s : State) (v : BitVec 64) : (s.setResult v).inAddr = s.inAddr := rfl
@[simp] theorem State.setResult_inLen (s : State) (v : BitVec 64) : (s.setResult v).inLen = s.inLen := rfl
@[simp] theorem State.setResult_outAddr (s : State) (v : BitVec 64) : (s.setResult v).outAddr = s.outAddr := rfl
@[simp] theorem State.setResult_outCap (s : State) (v : BitVec 64) : (s.setResult v).outCap = s.outCap := rfl
@[simp] theorem State.setResult_outSize (s : State) (v : BitVec 64) : (s.setResult v).outSize = s.outSize := rfl
@[simp] theorem State.setResult_errInfo (s : State) (v : BitVec 64) : (s.setResult v).errInfo = s.errInfo := rfl
@[simp] theorem State.setResult_argLo (s : State) (v : BitVec 64) : (s.setResult v).argLo = s.argLo := rfl
@[simp] theorem State.setResult_argHi (s : State) (v : BitVec 64) : (s.setResult v).argHi = s.argHi := rfl
@[simp] theorem State.setResult_argLen (s : State) (v : BitVec 64) : (s.setResult v).argLen = s.argLen := rfl
@[simp] theorem State.setResult_resLo (s : State) (v : BitVec 64) : (s.setResult v).resLo = v.extractLsb' 0 32 := rfl
@[simp] theorem State.setResult_resHi (s : State) (v : BitVec 64) : (s.setResult v).resHi = v.extractLsb' 32 32 := rfl
@[simp] theorem State.setResult_pk (s : State) (v : BitVec 64) : (s.setResult v).pk = s.pk := rfl
@[simp] theorem State.setResult_rd (s : State) (v : BitVec 64) : (s.setResult v).rd = s.rd := rfl
@[simp] theorem State.setResult_tab (s : State) (v : BitVec 64) : (s.setResult v).tab = s.tab := rfl
@[simp] theorem State.setResult_hist (s : State) (v : BitVec 64) : (s.setResult v).hist = s.hist := rfl
@[simp] theorem State.setResult_tree (s : State) (v : BitVec 64) : (s.setResult v).tree = s.tree := rfl
@[simp] theorem State.setResult_code (s : State) (v : BitVec 64) : (s.setResult v).code = s.code := rfl
@[simp] theorem State.setResult_ncount (s : State) (v : BitVec 64) : (s.setResult v).ncount = s.ncount := rfl
@[simp] theorem State.setResult_root (s : State) (v : BitVec 64) : (s.setResult v).root = s.root := rfl
@[simp] theorem State.setResult_prev (s : State) (v : BitVec 64) : (s.setResult v).prev = s.prev := rfl
@[simp] theorem State.setResult_acc (s : State) (v : BitVec 64) : (s.setResult v).acc = s.acc := rfl
@[simp] theorem State.setResult_mem (s : State) (v : BitVec 64) : (s.setResult v).mem = s.mem := rfl
@[simp] theorem State.setResult_deny (s : State) (v : BitVec 64) : (s.setResult v).deny = s.deny := rfl
@[simp] theorem State.setResult_scans (s : State) (v : BitVec 64) : (s.setResult v).scans = s.scans := rfl
@[simp] theorem State.setResult_draws (s : State) (v : BitVec 64) : (s.setResult v).draws = s.draws := rfl
@[simp] theorem State.setResult_script (s : State) (v : BitVec 64) : (s.setResult v).script = s.script := rfl
@[simp] theorem State.setResult_hostData (s : State) (v : BitVec 64) : (s.setResult v).hostData = s.hostData := rfl

/-! ### `State.setHist` -/

@[simp] theorem State.setHist_phase (s : State) (c : Ch) (i : Nat) (v : Word) : (s.setHist c i v).phase = s.phase := rfl
@[simp] theorem State.setHist_done (s : State) (c : Ch) (i : Nat) (v : Word) : (s.setHist c i v).done = s.done := rfl
@[simp] theorem State.setHist_err (s : State) (c : Ch) (i : Nat) (v : Word) : (s.setHist c i v).err = s.err := rfl
@[simp] theorem State.setHist_ovr (s : State) (c : Ch) (i : Nat) (v : Word) : (s.setHist c i v).ovr = s.ovr := rfl
@[simp] theorem State.setHist_errCode (s : State) (c : Ch) (i : Nat) (v : Word) : (s.setHist c i v).errCode = s.errCode := rfl
@[simp] theorem State.setHist_irqEn (s : State) (c : Ch) (i : Nat) (v : Word) : (s.setHist c i v).irqEn = s.irqEn := rfl
@[simp] theorem State.setHist_cmd (s : State) (c : Ch) (i : Nat) (v : Word) : (s.setHist c i v).cmd = s.cmd := rfl
@[simp] theorem State.setHist_cfg (s : State) (c : Ch) (i : Nat) (v : Word) : (s.setHist c i v).cfg = s.cfg := rfl
@[simp] theorem State.setHist_width (s : State) (c : Ch) (i : Nat) (v : Word) : (s.setHist c i v).width = s.width := rfl
@[simp] theorem State.setHist_height (s : State) (c : Ch) (i : Nat) (v : Word) : (s.setHist c i v).height = s.height := rfl
@[simp] theorem State.setHist_inAddr (s : State) (c : Ch) (i : Nat) (v : Word) : (s.setHist c i v).inAddr = s.inAddr := rfl
@[simp] theorem State.setHist_inLen (s : State) (c : Ch) (i : Nat) (v : Word) : (s.setHist c i v).inLen = s.inLen := rfl
@[simp] theorem State.setHist_outAddr (s : State) (c : Ch) (i : Nat) (v : Word) : (s.setHist c i v).outAddr = s.outAddr := rfl
@[simp] theorem State.setHist_outCap (s : State) (c : Ch) (i : Nat) (v : Word) : (s.setHist c i v).outCap = s.outCap := rfl
@[simp] theorem State.setHist_outSize (s : State) (c : Ch) (i : Nat) (v : Word) : (s.setHist c i v).outSize = s.outSize := rfl
@[simp] theorem State.setHist_errInfo (s : State) (c : Ch) (i : Nat) (v : Word) : (s.setHist c i v).errInfo = s.errInfo := rfl
@[simp] theorem State.setHist_argLo (s : State) (c : Ch) (i : Nat) (v : Word) : (s.setHist c i v).argLo = s.argLo := rfl
@[simp] theorem State.setHist_argHi (s : State) (c : Ch) (i : Nat) (v : Word) : (s.setHist c i v).argHi = s.argHi := rfl
@[simp] theorem State.setHist_argLen (s : State) (c : Ch) (i : Nat) (v : Word) : (s.setHist c i v).argLen = s.argLen := rfl
@[simp] theorem State.setHist_resLo (s : State) (c : Ch) (i : Nat) (v : Word) : (s.setHist c i v).resLo = s.resLo := rfl
@[simp] theorem State.setHist_resHi (s : State) (c : Ch) (i : Nat) (v : Word) : (s.setHist c i v).resHi = s.resHi := rfl
@[simp] theorem State.setHist_pk (s : State) (c : Ch) (i : Nat) (v : Word) : (s.setHist c i v).pk = s.pk := rfl
@[simp] theorem State.setHist_rd (s : State) (c : Ch) (i : Nat) (v : Word) : (s.setHist c i v).rd = s.rd := rfl
@[simp] theorem State.setHist_tab (s : State) (c : Ch) (i : Nat) (v : Word) : (s.setHist c i v).tab = s.tab := rfl
@[simp] theorem State.setHist_hist (s : State) (c : Ch) (i : Nat) (v : Word) : (s.setHist c i v).hist = Sparse.put 0 s.hist (tableKey c i) v := rfl
@[simp] theorem State.setHist_tree (s : State) (c : Ch) (i : Nat) (v : Word) : (s.setHist c i v).tree = s.tree := rfl
@[simp] theorem State.setHist_code (s : State) (c : Ch) (i : Nat) (v : Word) : (s.setHist c i v).code = s.code := rfl
@[simp] theorem State.setHist_ncount (s : State) (c : Ch) (i : Nat) (v : Word) : (s.setHist c i v).ncount = s.ncount := rfl
@[simp] theorem State.setHist_root (s : State) (c : Ch) (i : Nat) (v : Word) : (s.setHist c i v).root = s.root := rfl
@[simp] theorem State.setHist_prev (s : State) (c : Ch) (i : Nat) (v : Word) : (s.setHist c i v).prev = s.prev := rfl
@[simp] theorem State.setHist_acc (s : State) (c : Ch) (i : Nat) (v : Word) : (s.setHist c i v).acc = s.acc := rfl
@[simp] theorem State.setHist_mem (s : State) (c : Ch) (i : Nat) (v : Word) : (s.setHist c i v).mem = s.mem := rfl
@[simp] theorem State.setHist_deny (s : State) (c : Ch) (i : Nat) (v : Word) : (s.setHist c i v).deny = s.deny := rfl
@[simp] theorem State.setHist_scans (s : State) (c : Ch) (i : Nat) (v : Word) : (s.setHist c i v).scans = s.scans := rfl
@[simp] theorem State.setHist_draws (s : State) (c : Ch) (i : Nat) (v : Word) : (s.setHist c i v).draws = s.draws := rfl
@[simp] theorem State.setHist_script (s : State) (c : Ch) (i : Nat) (v : Word) : (s.setHist c i v).script = s.script := rfl
@[simp] theorem State.setHist_hostData (s : State) (c : Ch) (i : Nat) (v : Word) : (s.setHist c i v).hostData = s.hostData := rfl

/-! ### `State.setNode` -/

@[simp] theorem State.setNode_phase (s : State) (c : Ch) (i : Nat) (n : Node) : (s.setNode c i n).phase = s.phase := rfl
@[simp] theorem State.setNode_done (s : State) (c : Ch) (i : Nat) (n : Node) : (s.setNode c i n).done = s.done := rfl
@[simp] theorem State.setNode_err (s : State) (c : Ch) (i : Nat) (n : Node) : (s.setNode c i n).err = s.err := rfl
@[simp] theorem State.setNode_ovr (s : State) (c : Ch) (i : Nat) (n : Node) : (s.setNode c i n).ovr = s.ovr := rfl
@[simp] theorem State.setNode_errCode (s : State) (c : Ch) (i : Nat) (n : Node) : (s.setNode c i n).errCode = s.errCode := rfl
@[simp] theorem State.setNode_irqEn (s : State) (c : Ch) (i : Nat) (n : Node) : (s.setNode c i n).irqEn = s.irqEn := rfl
@[simp] theorem State.setNode_cmd (s : State) (c : Ch) (i : Nat) (n : Node) : (s.setNode c i n).cmd = s.cmd := rfl
@[simp] theorem State.setNode_cfg (s : State) (c : Ch) (i : Nat) (n : Node) : (s.setNode c i n).cfg = s.cfg := rfl
@[simp] theorem State.setNode_width (s : State) (c : Ch) (i : Nat) (n : Node) : (s.setNode c i n).width = s.width := rfl
@[simp] theorem State.setNode_height (s : State) (c : Ch) (i : Nat) (n : Node) : (s.setNode c i n).height = s.height := rfl
@[simp] theorem State.setNode_inAddr (s : State) (c : Ch) (i : Nat) (n : Node) : (s.setNode c i n).inAddr = s.inAddr := rfl
@[simp] theorem State.setNode_inLen (s : State) (c : Ch) (i : Nat) (n : Node) : (s.setNode c i n).inLen = s.inLen := rfl
@[simp] theorem State.setNode_outAddr (s : State) (c : Ch) (i : Nat) (n : Node) : (s.setNode c i n).outAddr = s.outAddr := rfl
@[simp] theorem State.setNode_outCap (s : State) (c : Ch) (i : Nat) (n : Node) : (s.setNode c i n).outCap = s.outCap := rfl
@[simp] theorem State.setNode_outSize (s : State) (c : Ch) (i : Nat) (n : Node) : (s.setNode c i n).outSize = s.outSize := rfl
@[simp] theorem State.setNode_errInfo (s : State) (c : Ch) (i : Nat) (n : Node) : (s.setNode c i n).errInfo = s.errInfo := rfl
@[simp] theorem State.setNode_argLo (s : State) (c : Ch) (i : Nat) (n : Node) : (s.setNode c i n).argLo = s.argLo := rfl
@[simp] theorem State.setNode_argHi (s : State) (c : Ch) (i : Nat) (n : Node) : (s.setNode c i n).argHi = s.argHi := rfl
@[simp] theorem State.setNode_argLen (s : State) (c : Ch) (i : Nat) (n : Node) : (s.setNode c i n).argLen = s.argLen := rfl
@[simp] theorem State.setNode_resLo (s : State) (c : Ch) (i : Nat) (n : Node) : (s.setNode c i n).resLo = s.resLo := rfl
@[simp] theorem State.setNode_resHi (s : State) (c : Ch) (i : Nat) (n : Node) : (s.setNode c i n).resHi = s.resHi := rfl
@[simp] theorem State.setNode_pk (s : State) (c : Ch) (i : Nat) (n : Node) : (s.setNode c i n).pk = s.pk := rfl
@[simp] theorem State.setNode_rd (s : State) (c : Ch) (i : Nat) (n : Node) : (s.setNode c i n).rd = s.rd := rfl
@[simp] theorem State.setNode_tab (s : State) (c : Ch) (i : Nat) (n : Node) : (s.setNode c i n).tab = s.tab := rfl
@[simp] theorem State.setNode_hist (s : State) (c : Ch) (i : Nat) (n : Node) : (s.setNode c i n).hist = s.hist := rfl
@[simp] theorem State.setNode_tree (s : State) (c : Ch) (i : Nat) (n : Node) : (s.setNode c i n).tree = Sparse.put Node.zero s.tree (tableKey c i) n := rfl
@[simp] theorem State.setNode_code (s : State) (c : Ch) (i : Nat) (n : Node) : (s.setNode c i n).code = s.code := rfl
@[simp] theorem State.setNode_ncount (s : State) (c : Ch) (i : Nat) (n : Node) : (s.setNode c i n).ncount = s.ncount := rfl
@[simp] theorem State.setNode_root (s : State) (c : Ch) (i : Nat) (n : Node) : (s.setNode c i n).root = s.root := rfl
@[simp] theorem State.setNode_prev (s : State) (c : Ch) (i : Nat) (n : Node) : (s.setNode c i n).prev = s.prev := rfl
@[simp] theorem State.setNode_acc (s : State) (c : Ch) (i : Nat) (n : Node) : (s.setNode c i n).acc = s.acc := rfl
@[simp] theorem State.setNode_mem (s : State) (c : Ch) (i : Nat) (n : Node) : (s.setNode c i n).mem = s.mem := rfl
@[simp] theorem State.setNode_deny (s : State) (c : Ch) (i : Nat) (n : Node) : (s.setNode c i n).deny = s.deny := rfl
@[simp] theorem State.setNode_scans (s : State) (c : Ch) (i : Nat) (n : Node) : (s.setNode c i n).scans = s.scans := rfl
@[simp] theorem State.setNode_draws (s : State) (c : Ch) (i : Nat) (n : Node) : (s.setNode c i n).draws = s.draws := rfl
@[simp] theorem State.setNode_script (s : State) (c : Ch) (i : Nat) (n : Node) : (s.setNode c i n).script = s.script := rfl
@[simp] theorem State.setNode_hostData (s : State) (c : Ch) (i : Nat) (n : Node) : (s.setNode c i n).hostData = s.hostData := rfl

/-! ### `State.setCode` -/

@[simp] theorem State.setCode_phase (s : State) (c : Ch) (i : Nat) (e : CodeEntry) : (s.setCode c i e).phase = s.phase := rfl
@[simp] theorem State.setCode_done (s : State) (c : Ch) (i : Nat) (e : CodeEntry) : (s.setCode c i e).done = s.done := rfl
@[simp] theorem State.setCode_err (s : State) (c : Ch) (i : Nat) (e : CodeEntry) : (s.setCode c i e).err = s.err := rfl
@[simp] theorem State.setCode_ovr (s : State) (c : Ch) (i : Nat) (e : CodeEntry) : (s.setCode c i e).ovr = s.ovr := rfl
@[simp] theorem State.setCode_errCode (s : State) (c : Ch) (i : Nat) (e : CodeEntry) : (s.setCode c i e).errCode = s.errCode := rfl
@[simp] theorem State.setCode_irqEn (s : State) (c : Ch) (i : Nat) (e : CodeEntry) : (s.setCode c i e).irqEn = s.irqEn := rfl
@[simp] theorem State.setCode_cmd (s : State) (c : Ch) (i : Nat) (e : CodeEntry) : (s.setCode c i e).cmd = s.cmd := rfl
@[simp] theorem State.setCode_cfg (s : State) (c : Ch) (i : Nat) (e : CodeEntry) : (s.setCode c i e).cfg = s.cfg := rfl
@[simp] theorem State.setCode_width (s : State) (c : Ch) (i : Nat) (e : CodeEntry) : (s.setCode c i e).width = s.width := rfl
@[simp] theorem State.setCode_height (s : State) (c : Ch) (i : Nat) (e : CodeEntry) : (s.setCode c i e).height = s.height := rfl
@[simp] theorem State.setCode_inAddr (s : State) (c : Ch) (i : Nat) (e : CodeEntry) : (s.setCode c i e).inAddr = s.inAddr := rfl
@[simp] theorem State.setCode_inLen (s : State) (c : Ch) (i : Nat) (e : CodeEntry) : (s.setCode c i e).inLen = s.inLen := rfl
@[simp] theorem State.setCode_outAddr (s : State) (c : Ch) (i : Nat) (e : CodeEntry) : (s.setCode c i e).outAddr = s.outAddr := rfl
@[simp] theorem State.setCode_outCap (s : State) (c : Ch) (i : Nat) (e : CodeEntry) : (s.setCode c i e).outCap = s.outCap := rfl
@[simp] theorem State.setCode_outSize (s : State) (c : Ch) (i : Nat) (e : CodeEntry) : (s.setCode c i e).outSize = s.outSize := rfl
@[simp] theorem State.setCode_errInfo (s : State) (c : Ch) (i : Nat) (e : CodeEntry) : (s.setCode c i e).errInfo = s.errInfo := rfl
@[simp] theorem State.setCode_argLo (s : State) (c : Ch) (i : Nat) (e : CodeEntry) : (s.setCode c i e).argLo = s.argLo := rfl
@[simp] theorem State.setCode_argHi (s : State) (c : Ch) (i : Nat) (e : CodeEntry) : (s.setCode c i e).argHi = s.argHi := rfl
@[simp] theorem State.setCode_argLen (s : State) (c : Ch) (i : Nat) (e : CodeEntry) : (s.setCode c i e).argLen = s.argLen := rfl
@[simp] theorem State.setCode_resLo (s : State) (c : Ch) (i : Nat) (e : CodeEntry) : (s.setCode c i e).resLo = s.resLo := rfl
@[simp] theorem State.setCode_resHi (s : State) (c : Ch) (i : Nat) (e : CodeEntry) : (s.setCode c i e).resHi = s.resHi := rfl
@[simp] theorem State.setCode_pk (s : State) (c : Ch) (i : Nat) (e : CodeEntry) : (s.setCode c i e).pk = s.pk := rfl
@[simp] theorem State.setCode_rd (s : State) (c : Ch) (i : Nat) (e : CodeEntry) : (s.setCode c i e).rd = s.rd := rfl
@[simp] theorem State.setCode_tab (s : State) (c : Ch) (i : Nat) (e : CodeEntry) : (s.setCode c i e).tab = s.tab := rfl
@[simp] theorem State.setCode_hist (s : State) (c : Ch) (i : Nat) (e : CodeEntry) : (s.setCode c i e).hist = s.hist := rfl
@[simp] theorem State.setCode_tree (s : State) (c : Ch) (i : Nat) (e : CodeEntry) : (s.setCode c i e).tree = s.tree := rfl
@[simp] theorem State.setCode_code (s : State) (c : Ch) (i : Nat) (e : CodeEntry) : (s.setCode c i e).code = Sparse.put CodeEntry.none s.code (tableKey c i) e := rfl
@[simp] theorem State.setCode_ncount (s : State) (c : Ch) (i : Nat) (e : CodeEntry) : (s.setCode c i e).ncount = s.ncount := rfl
@[simp] theorem State.setCode_root (s : State) (c : Ch) (i : Nat) (e : CodeEntry) : (s.setCode c i e).root = s.root := rfl
@[simp] theorem State.setCode_prev (s : State) (c : Ch) (i : Nat) (e : CodeEntry) : (s.setCode c i e).prev = s.prev := rfl
@[simp] theorem State.setCode_acc (s : State) (c : Ch) (i : Nat) (e : CodeEntry) : (s.setCode c i e).acc = s.acc := rfl
@[simp] theorem State.setCode_mem (s : State) (c : Ch) (i : Nat) (e : CodeEntry) : (s.setCode c i e).mem = s.mem := rfl
@[simp] theorem State.setCode_deny (s : State) (c : Ch) (i : Nat) (e : CodeEntry) : (s.setCode c i e).deny = s.deny := rfl
@[simp] theorem State.setCode_scans (s : State) (c : Ch) (i : Nat) (e : CodeEntry) : (s.setCode c i e).scans = s.scans := rfl
@[simp] theorem State.setCode_draws (s : State) (c : Ch) (i : Nat) (e : CodeEntry) : (s.setCode c i e).draws = s.draws := rfl
@[simp] theorem State.setCode_script (s : State) (c : Ch) (i : Nat) (e : CodeEntry) : (s.setCode c i e).script = s.script := rfl
@[simp] theorem State.setCode_hostData (s : State) (c : Ch) (i : Nat) (e : CodeEntry) : (s.setCode c i e).hostData = s.hostData := rfl

/-! ### `State.clearCodes` -/

@[simp] theorem State.clearCodes_phase (s : State) (c : Ch) : (s.clearCodes c).phase = s.phase := rfl
@[simp] theorem State.clearCodes_done (s : State) (c : Ch) : (s.clearCodes c).done = s.done := rfl
@[simp] theorem State.clearCodes_err (s : State) (c : Ch) : (s.clearCodes c).err = s.err := rfl
@[simp] theorem State.clearCodes_ovr (s : State) (c : Ch) : (s.clearCodes c).ovr = s.ovr := rfl
@[simp] theorem State.clearCodes_errCode (s : State) (c : Ch) : (s.clearCodes c).errCode = s.errCode := rfl
@[simp] theorem State.clearCodes_irqEn (s : State) (c : Ch) : (s.clearCodes c).irqEn = s.irqEn := rfl
@[simp] theorem State.clearCodes_cmd (s : State) (c : Ch) : (s.clearCodes c).cmd = s.cmd := rfl
@[simp] theorem State.clearCodes_cfg (s : State) (c : Ch) : (s.clearCodes c).cfg = s.cfg := rfl
@[simp] theorem State.clearCodes_width (s : State) (c : Ch) : (s.clearCodes c).width = s.width := rfl
@[simp] theorem State.clearCodes_height (s : State) (c : Ch) : (s.clearCodes c).height = s.height := rfl
@[simp] theorem State.clearCodes_inAddr (s : State) (c : Ch) : (s.clearCodes c).inAddr = s.inAddr := rfl
@[simp] theorem State.clearCodes_inLen (s : State) (c : Ch) : (s.clearCodes c).inLen = s.inLen := rfl
@[simp] theorem State.clearCodes_outAddr (s : State) (c : Ch) : (s.clearCodes c).outAddr = s.outAddr := rfl
@[simp] theorem State.clearCodes_outCap (s : State) (c : Ch) : (s.clearCodes c).outCap = s.outCap := rfl
@[simp] theorem State.clearCodes_outSize (s : State) (c : Ch) : (s.clearCodes c).outSize = s.outSize := rfl
@[simp] theorem State.clearCodes_errInfo (s : State) (c : Ch) : (s.clearCodes c).errInfo = s.errInfo := rfl
@[simp] theorem State.clearCodes_argLo (s : State) (c : Ch) : (s.clearCodes c).argLo = s.argLo := rfl
@[simp] theorem State.clearCodes_argHi (s : State) (c : Ch) : (s.clearCodes c).argHi = s.argHi := rfl
@[simp] theorem State.clearCodes_argLen (s : State) (c : Ch) : (s.clearCodes c).argLen = s.argLen := rfl
@[simp] theorem State.clearCodes_resLo (s : State) (c : Ch) : (s.clearCodes c).resLo = s.resLo := rfl
@[simp] theorem State.clearCodes_resHi (s : State) (c : Ch) : (s.clearCodes c).resHi = s.resHi := rfl
@[simp] theorem State.clearCodes_pk (s : State) (c : Ch) : (s.clearCodes c).pk = s.pk := rfl
@[simp] theorem State.clearCodes_rd (s : State) (c : Ch) : (s.clearCodes c).rd = s.rd := rfl
@[simp] theorem State.clearCodes_tab (s : State) (c : Ch) : (s.clearCodes c).tab = s.tab := rfl
@[simp] theorem State.clearCodes_hist (s : State) (c : Ch) : (s.clearCodes c).hist = s.hist := rfl
@[simp] theorem State.clearCodes_tree (s : State) (c : Ch) : (s.clearCodes c).tree = s.tree := rfl
@[simp] theorem State.clearCodes_code (s : State) (c : Ch) : (s.clearCodes c).code = s.code.filter (fun e => e.1 / Config.symbols != c.val) := rfl
@[simp] theorem State.clearCodes_ncount (s : State) (c : Ch) : (s.clearCodes c).ncount = s.ncount := rfl
@[simp] theorem State.clearCodes_root (s : State) (c : Ch) : (s.clearCodes c).root = s.root := rfl
@[simp] theorem State.clearCodes_prev (s : State) (c : Ch) : (s.clearCodes c).prev = s.prev := rfl
@[simp] theorem State.clearCodes_acc (s : State) (c : Ch) : (s.clearCodes c).acc = s.acc := rfl
@[simp] theorem State.clearCodes_mem (s : State) (c : Ch) : (s.clearCodes c).mem = s.mem := rfl
@[simp] theorem State.clearCodes_deny (s : State) (c : Ch) : (s.clearCodes c).deny = s.deny := rfl
@[simp] theorem State.clearCodes_scans (s : State) (c : Ch) : (s.clearCodes c).scans = s.scans := rfl
@[simp] theorem State.clearCodes_draws (s : State) (c : Ch) : (s.clearCodes c).draws = s.draws := rfl
@[simp] theorem State.clearCodes_script (s : State) (c : Ch) : (s.clearCodes c).script = s.script := rfl
@[simp] theorem State.clearCodes_hostData (s : State) (c : Ch) : (s.clearCodes c).hostData = s.hostData := rfl

/-! ### `State.setPrev` -/

@[simp] theorem State.setPrev_phase (s : State) (c : Ch) (v : Nat) : (s.setPrev c v).phase = s.phase := rfl
@[simp] theorem State.setPrev_done (s : State) (c : Ch) (v : Nat) : (s.setPrev c v).done = s.done := rfl
@[simp] theorem State.setPrev_err (s : State) (c : Ch) (v : Nat) : (s.setPrev c v).err = s.err := rfl
@[simp] theorem State.setPrev_ovr (s : State) (c : Ch) (v : Nat) : (s.setPrev c v).ovr = s.ovr := rfl
@[simp] theorem State.setPrev_errCode (s : State) (c : Ch) (v : Nat) : (s.setPrev c v).errCode = s.errCode := rfl
@[simp] theorem State.setPrev_irqEn (s : State) (c : Ch) (v : Nat) : (s.setPrev c v).irqEn = s.irqEn := rfl
@[simp] theorem State.setPrev_cmd (s : State) (c : Ch) (v : Nat) : (s.setPrev c v).cmd = s.cmd := rfl
@[simp] theorem State.setPrev_cfg (s : State) (c : Ch) (v : Nat) : (s.setPrev c v).cfg = s.cfg := rfl
@[simp] theorem State.setPrev_width (s : State) (c : Ch) (v : Nat) : (s.setPrev c v).width = s.width := rfl
@[simp] theorem State.setPrev_height (s : State) (c : Ch) (v : Nat) : (s.setPrev c v).height = s.height := rfl
@[simp] theorem State.setPrev_inAddr (s : State) (c : Ch) (v : Nat) : (s.setPrev c v).inAddr = s.inAddr := rfl
@[simp] theorem State.setPrev_inLen (s : State) (c : Ch) (v : Nat) : (s.setPrev c v).inLen = s.inLen := rfl
@[simp] theorem State.setPrev_outAddr (s : State) (c : Ch) (v : Nat) : (s.setPrev c v).outAddr = s.outAddr := rfl
@[simp] theorem State.setPrev_outCap (s : State) (c : Ch) (v : Nat) : (s.setPrev c v).outCap = s.outCap := rfl
@[simp] theorem State.setPrev_outSize (s : State) (c : Ch) (v : Nat) : (s.setPrev c v).outSize = s.outSize := rfl
@[simp] theorem State.setPrev_errInfo (s : State) (c : Ch) (v : Nat) : (s.setPrev c v).errInfo = s.errInfo := rfl
@[simp] theorem State.setPrev_argLo (s : State) (c : Ch) (v : Nat) : (s.setPrev c v).argLo = s.argLo := rfl
@[simp] theorem State.setPrev_argHi (s : State) (c : Ch) (v : Nat) : (s.setPrev c v).argHi = s.argHi := rfl
@[simp] theorem State.setPrev_argLen (s : State) (c : Ch) (v : Nat) : (s.setPrev c v).argLen = s.argLen := rfl
@[simp] theorem State.setPrev_resLo (s : State) (c : Ch) (v : Nat) : (s.setPrev c v).resLo = s.resLo := rfl
@[simp] theorem State.setPrev_resHi (s : State) (c : Ch) (v : Nat) : (s.setPrev c v).resHi = s.resHi := rfl
@[simp] theorem State.setPrev_pk (s : State) (c : Ch) (v : Nat) : (s.setPrev c v).pk = s.pk := rfl
@[simp] theorem State.setPrev_rd (s : State) (c : Ch) (v : Nat) : (s.setPrev c v).rd = s.rd := rfl
@[simp] theorem State.setPrev_tab (s : State) (c : Ch) (v : Nat) : (s.setPrev c v).tab = s.tab := rfl
@[simp] theorem State.setPrev_hist (s : State) (c : Ch) (v : Nat) : (s.setPrev c v).hist = s.hist := rfl
@[simp] theorem State.setPrev_tree (s : State) (c : Ch) (v : Nat) : (s.setPrev c v).tree = s.tree := rfl
@[simp] theorem State.setPrev_code (s : State) (c : Ch) (v : Nat) : (s.setPrev c v).code = s.code := rfl
@[simp] theorem State.setPrev_ncount (s : State) (c : Ch) (v : Nat) : (s.setPrev c v).ncount = s.ncount := rfl
@[simp] theorem State.setPrev_root (s : State) (c : Ch) (v : Nat) : (s.setPrev c v).root = s.root := rfl
@[simp] theorem State.setPrev_prev (s : State) (c : Ch) (v : Nat) : (s.setPrev c v).prev = s.prev.set c (BitVec.ofNat 12 v) := rfl
@[simp] theorem State.setPrev_acc (s : State) (c : Ch) (v : Nat) : (s.setPrev c v).acc = s.acc := rfl
@[simp] theorem State.setPrev_mem (s : State) (c : Ch) (v : Nat) : (s.setPrev c v).mem = s.mem := rfl
@[simp] theorem State.setPrev_deny (s : State) (c : Ch) (v : Nat) : (s.setPrev c v).deny = s.deny := rfl
@[simp] theorem State.setPrev_scans (s : State) (c : Ch) (v : Nat) : (s.setPrev c v).scans = s.scans := rfl
@[simp] theorem State.setPrev_draws (s : State) (c : Ch) (v : Nat) : (s.setPrev c v).draws = s.draws := rfl
@[simp] theorem State.setPrev_script (s : State) (c : Ch) (v : Nat) : (s.setPrev c v).script = s.script := rfl
@[simp] theorem State.setPrev_hostData (s : State) (c : Ch) (v : Nat) : (s.setPrev c v).hostData = s.hostData := rfl

/-! ### `State.setAcc` -/

@[simp] theorem State.setAcc_phase (s : State) (c : Ch) (v : Nat) : (s.setAcc c v).phase = s.phase := rfl
@[simp] theorem State.setAcc_done (s : State) (c : Ch) (v : Nat) : (s.setAcc c v).done = s.done := rfl
@[simp] theorem State.setAcc_err (s : State) (c : Ch) (v : Nat) : (s.setAcc c v).err = s.err := rfl
@[simp] theorem State.setAcc_ovr (s : State) (c : Ch) (v : Nat) : (s.setAcc c v).ovr = s.ovr := rfl
@[simp] theorem State.setAcc_errCode (s : State) (c : Ch) (v : Nat) : (s.setAcc c v).errCode = s.errCode := rfl
@[simp] theorem State.setAcc_irqEn (s : State) (c : Ch) (v : Nat) : (s.setAcc c v).irqEn = s.irqEn := rfl
@[simp] theorem State.setAcc_cmd (s : State) (c : Ch) (v : Nat) : (s.setAcc c v).cmd = s.cmd := rfl
@[simp] theorem State.setAcc_cfg (s : State) (c : Ch) (v : Nat) : (s.setAcc c v).cfg = s.cfg := rfl
@[simp] theorem State.setAcc_width (s : State) (c : Ch) (v : Nat) : (s.setAcc c v).width = s.width := rfl
@[simp] theorem State.setAcc_height (s : State) (c : Ch) (v : Nat) : (s.setAcc c v).height = s.height := rfl
@[simp] theorem State.setAcc_inAddr (s : State) (c : Ch) (v : Nat) : (s.setAcc c v).inAddr = s.inAddr := rfl
@[simp] theorem State.setAcc_inLen (s : State) (c : Ch) (v : Nat) : (s.setAcc c v).inLen = s.inLen := rfl
@[simp] theorem State.setAcc_outAddr (s : State) (c : Ch) (v : Nat) : (s.setAcc c v).outAddr = s.outAddr := rfl
@[simp] theorem State.setAcc_outCap (s : State) (c : Ch) (v : Nat) : (s.setAcc c v).outCap = s.outCap := rfl
@[simp] theorem State.setAcc_outSize (s : State) (c : Ch) (v : Nat) : (s.setAcc c v).outSize = s.outSize := rfl
@[simp] theorem State.setAcc_errInfo (s : State) (c : Ch) (v : Nat) : (s.setAcc c v).errInfo = s.errInfo := rfl
@[simp] theorem State.setAcc_argLo (s : State) (c : Ch) (v : Nat) : (s.setAcc c v).argLo = s.argLo := rfl
@[simp] theorem State.setAcc_argHi (s : State) (c : Ch) (v : Nat) : (s.setAcc c v).argHi = s.argHi := rfl
@[simp] theorem State.setAcc_argLen (s : State) (c : Ch) (v : Nat) : (s.setAcc c v).argLen = s.argLen := rfl
@[simp] theorem State.setAcc_resLo (s : State) (c : Ch) (v : Nat) : (s.setAcc c v).resLo = s.resLo := rfl
@[simp] theorem State.setAcc_resHi (s : State) (c : Ch) (v : Nat) : (s.setAcc c v).resHi = s.resHi := rfl
@[simp] theorem State.setAcc_pk (s : State) (c : Ch) (v : Nat) : (s.setAcc c v).pk = s.pk := rfl
@[simp] theorem State.setAcc_rd (s : State) (c : Ch) (v : Nat) : (s.setAcc c v).rd = s.rd := rfl
@[simp] theorem State.setAcc_tab (s : State) (c : Ch) (v : Nat) : (s.setAcc c v).tab = s.tab := rfl
@[simp] theorem State.setAcc_hist (s : State) (c : Ch) (v : Nat) : (s.setAcc c v).hist = s.hist := rfl
@[simp] theorem State.setAcc_tree (s : State) (c : Ch) (v : Nat) : (s.setAcc c v).tree = s.tree := rfl
@[simp] theorem State.setAcc_code (s : State) (c : Ch) (v : Nat) : (s.setAcc c v).code = s.code := rfl
@[simp] theorem State.setAcc_ncount (s : State) (c : Ch) (v : Nat) : (s.setAcc c v).ncount = s.ncount := rfl
@[simp] theorem State.setAcc_root (s : State) (c : Ch) (v : Nat) : (s.setAcc c v).root = s.root := rfl
@[simp] theorem State.setAcc_prev (s : State) (c : Ch) (v : Nat) : (s.setAcc c v).prev = s.prev := rfl
@[simp] theorem State.setAcc_acc (s : State) (c : Ch) (v : Nat) : (s.setAcc c v).acc = s.acc.set c (BitVec.ofNat 12 v) := rfl
@[simp] theorem State.setAcc_mem (s : State) (c : Ch) (v : Nat) : (s.setAcc c v).mem = s.mem := rfl
@[simp] theorem State.setAcc_deny (s : State) (c : Ch) (v : Nat) : (s.setAcc c v).deny = s.deny := rfl
@[simp] theorem State.setAcc_scans (s : State) (c : Ch) (v : Nat) : (s.setAcc c v).scans = s.scans := rfl
@[simp] theorem State.setAcc_draws (s : State) (c : Ch) (v : Nat) : (s.setAcc c v).draws = s.draws := rfl
@[simp] theorem State.setAcc_script (s : State) (c : Ch) (v : Nat) : (s.setAcc c v).script = s.script := rfl
@[simp] theorem State.setAcc_hostData (s : State) (c : Ch) (v : Nat) : (s.setAcc c v).hostData = s.hostData := rfl

/-! ### `State.loosenOut` -/

@[simp] theorem State.loosenOut_phase (s : State) : s.loosenOut.phase = s.phase := rfl
@[simp] theorem State.loosenOut_done (s : State) : s.loosenOut.done = s.done := rfl
@[simp] theorem State.loosenOut_err (s : State) : s.loosenOut.err = s.err := rfl
@[simp] theorem State.loosenOut_ovr (s : State) : s.loosenOut.ovr = s.ovr := rfl
@[simp] theorem State.loosenOut_errCode (s : State) : s.loosenOut.errCode = s.errCode := rfl
@[simp] theorem State.loosenOut_irqEn (s : State) : s.loosenOut.irqEn = s.irqEn := rfl
@[simp] theorem State.loosenOut_cmd (s : State) : s.loosenOut.cmd = s.cmd := rfl
@[simp] theorem State.loosenOut_cfg (s : State) : s.loosenOut.cfg = s.cfg := rfl
@[simp] theorem State.loosenOut_width (s : State) : s.loosenOut.width = s.width := rfl
@[simp] theorem State.loosenOut_height (s : State) : s.loosenOut.height = s.height := rfl
@[simp] theorem State.loosenOut_inAddr (s : State) : s.loosenOut.inAddr = s.inAddr := rfl
@[simp] theorem State.loosenOut_inLen (s : State) : s.loosenOut.inLen = s.inLen := rfl
@[simp] theorem State.loosenOut_outAddr (s : State) : s.loosenOut.outAddr = s.outAddr := rfl
@[simp] theorem State.loosenOut_outCap (s : State) : s.loosenOut.outCap = s.outCap := rfl
@[simp] theorem State.loosenOut_outSize (s : State) : s.loosenOut.outSize = s.outSize := rfl
@[simp] theorem State.loosenOut_errInfo (s : State) : s.loosenOut.errInfo = s.errInfo := rfl
@[simp] theorem State.loosenOut_argLo (s : State) : s.loosenOut.argLo = s.argLo := rfl
@[simp] theorem State.loosenOut_argHi (s : State) : s.loosenOut.argHi = s.argHi := rfl
@[simp] theorem State.loosenOut_argLen (s : State) : s.loosenOut.argLen = s.argLen := rfl
@[simp] theorem State.loosenOut_resLo (s : State) : s.loosenOut.resLo = s.resLo := rfl
@[simp] theorem State.loosenOut_resHi (s : State) : s.loosenOut.resHi = s.resHi := rfl
@[simp] theorem State.loosenOut_pk (s : State) : s.loosenOut.pk = s.pk := rfl
@[simp] theorem State.loosenOut_rd (s : State) : s.loosenOut.rd = s.rd := rfl
@[simp] theorem State.loosenOut_tab (s : State) : s.loosenOut.tab = s.tab := rfl
@[simp] theorem State.loosenOut_hist (s : State) : s.loosenOut.hist = s.hist := rfl
@[simp] theorem State.loosenOut_tree (s : State) : s.loosenOut.tree = s.tree := rfl
@[simp] theorem State.loosenOut_code (s : State) : s.loosenOut.code = s.code := rfl
@[simp] theorem State.loosenOut_ncount (s : State) : s.loosenOut.ncount = s.ncount := rfl
@[simp] theorem State.loosenOut_root (s : State) : s.loosenOut.root = s.root := rfl
@[simp] theorem State.loosenOut_prev (s : State) : s.loosenOut.prev = s.prev := rfl
@[simp] theorem State.loosenOut_acc (s : State) : s.loosenOut.acc = s.acc := rfl
@[simp] theorem State.loosenOut_mem (s : State) : s.loosenOut.mem = s.mem.loosen s.outAddr.toNat s.outTop s.draws := rfl
@[simp] theorem State.loosenOut_deny (s : State) : s.loosenOut.deny = s.deny := rfl
@[simp] theorem State.loosenOut_scans (s : State) : s.loosenOut.scans = s.scans := rfl
@[simp] theorem State.loosenOut_draws (s : State) : s.loosenOut.draws = s.draws + 1 := rfl
@[simp] theorem State.loosenOut_script (s : State) : s.loosenOut.script = s.script := rfl
@[simp] theorem State.loosenOut_hostData (s : State) : s.loosenOut.hostData = s.hostData := rfl

/-! ### `State.loosenUnwritten` -/

@[simp] theorem State.loosenUnwritten_phase (s : State) : s.loosenUnwritten.phase = s.phase := rfl
@[simp] theorem State.loosenUnwritten_done (s : State) : s.loosenUnwritten.done = s.done := rfl
@[simp] theorem State.loosenUnwritten_err (s : State) : s.loosenUnwritten.err = s.err := rfl
@[simp] theorem State.loosenUnwritten_ovr (s : State) : s.loosenUnwritten.ovr = s.ovr := rfl
@[simp] theorem State.loosenUnwritten_errCode (s : State) : s.loosenUnwritten.errCode = s.errCode := rfl
@[simp] theorem State.loosenUnwritten_irqEn (s : State) : s.loosenUnwritten.irqEn = s.irqEn := rfl
@[simp] theorem State.loosenUnwritten_cmd (s : State) : s.loosenUnwritten.cmd = s.cmd := rfl
@[simp] theorem State.loosenUnwritten_cfg (s : State) : s.loosenUnwritten.cfg = s.cfg := rfl
@[simp] theorem State.loosenUnwritten_width (s : State) : s.loosenUnwritten.width = s.width := rfl
@[simp] theorem State.loosenUnwritten_height (s : State) : s.loosenUnwritten.height = s.height := rfl
@[simp] theorem State.loosenUnwritten_inAddr (s : State) : s.loosenUnwritten.inAddr = s.inAddr := rfl
@[simp] theorem State.loosenUnwritten_inLen (s : State) : s.loosenUnwritten.inLen = s.inLen := rfl
@[simp] theorem State.loosenUnwritten_outAddr (s : State) : s.loosenUnwritten.outAddr = s.outAddr := rfl
@[simp] theorem State.loosenUnwritten_outCap (s : State) : s.loosenUnwritten.outCap = s.outCap := rfl
@[simp] theorem State.loosenUnwritten_outSize (s : State) : s.loosenUnwritten.outSize = s.outSize := rfl
@[simp] theorem State.loosenUnwritten_errInfo (s : State) : s.loosenUnwritten.errInfo = s.errInfo := rfl
@[simp] theorem State.loosenUnwritten_argLo (s : State) : s.loosenUnwritten.argLo = s.argLo := rfl
@[simp] theorem State.loosenUnwritten_argHi (s : State) : s.loosenUnwritten.argHi = s.argHi := rfl
@[simp] theorem State.loosenUnwritten_argLen (s : State) : s.loosenUnwritten.argLen = s.argLen := rfl
@[simp] theorem State.loosenUnwritten_resLo (s : State) : s.loosenUnwritten.resLo = s.resLo := rfl
@[simp] theorem State.loosenUnwritten_resHi (s : State) : s.loosenUnwritten.resHi = s.resHi := rfl
@[simp] theorem State.loosenUnwritten_pk (s : State) : s.loosenUnwritten.pk = s.pk := rfl
@[simp] theorem State.loosenUnwritten_rd (s : State) : s.loosenUnwritten.rd = s.rd := rfl
@[simp] theorem State.loosenUnwritten_tab (s : State) : s.loosenUnwritten.tab = s.tab := rfl
@[simp] theorem State.loosenUnwritten_hist (s : State) : s.loosenUnwritten.hist = s.hist := rfl
@[simp] theorem State.loosenUnwritten_tree (s : State) : s.loosenUnwritten.tree = s.tree := rfl
@[simp] theorem State.loosenUnwritten_code (s : State) : s.loosenUnwritten.code = s.code := rfl
@[simp] theorem State.loosenUnwritten_ncount (s : State) : s.loosenUnwritten.ncount = s.ncount := rfl
@[simp] theorem State.loosenUnwritten_root (s : State) : s.loosenUnwritten.root = s.root := rfl
@[simp] theorem State.loosenUnwritten_prev (s : State) : s.loosenUnwritten.prev = s.prev := rfl
@[simp] theorem State.loosenUnwritten_acc (s : State) : s.loosenUnwritten.acc = s.acc := rfl
@[simp] theorem State.loosenUnwritten_mem (s : State) : s.loosenUnwritten.mem = s.mem.loosenUnwritten s.outAddr.toNat s.outTop s.draws := rfl
@[simp] theorem State.loosenUnwritten_deny (s : State) : s.loosenUnwritten.deny = s.deny := rfl
@[simp] theorem State.loosenUnwritten_scans (s : State) : s.loosenUnwritten.scans = s.scans := rfl
@[simp] theorem State.loosenUnwritten_draws (s : State) : s.loosenUnwritten.draws = s.draws + 1 := rfl
@[simp] theorem State.loosenUnwritten_script (s : State) : s.loosenUnwritten.script = s.script := rfl
@[simp] theorem State.loosenUnwritten_hostData (s : State) : s.loosenUnwritten.hostData = s.hostData := rfl

/-! ### `State.markSince` -/

@[simp] theorem State.markSince_phase (s t : State) : (s.markSince t).phase = t.phase := rfl
@[simp] theorem State.markSince_done (s t : State) : (s.markSince t).done = t.done := rfl
@[simp] theorem State.markSince_err (s t : State) : (s.markSince t).err = t.err := rfl
@[simp] theorem State.markSince_ovr (s t : State) : (s.markSince t).ovr = t.ovr := rfl
@[simp] theorem State.markSince_errCode (s t : State) : (s.markSince t).errCode = t.errCode := rfl
@[simp] theorem State.markSince_irqEn (s t : State) : (s.markSince t).irqEn = t.irqEn := rfl
@[simp] theorem State.markSince_cmd (s t : State) : (s.markSince t).cmd = t.cmd := rfl
@[simp] theorem State.markSince_cfg (s t : State) : (s.markSince t).cfg = t.cfg := rfl
@[simp] theorem State.markSince_width (s t : State) : (s.markSince t).width = t.width := rfl
@[simp] theorem State.markSince_height (s t : State) : (s.markSince t).height = t.height := rfl
@[simp] theorem State.markSince_inAddr (s t : State) : (s.markSince t).inAddr = t.inAddr := rfl
@[simp] theorem State.markSince_inLen (s t : State) : (s.markSince t).inLen = t.inLen := rfl
@[simp] theorem State.markSince_outAddr (s t : State) : (s.markSince t).outAddr = t.outAddr := rfl
@[simp] theorem State.markSince_outCap (s t : State) : (s.markSince t).outCap = t.outCap := rfl
@[simp] theorem State.markSince_outSize (s t : State) : (s.markSince t).outSize = t.outSize := rfl
@[simp] theorem State.markSince_errInfo (s t : State) : (s.markSince t).errInfo = t.errInfo := rfl
@[simp] theorem State.markSince_argLo (s t : State) : (s.markSince t).argLo = t.argLo := rfl
@[simp] theorem State.markSince_argHi (s t : State) : (s.markSince t).argHi = t.argHi := rfl
@[simp] theorem State.markSince_argLen (s t : State) : (s.markSince t).argLen = t.argLen := rfl
@[simp] theorem State.markSince_resLo (s t : State) : (s.markSince t).resLo = t.resLo := rfl
@[simp] theorem State.markSince_resHi (s t : State) : (s.markSince t).resHi = t.resHi := rfl
@[simp] theorem State.markSince_pk (s t : State) : (s.markSince t).pk = t.pk := rfl
@[simp] theorem State.markSince_rd (s t : State) : (s.markSince t).rd = t.rd := rfl
@[simp] theorem State.markSince_tab (s t : State) : (s.markSince t).tab = t.tab := rfl
@[simp] theorem State.markSince_hist (s t : State) : (s.markSince t).hist = t.hist := rfl
@[simp] theorem State.markSince_tree (s t : State) : (s.markSince t).tree = t.tree := rfl
@[simp] theorem State.markSince_code (s t : State) : (s.markSince t).code = t.code := rfl
@[simp] theorem State.markSince_ncount (s t : State) : (s.markSince t).ncount = t.ncount := rfl
@[simp] theorem State.markSince_root (s t : State) : (s.markSince t).root = t.root := rfl
@[simp] theorem State.markSince_prev (s t : State) : (s.markSince t).prev = t.prev := rfl
@[simp] theorem State.markSince_acc (s t : State) : (s.markSince t).acc = t.acc := rfl
@[simp] theorem State.markSince_mem (s t : State) : (s.markSince t).mem = t.mem.markRun (s.outAddr.toNat + s.pk.ptr.toNat) (t.pk.ptr.toNat - s.pk.ptr.toNat) := rfl
@[simp] theorem State.markSince_deny (s t : State) : (s.markSince t).deny = t.deny := rfl
@[simp] theorem State.markSince_scans (s t : State) : (s.markSince t).scans = t.scans := rfl
@[simp] theorem State.markSince_draws (s t : State) : (s.markSince t).draws = t.draws := rfl
@[simp] theorem State.markSince_script (s t : State) : (s.markSince t).script = t.script := rfl
@[simp] theorem State.markSince_hostData (s t : State) : (s.markSince t).hostData = t.hostData := rfl

/-! ### `State.openScan` -/

@[simp] theorem State.openScan_phase (s : State) : s.openScan.phase = s.phase := rfl
@[simp] theorem State.openScan_done (s : State) : s.openScan.done = s.done := rfl
@[simp] theorem State.openScan_err (s : State) : s.openScan.err = s.err := rfl
@[simp] theorem State.openScan_ovr (s : State) : s.openScan.ovr = s.ovr := rfl
@[simp] theorem State.openScan_errCode (s : State) : s.openScan.errCode = s.errCode := rfl
@[simp] theorem State.openScan_irqEn (s : State) : s.openScan.irqEn = s.irqEn := rfl
@[simp] theorem State.openScan_cmd (s : State) : s.openScan.cmd = s.cmd := rfl
@[simp] theorem State.openScan_cfg (s : State) : s.openScan.cfg = s.cfg := rfl
@[simp] theorem State.openScan_width (s : State) : s.openScan.width = s.width := rfl
@[simp] theorem State.openScan_height (s : State) : s.openScan.height = s.height := rfl
@[simp] theorem State.openScan_inAddr (s : State) : s.openScan.inAddr = s.inAddr := rfl
@[simp] theorem State.openScan_inLen (s : State) : s.openScan.inLen = s.inLen := rfl
@[simp] theorem State.openScan_outAddr (s : State) : s.openScan.outAddr = s.outAddr := rfl
@[simp] theorem State.openScan_outCap (s : State) : s.openScan.outCap = s.outCap := rfl
@[simp] theorem State.openScan_outSize (s : State) : s.openScan.outSize = s.outSize := rfl
@[simp] theorem State.openScan_errInfo (s : State) : s.openScan.errInfo = s.errInfo := rfl
@[simp] theorem State.openScan_argLo (s : State) : s.openScan.argLo = s.argLo := rfl
@[simp] theorem State.openScan_argHi (s : State) : s.openScan.argHi = s.argHi := rfl
@[simp] theorem State.openScan_argLen (s : State) : s.openScan.argLen = s.argLen := rfl
@[simp] theorem State.openScan_resLo (s : State) : s.openScan.resLo = s.resLo := rfl
@[simp] theorem State.openScan_resHi (s : State) : s.openScan.resHi = s.resHi := rfl
@[simp] theorem State.openScan_pk (s : State) : s.openScan.pk = s.pk := rfl
@[simp] theorem State.openScan_rd (s : State) : s.openScan.rd = s.rd := rfl
@[simp] theorem State.openScan_tab (s : State) : s.openScan.tab = s.tab := rfl
@[simp] theorem State.openScan_hist (s : State) : s.openScan.hist = s.hist := rfl
@[simp] theorem State.openScan_tree (s : State) : s.openScan.tree = s.tree := rfl
@[simp] theorem State.openScan_code (s : State) : s.openScan.code = s.code := rfl
@[simp] theorem State.openScan_ncount (s : State) : s.openScan.ncount = s.ncount := rfl
@[simp] theorem State.openScan_root (s : State) : s.openScan.root = s.root := rfl
@[simp] theorem State.openScan_prev (s : State) : s.openScan.prev = s.prev := rfl
@[simp] theorem State.openScan_acc (s : State) : s.openScan.acc = s.acc := rfl
@[simp] theorem State.openScan_mem (s : State) : s.openScan.mem = s.mem := rfl
@[simp] theorem State.openScan_deny (s : State) : s.openScan.deny = s.deny := rfl
@[simp] theorem State.openScan_scans (s : State) : s.openScan.scans = if s.inLen = 0 then s.otherScans else ⟨s.inAddr.toNat, s.inEnd, s.mem.window s.inAddr.toNat s.inEnd⟩ :: s.otherScans := rfl
@[simp] theorem State.openScan_draws (s : State) : s.openScan.draws = s.draws := rfl
@[simp] theorem State.openScan_script (s : State) : s.openScan.script = s.script := rfl
@[simp] theorem State.openScan_hostData (s : State) : s.openScan.hostData = s.hostData := rfl

/-! ### `State.closeScan` -/

@[simp] theorem State.closeScan_phase (s : State) : s.closeScan.phase = s.phase := rfl
@[simp] theorem State.closeScan_done (s : State) : s.closeScan.done = s.done := rfl
@[simp] theorem State.closeScan_err (s : State) : s.closeScan.err = s.err := rfl
@[simp] theorem State.closeScan_ovr (s : State) : s.closeScan.ovr = s.ovr := rfl
@[simp] theorem State.closeScan_errCode (s : State) : s.closeScan.errCode = s.errCode := rfl
@[simp] theorem State.closeScan_irqEn (s : State) : s.closeScan.irqEn = s.irqEn := rfl
@[simp] theorem State.closeScan_cmd (s : State) : s.closeScan.cmd = s.cmd := rfl
@[simp] theorem State.closeScan_cfg (s : State) : s.closeScan.cfg = s.cfg := rfl
@[simp] theorem State.closeScan_width (s : State) : s.closeScan.width = s.width := rfl
@[simp] theorem State.closeScan_height (s : State) : s.closeScan.height = s.height := rfl
@[simp] theorem State.closeScan_inAddr (s : State) : s.closeScan.inAddr = s.inAddr := rfl
@[simp] theorem State.closeScan_inLen (s : State) : s.closeScan.inLen = s.inLen := rfl
@[simp] theorem State.closeScan_outAddr (s : State) : s.closeScan.outAddr = s.outAddr := rfl
@[simp] theorem State.closeScan_outCap (s : State) : s.closeScan.outCap = s.outCap := rfl
@[simp] theorem State.closeScan_outSize (s : State) : s.closeScan.outSize = s.outSize := rfl
@[simp] theorem State.closeScan_errInfo (s : State) : s.closeScan.errInfo = s.errInfo := rfl
@[simp] theorem State.closeScan_argLo (s : State) : s.closeScan.argLo = s.argLo := rfl
@[simp] theorem State.closeScan_argHi (s : State) : s.closeScan.argHi = s.argHi := rfl
@[simp] theorem State.closeScan_argLen (s : State) : s.closeScan.argLen = s.argLen := rfl
@[simp] theorem State.closeScan_resLo (s : State) : s.closeScan.resLo = s.resLo := rfl
@[simp] theorem State.closeScan_resHi (s : State) : s.closeScan.resHi = s.resHi := rfl
@[simp] theorem State.closeScan_pk (s : State) : s.closeScan.pk = s.pk := rfl
@[simp] theorem State.closeScan_rd (s : State) : s.closeScan.rd = s.rd := rfl
@[simp] theorem State.closeScan_tab (s : State) : s.closeScan.tab = s.tab := rfl
@[simp] theorem State.closeScan_hist (s : State) : s.closeScan.hist = s.hist := rfl
@[simp] theorem State.closeScan_tree (s : State) : s.closeScan.tree = s.tree := rfl
@[simp] theorem State.closeScan_code (s : State) : s.closeScan.code = s.code := rfl
@[simp] theorem State.closeScan_ncount (s : State) : s.closeScan.ncount = s.ncount := rfl
@[simp] theorem State.closeScan_root (s : State) : s.closeScan.root = s.root := rfl
@[simp] theorem State.closeScan_prev (s : State) : s.closeScan.prev = s.prev := rfl
@[simp] theorem State.closeScan_acc (s : State) : s.closeScan.acc = s.acc := rfl
@[simp] theorem State.closeScan_mem (s : State) : s.closeScan.mem = s.mem := rfl
@[simp] theorem State.closeScan_deny (s : State) : s.closeScan.deny = s.deny := rfl
@[simp] theorem State.closeScan_scans (s : State) : s.closeScan.scans = s.otherScans := rfl
@[simp] theorem State.closeScan_draws (s : State) : s.closeScan.draws = s.draws := rfl
@[simp] theorem State.closeScan_script (s : State) : s.closeScan.script = s.script := rfl
@[simp] theorem State.closeScan_hostData (s : State) : s.closeScan.hostData = s.hostData := rfl

/-! ### `State.forgetScans` -/

@[simp] theorem State.forgetScans_phase (s : State) : s.forgetScans.phase = s.phase := rfl
@[simp] theorem State.forgetScans_done (s : State) : s.forgetScans.done = s.done := rfl
@[simp] theorem State.forgetScans_err (s : State) : s.forgetScans.err = s.err := rfl
@[simp] theorem State.forgetScans_ovr (s : State) : s.forgetScans.ovr = s.ovr := rfl
@[simp] theorem State.forgetScans_errCode (s : State) : s.forgetScans.errCode = s.errCode := rfl
@[simp] theorem State.forgetScans_irqEn (s : State) : s.forgetScans.irqEn = s.irqEn := rfl
@[simp] theorem State.forgetScans_cmd (s : State) : s.forgetScans.cmd = s.cmd := rfl
@[simp] theorem State.forgetScans_cfg (s : State) : s.forgetScans.cfg = s.cfg := rfl
@[simp] theorem State.forgetScans_width (s : State) : s.forgetScans.width = s.width := rfl
@[simp] theorem State.forgetScans_height (s : State) : s.forgetScans.height = s.height := rfl
@[simp] theorem State.forgetScans_inAddr (s : State) : s.forgetScans.inAddr = s.inAddr := rfl
@[simp] theorem State.forgetScans_inLen (s : State) : s.forgetScans.inLen = s.inLen := rfl
@[simp] theorem State.forgetScans_outAddr (s : State) : s.forgetScans.outAddr = s.outAddr := rfl
@[simp] theorem State.forgetScans_outCap (s : State) : s.forgetScans.outCap = s.outCap := rfl
@[simp] theorem State.forgetScans_outSize (s : State) : s.forgetScans.outSize = s.outSize := rfl
@[simp] theorem State.forgetScans_errInfo (s : State) : s.forgetScans.errInfo = s.errInfo := rfl
@[simp] theorem State.forgetScans_argLo (s : State) : s.forgetScans.argLo = s.argLo := rfl
@[simp] theorem State.forgetScans_argHi (s : State) : s.forgetScans.argHi = s.argHi := rfl
@[simp] theorem State.forgetScans_argLen (s : State) : s.forgetScans.argLen = s.argLen := rfl
@[simp] theorem State.forgetScans_resLo (s : State) : s.forgetScans.resLo = s.resLo := rfl
@[simp] theorem State.forgetScans_resHi (s : State) : s.forgetScans.resHi = s.resHi := rfl
@[simp] theorem State.forgetScans_pk (s : State) : s.forgetScans.pk = s.pk := rfl
@[simp] theorem State.forgetScans_rd (s : State) : s.forgetScans.rd = s.rd := rfl
@[simp] theorem State.forgetScans_tab (s : State) : s.forgetScans.tab = s.tab := rfl
@[simp] theorem State.forgetScans_hist (s : State) : s.forgetScans.hist = s.hist := rfl
@[simp] theorem State.forgetScans_tree (s : State) : s.forgetScans.tree = s.tree := rfl
@[simp] theorem State.forgetScans_code (s : State) : s.forgetScans.code = s.code := rfl
@[simp] theorem State.forgetScans_ncount (s : State) : s.forgetScans.ncount = s.ncount := rfl
@[simp] theorem State.forgetScans_root (s : State) : s.forgetScans.root = s.root := rfl
@[simp] theorem State.forgetScans_prev (s : State) : s.forgetScans.prev = s.prev := rfl
@[simp] theorem State.forgetScans_acc (s : State) : s.forgetScans.acc = s.acc := rfl
@[simp] theorem State.forgetScans_mem (s : State) : s.forgetScans.mem = s.mem := rfl
@[simp] theorem State.forgetScans_deny (s : State) : s.forgetScans.deny = s.deny := rfl
@[simp] theorem State.forgetScans_scans (s : State) : s.forgetScans.scans = [] := rfl
@[simp] theorem State.forgetScans_draws (s : State) : s.forgetScans.draws = s.draws := rfl
@[simp] theorem State.forgetScans_script (s : State) : s.forgetScans.script = s.script := rfl
@[simp] theorem State.forgetScans_hostData (s : State) : s.forgetScans.hostData = s.hostData := rfl

/-! ### `State.emptyPacker` -/

@[simp] theorem State.emptyPacker_phase (s : State) : s.emptyPacker.phase = s.phase := rfl
@[simp] theorem State.emptyPacker_done (s : State) : s.emptyPacker.done = s.done := rfl
@[simp] theorem State.emptyPacker_err (s : State) : s.emptyPacker.err = s.err := rfl
@[simp] theorem State.emptyPacker_ovr (s : State) : s.emptyPacker.ovr = s.ovr := rfl
@[simp] theorem State.emptyPacker_errCode (s : State) : s.emptyPacker.errCode = s.errCode := rfl
@[simp] theorem State.emptyPacker_irqEn (s : State) : s.emptyPacker.irqEn = s.irqEn := rfl
@[simp] theorem State.emptyPacker_cmd (s : State) : s.emptyPacker.cmd = s.cmd := rfl
@[simp] theorem State.emptyPacker_cfg (s : State) : s.emptyPacker.cfg = s.cfg := rfl
@[simp] theorem State.emptyPacker_width (s : State) : s.emptyPacker.width = s.width := rfl
@[simp] theorem State.emptyPacker_height (s : State) : s.emptyPacker.height = s.height := rfl
@[simp] theorem State.emptyPacker_inAddr (s : State) : s.emptyPacker.inAddr = s.inAddr := rfl
@[simp] theorem State.emptyPacker_inLen (s : State) : s.emptyPacker.inLen = s.inLen := rfl
@[simp] theorem State.emptyPacker_outAddr (s : State) : s.emptyPacker.outAddr = s.outAddr := rfl
@[simp] theorem State.emptyPacker_outCap (s : State) : s.emptyPacker.outCap = s.outCap := rfl
@[simp] theorem State.emptyPacker_outSize (s : State) : s.emptyPacker.outSize = s.outSize := rfl
@[simp] theorem State.emptyPacker_errInfo (s : State) : s.emptyPacker.errInfo = s.errInfo := rfl
@[simp] theorem State.emptyPacker_argLo (s : State) : s.emptyPacker.argLo = s.argLo := rfl
@[simp] theorem State.emptyPacker_argHi (s : State) : s.emptyPacker.argHi = s.argHi := rfl
@[simp] theorem State.emptyPacker_argLen (s : State) : s.emptyPacker.argLen = s.argLen := rfl
@[simp] theorem State.emptyPacker_resLo (s : State) : s.emptyPacker.resLo = s.resLo := rfl
@[simp] theorem State.emptyPacker_resHi (s : State) : s.emptyPacker.resHi = s.resHi := rfl
@[simp] theorem State.emptyPacker_pk (s : State) : s.emptyPacker.pk = ⟨s.pk.ptr, 0, 0⟩ := rfl
@[simp] theorem State.emptyPacker_rd (s : State) : s.emptyPacker.rd = s.rd := rfl
@[simp] theorem State.emptyPacker_tab (s : State) : s.emptyPacker.tab = s.tab := rfl
@[simp] theorem State.emptyPacker_hist (s : State) : s.emptyPacker.hist = s.hist := rfl
@[simp] theorem State.emptyPacker_tree (s : State) : s.emptyPacker.tree = s.tree := rfl
@[simp] theorem State.emptyPacker_code (s : State) : s.emptyPacker.code = s.code := rfl
@[simp] theorem State.emptyPacker_ncount (s : State) : s.emptyPacker.ncount = s.ncount := rfl
@[simp] theorem State.emptyPacker_root (s : State) : s.emptyPacker.root = s.root := rfl
@[simp] theorem State.emptyPacker_prev (s : State) : s.emptyPacker.prev = s.prev := rfl
@[simp] theorem State.emptyPacker_acc (s : State) : s.emptyPacker.acc = s.acc := rfl
@[simp] theorem State.emptyPacker_mem (s : State) : s.emptyPacker.mem = s.mem := rfl
@[simp] theorem State.emptyPacker_deny (s : State) : s.emptyPacker.deny = s.deny := rfl
@[simp] theorem State.emptyPacker_scans (s : State) : s.emptyPacker.scans = s.scans := rfl
@[simp] theorem State.emptyPacker_draws (s : State) : s.emptyPacker.draws = s.draws := rfl
@[simp] theorem State.emptyPacker_script (s : State) : s.emptyPacker.script = s.script := rfl
@[simp] theorem State.emptyPacker_hostData (s : State) : s.emptyPacker.hostData = s.hostData := rfl

/-! ### `State.storeNodes` -/

theorem State.storeNodes_eq (c : Ch) (i : Nat) (l : List Node) (s : State) :
    State.storeNodes c i l s = { s with tree := (State.storeNodes c i l s).tree } := by
  induction l generalizing i s with
  | nil => rfl
  | cons n t ih =>
    simp only [State.storeNodes]
    rw [ih]
    rfl

end Sys2Proof.Machine
end

