-- ==== Sys2Proof/Laws/Ops.lean ====
section
/-! SUPPORT. One lemma per shared operation that says everything it can do: the checks, the memory port, the packer and the
reader. -/

namespace Sys2Proof.Machine

/-! ### Checks -/

theorem checkCfg_run (s : State) : checkCfg s = if s.cfgOk then .ok () s else .error (.raise .badCfg 0) s :=
  require_run _ _ _ s

theorem checkCfgDecode_run (s : State) :
    checkCfgDecode s = if s.cfgOk && s.modeOk then .ok () s else .error (.raise .badCfg 0) s := by
  show (checkCfg >>= fun _ => _) s = _
  rw [Cmd.bind_run, checkCfg_run]
  cases s.cfgOk
  · rfl
  · exact require_run _ _ _ s

theorem checkIn_run (s : State) : checkIn s = if s.inFits then .ok () s else .error (.raise .badCfg 0) s :=
  require_run _ _ _ s

theorem checkOut_run (s : State) : checkOut s = if s.outFits then .ok () s else .error (.raise .badCfg 0) s :=
  require_run _ _ _ s

theorem checkRaw_run (s : State) :
    checkRaw s = if s.rawSize ≤ s.inLen.toNat then .ok () s
      else .error (.raise .sizeMismatch (BitVec.ofNat 32 s.rawSize)) s := by
  show require _ _ _ s = _
  rw [require_run]
  simp

theorem checkOutSize_run (s : State) :
    checkOutSize s = if s.outBytes ≤ s.outCap.toNat then .ok () s
      else .error (.raise .outOverflow (BitVec.ofNat 32 s.outBytes)) s := by
  show require _ _ _ s = _
  rw [require_run]
  simp

theorem duties_run (i : Instr) (s : State) :
    duties i s = match s.brokenDuty i with
      | none => .ok () s
      | some r => .error (.refuse r) s := by
  show (match s.brokenDuty i with | none => _ | some r => _ : Cmd Unit) s = _
  cases s.brokenDuty i <;> rfl

/-- A broken host duty: the regions of a scan or frame command overlap, or, for PACK_SCAN alone and only where they do not,
its input has changed. -/
theorem State.brokenDuty_eq_some {s : State} {i : Instr} {r : Refusal} :
    s.brokenDuty i = some r ↔
      r = .dutyRegionsOverlap ∧ s.regionsOverlap = true ∧
          i ∈ [Instr.histScan, .packScan, .encFrame, .decScan, .decFrame, .passthru] ∨
        r = .dutyInputChanged ∧ s.regionsOverlap = false ∧ s.inputChanged = true ∧ i = .packScan := by
  cases i <;> cases ho : s.regionsOverlap <;> cases hc : s.inputChanged <;>
    simp [State.brokenDuty, ho, hc, eq_comm]

/-- A scan finds no change exactly when every byte of both regions is as it found it, known or unspecified. -/
theorem ScanMark.changed_eq_false {m : ScanMark} {now : Memory} (hm : m.found.wf) (hn : now.wf) (lo hi : Nat) :
    m.changed now lo hi = false ↔ ∀ a, m.lo ≤ a → a < m.hi → lo ≤ a → a < hi →
      Memory.drawAt m.found.loose a = Memory.drawAt now.loose a ∧
        Sparse.get Memory.unlisted m.found.cells a = Sparse.get Memory.unlisted now.cells a := by
  unfold ScanMark.changed ScanMark.meets
  rw [Bool.and_eq_false_iff, decide_eq_false_iff_not, bne_eq_false_iff_eq, Memory.window_eq_iff hm hn]
  constructor
  · rintro (h | h) a h1 h2 h3 h4
    · omega
    · exact h a (by omega) (by omega)
  · intro h
    exact .inr fun a h1 h2 => h a (by omega) (by omega) (by omega) (by omega)

/-- Right after a HIST_SCAN nothing has changed. -/
theorem State.inputChanged_openScan {s : State} (hs : s.mem.wf) : s.openScan.inputChanged = false := by
  have hother : s.otherScans.any (fun m => m.changed s.mem s.inAddr.toNat s.inEnd) = false := by
    rw [List.any_eq_false]
    intro m hm
    have := (List.mem_filter.1 hm).2
    unfold ScanMark.changed
    simp_all
  show s.openScan.scans.any (fun m => m.changed s.mem s.inAddr.toNat s.inEnd) = false
  rw [State.openScan_scans]
  split
  · exact hother
  · rw [List.any_cons, hother, Bool.or_false]
    unfold ScanMark.changed
    simp only
    rw [Memory.window_window hs (by omega) (by omega)]
    simp

theorem validateTree_run (c : Ch) (s : State) :
    validateTree c s = match s.treeFault c with
      | none => .ok () s
      | some e => .error (.raise e (chanInfo c)) s := by
  show (match s.treeFault c with | none => _ | some e => _ : Cmd Unit) s = _
  cases s.treeFault c <;> rfl

/-! ### The memory port -/

theorem memRead_run (a : Nat) (s : State) :
    memRead a s = if s.memOk .read a then .ok (s.mem.read a) s else .error (.raise .busError (BitVec.ofNat 32 a)) s := by
  show (if s.memOk .read a then _ else _ : Cmd Byte) s = _
  cases s.memOk .read a <;> rfl

theorem memWrite_run (a : Nat) (v : Byte) (s : State) :
    memWrite a v s = if s.memOk .write a then .ok () { s with mem := s.mem.write a v }
      else .error (.raise .busError (BitVec.ofNat 32 a)) s := by
  show (if s.memOk .write a then _ else _ : Cmd Unit) s = _
  cases s.memOk .write a <;> rfl

/-! ### The packer -/

/-- The state after EmitByte(v) completes (R113). -/
def State.emitted (s : State) (v : Byte) : State :=
  { s with mem := s.mem.write (s.outAddr.toNat + s.pk.ptr.toNat) v, pk := { s.pk with ptr := s.pk.ptr + 1 } }

/-- EmitByte(v): nothing changes when it raises (R113). -/
theorem emitByte_run (v : Byte) (s : State) :
    emitByte v s =
      if s.pk.ptr.toNat < s.outCap.toNat then
        if s.memOk .write (s.outAddr.toNat + s.pk.ptr.toNat) then .ok () (s.emitted v)
        else .error (.raise .busError (BitVec.ofNat 32 (s.outAddr.toNat + s.pk.ptr.toNat))) s
      else .error (.raise .outOverflow s.pk.ptr) s := by
  show (require _ _ _ >>= fun _ => memWrite _ _ >>= fun _ => _) s = _
  rw [Cmd.bind_run, require_run]
  by_cases h : s.pk.ptr.toNat < s.outCap.toNat
  · simp only [h, decide_true, if_true]
    rw [Cmd.bind_run, memWrite_run]
    cases s.memOk .write (s.outAddr.toNat + s.pk.ptr.toNat) <;> rfl
  · simp [h]

/-- WriteBit(b) with room in the partial byte (R114). -/
theorem writeBit_room {s : State} (h : s.pk.fill ≠ 7) (b : Bool) :
    writeBit b s = .ok () { s with pk := { s.pk with acc := shiftIn s.pk.acc b, fill := s.pk.fill + 1 } } := by
  show (if s.pk.fill = 7 then _ else _ : Cmd Unit) s = _
  rw [if_neg h]
  rfl

/-- WriteBit(b) that completes a byte: it raises as EmitByte does, before any change (R114). -/
theorem writeBit_full {s : State} (h : s.pk.fill = 7) (b : Bool) :
    writeBit b s = match emitByte (shiftIn s.pk.acc b) s with
      | .ok _ t => .ok () t.emptyPacker
      | .error e t => .error e t := by
  show (if s.pk.fill = 7 then _ else _ : Cmd Unit) s = _
  rw [if_pos h, Cmd.bind_run]
  cases emitByte (shiftIn s.pk.acc b) s <;> rfl

theorem flushPartial_run (s : State) :
    flushPartial s =
      if s.pk.fill.toNat = 0 then .ok () s
      else match emitByte (s.pk.acc <<< (8 - s.pk.fill.toNat)) s with
        | .ok _ t => .ok () t.emptyPacker
        | .error e t => .error e t := by
  show (if s.pk.fill.toNat = 0 then _ else _ : Cmd Unit) s = _
  split
  · rfl
  · rw [Cmd.bind_run]
    cases emitByte (s.pk.acc <<< (8 - s.pk.fill.toNat)) s <;> rfl

/-- EmitCode(c, s) (R115). -/
theorem emitCode_run (c : Ch) (sym : Nat) (s : State) :
    emitCode c sym s =
      if (s.codeAt c sym).valid then writeBits (s.codeAt c sym).bits.toNat (s.codeAt c sym).len.toNat s
      else .error (.raise .noCode (noCodeInfo c sym)) s := by
  show (require _ _ _ >>= fun _ => _) s = _
  rw [Cmd.bind_run, require_run]
  cases (s.codeAt c sym).valid <;> rfl

/-! ### The reader -/

/-- The refill of ReadBit: nothing changes when it raises (R116). -/
theorem refill_run (s : State) :
    refill s =
      if s.rd.bit = 0 then
        if s.rd.ptr.toNat < s.inLen.toNat then
          if s.memOk .read (s.inAddr.toNat + s.rd.ptr.toNat) then
            .ok () { s with rd := { s.rd with buf := s.mem.read (s.inAddr.toNat + s.rd.ptr.toNat) } }
          else .error (.raise .busError (BitVec.ofNat 32 (s.inAddr.toNat + s.rd.ptr.toNat))) s
        else .error (.raise .bitUnderrun s.rd.ptr) s
      else .ok () s := by
  show (if s.rd.bit = 0 then _ else _ : Cmd Unit) s = _
  split
  · show (require _ _ _ >>= fun _ => memRead _ >>= fun _ => _) s = _
    rw [Cmd.bind_run, require_run]
    by_cases h : s.rd.ptr.toNat < s.inLen.toNat
    · simp only [h, decide_true, if_true]
      rw [Cmd.bind_run, memRead_run]
      cases s.memOk .read (s.inAddr.toNat + s.rd.ptr.toNat) <;> rfl
    · simp [h]
  · rfl

/-- ReadBit() (R116). -/
theorem readBit_run (s : State) :
    readBit s = match refill s with
      | .ok _ t => .ok (t.rd.buf.getLsbD (7 - t.rd.bit.toNat)) { t with rd := t.rd.next }
      | .error e t => .error e t := by
  show (refill >>= fun _ => _) s = _
  rw [Cmd.bind_run]
  cases refill s <;> rfl

/-- ReadByte() (R117). -/
theorem readByte_run (s : State) :
    readByte s =
      if s.rd.ptr.toNat < s.inLen.toNat then
        if s.memOk .read (s.inAddr.toNat + s.rd.ptr.toNat) then
          .ok (s.mem.read (s.inAddr.toNat + s.rd.ptr.toNat)) { s with rd := { s.rd with ptr := s.rd.ptr + 1 } }
        else .error (.raise .busError (BitVec.ofNat 32 (s.inAddr.toNat + s.rd.ptr.toNat))) s
      else .error (.raise .hdrTrunc s.rd.ptr) s := by
  show (require _ _ _ >>= fun _ => memRead _ >>= fun _ => _) s = _
  rw [Cmd.bind_run, require_run]
  by_cases h : s.rd.ptr.toNat < s.inLen.toNat
  · simp only [h, decide_true, if_true]
    rw [Cmd.bind_run, memRead_run]
    cases s.memOk .read (s.inAddr.toNat + s.rd.ptr.toNat) <;> rfl
  · simp [h]

/-! ### An accepted CMD write, and the abort of a command -/

theorem State.acceptCmd_of_ok {s : State} {w : Word} {i : Instr} (h : decode w = .ok i) : s.acceptCmd w = s.start w := by
  unfold State.acceptCmd
  rw [h]

theorem State.acceptCmd_of_illegal {s : State} {w : Word} {why : Illegal} (h : decode w = .illegal why) :
    s.acceptCmd w = (s.start w).stop .badCmd 0 := by
  unfold State.acceptCmd
  rw [h]

theorem State.outTop_le (s : State) : s.outTop ≤ Config.memSize := Nat.min_le_right _ _

/-- Everything the abort of a command that emits leaves in memory: a number of first bytes of those it would write, the
bytes EmitByte wrote, the bytes outside the output region, and free values (R67, I6; log 5). -/
theorem State.abortedEmit_spec {s t : State} {i : Instr} (h : exec i s = .next t) (hm : s.mem.wf)
    (hd : ∀ p ∈ s.mem.loose, p.draw < s.draws)
    (hfit : s.outAddr.toNat + s.pk.ptr.toNat + (t.pk.ptr.toNat - s.pk.ptr.toNat) ≤ Config.memSize) :
    ∃ n m, n ≤ t.pk.ptr.toNat - s.pk.ptr.toNat ∧ s.abortedEmit i = { s with mem := m, draws := s.draws + 2 } ∧ m.wf ∧
      (∀ p ∈ m.loose, p.draw < s.draws + 2) ∧ ∀ b, m.read b =
        if s.outAddr.toNat + s.pk.ptr.toNat ≤ b ∧ b < s.outAddr.toNat + s.pk.ptr.toNat + n then t.mem.read b
        else if (s.outAddr.toNat ≤ b ∧ b < s.outTop) ∧ s.mem.isEmitted b = false then Config.freeByte (s.draws + 1) b
        else s.mem.read b := by
  have hn : Config.freeCount s.draws % (t.pk.ptr.toNat - s.pk.ptr.toNat + 1) ≤ t.pk.ptr.toNat - s.pk.ptr.toNat :=
    Nat.le_of_lt_succ (Nat.mod_lt _ (Nat.succ_pos _))
  generalize hk : Config.freeCount s.draws % (t.pk.ptr.toNat - s.pk.ptr.toNat + 1) = n at hn
  have hspace : s.outAddr.toNat + s.pk.ptr.toNat + n ≤ Config.memSize := by omega
  have hw := Memory.emitFrom_wf t.mem hm hspace
  have hdraw := Memory.draw_emitFrom t.mem (P := (· < s.draws)) hd (s.outAddr.toNat + s.pk.ptr.toNat) n
  obtain ⟨hw', hb⟩ := Memory.loosenUnwritten_spec hw (lo := s.outAddr.toNat) (n := s.draws + 1) s.outTop_le
    fun p hp => by have := hdraw p hp; omega
  refine ⟨n, _, hn, ?_, hw', Memory.draw_loosenUnwritten (P := (· < s.draws + 2))
    (fun p hp => by have := hdraw p hp; omega) (by omega) _ _, fun b => ?_⟩
  · unfold State.abortedEmit
    simp only [h, hk]
    rfl
  · rw [(hb b).1, Memory.isEmitted_emitFrom t.mem hm hspace, Memory.read_emitFrom t.mem hm hspace]
    by_cases hr : s.outAddr.toNat + s.pk.ptr.toNat ≤ b ∧ b < s.outAddr.toNat + s.pk.ptr.toNat + n
    · simp [hr]
    · simp only [if_neg hr]

/-- Everything the reset of a running command can answer. -/
theorem State.resetTo_cases (s t : State) :
    (s.dutyOwed = none ∧ s.resetTo t = .next t) ∨
    (∃ i r, s.phase = .running ∧ decode s.cmd = .ok i ∧ s.brokenDuty i = some r ∧ s.resetTo t = .refused r) := by
  unfold State.resetTo
  cases h : s.dutyOwed with
  | none => exact .inl ⟨rfl, rfl⟩
  | some r =>
    unfold State.dutyOwed State.runningInstr at h
    cases hp : s.phase with
    | idle => simp [hp] at h
    | resetting => simp [hp] at h
    | running =>
      cases hd : decode s.cmd with
      | illegal why => simp [hp, hd, Decoded.toOption] at h
      | ok i => exact .inr ⟨i, r, rfl, rfl, by simpa [hp, hd, Decoded.toOption] using h, rfl⟩

/-! ### The core's turn -/

theorem runCommand_of_ok {s : State} {i : Instr} (h : decode s.cmd = .ok i) : s.runCommand = exec i s := by
  unfold State.runCommand State.fetch
  rw [h]

theorem runCommand_of_illegal {s : State} {why : Illegal} (h : decode s.cmd = .illegal why) :
    s.runCommand = .next (s.stop .badCmd 0) := by
  unfold State.runCommand State.fetch
  rw [h]

/-- Everything the host's action can answer. -/
theorem hostAct_cases (s : State) (act : HostAction) :
    (∃ size off v, act = .write size off v ∧ accessWellFormed size off = true ∧ s.hostAct act = s.written off v) ∨
    (∃ size off, act = .read size off ∧ accessWellFormed size off = true ∧ s.hostAct act = .next (s.hostRead off)) ∨
    (∃ size off, act.wellFormed = false ∧ s.hostAct act = .refused (.registerAccess size off)) ∨
    (∃ a v, act = .memWrite a v ∧ s.hostAct act = s.hostMemWrite a v) ∨
    (∃ a, act = .memRead a ∧ s.hostAct act = s.hostMemRead a) ∨
    (act = .rst ∧ s.hostAct act = s.resetTo s.beginReset) ∨
    (act = .wait ∧ s.hostAct act = .next (s.deliver s.statusWord)) ∨
    (act = .elapse ∧ s.hostAct act = .next s) := by
  cases act with
  | write size off v =>
    cases h : accessWellFormed size off
    · exact .inr (.inr (.inl ⟨size, off, h, by simp [State.hostAct, h]⟩))
    · exact .inl ⟨size, off, v, rfl, h, by simp [State.hostAct, h]⟩
  | read size off =>
    cases h : accessWellFormed size off
    · exact .inr (.inr (.inl ⟨size, off, h, by simp [State.hostAct, h]⟩))
    · exact .inr (.inl ⟨size, off, rfl, h, by simp [State.hostAct, h]⟩)
  | memWrite a v => exact .inr (.inr (.inr (.inl ⟨a, v, rfl, rfl⟩)))
  | memRead a => exact .inr (.inr (.inr (.inr (.inl ⟨a, rfl, rfl⟩))))
  | rst => simp [State.hostAct]
  | wait => simp [State.hostAct]
  | elapse => simp [State.hostAct]

/-- Everything the core's turn can answer. -/
theorem coreTurn_cases (s : State) :
    (s.phase = .running ∧ ∃ i, decode s.cmd = .ok i ∧ s.coreTurn = exec i s) ∨
    (s.phase = .running ∧ ∃ why, decode s.cmd = .illegal why ∧ s.coreTurn = .next (s.stop .badCmd 0)) ∨
    (s.phase = .resetting ∧ s.coreTurn = .next { s with phase := .idle }) ∨
    (s.phase = .idle ∧ s.coreTurn = .next s) := by
  unfold State.coreTurn
  cases hp : s.phase with
  | idle => simp
  | resetting => simp
  | running =>
    cases hd : decode s.cmd with
    | ok i => exact .inl ⟨rfl, i, rfl, runCommand_of_ok hd⟩
    | illegal why => exact .inr (.inl ⟨rfl, why, rfl, runCommand_of_illegal hd⟩)

/-- A step is the core's turn or one host action, on the state with the script moved on. -/
theorem step_cases (s : State) :
    (∃ rest, step s = (s.proceed rest).coreTurn) ∨
    (∃ rest act, s.script = act :: rest ∧ step s = (s.proceed rest).hostAct act) := by
  show (∃ rest, s.turn = _) ∨ (∃ rest act, _ ∧ s.turn = _)
  unfold State.turn
  split
  · rename_i h
    exact .inl ⟨[], by rw [← h]; rfl⟩
  · exact .inl ⟨_, rfl⟩
  · rename_i rest h
    split
    · exact .inl ⟨.wait :: rest, by rw [← h]; rfl⟩
    · exact .inr ⟨rest, _, h, rfl⟩
  all_goals rename_i h; exact .inr ⟨_, _, h, rfl⟩

end Sys2Proof.Machine
end

