-- ==== Sys2Proof/Laws/PerInstr.lean ====
section
/-! SUPPORT. Statements made per instruction: the shape of an encoded command word (30_encoding.md R72). -/

namespace Sys2Proof.Laws.EncodeShape

/-- The word of a command has w[31:10] zero and its OP in w[7:0] (R72). -/
def Statement (i : Instr) : Prop := encode i &&& 0xFFFFFCFF = opcode i

theorem nop : Statement .nop := by unfold Statement; decide
theorem histClear : Statement .histClear := by unfold Statement; decide
theorem histScan : Statement .histScan := by unfold Statement; decide
theorem histAdd (c : Ch) : Statement (.histAdd c) := by unfold Statement; revert c; decide
theorem treeBuild (c : Ch) : Statement (.treeBuild c) := by unfold Statement; revert c; decide
theorem codeGen (c : Ch) : Statement (.codeGen c) := by unfold Statement; revert c; decide
theorem hdrWrite : Statement .hdrWrite := by unfold Statement; decide
theorem hdrRead : Statement .hdrRead := by unfold Statement; decide
theorem pkInit : Statement .pkInit := by unfold Statement; decide
theorem pkBits : Statement .pkBits := by unfold Statement; decide
theorem pkFlush : Statement .pkFlush := by unfold Statement; decide
theorem encSym (c : Ch) : Statement (.encSym c) := by unfold Statement; revert c; decide
theorem packScan : Statement .packScan := by unfold Statement; decide
theorem rdInit : Statement .rdInit := by unfold Statement; decide
theorem rdBits : Statement .rdBits := by unfold Statement; decide
theorem decSym (c : Ch) : Statement (.decSym c) := by unfold Statement; revert c; decide
theorem decScan : Statement .decScan := by unfold Statement; decide
theorem predReset : Statement .predReset := by unfold Statement; decide
theorem predFwd (c : Ch) : Statement (.predFwd c) := by unfold Statement; revert c; decide
theorem predInv (c : Ch) : Statement (.predInv c) := by unfold Statement; revert c; decide
theorem csc : Statement .csc := by unfold Statement; decide
theorem scale : Statement .scale := by unfold Statement; decide
theorem encFrame : Statement .encFrame := by unfold Statement; decide
theorem decFrame : Statement .decFrame := by unfold Statement; decide
theorem passthru : Statement .passthru := by unfold Statement; decide

end Sys2Proof.Laws.EncodeShape
end

