-- ==== Sys2Proof/Tests/Slice0.lean ====
section
/-! SUPPORT. The model's own tests: ill-formed words and accesses, decoding, one step of each command on the worked examples
of spec/ (the rule is named at each test), and a witness for the hypotheses of each statement. -/

namespace Sys2Proof.Tests

set_option Elab.async false

open Sys2Proof.Machine

/-! ### Small states -/

/-- Consecutive bytes as cells of memory; no byte may be 0. -/
def cellsFrom (a : Nat) : List Byte → List Host.Cell
  | [] => []
  | b :: t => (if b = 0 then [] else [(a, b)]) ++ cellsFrom (a + 1) t

/-- bw = 8, NCH = 1, a 4 x 2 frame, input at 0x1000, output at 0x8000 of 4096 bytes, and the bytes `l` in the input region. -/
def withInput (l : List Byte) : State :=
  { State.reset with
    width := 4
    height := 2
    inAddr := 0x1000
    inLen := BitVec.ofNat 32 l.length
    outAddr := 0x8000
    outCap := 0x1000
    mem := ⟨cellsFrom 0x1000 l, [], []⟩ }

/-- The raw frame of the example of R94. -/
def raw : State := withInput [0x0A, 0x0A, 0x0C, 0x0B, 0x0A, 0x0A, 0x0A, 0x0A]

/-- The header of the example of R110. -/
def headerExample : List Byte :=
  [0x03, 0x00, 0x00, 0x00, 0x02, 0x00, 0x00, 0x00, 0x02, 0x00] ++
  [0xFF, 0x00, 0x0A, 0x00, 0x00, 0x80, 0x00, 0x00, 0x01, 0x80]

/-- The stream of the example of R145. -/
def streamExample : List Byte := headerExample ++ [0x9B, 0xC0]

/-- `s` with the tree of the example of R98 in channel 0. -/
def withTree (s : State) : State :=
  { s with
    tree := [(0, ⟨2, 255⟩), (1, ⟨10, 0x8000⟩), (2, ⟨0, 0x8001⟩)]
    ncount := ⟨3, 0, 0, 0⟩
    root := ⟨2, 0, 0, 0⟩ }

/-- `s` with the codes of the example of R106 in channel 0. -/
def withCodes (s : State) : State :=
  { s with code := [(0, ⟨true, 1, 0⟩), (2, ⟨true, 3, 6⟩), (10, ⟨true, 2, 2⟩), (255, ⟨true, 3, 7⟩)] }

/-- The state an outcome answers. -/
def after (o : Spec.Out) : Option State :=
  match o with
  | .next t => some t
  | .fault _ | .refused _ => none

/-- The output bytes of the state an outcome answers. -/
def outputOf (n : Nat) (o : Spec.Out) : Option (List Byte) :=
  (after o).map fun t => (List.range n).map fun k => t.mem.read (t.outAddr.toNat + k)

/-! ### Well-formedness, with an ill-formed term for each check -/

theorem test_word_reserved_op : wordWellFormed 0x00000001 = false := by decide
theorem test_word_reserved_bits : wordWellFormed 0x00000400 = false := by decide
theorem test_word_channel_in_format_n : wordWellFormed 0x00000110 = false := by decide
theorem test_word_channel_in_format_c : wordWellFormed 0x00000312 = true := by decide
theorem test_access_narrow : accessWellFormed .half 0x010 = false ∧ accessWellFormed .byte 0x010 = false := by decide
theorem test_access_misaligned : accessWellFormed .word 0x012 = false := by decide
theorem test_access_word : accessWellFormed .word 0xFFC = true := by decide
theorem test_action_misaligned :
    (HostAction.write .word 0x00D 0).wellFormed = false ∧ (HostAction.read .byte 0x00C).wellFormed = false := by decide

/-! ### Decoding: the ends of R74's reserved ranges, and encoded words (R72, R73) -/

theorem test_reserved_op_bounds :
    ([0x01, 0x0F, 0x15, 0x17, 0x1A, 0x1F, 0x25, 0x27, 0x2C, 0x2F, 0x33, 0x37, 0x3A, 0x3F, 0x43, 0xFF] : List Word).all
      (fun w => (decode w).toOption == none) = true := by decide

theorem test_encode_format_c : encode (.histAdd 3) = 0x00000312 ∧ encode (.decSym 1) = 0x0000012A := by decide
theorem test_encode_format_n : encode .passthru = 0x00000042 := by decide
theorem test_table_word : decodeTableWord 32 0x0213 = some (.treeBuild 2) := by decide
theorem test_table_word_out_of_range : decodeTableWord 32 (2 ^ 32) = none := by decide

/-! ### One step of each command -/

/-- R144's example: STATUS 0x506 becomes 0x002. -/
theorem test_nop :
    (after (step ({ State.reset with done := true, err := true, errCode := 5 }.withFetchWord 32 0x00))).map
      (·.statusWord) = some 0x00000002 := by decide

/-- R93's example. -/
theorem test_histClear :
    (after (exec .histClear { State.reset with hist := [(2 * 4096 + 7, 5)] })).map (fun t => t.histAt 2 7) = some 0 := by
  decide

/-- R94's example. -/
theorem test_histScan :
    (after (exec .histScan raw)).map (fun t => (t.histAt 0 0, t.histAt 0 10, t.histAt 0 2, t.histAt 0 255)) =
      some (4, 2, 1, 1) := by decide +kernel

/-- R95's example, and the first symbol outside the alphabet. -/
theorem test_histAdd :
    (after (exec (.histAdd 3) { State.reset with cfg := ⟨1, 1, false, 0⟩, argLo := 1023 })).map
      (fun t => t.histAt 3 1023) = some 1 := by decide

theorem test_histAdd_outside :
    (after (exec (.histAdd 3) { State.reset with cfg := ⟨1, 1, false, 0⟩, argLo := 1024 })).map (·.errCode) =
      some 0x03 := by decide

/-- R98's example. -/
theorem test_treeBuild :
    (after (exec (.treeBuild 0) { State.reset with hist := [(0, 4), (2, 1), (10, 2), (255, 1)] })).map
      (fun t => (t.tree, t.ncount.c0, t.root.c0)) =
      some ([(0, ⟨2, 255⟩), (1, ⟨10, 0x8000⟩), (2, ⟨0, 0x8001⟩)], 3, 2) := by decide +kernel

/-- R100: one symbol, no node. -/
theorem test_treeBuild_degenerate :
    (after (exec (.treeBuild 0) { State.reset with hist := [(9, 5)] })).map (fun t => (t.tree, t.ncount.c0, t.root.c0)) =
      some ([], 0, 9) := by decide +kernel

/-- R106's example. -/
theorem test_codeGen :
    (after (exec (.codeGen 0) (withTree State.reset))).map (·.code) =
      some [(0, ⟨true, 1, 0⟩), (2, ⟨true, 3, 6⟩), (10, ⟨true, 2, 2⟩), (255, ⟨true, 3, 7⟩)] := by decide +kernel

/-- R106: a cycle is BAD_REF. -/
theorem test_codeGen_cycle :
    (after (exec (.codeGen 0)
      { State.reset with tree := [(0, ⟨1, 0x8000⟩)], ncount := ⟨1, 0, 0, 0⟩ })).map (·.errCode) = some 0x08 := by decide

/-- R110's example. -/
theorem test_hdrWrite : outputOf 20 (exec .hdrWrite (withTree raw)) = some headerExample := by decide +kernel

/-- R110: a partial byte in the packer is BAD_STATE. -/
theorem test_hdrWrite_partial :
    (after (exec .hdrWrite { raw with pk := ⟨0, 1, 1⟩ })).map (·.errCode) = some 0x0C := by decide

/-- R111's example. -/
theorem test_hdrRead :
    (after (exec .hdrRead (withInput streamExample))).map (fun t => (t.tree, t.ncount.c0, t.root.c0, t.rd.ptr)) =
      some ([(0, ⟨2, 255⟩), (1, ⟨10, 0x8000⟩), (2, ⟨0, 0x8001⟩)], 3, 2, 20) := by decide +kernel

/-- R111: HDR_TRUNC inside the node list leaves NCOUNT and the nodes read before. -/
theorem test_hdrRead_truncated :
    (after (exec .hdrRead (withInput (streamExample.take 13)))).map
      (fun t => (t.errCode, t.errInfo, t.tree, t.ncount.c0)) =
      some (0x06, 13, [(0, ⟨2, 255⟩)], 0) := by decide +kernel

/-- R118's example. -/
theorem test_pkInit :
    (after (exec .pkInit { State.reset with pk := ⟨5, 1, 3⟩ })).map (·.pk) = some ⟨0, 0, 0⟩ := by decide

/-- R119's example, from the second command on. -/
theorem test_pkBits :
    (after (exec .pkBits { raw with pk := ⟨0, 5, 3⟩, argLo := 31, argLen := 5 })).map
      (fun t => (t.mem.read 0x8000, t.pk)) = some (0xBF, ⟨1, 0, 0⟩) := by decide +kernel

/-- R119: with OUT_CAP = 0 seven bits can be appended, the eighth is OUT_OVERFLOW. -/
theorem test_pkBits_full :
    (after (exec .pkBits { raw with outCap := 0, argLo := 0xFF, argLen := 8 })).map
      (fun t => (t.errCode, t.errInfo, t.pk)) = some (0x05, 0, ⟨0, 0x7F, 7⟩) := by decide +kernel

/-- R120's example. -/
theorem test_pkFlush :
    (after (exec .pkFlush { raw with pk := ⟨0, 6, 3⟩ })).map (fun t => (t.mem.read 0x8000, t.pk.ptr, t.outSize)) =
      some (0xC0, 1, 1) := by decide

/-- R121's example. -/
theorem test_encSym :
    (after (exec (.encSym 0) (withCodes { raw with argLo := 2 }))).map (·.pk) = some ⟨0, 6, 3⟩ := by decide

/-- R152: ERR_INFO of NO_CODE. -/
theorem test_encSym_noCode :
    (after (exec (.encSym 1) (withCodes { raw with argLo := 2 }))).map (fun t => (t.errCode, t.errInfo)) =
      some (0x0B, 0x00020001) := by decide

/-- R122's example. -/
theorem test_packScan :
    (after (exec .packScan (withCodes { raw with pk := ⟨20, 0, 0⟩ }))).map (fun t => (t.mem.read 0x8014, t.pk)) =
      some (0x9B, ⟨21, 0x30, 6⟩) := by decide +kernel

/-- R123's example. -/
theorem test_rdInit :
    (after (exec .rdInit { State.reset with rd := ⟨9, 4, 1⟩ })).map (·.rd) = some ⟨0, 0, 0⟩ := by decide

/-- R124's example, its third command. -/
theorem test_rdBits :
    (after (exec .rdBits { withInput [0x9B, 0xC0] with rd := ⟨0, 3, 0x9B⟩, argLen := 3 })).map
      (fun t => (t.resLo, t.rd)) = some (6, ⟨0, 6, 0x9B⟩) := by decide

/-- R124: the stream ends. -/
theorem test_rdBits_underrun :
    (after (exec .rdBits { withInput [0x9B] with argLen := 9, resLo := 7 })).map
      (fun t => (t.errCode, t.errInfo, t.rd.ptr, t.resLo)) = some (0x09, 1, 1, 7) := by decide +kernel

/-- R139's example, its first command. -/
theorem test_decSym :
    (after (exec (.decSym 0) (withTree (withInput [0x9B, 0xC0])))).map (fun t => (t.resLo, t.rd.bit)) =
      some (10, 2) := by decide +kernel

/-- R140's example. -/
theorem test_decScan :
    outputOf 8 (exec .decScan (withTree { withInput streamExample with rd := ⟨20, 0, 0⟩ })) =
      some [0x0A, 0x0A, 0x0C, 0x0B, 0x0A, 0x0A, 0x0A, 0x0A] := by decide +kernel

/-- R89's example. -/
theorem test_predReset :
    (after (exec .predReset { State.reset with prev := ⟨0, 0x2A, 0, 0⟩ })).map (fun t => t.prev.get 1) = some 0 := by decide

/-- R90's example. -/
theorem test_predFwd :
    (after (exec (.predFwd 0) { State.reset with prev := ⟨10, 0, 0, 0⟩, argLo := 9 })).map
      (fun t => (t.resLo, t.prev.c0)) = some (255, 9) := by decide

/-- R91's example. -/
theorem test_predInv :
    (after (exec (.predInv 1)
      { State.reset with cfg := ⟨1, 1, false, 0⟩, acc := ⟨0, 0x3FF, 0, 0⟩, argLo := 2 })).map
      (fun t => (t.resLo, t.acc.c1)) = some (1, 1) := by decide

/-- R142's example and corner case. -/
theorem test_csc : (after (exec .csc { State.reset with argLo := 0xF05A51 })).map (·.resLo) = some 0x0000FF := by decide

theorem test_csc_zero : (after (exec .csc State.reset)).map (·.resLo) = some 0x008700 := by decide

/-- R143's example: truncation, not rounding. -/
theorem test_scale :
    (after (exec .scale { State.reset with cfg := ⟨1, 1, false, 0⟩, argLo := 0x1FF })).map (·.resLo) = some 0x7F := by
  decide

/-- R145's example. -/
theorem test_encFrame : outputOf 22 (exec .encFrame raw) = some streamExample := by decide +kernel

/-- R145: the first byte past the capacity; ERR_INFO is OUT_CAP. -/
theorem test_encFrame_overflow :
    (after (exec .encFrame { raw with outCap := 21 })).map (fun t => (t.errCode, t.errInfo)) = some (0x05, 21) := by
  decide +kernel

/-- R147's example. -/
theorem test_decFrame :
    outputOf 24 (exec .decFrame { withInput streamExample with cfg := ⟨0, 1, false, 3⟩ }) =
      some (List.replicate 12 0x0A ++ [0x0A, 0x0A, 0x0A, 0x0A, 0x0A, 0x0A, 0x0C, 0x0C, 0x0C, 0x0B, 0x0B, 0x0B]) := by
  decide +kernel

/-- R149's examples. -/
theorem test_passthru :
    outputOf 6 (exec .passthru { withInput [1, 2, 3, 4, 5, 6] with cfg := ⟨0, 3, false, 0⟩, width := 2, height := 1 }) =
      some [1, 2, 3, 4, 5, 6] := by decide +kernel

theorem test_passthru_length :
    (after (exec .passthru
      { withInput [1, 2, 3, 4, 5, 6, 7] with cfg := ⟨0, 3, false, 0⟩, width := 2, height := 1 })).map
      (fun t => (t.errCode, t.errInfo)) = some (0x04, 6) := by decide

/-! ### Host accesses and the busy window -/

/-- R29: a CMD write while a command runs is dropped. -/
theorem test_dropped_command :
    (after (Spec.write { State.reset with phase := .running, cmd := 0x20 } 0x00C 0x10)).map (fun t => (t.cmd, t.ovr)) =
      some (0x20, true) := by decide

/-- R27: SRST and IRQ_EN written together leave IRQ_EN = 0. -/
theorem test_soft_reset :
    (after (Spec.write raw 0x004 3)).map (fun t => (t.irqEn, t.statusWord, t.cfg.nch)) = some (false, 1, 1) := by decide

/-- R38: a node through the window, left in [15:0]. -/
theorem test_window_tree :
    (after (Spec.read (withTree { raw with tab := ⟨1, 0, 1⟩ }) 0x074)).map (·.hostData) = some 0x8000000A := by decide

/-- R66 (a): the host may not write the input region of a running command. -/
theorem test_duty_input :
    after (step { raw with phase := .running, cmd := 0x11, script := [.memWrite 0x1000 1] }) = none := by decide

/-- R74, L3-6 line 7: an illegal word stops in the step of its CMD write. -/
theorem test_illegal_stops_at_once :
    (after (Spec.write raw 0x00C 0x00000141)).map (·.statusWord) = some 0x00000106 := by decide

/-- R66 (c): a byte of the input changed after the HIST_SCAN. -/
theorem test_duty_input_changed :
    (after (exec .histScan raw)).map (fun t =>
      (t.inputChanged, { t with mem := t.mem.write 0x1003 0x0C }.inputChanged,
        { t with mem := t.mem.write 0x0FFF 0x0C }.inputChanged)) = some (false, true, false) := by decide +kernel

/-- `raw` with the byte 0xFF emitted at 0x8000 and three bits in the packer, as PK6 has it. -/
def emittedByte : State := { raw with outCap := 2, pk := ⟨2, 6, 3⟩, mem := ⟨[(0x8000, 0xFF)], [], [(0x8000, true)]⟩ }

/-- PK6, R67, I6: an error keeps the byte EmitByte wrote, and leaves the other byte of the output region unspecified. -/
theorem test_error_keeps_emitted :
    (after (exec .pkFlush emittedByte)).map (fun t => (t.errCode, t.mem.read 0x8000, t.mem.loose)) =
      some (0x05, 0xFF, [⟨0x8001, 0x8002, 0⟩]) := by decide +kernel

/-- SR3: the bytes of HDR_WRITE before OUT_OVERFLOW are exact. -/
theorem test_hdrWrite_overflow :
    outputOf 10 (exec .hdrWrite { withTree raw with outCap := 10 }) = some (headerExample.take 10) := by decide +kernel

/-- SR4, R110: HDR_WRITE with a partial byte writes nothing. -/
theorem test_hdrWrite_nothing_written :
    (after (exec .hdrWrite { raw with pk := ⟨0, 1, 1⟩ })).map (fun t => decide (t.mem = raw.mem)) = some true := by
  decide +kernel

/-- I6, D31: HDR_WRITE's 20 bytes are kept exact by a later error, the byte of PACK_SCAN behind them is not. -/
theorem test_only_unit_commands_mark :
    (after (exec .hdrWrite (withTree raw))).map (fun t =>
      (t.mem.emitted.length, t.mem.isEmitted 0x8000, t.mem.isEmitted 0x8013, t.mem.isEmitted 0x8014)) =
      some (20, true, true, false) ∧
    (after (exec .packScan (withCodes { raw with pk := ⟨20, 0, 0⟩ }))).map (fun t => t.mem.emitted) = some [] := by
  decide +kernel

/-- R60: a byte the host writes is not one EmitByte wrote. -/
theorem test_host_write_unmarks :
    (after (step { emittedByte with script := [.memWrite 0x8000 0xFF] })).map (fun t => t.mem.isEmitted 0x8000) =
      some false := by decide +kernel

/-- R168, I6: an abort keeps the byte EmitByte wrote before. -/
theorem test_abort_keeps_bytes :
    ({ emittedByte with phase := .running, cmd := 0x22 } : State).beginReset.mem.read 0x8000 = 0xFF := by
  have hw : ({ emittedByte with phase := .running, cmd := 0x22 } : State).mem.wf :=
    ⟨by decide, by decide, by decide, by decide, List.Pairwise.nil, by decide, by decide⟩
  obtain ⟨n, m, hn, hs, -, -, hr⟩ := State.abortedEmit_spec (i := .pkFlush) (t := _)
    (s := { emittedByte with phase := .running, cmd := 0x22 }) rfl hw (by decide) (by decide +kernel)
  have hm : ({ emittedByte with phase := .running, cmd := 0x22 } : State).beginReset.mem = m :=
    (congrArg State.mem hs : _)
  rw [hm, hr, if_neg (by
    rintro ⟨h, -⟩
    exact absurd h (by decide +kernel)), if_neg (by
    rintro ⟨-, h⟩
    exact absurd h (by decide +kernel))]
  decide +kernel

/-- R65, I5: the reset that would abort an ENC_FRAME on overlapping regions. -/
theorem test_abort_of_broken_duty :
    after (step { raw with outAddr := 0x1007, phase := .running, cmd := 0x40, script := [.rst] }) = none := by decide

/-- R15: a refused access is BUS_ERROR at its address. -/
theorem test_bus_error :
    (after (exec .histScan { raw with deny := [⟨.read, 0x1003, 0x1004⟩] })).map (fun t => (t.errCode, t.errInfo)) =
      some (0x0D, 0x1003) := by decide +kernel

/-! ### Witnesses: the hypotheses of each statement are met together

One theorem for each statement that has hypotheses, and for each of its clauses that has some of its own. -/

open Sys2Proof.Spec


/-- The canonical form of memory, as a check, with no unspecified bytes. -/
def smallMem (m : Memory) : Bool :=
  decide (Sparse.wf Memory.unlisted m.cells) && decide (∀ e ∈ m.cells, e.1 < Config.memSize) && decide (m.loose = []) &&
  decide (Sparse.wf false m.emitted) && decide (∀ e ∈ m.emitted, e.1 < Config.memSize)

theorem wf_of_smallMem {m : Memory} (h : smallMem m = true) : m.wf ∧ m.loose = [] := by
  simp only [smallMem, Bool.and_eq_true, decide_eq_true_eq] at h
  obtain ⟨⟨⟨⟨cells, space⟩, loose⟩, emitted⟩, written⟩ := h
  exact ⟨⟨cells, space, by simp [loose], by simp [loose], by simp [loose], emitted,
    fun e he => ⟨written e he, by simp [loose]⟩⟩, loose⟩

/-- The invariant, as a check, for a state with no unspecified bytes. -/
def smallInv (s : State) : Bool :=
  smallMem s.mem && s.scans.all (fun m => smallMem m.found) &&
  (s.phase != .running || (decode s.cmd).toOption.isSome) &&
  decide (Sparse.wf 0 s.hist ∧ ∀ e ∈ s.hist, e.1 / Config.symbols < 4 ∧ e.1 % Config.symbols < Config.symbols) &&
  decide (Sparse.wf Node.zero s.tree ∧ ∀ e ∈ s.tree, e.1 / Config.symbols < 4 ∧ e.1 % Config.symbols < Config.nodes) &&
  decide (Sparse.wf CodeEntry.none s.code ∧ ∀ e ∈ s.code,
    (e.1 / Config.symbols < 4 ∧ e.1 % Config.symbols < Config.symbols) ∧
      e.2.valid = true ∧ e.2.len.toNat ≤ Config.maxCodeLen ∧ e.2.bits.toNat < 2 ^ e.2.len.toNat) &&
  decide (s.pk.acc.toNat < 2 ^ s.pk.fill.toNat) &&
  decide (s.phase ≠ .idle → s.done = false ∧ s.err = false ∧ s.errCode = 0 ∧ s.errInfo = 0) &&
  decide (s.errCode.toNat ≤ 0x0D ∧ (s.err = true → s.errCode ≠ 0))

theorem inv_of_smallInv {s : State} (h : smallInv s = true) : Inv s := by
  simp only [smallInv, Bool.and_eq_true, decide_eq_true_eq] at h
  obtain ⟨⟨⟨⟨⟨⟨⟨⟨mem, scans⟩, legal⟩, hist⟩, tree⟩, code⟩, packer⟩, busy⟩, codes⟩ := h
  refine ⟨(wf_of_smallMem mem).1, by simp [(wf_of_smallMem mem).2], fun m hm => ?_, hist, tree, code, packer, busy,
    fun hp => ?_, codes⟩
  · obtain ⟨h1, h2⟩ := wf_of_smallMem (List.all_eq_true.1 scans m hm)
    exact ⟨h1, by simp [h2]⟩
  · rw [hp] at legal
    cases hd : decode s.cmd with
    | ok i => exact ⟨i, rfl⟩
    | illegal why => simp [hd, Decoded.toOption] at legal

theorem readable_of_noDeny {s : State} (h : s.deny = []) (n : Nat) : Readable s n := fun k _ => by
  simp [State.memOk, h]

theorem writable_of_noDeny {s : State} (h : s.deny = []) (lo hi : Nat) : Writable s lo hi := fun k _ _ => by
  simp [State.memOk, h]

theorem apart_of_before {s : State} (h : s.inAddr.toNat + s.inLen.toNat ≤ s.outAddr.toNat) : Apart s := fun a ha => by
  have h1 := ha.1.2
  have h2 := ha.2.1
  omega

/-- The outcome is a next state without an error. -/
def completesClean (o : Out) : Bool := ((after o).map fun t => !t.err).getD false

theorem exists_clean {o : Out} (h : completesClean o = true) : ∃ t, o = .next t ∧ t.err = false := by
  cases o with
  | next t => exact ⟨t, rfl, by simpa [completesClean, after] using h⟩
  | fault f => exact absurd h (by simp [completesClean, after])
  | refused r => exact absurd h (by simp [completesClean, after])

theorem exists_next {o : Out} (h : (after o).isSome = true) : ∃ t, o = .next t := by
  cases o with
  | next t => exact ⟨t, rfl⟩
  | fault f => exact absurd h (by simp [after])
  | refused r => exact absurd h (by simp [after])

theorem raw_inv : Inv raw := inv_of_smallInv (by decide +kernel)

theorem raw_format : FormatLegal raw ∧ InFits raw ∧ OutFits raw :=
  ⟨⟨by decide, by decide, by decide⟩, by unfold InFits; decide +kernel, by unfold OutFits; decide +kernel⟩

theorem raw_apart : Apart raw := apart_of_before (by decide +kernel)

/-- The tree of the example of R98. -/
def exampleTree : Tree := ⟨2, [⟨2, 255⟩, ⟨10, 0x8000⟩, ⟨0, 0x8001⟩]⟩

theorem treeOf_withTree (s : State) : treeOf (withTree s) 0 = exampleTree := by
  have h : (List.range 3).map (fun i => (withTree State.reset).nodeAt 0 i) = exampleTree.nodes := by decide
  show (⟨2, (List.range (3 : Word).toNat).map fun i => (withTree State.reset).nodeAt 0 i⟩ : Tree) = _
  rw [show (3 : Word).toNat = 3 from by decide, h]
  decide

theorem exampleTree_legal : exampleTree.Legal 256 := by
  unfold Tree.Legal RefLegal
  decide

theorem raw_tree_legal (c : Ch) (h : c.val < nch raw) : (treeOf raw c).Legal (alphabet raw) := by
  have h0 : c = 0 := Fin.ext (Nat.lt_one_iff.1 h)
  subst h0
  unfold Tree.Legal RefLegal
  decide

theorem codePath_intro {t : Tree} {sym : Nat} {path : List Bool} {r : BitVec 16} (hn : t.nodes ≠ [])
    (hf : t.follow path t.root = some r) (hl : r.toNat < 0x8000) (hs : r.toNat = sym) : t.CodePath sym path := by
  unfold Tree.CodePath
  rw [if_neg hn]
  exact ⟨r, hf, hl, hs⟩

/-! #### Reset, registers and host accesses -/

/-- With no scan open, regions apart keep the host duties of every command. -/
theorem duties_of_apart {s : State} (ha : Apart s) (hs : s.scans = []) (i : Instr) : DutiesKept i s :=
  ⟨fun _ => ha, fun _ m hm => by simp [hs] at hm⟩

theorem witness_ResetRestoresEveryRegister_rst :
    Inv { raw with phase := .running, cmd := 0x40, script := [.rst] } ∧
      ResetNext { raw with phase := .running, cmd := 0x40, script := [.rst] } [] ∧
      RunKeepsDuties { raw with phase := .running, cmd := 0x40, script := [.rst] } :=
  ⟨inv_of_smallInv (by decide +kernel), .inl rfl, fun _ i _ =>
    duties_of_apart (s := { raw with phase := .running, cmd := 0x40, script := [.rst] }) raw_apart rfl i⟩

theorem witness_ResetRestoresEveryRegister_abort :
    Inv { raw with phase := .running, cmd := 0x21, script := [.rst] } ∧ decode 0x21 = .ok .pkBits ∧ Emits .pkBits ∧
      decode 0x10 = .ok .histClear ∧ ¬UsesOutput .histClear := by
  refine ⟨inv_of_smallInv (by decide +kernel), by decide, .inl (by decide), by decide, ?_⟩
  unfold UsesOutput
  rintro (h | ⟨c, h⟩)
  · exact absurd h (by decide)
  · exact absurd h (by simp)

theorem witness_ResetRestoresEveryRegister_srst :
    Inv { raw with script := [.write .word 0x004 3] } ∧ ResetNext { raw with script := [.write .word 0x004 3] } [] ∧
      RunKeepsDuties { raw with script := [.write .word 0x004 3] } :=
  ⟨inv_of_smallInv (by decide +kernel), .inr ⟨3, by decide, by decide, rfl⟩, fun h => absurd h (by decide)⟩

theorem witness_Kept : Kept emittedByte 0x8000 ∧ Kept emittedByte 0x7FFF ∧ Kept emittedByte 0x8002 ∧
    ¬Kept emittedByte 0x8001 := by
  unfold Kept OutRegion Emitted
  decide +kernel

theorem witness_RegistersReadBack : raw.phase = .idle ∧ (0xFFFFFFFE : Word).getLsbD 0 = false := by decide

theorem witness_UnlistedAndMisalignedAccesses :
    (0x01C : BitVec 12) ∉ listedOffsets ∧ (0xFFC : BitVec 12) ∉ listedOffsets ∧ (0xFFC : BitVec 12).toNat % 4 = 0 ∧
      AccessSize.half ≠ .word ∧ (0x07D : BitVec 12).toNat % 4 ≠ 0 := by decide

theorem witness_TableWindowReadsAndWrites (t : BitVec 2) (i : BitVec 12) :
    Inv { raw with tab := ⟨i, 3, t⟩ } ∧ raw.phase = .idle ∧ (3 : BitVec 2).toNat = (3 : Ch).val :=
  ⟨⟨raw_inv.mem, raw_inv.drawn, raw_inv.scans, raw_inv.hist, raw_inv.tree, raw_inv.code, raw_inv.packer, raw_inv.busy,
    raw_inv.legal, raw_inv.codes⟩, rfl, rfl⟩

theorem witness_StatusWriteOneToClear : ({ raw with phase := .running } : State).phase ≠ .resetting := by decide

theorem witness_BusyWindow :
    ({ raw with phase := .running } : State).phase = .running ∧ State.phase { raw with phase := .resetting } ≠ .idle ∧
      (0x074 : BitVec 12) ∈ listedOffsets ∧
      (0x074 : BitVec 12) ≠ 0x004 ∧ (0x074 : BitVec 12) ≠ 0x008 ∧ (0x074 : BitVec 12) ≠ 0x00C ∧
      (0x074 : BitVec 12) ≠ 0x000 ∧ (2 : Word).getLsbD 0 = false := by decide

/-- A HIST_SCAN (0x11) or PACK_SCAN (0x24) of `raw` under way. -/
def busyWith (w : Word) : State := { raw with phase := .running, cmd := w }

theorem witness_BusyWindow_memory :
    Inv (busyWith 0x24) ∧ InputBusy (busyWith 0x24) 0x1007 ∧ OutputBusy (busyWith 0x24) 0x8FFF ∧
      ¬InputBusy (busyWith 0x24) 0x1008 ∧ ¬OutputBusy (busyWith 0x24) 0x9000 ∧ ¬OutputBusy (busyWith 0x24) 0x1007 ∧
      (busyWith 0x24).memOk .write 0x1008 = true ∧
      ({ raw with deny := [⟨.write, 0x1008, 0x1009⟩] } : State).memOk .write 0x1008 = false ∧
      ({ raw with deny := [⟨.read, 0x1008, 0x1009⟩] } : State).memOk .read 0x1008 = false := by
  refine ⟨inv_of_smallInv (by decide +kernel), ⟨rfl, ⟨.packScan, by decide, .inl (by decide)⟩, ?_⟩,
    ⟨rfl, ⟨.packScan, by decide, .inl (by decide)⟩, ?_⟩, fun h => ?_, fun h => ?_, fun h => ?_, by decide +kernel,
    by decide +kernel, by decide +kernel⟩
  · unfold InRegion; decide +kernel
  · unfold OutRegion; decide +kernel
  · exact absurd h.2.2 (by unfold InRegion; decide +kernel)
  · exact absurd h.2.2 (by unfold OutRegion; decide +kernel)
  · exact absurd h.2.2 (by unfold OutRegion; decide +kernel)

theorem witness_InterruptIsEnabledDone :
    ({ raw with done := true, irqEn := true } : State).irq = true ∧
      ({ raw with done := true, irqEn := true } : State).phase = .idle ∧ decode 0x40 = .ok .encFrame ∧
      (∃ t, exec .encFrame { raw with irqEn := true } = .next t) ∧ (3 : Word).getLsbD 0 = true ∧ IllegalWord 0x0F ∧
      Inv (busyWith 0x24) ∧ RunKeepsDuties (busyWith 0x24) :=
  ⟨rfl, rfl, by decide, exists_next (by decide +kernel), by decide, by unfold IllegalWord ReservedOp; decide,
    inv_of_smallInv (by decide +kernel), fun _ i _ => duties_of_apart (s := busyWith 0x24) raw_apart rfl i⟩

theorem witness_IllegalWordsStop :
    IllegalWord 0x0F ∧ IllegalWord 0xFF ∧ IllegalWord 0x80000012 ∧ IllegalWord 0x100 ∧ ¬IllegalWord 0x312 ∧
      raw.phase = .idle := by
  refine ⟨?_, ?_, ?_, ?_, ?_, rfl⟩ <;> unfold IllegalWord ReservedOp <;> decide

theorem witness_StepRunsTheDecodedCommand :
    ({ raw with phase := .running, cmd := 0x11 } : State).phase = .running ∧ decode 0x11 = .ok .histScan ∧
      decode (BitVec.ofNat 32 (0x11 % 2 ^ 32)) = .ok .histScan ∧ raw.phase = .idle ∧ raw.script = [] := by decide

theorem witness_CommandWriteStartsCommand : raw.phase = .idle ∧ (0x00000312 : Word) = encode (.histAdd 3) := by decide

theorem witness_WaitEndsWithBusyClear :
    Inv { raw with phase := .running, cmd := 0x11, script := [.wait] } ∧ decode 0x11 = .ok .histScan ∧
      DutiesKept .histScan raw ∧ ({ raw with phase := .resetting, script := [.wait] } : State).phase = .resetting :=
  ⟨inv_of_smallInv (by decide +kernel), by decide, duties_of_apart raw_apart rfl _, rfl⟩

theorem witness_StepKeepsInvariant :
    Inv (raw.withFetchWord 32 0x40) ∧ ∃ t, step (raw.withFetchWord 32 0x40) = .next t :=
  ⟨inv_of_smallInv (by decide +kernel), exists_next (by decide +kernel)⟩

/-! #### Rules of every command -/

/-- `raw` with the output region on top of the input region. -/
def overlapping : State := { raw with outAddr := 0x1007 }

theorem overlapping_not_apart : ¬Apart overlapping := fun h =>
  h 0x1007 ⟨by unfold InRegion; decide +kernel, by unfold OutRegion; decide +kernel⟩

/-- `raw` after a HIST_SCAN that found another byte at 0x1003. -/
def changedInput : State := { withCodes raw with scans := [⟨0x1000, 0x1008, ⟨cellsFrom 0x1000 [10, 10, 12, 12, 10, 10, 10, 10], [], []⟩⟩] }

theorem changedInput_inv : Inv changedInput := inv_of_smallInv (by decide +kernel)

theorem changedInput_not_kept : ¬InputKept changedInput := fun h => by
  have := (h _ (List.mem_singleton.2 rfl) 0x1003 (by unfold InRegion; decide +kernel) (by decide) (by decide)).2
  exact absurd this (by decide +kernel)

theorem witness_EveryCommandEnds_changed :
    Inv changedInput ∧ exec .packScan changedInput = .refused .dutyInputChanged := by
  have h : (match exec .packScan changedInput with
      | .refused r => decide (r = .dutyInputChanged)
      | .next _ | .fault _ => false) = true := by decide +kernel
  refine ⟨changedInput_inv, ?_⟩
  cases ho : exec .packScan changedInput with
  | refused r => rw [ho] at h; rw [of_decide_eq_true h]
  | next t => rw [ho] at h; exact absurd h (by simp)
  | fault f => rw [ho] at h; exact absurd h (by simp)

theorem witness_EveryCommandEnds :
    exec .histScan overlapping = .refused .dutyRegionsOverlap ∧ (∃ t, exec .nop raw = .next t) ∧ raw.err = false ∧
      raw.errCode = 0 ∧ raw.errInfo = 0 := ⟨rfl, exists_next (by decide), rfl, rfl, rfl⟩

theorem witness_FormatChecksStop :
    (¬FormatLegal { raw with cfg := ⟨3, 1, false, 0⟩ } ∧ ¬FormatLegal { raw with cfg := ⟨0, 0, false, 0⟩ } ∧
      ¬FormatLegal { raw with cfg := ⟨0, 5, false, 0⟩ }) ∧
    (¬ModeLegal { raw with cfg := ⟨0, 1, false, 11⟩ } ∧ ¬ModeLegal { raw with cfg := ⟨0, 2, false, 3⟩ } ∧
      ¬ModeLegal { raw with cfg := ⟨0, 2, false, 7⟩, width := 3 } ∧ ¬ModeLegal { raw with cfg := ⟨0, 4, false, 10⟩ }) ∧
    (UsesInput (.decSym 2) ∧ ¬InFits { raw with inAddr := 0xFFFFFFF9 }) ∧
    (UsesOutput .pkBits ∧ ¬OutFits { raw with outAddr := 0xFFFFF001 }) ∧
    Inv { raw with inAddr := 0xFFFFFFF9 } ∧ (∀ i, DutiesKept i { raw with cfg := ⟨3, 1, false, 0⟩ }) ∧
    ∀ i, DutiesKept i { raw with outAddr := 0xFFFFF001 } := by
  refine ⟨?_, ?_, ⟨.inr ⟨2, rfl⟩, ?_⟩, ⟨.inl (by decide), ?_⟩, inv_of_smallInv (by decide +kernel),
    duties_of_apart (apart_of_before (by decide +kernel)) rfl, duties_of_apart (apart_of_before (by decide +kernel)) rfl⟩
  · unfold FormatLegal; decide
  · unfold ModeLegal; decide
  · unfold InFits; decide +kernel
  · unfold OutFits; decide +kernel

theorem witness_SizeChecksStop :
    Inv raw ∧ (∀ i, DutiesKept i raw) ∧ FormatLegal raw ∧ InFits raw ∧ OutFits raw ∧ (withInput [1, 2, 3, 4, 5, 6, 7]).inLen.toNat < rawBytes raw ∧
      ({ raw with inLen := 9 } : State).inLen.toNat ≠ rawBytes raw ∧ raw.inLen.toNat = rawBytes raw ∧
      ({ raw with outCap := 7 } : State).outCap.toNat < rawBytes raw ∧ ModeLegal raw ∧
      ({ raw with outCap := 7 } : State).outCap.toNat < decodedBytes raw := by
  refine ⟨raw_inv, duties_of_apart raw_apart rfl, raw_format.1, raw_format.2.1, raw_format.2.2, by decide, by decide, by decide,
    by decide, ?_, by decide⟩
  unfold ModeLegal
  decide

theorem witness_OverlappingRegionsRefused : Instr.decFrame ∈ scanCommands ∧ ¬Apart overlapping :=
  ⟨by decide, overlapping_not_apart⟩

/-- A reset on its way into a run of DEC_FRAME (0x41) with overlapping regions. -/
def overlappingRun : State := { overlapping with phase := .running, cmd := 0x41, script := [.rst] }

theorem witness_OverlappingRegionsRefused_reset :
    ¬Apart overlappingRun ∧ overlappingRun.phase = .running ∧ decode overlappingRun.cmd = .ok .decFrame ∧
      ResetNext overlappingRun [] := ⟨overlapping_not_apart, rfl, by decide, .inl rfl⟩

theorem witness_ResultWriters :
    (∃ t, exec .pkInit raw = .next t) ∧ raw.err = false ∧
      ∃ t, exec .rdBits { raw with argLen := 65 } = .next t ∧ t.err = true :=
  ⟨exists_next (by decide), rfl, _, rfl, rfl⟩

theorem witness_OutSizeWriters :
    (∃ t, exec .pkFlush raw = .next t ∧ t.err = false) ∧ (∃ t, exec .encFrame raw = .next t ∧ t.err = false) ∧
      (∃ t, exec .decScan raw = .next t ∧ t.err = false) ∧
      (∃ t, exec .decFrame (withInput streamExample) = .next t ∧ t.err = false) ∧
      (∃ t, exec .passthru raw = .next t ∧ t.err = false) ∧ ∃ t, exec .passthru { raw with outCap := 7 } = .next t :=
  ⟨exists_clean (by decide +kernel), exists_clean (by decide +kernel), exists_clean (by decide +kernel),
    exists_clean (by decide +kernel), exists_clean (by decide +kernel), exists_next (by decide +kernel)⟩

theorem witness_FrameOfUnitCommands :
    ∀ i ∈ [Instr.nop, .predReset, .predFwd 3, .predInv 3, .csc, .scale, .pkInit, .rdInit, .rdBits, .decSym 3],
      ∃ t, exec i raw = .next t := fun i hi => by
  have h : ([Instr.nop, .predReset, .predFwd 3, .predInv 3, .csc, .scale, .pkInit, .rdInit, .rdBits, .decSym 3].all
      fun i => (after (exec i raw)).isSome) = true := by decide +kernel
  exact exists_next (List.all_eq_true.1 h i hi)

theorem witness_FrameOfTableCommands :
    Inv raw ∧ ∀ i ∈ [Instr.histClear, .histAdd 3, .histScan, .treeBuild 3, .codeGen 3, .hdrRead],
      ∃ t, exec i raw = .next t := ⟨raw_inv, fun i hi => by
  have h : ([Instr.histClear, .histAdd 3, .histScan, .treeBuild 3, .codeGen 3, .hdrRead].all
      fun i => (after (exec i raw)).isSome) = true := by decide +kernel
  exact exists_next (List.all_eq_true.1 h i hi)⟩

theorem witness_FrameOfPackerCommands :
    Inv raw ∧ ∀ i ∈ [Instr.pkBits, .pkFlush, .encSym 3, .hdrWrite], ∃ t, exec i raw = .next t := ⟨raw_inv, fun i hi => by
  have h : ([Instr.pkBits, .pkFlush, .encSym 3, .hdrWrite].all fun i => (after (exec i raw)).isSome) = true := by
    decide +kernel
  exact exists_next (List.all_eq_true.1 h i hi)⟩

theorem witness_FrameOfPackerCommands_error :
    Inv emittedByte ∧ emittedByte.err = false ∧ (∃ t, exec .pkFlush emittedByte = .next t ∧ t.err = true) ∧
      ∃ t, exec .hdrWrite emittedByte = .next t ∧ t.err = true ∧ t.errCode = 0x0C :=
  ⟨inv_of_smallInv (by decide +kernel), rfl, ⟨_, rfl, rfl⟩, ⟨_, rfl, rfl, rfl⟩⟩

theorem witness_FrameOfFrameCommands :
    Inv raw ∧ Inv (withInput streamExample) ∧ (∃ t, exec .packScan (withCodes raw) = .next t ∧ t.err = false) ∧
      Inv (withCodes raw) :=
  ⟨raw_inv, inv_of_smallInv (by decide +kernel), exists_clean (by decide +kernel), inv_of_smallInv (by decide +kernel)⟩

/-! #### Unit commands -/

theorem witness_NopCompletes :
    ({ raw with script := [.write .word 0x00C 0, .elapse], irqEn := true } : State).phase = .idle ∧
      (0x00000100 : Word).toNat % 256 = 0 ∧ (0x00000100 : Word) ≠ 0 := by decide

theorem witness_ClearingCommandsComplete : FormatLegal raw := raw_format.1

theorem witness_PredictorCommandsComplete : FormatLegal { raw with cfg := ⟨2, 4, true, 15⟩ } :=
  ⟨by decide, by decide, by decide⟩

theorem witness_PredictorMirrors : FormatLegal raw ∧ raw.prev.get 3 = 0 ∧ raw.acc.get 3 = 0 :=
  ⟨raw_format.1, rfl, rfl⟩

theorem witness_PixelCommandsComplete : FormatLegal { raw with cfg := ⟨1, 1, false, 15⟩ } :=
  ⟨by decide, by decide, by decide⟩

theorem witness_HistAddCounts :
    Inv { raw with argLo := 255 } ∧ FormatLegal raw ∧ argument { raw with argLo := 255 } < alphabet raw ∧
      alphabet raw ≤ argument { raw with argLo := 256 } ∧ alphabet raw ≤ argument { raw with argHi := 1 } :=
  ⟨inv_of_smallInv (by decide +kernel), raw_format.1, by decide +kernel, by decide +kernel, by decide +kernel⟩

theorem witness_HistScanCounts :
    Inv raw ∧ FormatLegal raw ∧ InFits raw ∧ rawBytes raw ≤ raw.inLen.toNat ∧ Apart raw ∧ Readable raw (rawBytes raw) :=
  ⟨raw_inv, raw_format.1, raw_format.2.1, by decide +kernel, raw_apart, readable_of_noDeny rfl _⟩

theorem witness_TreeBuildMerges : Inv raw ∧ FormatLegal raw := ⟨raw_inv, raw_format.1⟩

/-- `raw` with counters `l`. -/
def counted (l : List (Nat × Word)) : State := { raw with hist := l }

theorem witness_TreeBuildShape :
    (Inv (counted [(0, 4), (2, 1), (10, 2), (255, 1)]) ∧
      2 ≤ (nonzeroSymbols (counted [(0, 4), (2, 1), (10, 2), (255, 1)]) 0).length ∧
      ∃ t, exec (.treeBuild 0) (counted [(0, 4), (2, 1), (10, 2), (255, 1)]) = .next t) ∧
    (nonzeroSymbols (counted [(255, 5)]) 0 = [255] ∧ ∃ t, exec (.treeBuild 0) (counted [(255, 5)]) = .next t) ∧
    (nonzeroSymbols raw 0 = [] ∧ ∃ t, exec (.treeBuild 0) raw = .next t) :=
  ⟨⟨inv_of_smallInv (by decide +kernel), by decide +kernel, exists_next (by decide +kernel)⟩,
    ⟨by decide +kernel, exists_next (by decide +kernel)⟩, by decide +kernel, exists_next (by decide +kernel)⟩

/-- `raw` with `t` as the tree of channel 0. -/
def loaded (t : Tree) : State :=
  { raw with
    tree := (t.nodes.zipIdx.map fun e => (e.2, e.1)).filter fun e => e.2 != ⟨0, 0⟩
    ncount := ⟨BitVec.ofNat 32 t.nodes.length, 0, 0, 0⟩
    root := ⟨BitVec.ofNat 32 t.root, 0, 0, 0⟩ }

/-- Two nodes, one below the other. -/
def smallTree : Tree := ⟨1, [⟨2, 255⟩, ⟨10, 0x8000⟩]⟩

theorem smallTree_follow {p : List Bool} {r : BitVec 16} (h : smallTree.follow p 1 = some r) :
    p = [false] ∧ r = 10 ∨ p = [true] ∧ r = 0x8000 ∨ p = [true, false] ∧ r = 2 ∨ p = [true, true] ∧ r = 255 := by
  match p with
  | [] => simp [Tree.follow] at h
  | [a] => cases a <;> simp_all [Tree.follow, smallTree]
  | [a, b] => cases a <;> cases b <;> simp_all [Tree.follow, smallTree]
  | a :: b :: c :: t => cases a <;> cases b <;> simp_all [Tree.follow, smallTree]

theorem smallTree_shape : smallTree.Unshared ∧ smallTree.Shallow := by
  constructor
  · intro p q r hp hq hr
    rcases smallTree_follow hp with ⟨rfl, rfl⟩ | ⟨rfl, rfl⟩ | ⟨rfl, rfl⟩ | ⟨rfl, rfl⟩ <;>
      rcases smallTree_follow hq with ⟨rfl, h⟩ | ⟨rfl, h⟩ | ⟨rfl, h⟩ | ⟨rfl, h⟩ <;> simp_all [smallTree]
  · intro p r hp _
    rcases smallTree_follow hp with ⟨rfl, rfl⟩ | ⟨rfl, rfl⟩ | ⟨rfl, rfl⟩ | ⟨rfl, rfl⟩ <;> simp

theorem witness_CodeGenAssignsPaths :
    Inv (loaded smallTree) ∧ FormatLegal (loaded smallTree) ∧
      (treeOf (loaded smallTree) 0).Legal (alphabet (loaded smallTree)) ∧ (treeOf (loaded smallTree) 0).Unshared ∧
      (treeOf (loaded smallTree) 0).Shallow ∧ (treeOf (loaded smallTree) 0).CodePath 255 [true, true] := by
  have h : treeOf (loaded smallTree) 0 = smallTree := by decide +kernel
  rw [h]
  refine ⟨inv_of_smallInv (by decide +kernel), raw_format.1, ?_, smallTree_shape.1, smallTree_shape.2,
    codePath_intro (by decide) (show _ = some 255 from rfl) (by decide) rfl⟩
  unfold Tree.Legal RefLegal
  decide

/-- One node reached by both branches of the root. -/
def sharedTree : Tree := ⟨1, [⟨1, 2⟩, ⟨0x8000, 0x8000⟩]⟩

theorem witness_CodeGenStopsOnBadShapes_shared :
    Inv (loaded sharedTree) ∧ FormatLegal (loaded sharedTree) ∧
      (treeOf (loaded sharedTree) 0).Legal (alphabet (loaded sharedTree)) ∧ ¬(treeOf (loaded sharedTree) 0).Unshared ∧
      (treeOf (loaded sharedTree) 0).Shallow := by
  have h : treeOf (loaded sharedTree) 0 = sharedTree := by decide +kernel
  rw [h]
  refine ⟨inv_of_smallInv (by decide +kernel), raw_format.1, ?_, ?_, ?_⟩
  · unfold Tree.Legal RefLegal
    decide
  · intro hu
    exact absurd (hu [false] [true] 0x8000 rfl rfl (by decide)).1 (by decide)
  · intro p r hp _
    match p with
    | [] => simp
    | [a] => simp
    | [a, b] => simp
    | a :: b :: c :: t => cases a <;> cases b <;> simp [Tree.follow, sharedTree] at hp

/-- A chain of 65 nodes, the leaves of the last one at depth 65. -/
def chain : Tree :=
  ⟨64, (List.range 65).map fun i => ⟨BitVec.ofNat 16 (i + 1), if i = 0 then 0 else BitVec.ofNat 16 (0x8000 + i - 1)⟩⟩

theorem chain_follow : ∀ (p : List Bool) (i : Nat) (r : BitVec 16), i < 65 → chain.follow p i = some r →
    0x8000 ≤ r.toNat → p = List.replicate p.length true ∧ r.toNat - 0x8000 + p.length = i ∧ p ≠ [] := by
  intro p
  induction p with
  | nil => intro i r _ h; simp [Tree.follow] at h
  | cons b p ih =>
    intro i r hi h hr
    have hn : chain.nodes[i]? = some (⟨BitVec.ofNat 16 (i + 1), if i = 0 then 0 else BitVec.ofNat 16 (0x8000 + i - 1)⟩ : Node) := by
      simp [chain, hi]
    have hl : (BitVec.ofNat 16 (i + 1)).toNat < 0x8000 := by
      rw [BitVec.toNat_ofNat]
      omega
    unfold Tree.follow at h
    simp only [hn] at h
    cases b with
    | false =>
      simp only [Bool.false_eq_true, if_false, if_pos hl] at h
      split at h
      · rw [← Option.some.inj h] at hr
        omega
      · exact absurd h (by simp)
    | true =>
      simp only [if_true] at h
      by_cases hi0 : i = 0
      · simp only [hi0, if_true] at h
        split at h
        · rw [← Option.some.inj h] at hr
          exact absurd hr (by decide)
        · simp at h
      · simp only [if_neg hi0] at h
        have ht : (BitVec.ofNat 16 (0x8000 + i - 1)).toNat = 0x8000 + (i - 1) := by
          rw [BitVec.toNat_ofNat]
          omega
        rw [ht, if_neg (by omega : ¬0x8000 + (i - 1) < 0x8000)] at h
        split at h
        · rename_i hp
          subst hp
          rw [← Option.some.inj h, ht]
          refine ⟨rfl, ?_, by simp⟩
          simp only [List.length_cons, List.length_nil]
          omega
        · rw [show 0x8000 + (i - 1) - 0x8000 = i - 1 by omega] at h
          obtain ⟨h1, h2, h3⟩ := ih (i - 1) r (by omega) h hr
          refine ⟨by rw [List.length_cons, List.replicate_succ, ← h1], ?_, by simp⟩
          rw [List.length_cons]
          omega

theorem witness_CodeGenStopsOnBadShapes_deep :
    Inv (loaded chain) ∧ FormatLegal (loaded chain) ∧ (treeOf (loaded chain) 0).Legal (alphabet (loaded chain)) ∧
      (treeOf (loaded chain) 0).Unshared ∧ ¬(treeOf (loaded chain) 0).Shallow := by
  have h : treeOf (loaded chain) 0 = chain := by decide +kernel
  rw [h]
  refine ⟨inv_of_smallInv (by decide +kernel), raw_format.1, ?_, ?_, ?_⟩
  · unfold Tree.Legal RefLegal
    decide +kernel
  · intro p q r hp hq hr
    obtain ⟨h1, h2, h3⟩ := chain_follow p 64 r (by decide) hp hr
    obtain ⟨h4, h5, -⟩ := chain_follow q 64 r (by decide) hq hr
    refine ⟨by rw [h1, h4, show p.length = q.length by omega], ?_⟩
    have := List.length_pos_iff.2 h3
    show r.toNat - 0x8000 ≠ 64
    omega
  · intro hs
    have := hs (List.replicate 64 true ++ [false]) 1 (by decide +kernel) (by decide)
    simp at this

theorem witness_BadTreesStop :
    FormatLegal (loaded ⟨256, []⟩) ∧ ¬(treeOf (loaded ⟨256, []⟩) 0).Legal (alphabet raw) ∧
      ¬(treeOf (loaded ⟨0, List.replicate 256 ⟨0, 0⟩⟩) 0).Legal (alphabet raw) ∧
      ¬(treeOf (loaded ⟨0, [⟨0, 0x8001⟩]⟩) 0).Legal (alphabet raw) ∧ InFits raw ∧ OutFits raw ∧
      (loaded ⟨256, []⟩).pk.fill = 0 := by
  refine ⟨raw_format.1, ?_, ?_, ?_, raw_format.2.1, raw_format.2.2, rfl⟩ <;> unfold Tree.Legal RefLegal <;>
    decide +kernel

theorem witness_BadTreesStop_decScan :
    Inv (loaded ⟨256, []⟩) ∧ ModeLegal (loaded ⟨256, []⟩) ∧ Apart (loaded ⟨256, []⟩) ∧
      decodedBytes (loaded ⟨256, []⟩) ≤ (loaded ⟨256, []⟩).outCap.toNat ∧ (0 : Ch).val < nch (loaded ⟨256, []⟩) := by
  refine ⟨inv_of_smallInv (by decide +kernel), ?_, raw_apart, by decide +kernel, by decide⟩
  unfold ModeLegal
  decide

theorem witness_CodesArePrefixFree :
    Inv (withTree raw) ∧ raw.err = false ∧ ∃ t, exec (.codeGen 0) (withTree raw) = .next t ∧ t.err = false ∧
      (t.codeAt 0 0).valid = true ∧ (t.codeAt 0 255).valid = true := by
  refine ⟨inv_of_smallInv (by decide +kernel), rfl, ?_⟩
  have h : ((after (exec (.codeGen 0) (withTree raw))).map fun t =>
      !t.err && (t.codeAt 0 0).valid && (t.codeAt 0 255).valid) = some true := by decide +kernel
  cases ho : exec (.codeGen 0) (withTree raw) with
  | next t =>
    rw [ho] at h
    have h := Option.some.inj h
    simp only [Bool.and_eq_true, Bool.not_eq_true'] at h
    exact ⟨t, rfl, h.1.1, h.1.2, h.2⟩
  | fault f => rw [ho] at h; exact absurd h (by simp [after])
  | refused r => rw [ho] at h; exact absurd h (by simp [after])

/-! #### Headers -/

theorem withTree_legal (s : State) (hb : alphabet s = 256) (hn : nch s = 1) (c : Ch) (hc : c.val < nch s) :
    (treeOf (withTree s) c).Legal (alphabet s) := by
  have h0 : c = 0 := Fin.ext (by
    show c.val = 0
    omega)
  subst h0
  rw [treeOf_withTree, hb]
  exact exampleTree_legal

theorem witness_HdrWriteWritesHeaders :
    Inv (withTree raw) ∧ FormatLegal (withTree raw) ∧ OutFits (withTree raw) ∧ (withTree raw).pk.fill = 0 ∧
      (∀ c : Ch, c.val < nch raw → (treeOf (withTree raw) c).Legal (alphabet raw)) ∧
      (withTree raw).pk.ptr.toNat + (headersOf (withTree raw)).length ≤ (withTree raw).outCap.toNat ∧
      Writable (withTree raw) (withTree raw).pk.ptr.toNat
        ((withTree raw).pk.ptr.toNat + (headersOf (withTree raw)).length) :=
  ⟨inv_of_smallInv (by decide +kernel), raw_format.1, raw_format.2.2, rfl, withTree_legal raw rfl rfl, by decide +kernel,
    writable_of_noDeny rfl _ _⟩

theorem witness_HdrWriteWritesHeaders_overflow :
    ({ withTree raw with outCap := 19 } : State).outCap.toNat <
        (withTree raw).pk.ptr.toNat + (headersOf (withTree raw)).length ∧
      Inv { withTree raw with outCap := 19 } ∧ OutFits { withTree raw with outCap := 19 } ∧
      Writable { withTree raw with outCap := 19 } 0 19 :=
  ⟨by decide +kernel, inv_of_smallInv (by decide +kernel), by unfold OutFits; decide +kernel, writable_of_noDeny rfl _ _⟩

/-- The stream of the example of R145 as input. -/
def stream : State := withInput streamExample

theorem stream_inv : Inv stream := inv_of_smallInv (by decide +kernel)

theorem stream_format : FormatLegal stream ∧ InFits stream ∧ OutFits stream :=
  ⟨⟨by decide, by decide, by decide⟩, by unfold InFits; decide +kernel, by unfold OutFits; decide +kernel⟩

theorem stream_header : BytesAt stream.mem 0x1000 ([exampleTree].flatMap Tree.header) := by
  unfold BytesAt
  decide +kernel

theorem witness_HdrReadLoadsTrees :
    Inv stream ∧ FormatLegal stream ∧ InFits stream ∧ stream.rd.bit = 0 ∧ [exampleTree].length = nch stream ∧
      (∀ t ∈ [exampleTree], t.Legal (alphabet stream)) ∧
      stream.rd.ptr.toNat + ([exampleTree].flatMap Tree.header).length ≤ stream.inLen.toNat ∧
      Readable stream stream.inLen.toNat ∧
      BytesAt stream.mem (stream.inAddr.toNat + stream.rd.ptr.toNat) ([exampleTree].flatMap Tree.header) :=
  ⟨stream_inv, stream_format.1, stream_format.2.1, rfl, rfl, fun t ht => by
    rw [List.mem_singleton.1 ht]
    exact exampleTree_legal, by decide +kernel,
    readable_of_noDeny rfl _, stream_header⟩

/-- A state that reads the output region of `raw`. -/
def reader (n : Word) (t : State) : State := { raw with inAddr := 0x8000, inLen := n, outAddr := 0x20000, mem := t.mem }

theorem witness_HeadersRoundTrip :
    Inv (withTree raw) ∧ (withTree raw).err = false ∧ ∃ t, exec .hdrWrite (withTree raw) = .next t ∧ t.err = false ∧
      Inv (reader 20 t) ∧ (reader 20 t).cfg = (withTree raw).cfg ∧ InFits (reader 20 t) ∧ (reader 20 t).rd.bit = 0 ∧
      (reader 20 t).inAddr.toNat + (reader 20 t).rd.ptr.toNat =
        (withTree raw).outAddr.toNat + (withTree raw).pk.ptr.toNat ∧
      (reader 20 t).rd.ptr.toNat + (t.pk.ptr.toNat - (withTree raw).pk.ptr.toNat) ≤ (reader 20 t).inLen.toNat ∧
      Readable (reader 20 t) (reader 20 t).inLen.toNat := by
  refine ⟨inv_of_smallInv (by decide +kernel), rfl, ?_⟩
  have h : ((after (exec .hdrWrite (withTree raw))).map fun t =>
      !t.err && smallInv (reader 20 t) && decide (t.pk.ptr.toNat = 20)) = some true := by decide +kernel
  cases ho : exec .hdrWrite (withTree raw) with
  | next t =>
    rw [ho] at h
    have h := Option.some.inj h
    simp only [Bool.and_eq_true, Bool.not_eq_true', decide_eq_true_eq] at h
    refine ⟨t, rfl, h.1.1, inv_of_smallInv h.1.2, rfl, ?_, rfl, rfl, ?_, readable_of_noDeny rfl _⟩
    · show (0x8000 : Word).toNat + (20 : Word).toNat ≤ 2 ^ 32
      decide +kernel
    · rw [h.2]
      show (0 : Word).toNat + (20 - (0 : Word).toNat) ≤ (20 : Word).toNat
      decide
  | fault f => rw [ho] at h; exact absurd h (by simp [after])
  | refused r => rw [ho] at h; exact absurd h (by simp [after])

theorem witness_HeaderCommandsStop :
    FormatLegal stream ∧ InFits stream ∧ OutFits stream ∧ ({ stream with pk := ⟨0, 1, 1⟩ } : State).pk.fill ≠ 0 ∧
      ({ stream with rd := ⟨0, 7, 1⟩ } : State).rd.bit ≠ 0 ∧ stream.rd.bit = 0 ∧ Readable stream stream.inLen.toNat ∧
      (withInput (headerExample.take 7)).inLen.toNat < stream.rd.ptr.toNat + 8 ∧
      (stream.rd.ptr.toNat + 8 ≤ (withInput [0, 1, 0, 0, 2, 0, 0, 0]).inLen.toNat ∧
        BytesAt (withInput [0, 1, 0, 0, 2, 0, 0, 0]).mem 0x1000 (littleEndian 4 256) ∧ 256 < 2 ^ 32 ∧
        alphabet stream - 1 < 256) := by
  refine ⟨stream_format.1, stream_format.2.1, stream_format.2.2, by decide, by decide, rfl, readable_of_noDeny rfl _,
    by decide +kernel, by decide +kernel, ?_, by decide, by decide⟩
  unfold BytesAt
  decide +kernel

/-- Two channels whose input region is the example header and then `l`. -/
def secondHeader (l : List Byte) : State := { withInput (headerExample ++ l) with cfg := ⟨0, 2, false, 0⟩ }

theorem secondHeader_bad {l : List Byte} {bad : Tree} {code : Byte} {len : Nat}
    (h : (bad.nodes.length < 2 ^ 32 ∧ bad.root < 2 ^ 32) ∧ 0 + len ≤ (secondHeader l).inLen.toNat ∧
      (∀ j < len, (secondHeader l).mem.read (0x1000 + 0 + j) =
        ([exampleTree].flatMap Tree.header ++ bad.header).getD j 0))
    (hc : code = 0x06 ∧ bad.nodes.length ≤ 255 ∧ 0 + len = (secondHeader l).inLen.toNat ∧ 20 ≤ len ∧
        len < 20 + bad.header.length ∨
      code = 0x07 ∧ 255 < bad.nodes.length ∧ len = 28 ∨
      code = 0x08 ∧ bad.nodes.length ≤ 255 ∧ ¬bad.Legal 256 ∧ len = 20 + bad.header.length) :
    BadHeader (secondHeader l) 0 [exampleTree] bad code len := by
  have hl : ([exampleTree].flatMap Tree.header).length = 20 := by decide +kernel
  refine ⟨by show 1 < 2; decide, fun t ht => ?_, h.1.1, h.1.2, h.2.1, readable_of_noDeny rfl _, h.2.2, ?_⟩
  · rw [List.mem_singleton.1 ht]
    exact exampleTree_legal
  · rw [hl]
    exact hc

theorem witness_HeaderCommandsStop_truncated :
    Inv (secondHeader (headerExample.take 11)) ∧
      BadHeader (secondHeader (headerExample.take 11)) 0 [exampleTree] exampleTree 0x06 31 :=
  ⟨inv_of_smallInv (by decide +kernel), secondHeader_bad (by decide +kernel) (.inl (by decide +kernel))⟩

theorem witness_HeaderCommandsStop_count :
    Inv (secondHeader [0, 1, 0, 0, 2, 0, 0, 0]) ∧
      BadHeader (secondHeader [0, 1, 0, 0, 2, 0, 0, 0]) 0 [exampleTree] ⟨2, List.replicate 256 ⟨0, 0⟩⟩ 0x07 28 :=
  ⟨inv_of_smallInv (by decide +kernel), secondHeader_bad (by decide +kernel) (.inr (.inl (by decide +kernel)))⟩

theorem witness_HeaderCommandsStop_reference :
    Inv (secondHeader [1, 0, 0, 0, 0, 0, 0, 0, 0, 0, 1, 0x80]) ∧
      BadHeader (secondHeader [1, 0, 0, 0, 0, 0, 0, 0, 0, 0, 1, 0x80]) 0 [exampleTree] ⟨0, [⟨0, 0x8001⟩]⟩ 0x08 32 := by
  refine ⟨inv_of_smallInv (by decide +kernel),
    secondHeader_bad (by decide +kernel) (.inr (.inr ⟨rfl, by decide, ?_, by decide +kernel⟩))⟩
  unfold Tree.Legal RefLegal
  decide

theorem witness_HeaderCommandsStop_decFrame (l : List Byte) (h : l.length ≤ 12) :
    FormatLegal (secondHeader l) ∧ InFits (secondHeader l) ∧ (secondHeader l).rd.bit = 0 ∧
      (secondHeader l).rd.ptr.toNat = 0 ∧ ModeLegal (secondHeader l) ∧ OutFits (secondHeader l) ∧ Apart (secondHeader l) ∧
      decodedBytes (secondHeader l) ≤ (secondHeader l).outCap.toNat := by
  have hlen : (BitVec.ofNat 32 (headerExample ++ l).length).toNat = 20 + l.length := by
    rw [BitVec.toNat_ofNat, List.length_append, show headerExample.length = 20 from rfl]
    omega
  refine ⟨⟨by show (0 : BitVec 2) ≠ 3; decide, by show 1 ≤ 2; decide, by show 2 ≤ 4; decide⟩, ?_, rfl, rfl, ?_, ?_,
    apart_of_before ?_, ?_⟩
  · show 0x1000 + (BitVec.ofNat 32 (headerExample ++ l).length).toNat ≤ 2 ^ 32
    omega
  · exact ⟨by show (0 : Nat) ≤ 10; decide, fun h => absurd h.1 (by show ¬(3 ≤ 0); decide),
      fun h => absurd h (by show ¬((0 : Nat) = 7 ∨ 0 = 8); decide), fun h => absurd h (by show ¬((0 : Nat) = 9 ∨ 0 = 10); decide)⟩
  · show (0x8000 : Word).toNat + (0x1000 : Word).toNat ≤ 2 ^ 32
    decide
  · show 0x1000 + (BitVec.ofNat 32 (headerExample ++ l).length).toNat ≤ 0x8000
    omega
  · show 2 * (4 * 2 * 1) ≤ 4096
    decide

/-! #### The packer and the reader -/

theorem room_of_noDeny {s : State} {n : Nat} (h : s.deny = [])
    (hc : s.pk.ptr.toNat + (s.pk.fill.toNat + n) / 8 ≤ s.outCap.toNat) : Room s n :=
  ⟨fun _ => hc, writable_of_noDeny h _ _⟩

theorem witness_PkBitsAppends :
    Inv { raw with pk := ⟨4088, 1, 1⟩, argLen := 63 } ∧ FormatLegal raw ∧ OutFits raw ∧
      (63 : BitVec 7).toNat ≤ 64 ∧ Room { raw with pk := ⟨4088, 1, 1⟩, argLen := 63 } 63 ∧ 64 < (65 : BitVec 7).toNat :=
  ⟨inv_of_smallInv (by decide +kernel), raw_format.1, raw_format.2.2, by decide,
    room_of_noDeny rfl (by decide +kernel), by decide⟩

theorem witness_PkBitsOverflows :
    Inv { raw with pk := ⟨4095, 1, 1⟩, argLen := 64 } ∧ FormatLegal raw ∧ OutFits raw ∧ (64 : BitVec 7).toNat ≤ 64 ∧
      14 < (64 : BitVec 7).toNat ∧
      (1 : BitVec 3).toNat + 14 = 8 * (raw.outCap.toNat - (4095 : Word).toNat) + 7 ∧ Writable raw 4095 4096 :=
  ⟨inv_of_smallInv (by decide +kernel), raw_format.1, raw_format.2.2, by decide, by decide, by decide +kernel,
    writable_of_noDeny rfl _ _⟩

theorem witness_PkFlushWritesPartialByte :
    Inv { raw with pk := ⟨4095, 6, 3⟩ } ∧ Inv { raw with pk := ⟨4096, 6, 3⟩ } ∧ FormatLegal raw ∧ OutFits raw ∧
      raw.pk.fill = 0 ∧ (3 : BitVec 3) ≠ 0 ∧ (4095 : Word).toNat < raw.outCap.toNat ∧
      raw.outCap.toNat ≤ (4096 : Word).toNat ∧ Writable raw 4095 4096 :=
  ⟨inv_of_smallInv (by decide +kernel), inv_of_smallInv (by decide +kernel), raw_format.1, raw_format.2.2, rfl, by decide,
    by decide +kernel, by decide +kernel, writable_of_noDeny rfl _ _⟩

theorem witness_EncSymAppendsCode :
    Inv (withCodes raw) ∧ FormatLegal raw ∧ OutFits raw ∧ argument { raw with argLo := 255 } < alphabet raw ∧
      ((withCodes raw).codeAt 0 255).valid = true ∧ ((withCodes raw).codeAt 1 255).valid = false ∧
      Room (withCodes raw) (codeBits ((withCodes raw).codeAt 0 255)).length ∧
      alphabet raw ≤ argument { raw with argLo := 256 } ∧
      (NoRoomAt { withCodes raw with pk := ⟨4096, 3, 6⟩, argLo := 255 } 1 ∧
        1 < (codeBits ((withCodes raw).codeAt 0 255)).length) :=
  ⟨inv_of_smallInv (by decide +kernel), raw_format.1, raw_format.2.2, by decide +kernel, by decide +kernel,
    by decide +kernel, room_of_noDeny rfl (by decide +kernel), by decide +kernel, by unfold NoRoomAt; decide +kernel,
    by decide +kernel⟩

theorem withCodes_valid : ∀ k < frameSamples (withCodes raw),
    ((withCodes raw).codeAt (channelOf (nch raw) k) (deltaAt (withCodes raw) k)).valid = true := by decide +kernel

theorem witness_PackScanAppendsCodes :
    Inv (withCodes raw) ∧ FormatLegal (withCodes raw) ∧ InFits (withCodes raw) ∧ OutFits (withCodes raw) ∧
      rawBytes (withCodes raw) ≤ (withCodes raw).inLen.toNat ∧ Apart (withCodes raw) ∧
      Readable (withCodes raw) (rawBytes (withCodes raw)) ∧
      (∀ k < frameSamples (withCodes raw),
        ((withCodes raw).codeAt (channelOf (nch raw) k) (deltaAt (withCodes raw) k)).valid = true) ∧
      Room (withCodes raw) (scanBits (withCodes raw) (frameSamples (withCodes raw))).length ∧
      (0 < frameSamples raw ∧ (raw.codeAt (channelOf (nch raw) 0) (deltaAt raw 0)).valid = false ∧
        Room raw (scanBits raw 0).length) :=
  ⟨inv_of_smallInv (by decide +kernel), raw_format.1, raw_format.2.1, raw_format.2.2, by decide +kernel, raw_apart,
    readable_of_noDeny rfl _, withCodes_valid, room_of_noDeny rfl (by decide +kernel), by decide +kernel,
    by decide +kernel, room_of_noDeny rfl (by decide +kernel)⟩

theorem witness_PackScanAppendsCodes_duty :
    (Inv (withCodes raw) ∧ InputKept (withCodes raw)) ∧ Inv changedInput ∧ Apart changedInput ∧ ¬InputKept changedInput :=
  ⟨⟨inv_of_smallInv (by decide +kernel), fun m hm => absurd hm (by simp [withCodes, raw, withInput, State.reset])⟩,
    changedInput_inv, raw_apart, changedInput_not_kept⟩

theorem witness_PackScanAppendsCodes_reset :
    Inv { changedInput with phase := .running, cmd := 0x24, script := [.rst] } ∧ decode 0x24 = .ok .packScan ∧
      ResetNext { changedInput with phase := .running, cmd := 0x24, script := [.rst] } [] :=
  ⟨inv_of_smallInv (by decide +kernel), by decide, .inl rfl⟩

theorem witness_PackScanAppendsCodes_overflow :
    NoRoomAt { withCodes raw with pk := ⟨4096, 0, 0⟩ } 7 ∧ 7 < (scanBits (withCodes raw) 8).length ∧
      Writable (withCodes raw) 4096 4096 :=
  ⟨by unfold NoRoomAt; decide +kernel, by decide +kernel, writable_of_noDeny rfl _ _⟩

theorem available_of_noDeny {s : State} {n : Nat} (h : s.deny = [])
    (hc : ∀ j < n, (s.rd.bit.toNat + j) % 8 = 0 → (readOffset s j).toNat < s.inLen.toNat) : Available s n := fun j hj hb =>
  ⟨hc j hj hb, by simp [State.memOk, h]⟩

theorem witness_RdBitsReadsStream :
    FormatLegal raw ∧ InFits raw ∧ (64 : BitVec 7).toNat ≤ 64 ∧ Available raw 64 ∧ 64 < (65 : BitVec 7).toNat :=
  ⟨raw_format.1, raw_format.2.1, by decide, available_of_noDeny rfl (by decide +kernel), by decide⟩

theorem witness_RdBitsUnderruns :
    FormatLegal raw ∧ InFits raw ∧ (64 : BitVec 7).toNat ≤ 64 ∧ 61 < (64 : BitVec 7).toNat ∧
      Available { raw with rd := ⟨0, 3, 0x9B⟩ } 61 ∧ EndsAt { raw with rd := ⟨0, 3, 0x9B⟩ } 61 :=
  ⟨raw_format.1, raw_format.2.1, by decide, by decide, available_of_noDeny rfl (by decide +kernel), by
    unfold EndsAt
    decide +kernel⟩

theorem witness_PackedBitsReadBack :
    Inv raw ∧ raw.err = false ∧ FormatLegal raw ∧ OutFits raw ∧
      (∀ e ∈ [((0x3FF : BitVec 64), (10 : BitVec 7)), (5, 64), (9, 0)], e.2.toNat ≤ 64) ∧
      (([((0x3FF : BitVec 64), (10 : BitVec 7)), (5, 64), (9, 0)].map fun e => e.2.toNat).sum ≤ 8 * raw.outCap.toNat) ∧
      Writable raw 0 raw.outCap.toNat ∧
      (∀ t, (reader 10 t).err = false ∧ FormatLegal (reader 10 t) ∧ InFits (reader 10 t) ∧
        (reader 10 t).inAddr = raw.outAddr ∧ ((([10, 64, 0] : List (BitVec 7)).map fun n => n.toNat).sum + 7) / 8 ≤
          (reader 10 t).inLen.toNat ∧ Readable (reader 10 t) (reader 10 t).inLen.toNat) :=
  ⟨raw_inv, rfl, raw_format.1, raw_format.2.2, by simp, by simp [raw, withInput], writable_of_noDeny rfl _ _, fun t =>
    ⟨rfl, raw_format.1, by
      show (0x8000 : Word).toNat + (10 : Word).toNat ≤ 2 ^ 32
      decide +kernel, rfl, by
      show _ ≤ (10 : Word).toNat
      decide +kernel, readable_of_noDeny rfl _⟩⟩

/-- The code bits of the example of R140 as input, with the example tree. -/
def codeBitsState : State := withTree (withInput [0x9B, 0xC0])

theorem witness_DecSymFollowsTree :
    FormatLegal codeBitsState ∧ InFits codeBitsState ∧ (treeOf codeBitsState 0).Legal (alphabet codeBitsState) ∧
      ((treeOf codeBitsState 0).CodePath 10 (streamBits codeBitsState 2) ∧ Available codeBitsState 2) ∧
      ((treeOf codeBitsState 1).CodePath 0 (streamBits codeBitsState 0) ∧ Available codeBitsState 0) := by
  have ht : treeOf codeBitsState 0 = exampleTree := by decide +kernel
  have hd : treeOf codeBitsState 1 = ⟨0, []⟩ := by decide +kernel
  have hb : streamBits codeBitsState 2 = [true, false] := by decide +kernel
  rw [ht, hd, hb]
  refine ⟨⟨by decide, by decide, by decide⟩, by unfold InFits; decide +kernel, exampleTree_legal,
    ⟨codePath_intro (r := 10) (by decide) (by decide) (by decide) (by decide),
      available_of_noDeny rfl (by decide +kernel)⟩, ?_, available_of_noDeny rfl (by decide +kernel)⟩
  unfold Tree.CodePath
  decide

/-- The same tree with an empty input region. -/
def emptyStream : State := withTree (withInput [])

theorem witness_DecSymFollowsTree_underrun :
    (treeOf emptyStream 0).nodes ≠ [] ∧
      (∀ m ≤ 0, ¬∃ sym, (treeOf emptyStream 0).CodePath sym (streamBits emptyStream m)) ∧
      Available emptyStream 0 ∧ EndsAt emptyStream 0 := by
  have ht : treeOf emptyStream 0 = exampleTree := by decide +kernel
  rw [ht]
  refine ⟨by decide, ?_, available_of_noDeny rfl (by decide +kernel), by
    unfold EndsAt
    decide +kernel⟩
  rintro m hm ⟨sym, h⟩
  obtain rfl : m = 0 := by omega
  rw [show streamBits emptyStream 0 = [] from rfl] at h
  unfold Tree.CodePath at h
  rw [if_neg (show exampleTree.nodes ≠ [] by decide)] at h
  obtain ⟨r, hr, -⟩ := h
  simp [Tree.follow] at hr

/-! #### Scans, frames and the copy -/

/-- The deltas of the example frame and their code paths (R94, R106). -/
def exampleDelta (k : Nat) : Nat := [10, 0, 2, 255, 10, 0, 0, 0].getD k 0

def examplePath (k : Nat) : List Bool :=
  [[true, false], [false], [true, true, false], [true, true, true], [true, false], [false], [false], [false]].getD k []

def exampleBits : List Bool := (List.range 8).flatMap examplePath

theorem example_codePath (k : Nat) (hk : k < 8) : exampleTree.CodePath (exampleDelta k) (examplePath k) := by
  have hf : exampleTree.follow (examplePath k) exampleTree.root = some (BitVec.ofNat 16 (exampleDelta k)) ∧
      (BitVec.ofNat 16 (exampleDelta k)).toNat < 0x8000 ∧
      (BitVec.ofNat 16 (exampleDelta k)).toNat = exampleDelta k := by
    revert k
    decide +kernel
  exact codePath_intro (by decide) hf.1 hf.2.1 hf.2.2

theorem channelOf_one (k : Nat) : channelOf 1 k = 0 := by simp [channelOf, Nat.mod_one]

/-- The reader at the code bits, the example tree loaded. -/
def decoding : State := withTree { stream with rd := ⟨20, 0, 0⟩ }

theorem witness_DecScanWritesFrame :
    Inv decoding ∧ FormatLegal decoding ∧ ModeLegal decoding ∧ InFits decoding ∧ OutFits decoding ∧
      decodedBytes decoding ≤ decoding.outCap.toNat ∧
      (∀ c : Ch, c.val < nch decoding → (treeOf decoding c).Legal (alphabet decoding)) ∧ Apart decoding ∧
      Writable decoding 0 (decodedBytes decoding) ∧ FrameCode decoding (treeOf decoding) exampleDelta exampleBits ∧
      Available decoding exampleBits.length ∧ streamBits decoding exampleBits.length = exampleBits := by
  refine ⟨inv_of_smallInv (by decide +kernel), stream_format.1, ?_, stream_format.2.1, stream_format.2.2,
    by decide +kernel, withTree_legal _ rfl rfl, apart_of_before (by decide +kernel), writable_of_noDeny rfl _ _,
    ⟨examplePath, rfl, fun k hk => ?_⟩, available_of_noDeny rfl (by decide +kernel), by decide +kernel⟩
  · unfold ModeLegal
    decide
  · have h8 : k < 8 := hk
    rw [show channelOf (nch decoding) k = 0 from channelOf_one k, show treeOf decoding 0 = exampleTree by decide +kernel]
    exact example_codePath k h8

/-- The same with the input region cut after its first code byte. -/
def decodingCut : State := withTree { withInput (streamExample.take 21) with rd := ⟨20, 0, 0⟩ }

theorem witness_DecScanWritesFrame_underrun :
    Inv decodingCut ∧ 8 < exampleBits.length ∧ Available decodingCut 8 ∧ streamBits decodingCut 8 = exampleBits.take 8 ∧
      EndsAt decodingCut 8 :=
  ⟨inv_of_smallInv (by decide +kernel), by decide, available_of_noDeny rfl (by decide +kernel), by decide +kernel, by
    unfold EndsAt
    decide +kernel⟩

/-- The stream cut likewise. -/
def streamCut : State := withInput (streamExample.take 21)

theorem witness_DecFrameWritesFrame_underrun :
    Inv streamCut ∧ streamCut.inLen.toNat < ([exampleTree].flatMap Tree.header).length + (exampleBits.length + 7) / 8 ∧
      ([exampleTree].flatMap Tree.header).length ≤ streamCut.inLen.toNat ∧
      ∀ j < exampleBits.length, ([exampleTree].flatMap Tree.header).length + j / 8 < streamCut.inLen.toNat →
        bitOfByte (streamCut.mem.read (streamCut.inAddr.toNat + ([exampleTree].flatMap Tree.header).length + j / 8)) j =
          exampleBits.getD j false :=
  ⟨inv_of_smallInv (by decide +kernel), by decide +kernel, by decide +kernel, by decide +kernel⟩

theorem witness_DecFrameWritesFrame :
    Inv stream ∧ FormatLegal stream ∧ ModeLegal stream ∧ InFits stream ∧ OutFits stream ∧
      decodedBytes stream ≤ stream.outCap.toNat ∧ Apart stream ∧ Writable stream 0 (decodedBytes stream) ∧
      [exampleTree].length = nch stream ∧ (∀ t ∈ [exampleTree], t.Legal (alphabet stream)) ∧
      BytesAt stream.mem stream.inAddr.toNat ([exampleTree].flatMap Tree.header) ∧
      FrameCode stream (fun c => [exampleTree].getD c.val ⟨0, []⟩) exampleDelta exampleBits ∧
      ([exampleTree].flatMap Tree.header).length + (exampleBits.length + 7) / 8 ≤ stream.inLen.toNat ∧
      Readable stream stream.inLen.toNat ∧
      (∀ j < exampleBits.length,
        bitOfByte (stream.mem.read (stream.inAddr.toNat + ([exampleTree].flatMap Tree.header).length + j / 8)) j =
          exampleBits.getD j false) := by
  refine ⟨stream_inv, stream_format.1, ?_, stream_format.2.1, stream_format.2.2, by decide +kernel,
    apart_of_before (by decide +kernel), writable_of_noDeny rfl _ _, rfl, fun t ht => by
    rw [List.mem_singleton.1 ht]
    exact exampleTree_legal, stream_header,
    ⟨examplePath, rfl, fun k hk => ?_⟩, by decide +kernel, readable_of_noDeny rfl _, by decide +kernel⟩
  · unfold ModeLegal
    decide
  · have h8 : k < 8 := hk
    rw [show channelOf (nch stream) k = 0 from channelOf_one k]
    exact example_codePath k h8

theorem witness_PassthruCopies :
    Inv raw ∧ FormatLegal raw ∧ InFits raw ∧ OutFits raw ∧ raw.inLen.toNat = rawBytes raw ∧
      rawBytes raw ≤ raw.outCap.toNat ∧ Apart raw ∧ Readable raw (rawBytes raw) ∧ Writable raw 0 (rawBytes raw) :=
  ⟨raw_inv, raw_format.1, raw_format.2.1, raw_format.2.2, by decide +kernel, by decide +kernel, raw_apart,
    readable_of_noDeny rfl _, writable_of_noDeny rfl _ _⟩

theorem witness_EncFrameWritesStream :
    Inv raw ∧ FormatLegal raw ∧ InFits raw ∧ OutFits raw ∧ rawBytes raw ≤ raw.inLen.toNat ∧ Apart raw ∧
      Readable raw (rawBytes raw) ∧ Writable raw 0 raw.outCap.toNat ∧
      nch raw * (8 + 4 * (alphabet raw - 1)) + 8 * frameSamples raw ≤ raw.outCap.toNat :=
  ⟨raw_inv, raw_format.1, raw_format.2.1, raw_format.2.2, by decide +kernel, raw_apart, readable_of_noDeny rfl _,
    writable_of_noDeny rfl _ _, by decide +kernel⟩

theorem witness_EncFrameStaysInBound :
    Inv raw ∧ raw.err = false ∧ raw.errCode = 0 ∧ FormatLegal raw ∧ InFits raw ∧ OutFits raw ∧
      rawBytes raw ≤ raw.inLen.toNat ∧ Apart raw ∧ Readable raw (rawBytes raw) ∧ Writable raw 0 raw.outCap.toNat ∧
      rawBytes raw + nch raw * (8 + 4 * (alphabet raw - 1)) ≤ raw.outCap.toNat :=
  ⟨raw_inv, rfl, rfl, raw_format.1, raw_format.2.1, raw_format.2.2, by decide +kernel, raw_apart, readable_of_noDeny rfl _,
    writable_of_noDeny rfl _ _, by decide +kernel⟩

theorem witness_EncFrameStaysInBound_overflow :
    ∃ t, exec .encFrame raw = .next t ∧ t.err = false ∧ (21 : Word).toNat < t.outSize.toNat := by
  have h : ((after (exec .encFrame raw)).map fun t => !t.err && decide (21 < t.outSize.toNat)) = some true := by
    decide +kernel
  cases ho : exec .encFrame raw with
  | next t =>
    rw [ho] at h
    have h := Option.some.inj h
    simp only [Bool.and_eq_true, Bool.not_eq_true', decide_eq_true_eq] at h
    exact ⟨t, rfl, h.1, h.2⟩
  | fault f => rw [ho] at h; exact absurd h (by simp [after])
  | refused r => rw [ho] at h; exact absurd h (by simp [after])

theorem witness_EncFrameOfEmptyFrame :
    Inv { raw with width := 0, outCap := 8 } ∧ FormatLegal raw ∧ InFits raw ∧ OutFits { raw with width := 0, outCap := 8 } ∧
      Apart { raw with width := 0, outCap := 8 } ∧ 8 * nch raw ≤ (8 : Word).toNat ∧ Writable raw 0 (8 * nch raw) :=
  ⟨inv_of_smallInv (by decide +kernel), raw_format.1, raw_format.2.1, by unfold OutFits; decide +kernel,
    apart_of_before (by decide +kernel), by decide, writable_of_noDeny rfl _ _⟩

theorem witness_FramesRoundTrip :
    Inv raw ∧ raw.err = false ∧ ∃ t, exec .encFrame raw = .next t ∧ t.err = false ∧ Inv (reader 22 t) ∧
      (reader 22 t).cfg = { raw.cfg with mode := if raw.cfg.packed then 1 else 0 } ∧
      (reader 22 t).width = raw.width ∧ (reader 22 t).height = raw.height ∧ (reader 22 t).inAddr = raw.outAddr ∧
      t.outSize.toNat ≤ (reader 22 t).inLen.toNat ∧ InFits (reader 22 t) ∧ OutFits (reader 22 t) ∧
      rawBytes raw ≤ (reader 22 t).outCap.toNat ∧ Apart (reader 22 t) ∧
      Readable (reader 22 t) (reader 22 t).inLen.toNat ∧ Writable (reader 22 t) 0 (rawBytes raw) := by
  refine ⟨raw_inv, rfl, ?_⟩
  have h : ((after (exec .encFrame raw)).map fun t =>
      !t.err && smallInv (reader 22 t) && decide (t.outSize.toNat = 22)) = some true := by decide +kernel
  cases ho : exec .encFrame raw with
  | next t =>
    rw [ho] at h
    have h := Option.some.inj h
    simp only [Bool.and_eq_true, Bool.not_eq_true', decide_eq_true_eq] at h
    refine ⟨t, rfl, h.1.1, inv_of_smallInv h.1.2, rfl, rfl, rfl, rfl, ?_, ?_, ?_, show rawBytes raw ≤ 4096 by decide +kernel,
      apart_of_before ?_, readable_of_noDeny rfl _, writable_of_noDeny rfl _ _⟩
    · rw [h.2]
      show 22 ≤ (22 : Word).toNat
      decide
    · show (0x8000 : Word).toNat + (22 : Word).toNat ≤ 2 ^ 32
      decide +kernel
    · show (0x20000 : Word).toNat + (0x1000 : Word).toNat ≤ 2 ^ 32
      decide +kernel
    · show (0x8000 : Word).toNat + (22 : Word).toNat ≤ (0x20000 : Word).toNat
      decide +kernel
  | fault f => rw [ho] at h; exact absurd h (by simp [after])
  | refused r => rw [ho] at h; exact absurd h (by simp [after])

theorem witness_FrameCommandsIgnoreStaleTables :
    Inv raw ∧ Inv (withCodes (withTree raw)) ∧
      withCodes (withTree raw) = { raw with
        tree := (withTree raw).tree, code := (withCodes raw).code, ncount := (withTree raw).ncount
        root := (withTree raw).root } ∧
      raw.err = false ∧ (∃ t, exec .encFrame raw = .next t ∧ t.err = false) ∧
      ∃ t, exec .decFrame stream = .next t ∧ t.err = false :=
  ⟨raw_inv, inv_of_smallInv (by decide +kernel), rfl, rfl, exists_clean (by decide +kernel),
    exists_clean (by decide +kernel)⟩

theorem witness_RefusedAccessesStop_any :
    Inv raw ∧ raw.err = false ∧ (∃ t, exec .passthru { raw with deny := [] } = .next t ∧ t.err = false) ∧
      (∀ t, Accesses .passthru raw t .write 0x8007 ∧ Accesses .passthru raw t .read 0x1000) ∧
      ({ raw with deny := [⟨.write, 0x8007, 0x8008⟩] } : State).memOk .write 0x8007 = false :=
  ⟨raw_inv, rfl, exists_clean (by decide +kernel), fun t => ⟨⟨7, Nat.zero_le _, by
    show 7 < rawBytes raw
    decide +kernel, rfl⟩, ⟨0, Nat.zero_le _, by
    show 0 < rawBytes raw
    decide +kernel, rfl⟩⟩, by decide +kernel⟩

theorem witness_RefusedAccessesStop :
    Inv { raw with pk := ⟨0, 1, 1⟩, deny := [⟨.write, 0x8000, 0x8001⟩] } ∧ FormatLegal raw ∧ InFits raw ∧ OutFits raw ∧
      ({ raw with pk := ⟨0, 1, 1⟩, deny := [⟨.write, 0x8000, 0x8001⟩] } : State).memOk .write (0x8000 + 0) = false ∧
      ({ raw with deny := [⟨.read, 0x1000, 0x1001⟩] } : State).memOk .read (0x1000 + 0) = false ∧ raw.rd.bit = 0 ∧
      ({ raw with pk := ⟨0, 1, 1⟩ } : State).pk.fill ≠ 0 ∧ 1 ≤ (64 : BitVec 7).toNat ∧ (64 : BitVec 7).toNat ≤ 64 :=
  ⟨inv_of_smallInv (by decide +kernel), raw_format.1, raw_format.2.1, raw_format.2.2, by decide +kernel, by decide +kernel,
    rfl, by decide, by decide, by decide⟩

end Sys2Proof.Tests
end

section
/-! SUPPORT. Which accesses of external memory a completing command makes, and what MEM_OK does to a command that makes them
(R15, R61, R152). -/

namespace Sys2Proof.Machine

/-! ### Footprints -/

/-- A set of accesses: kinds and addresses. -/
abbrev Foot := Set (AccessKind × Nat)

/-- The accesses of `F k` for every `lo ≤ k < hi`. -/
def Foot.range (F : Nat → Foot) (lo hi : Nat) : Foot := {p | ∃ k, lo ≤ k ∧ k < hi ∧ p ∈ F k}

/-- The read of offset `k` of the input region. -/
def State.readAt (r : State) (k : Nat) : Foot := {(.read, r.inAddr.toNat + k)}

/-- The write of offset `k` of the output region. -/
def State.writeAt (r : State) (k : Nat) : Foot := {(.write, r.outAddr.toNat + k)}

namespace Foot

variable (F G : Nat → Foot)

@[simp] theorem range_self (k : Nat) : range F k k = ∅ := by
  ext p
  simp only [range, Set.mem_ofPred_eq, Set.mem_empty_iff_false, iff_false]
  rintro ⟨i, h1, h2, -⟩
  omega

@[simp] theorem range_empty (lo hi : Nat) : range (fun _ => ∅) lo hi = ∅ := by
  ext p
  simp [range]

theorem range_succ (k : Nat) : range F k (k + 1) = F k := by
  ext p
  constructor
  · rintro ⟨i, h1, h2, h⟩
    rwa [show i = k by omega] at h
  · exact fun h => ⟨k, le_rfl, Nat.lt_succ_self k, h⟩

theorem range_append {lo mid hi : Nat} (h1 : lo ≤ mid) (h2 : mid ≤ hi) : range F lo mid ∪ range F mid hi = range F lo hi := by
  ext p
  constructor
  · rintro (⟨i, h3, h4, h⟩ | ⟨i, h3, h4, h⟩)
    · exact ⟨i, h3, by omega, h⟩
    · exact ⟨i, by omega, h4, h⟩
  · rintro ⟨i, h3, h4, h⟩
    by_cases hi : i < mid
    · exact .inl ⟨i, h3, hi, h⟩
    · exact .inr ⟨i, by omega, h4, h⟩

theorem range_union (lo hi : Nat) : range (fun k => F k ∪ G k) lo hi = range F lo hi ∪ range G lo hi := by
  ext p
  constructor
  · rintro ⟨i, h1, h2, h | h⟩
    · exact .inl ⟨i, h1, h2, h⟩
    · exact .inr ⟨i, h1, h2, h⟩
  · rintro (⟨i, h1, h2, h⟩ | ⟨i, h1, h2, h⟩)
    · exact ⟨i, h1, h2, .inl h⟩
    · exact ⟨i, h1, h2, .inr h⟩

theorem range_shift (b lo hi : Nat) : range (fun k => F (b + k)) lo hi = range F (b + lo) (b + hi) := by
  ext p
  constructor
  · rintro ⟨i, h1, h2, h⟩
    exact ⟨b + i, by omega, by omega, h⟩
  · rintro ⟨i, h1, h2, h⟩
    exact ⟨i - b, by omega, by omega, show p ∈ F (b + (i - b)) by rwa [Nat.add_sub_cancel' (by omega)]⟩

/-- Consecutive blocks of `n`. -/
theorem range_blocks (n lo hi : Nat) :
    range (fun x => range F (x * n) ((x + 1) * n)) lo hi = range F (lo * n) (hi * n) := by
  ext p
  constructor
  · rintro ⟨x, h1, h2, i, h3, h4, h⟩
    exact ⟨i, (Nat.mul_le_mul_right n h1).trans h3, h4.trans_le (Nat.mul_le_mul_right n h2), h⟩
  · rintro ⟨i, h1, h2, h⟩
    have hn : 0 < n := Nat.pos_of_ne_zero fun h0 => by simp [h0] at h2
    exact ⟨i / n, (Nat.le_div_iff_mul_le hn).2 h1, (Nat.div_lt_iff_lt_mul hn).2 h2, i, Nat.div_mul_le_self i n,
      Nat.lt_mul_of_div_lt (Nat.lt_succ_self _) hn, h⟩

theorem range_flip (n : Nat) : range (fun k => F (n - 1 - k)) 0 n = range F 0 n := by
  ext p
  constructor
  · rintro ⟨i, -, h1, h⟩
    exact ⟨n - 1 - i, Nat.zero_le _, by omega, h⟩
  · rintro ⟨i, -, h1, h⟩
    exact ⟨n - 1 - i, Nat.zero_le _, by omega, show p ∈ F (n - 1 - (n - 1 - i)) by rwa [Nat.sub_sub_self (by omega)]⟩

/-- Parts of size `1 / d`: those below `n` are of the offsets below `n / d`, rounded up. -/
theorem range_parts (d : Nat) (hd : 0 < d) (n : Nat) : range (fun i => F (i / d)) 0 n = range F 0 ((n + d - 1) / d) := by
  ext p
  constructor
  · rintro ⟨i, -, h1, h⟩
    refine ⟨i / d, Nat.zero_le _, (Nat.le_div_iff_mul_le hd).2 ?_, h⟩
    rw [Nat.succ_mul]
    have := Nat.div_mul_le_self i d
    omega
  · rintro ⟨q, -, h1, h⟩
    have := (Nat.le_div_iff_mul_le hd).1 h1
    rw [Nat.succ_mul] at this
    exact ⟨q * d, Nat.zero_le _, by omega, show p ∈ F (q * d / d) by rwa [Nat.mul_div_cancel q hd]⟩

end Foot

/-! ### A run that completes, under every MEM_OK -/

variable {α β : Type}

/-- `s` on a platform whose MEM_OK is given by `D`. -/
def State.under (D : List Deny) (s : State) : State := { s with deny := D }

@[simp] theorem State.memOk_under_nil (s : State) (k : AccessKind) (a : Nat) : (s.under []).memOk k a = true := rfl

theorem State.under_nil {s : State} (h : s.deny = []) : s.under [] = s := by
  rw [← h]
  rfl

/-- From `s`, `m` completes in `t` with the accesses `A`, and MEM_OK decides nothing but this: it completes alike where MEM_OK
accepts them, and raises BUS_ERROR at a refused one where not. -/
structure Touches (A : Foot) (m : Cmd α) (s : State) (a : α) (t : State) : Prop where
  accepted : ∀ D, (∀ p ∈ A, (s.under D).memOk p.1 p.2 = true) → m (s.under D) = .ok a (t.under D)
  refused : ∀ D, ∀ p ∈ A, (s.under D).memOk p.1 p.2 = false → ∃ q ∈ A, (s.under D).memOk q.1 q.2 = false ∧
    ∃ u, m (s.under D) = .error (.raise .busError (BitVec.ofNat 32 q.2)) u

theorem Touches.none {m : Cmd α} {s t : State} {a : α} (h : ∀ D, m (s.under D) = .ok a (t.under D)) :
    Touches ∅ m s a t := ⟨fun D _ => h D, fun _ _ hp => hp.elim⟩

/-- One access. -/
theorem Touches.port {m : Cmd α} {s t : State} {a : α} {k : AccessKind} {x : Nat}
    (h : ∀ D, m (s.under D) = if (s.under D).memOk k x then .ok a (t.under D)
      else .error (.raise .busError (BitVec.ofNat 32 x)) (s.under D)) :
    Touches {(k, x)} m s a t where
  accepted D hD := by
    rw [h, if_pos (hD _ rfl)]
  refused D p hp hD := by
    cases hp
    exact ⟨_, rfl, hD, _, by rw [h, hD]; rfl⟩

/-- A sequence makes the accesses of both parts: the second part runs only where none of the first is refused. -/
theorem Touches.bind {A B : Foot} {m : Cmd α} {f : α → Cmd β} {s t u : State} {a : α} {b : β} (hm : Touches A m s a t)
    (hf : Touches B (f a) t b u) : Touches (A ∪ B) (m >>= f) s b u where
  accepted D hD := Cmd.bind_ok.2
    ⟨a, _, hm.accepted D fun p hp => hD p (.inl hp), hf.accepted D fun p hp => hD p (.inr hp)⟩
  refused D p hp hD := by
    by_cases hA : ∃ q ∈ A, (s.under D).memOk q.1 q.2 = false
    · obtain ⟨q, hq, hqD⟩ := hA
      obtain ⟨q', hq', hqD', v, hv⟩ := hm.refused D q hq hqD
      exact ⟨q', .inl hq', hqD', v, Cmd.bind_error.2 (.inl hv)⟩
    · have hok : ∀ q ∈ A, (s.under D).memOk q.1 q.2 = true := fun q hq => by simpa using fun h => hA ⟨q, hq, h⟩
      have hpB : p ∈ B := hp.resolve_left fun h => hA ⟨p, h, hD⟩
      obtain ⟨q, hq, hqD, v, hv⟩ := hf.refused D p hpB hD
      exact ⟨q, .inr hq, hqD, v, Cmd.bind_error.2 (.inr ⟨a, _, hm.accepted D hok, hv⟩)⟩

/-! ### What a command's pseudocode touches, whatever state of a given setup it runs from -/

/-- The registers a command reads and none writes. -/
structure Setup where
  cfg : Cfg
  width : BitVec 16
  height : BitVec 16
  inAddr : Word
  inLen : Word
  outAddr : Word
  outCap : Word

/-- The setup in state `s`. -/
def State.setup (s : State) : Setup := ⟨s.cfg, s.width, s.height, s.inAddr, s.inLen, s.outAddr, s.outCap⟩

/-- What tells how far a command has come in its streams: the reader, the packer and OUT_SIZE. -/
structure Marks where
  rd : Reader
  pk : Packer
  out : Word

/-- The marks in state `s`. -/
def State.marks (s : State) : Marks := ⟨s.rd, s.pk, s.outSize⟩

/-- `s` is a state of a command that runs from `r`, over a memory that accepts every access. -/
structure SameSetup (r s : State) : Prop where
  setup : s.setup = r.setup
  deny : s.deny = []

namespace SameSetup

variable {r s : State} (h : SameSetup r s)
include h

theorem cfg : s.cfg = r.cfg := congrArg Setup.cfg h.setup
theorem width : s.width = r.width := congrArg Setup.width h.setup
theorem height : s.height = r.height := congrArg Setup.height h.setup
theorem inAddr : s.inAddr = r.inAddr := congrArg Setup.inAddr h.setup
theorem outAddr : s.outAddr = r.outAddr := congrArg Setup.outAddr h.setup
theorem nch : s.nch = r.nch := by rw [State.nch, State.nch, h.cfg]
theorem bw : s.bw = r.bw := by rw [State.bw, State.bw, h.cfg]
theorem outMode : s.outMode = r.outMode := by rw [State.outMode, State.outMode, h.cfg]
theorem rawSize : s.rawSize = r.rawSize := by
  simp only [State.rawSize, State.samples, State.unit, h.cfg, h.width, h.height, h.nch, h.bw]
theorem bytesPerRow : s.bytesPerRow = r.bytesPerRow := by
  simp only [State.bytesPerRow, State.unit, h.outMode, h.width, h.nch, h.bw]

theorem outRow (k : Nat) : s.outRow k = r.outRow k := by simp only [State.outRow, h.outMode, h.height]
theorem modeOk : s.modeOk = r.modeOk := by simp only [State.modeOk, h.cfg, h.nch, h.width]
theorem cfgOk : s.cfgOk = r.cfgOk := by simp only [State.cfgOk, h.cfg, h.nch]
theorem readAt (k : Nat) : r.readAt k = {(.read, s.inAddr.toNat + k)} := by rw [State.readAt, h.inAddr]
theorem writeAt (k : Nat) : r.writeAt k = {(.write, s.outAddr.toNat + k)} := by rw [State.writeAt, h.outAddr]

theorem memOk (k : AccessKind) (a : Nat) : s.memOk k a = true := by simp [State.memOk, h.deny]

end SameSetup

/-- How far the streams have come: the offset of the input region reading has come to, that of the output region writing has
come to. -/
structure View where
  rd : Marks → Nat
  pk : Marks → Nat

/-- The accesses of the streams from `s`, seen by `v`, to `t`, seen by `w`. -/
def View.foot (r : State) (v w : View) (s t : Marks) : Foot :=
  .range r.readAt (v.rd s) (w.rd t) ∪ .range r.writeAt (v.pk s) (w.pk t)

section Foot

variable {r : State} {v w : View} {s t : Marks}

theorem View.foot_none (hrd : w.rd t = v.rd s) (hpk : w.pk t = v.pk s) : v.foot r w s t = ∅ := by simp [View.foot, hrd, hpk]

theorem View.foot_read (hrd : w.rd t = v.rd s + 1) (hpk : w.pk t = v.pk s) : v.foot r w s t = r.readAt (v.rd s) := by
  simp [View.foot, hrd, hpk, Foot.range_succ]

theorem View.foot_write (hrd : w.rd t = v.rd s) (hpk : w.pk t = v.pk s + 1) : v.foot r w s t = r.writeAt (v.pk s) := by
  simp [View.foot, hrd, hpk, Foot.range_succ]

end Foot

/-- What `Traces` says of one run of `m`, from `s` to its answer `a` in `t`. -/
structure Traced (r : State) (v w : View) (E : Foot) (m : Cmd α) (s : State) (a : α) (t : State) : Prop where
  same : SameSetup r t
  rd : v.rd s.marks ≤ w.rd t.marks
  pk : v.pk s.marks ≤ w.pk t.marks
  touches : Touches (E ∪ v.foot r w s.marks t.marks) m s a t

section Run

variable {r s t x : State} {v w : View} {E : Foot} {m : Cmd α} {a b : α}

/-- A run that makes no access. -/
theorem Traced.of_run (hs : SameSetup r s) (hrun : ∀ D, m (s.under D) = .ok b (x.under D)) (hx : x.setup = s.setup)
    (hrd : w.rd x.marks = v.rd s.marks) (hpk : w.pk x.marks = v.pk s.marks) (h : m s = .ok a t) :
    Traced r v w ∅ m s a t := by
  have hok := hrun []
  rw [State.under_nil hs.deny, h] at hok
  cases hok
  refine ⟨⟨hx.trans hs.setup, rfl⟩, hrd.ge, hpk.ge, ?_⟩
  rw [show v.foot r w s.marks (x.under []).marks = ∅ from View.foot_none hrd hpk, Set.empty_union]
  exact Touches.none hrun

/-- A run that makes one access. -/
theorem Traced.of_port {k : AccessKind} {p : Nat} (hs : SameSetup r s)
    (hrun : ∀ D, m (s.under D) = if (s.under D).memOk k p then .ok b (x.under D)
      else .error (.raise .busError (BitVec.ofNat 32 p)) (s.under D))
    (hx : x.setup = s.setup) (hrd : v.rd s.marks ≤ w.rd x.marks) (hpk : v.pk s.marks ≤ w.pk x.marks)
    (hfoot : E ∪ v.foot r w s.marks x.marks = {(k, p)}) (h : m s = .ok a t) : Traced r v w E m s a t := by
  have hok := hrun []
  rw [if_pos (State.memOk_under_nil s k p), State.under_nil hs.deny, h] at hok
  cases hok
  refine ⟨⟨hx.trans hs.setup, rfl⟩, hrd, hpk, ?_⟩
  rw [show E ∪ v.foot r w s.marks (x.under []).marks = _ from hfoot]
  exact Touches.port hrun

end Run

/-- Where `m` completes, it touches the accesses `E` and those over which its streams move. -/
def Traces (r : State) (v w : View) (E : Foot) (m : Cmd α) : Prop :=
  ∀ s a t, SameSetup r s → m s = .ok a t → Traced r v w E m s a t

section Rules

variable {r : State} {u v w : View} {E F : Foot} {m : Cmd α} {f : α → Cmd β}

/-- Of the second part, only the answers that the first can give matter. -/
theorem Traces.bind_of_ok (hm : Traces r u v E m) (hf : ∀ a s t, SameSetup r s → m s = .ok a t → Traces r v w F (f a)) :
    Traces r u w (E ∪ F) (m >>= f) := fun s b t hs h => by
  obtain ⟨a, x, hx, ht⟩ := Cmd.bind_ok.1 h
  have h1 := hm s a x hs hx
  have h2 := hf a s x hs hx x b t h1.same ht
  refine ⟨h2.same, h1.rd.trans h2.rd, h1.pk.trans h2.pk, ?_⟩
  have hfoot : E ∪ F ∪ u.foot r w s.marks t.marks =
      (E ∪ u.foot r v s.marks x.marks) ∪ (F ∪ v.foot r w x.marks t.marks) := by
    rw [View.foot, ← Foot.range_append _ h1.rd h2.rd, ← Foot.range_append _ h1.pk h2.pk, View.foot, View.foot]
    ac_rfl
  rw [hfoot]
  exact h1.touches.bind h2.touches

theorem Traces.bind (hm : Traces r u v E m) (hf : ∀ a, Traces r v w F (f a)) : Traces r u w (E ∪ F) (m >>= f) :=
  hm.bind_of_ok fun a _ _ _ _ => hf a

theorem Traces.cast (h : Traces r v w E m) (he : E = F) : Traces r v w F m := he ▸ h

theorem Traces.seq (hm : Traces r u v ∅ m) (hf : ∀ a, Traces r v w E (f a)) : Traces r u w E (m >>= f) :=
  (hm.bind hf).cast (Set.empty_union E)

theorem Traces.pure (a : α) : Traces r v v ∅ (pure a : Cmd α) := fun _ _ _ hs h =>
  .of_run hs (fun _ => rfl) rfl rfl rfl h

theorem Traces.throw (e : Stop) : Traces r v w E (throw e : Cmd α) := fun _ _ _ _ h => nomatch h

theorem Traces.raise (e : ErrCode) (info : Word) : Traces r v w E (raise e info : Cmd α) := fun _ _ _ _ h => nomatch h

/-- `f` changes no setup, looks at no MEM_OK, and moves no stream. -/
def Shifts (v w : View) (f : State → State) : Prop := ∀ s,
  (∀ D, f (s.under D) = (f s).under D) ∧ (f s).setup = s.setup ∧ w.rd (f s).marks = v.rd s.marks ∧
    w.pk (f s).marks = v.pk s.marks

theorem Traces.modify {f : State → State} (hf : Shifts v w f) : Traces r v w ∅ (modify f : Cmd Unit) := fun s _ _ hs h =>
  have ⟨hunder, hsetup, hrd, hpk⟩ := hf s
  .of_run hs (fun D => by rw [Cmd.modify_run, hunder]) hsetup hrd hpk h

/-- What follows a read of the state may set the state that was read: `g s` is what it does from there, whatever MEM_OK. -/
theorem Traces.get_run {f g : State → Cmd α} (hfg : ∀ s D, f (s.under D) (s.under D) = g s (s.under D))
    (hg : ∀ s, SameSetup r s → Traces r v w E (g s)) : Traces r v w E ((get : Cmd State) >>= f) := fun s a t hs h => by
  have hg' : g s s = .ok a t := by
    have := hfg s []
    rw [State.under_nil hs.deny] at this
    rw [← this]
    exact h
  obtain ⟨hsame, hrd, hpk, htouch⟩ := hg s hs s a t hs hg'
  refine ⟨hsame, hrd, hpk, ⟨fun D hD => (hfg s D).trans (htouch.accepted D hD), fun D p hp hD => ?_⟩⟩
  obtain ⟨q, hq, hqD, x, hx⟩ := htouch.refused D p hp hD
  exact ⟨q, hq, hqD, x, (hfg s D).trans hx⟩

/-- What follows a read of the state depends on no MEM_OK. -/
theorem Traces.get {f : State → Cmd α} (hD : ∀ s D, f (s.under D) = f s)
    (hf : ∀ s, SameSetup r s → Traces r v w E (f s)) : Traces r v w E ((get : Cmd State) >>= f) :=
  .get_run (fun s D => congrFun (hD s D) _) hf

theorem Traces.require (p : Bool) (e : ErrCode) (info : Word) : Traces r v v ∅ (require p e info) := by
  cases p
  · exact .raise e info
  · exact .pure ()

theorem Traces.ite {p : Prop} [Decidable p] {n : Cmd α} (hm : p → Traces r v w E m) (hn : ¬p → Traces r v w E n) :
    Traces r v w E (if p then m else n) := by
  split
  · exact hm ‹_›
  · exact hn ‹_›

theorem Traces.forUp {f : Nat → Cmd Unit} {E : Nat → Foot} (hf : ∀ k, Traces r v v (E k) (f k)) (n i : Nat) :
    Traces r v v (.range E i (i + n)) (forUp n i f) := by
  induction n generalizing i with
  | zero => exact (Traces.pure ()).cast (Foot.range_self E i).symm
  | succ n ih =>
    have h := ih (i + 1)
    refine ((hf i).bind fun _ => h).cast ?_
    rw [← Foot.range_succ E i, Foot.range_append E (by omega) (by omega), show i + 1 + n = i + (n + 1) by omega]

theorem Traces.forEach {f : α → Cmd Unit} (hf : ∀ x, Traces r v v ∅ (f x)) (l : List α) :
    Traces r v v ∅ (forEach l f) := by
  induction l with
  | nil => exact .pure ()
  | cons x l ih => exact (hf x).seq fun _ => ih

/-- `for c in 0 .. n - 1`, in a loop that has made `b` such turns before. -/
theorem Traces.forChannels {f : Ch → Cmd Unit} {E : Nat → Foot} {b n : Nat} (hn : n ≤ 4)
    (hf : ∀ c : Ch, Traces r v v (E (b + c.val)) (f c)) : Traces r v v (.range E b (b + n)) (Machine.forEach (channels n) f) := by
  have hloop : ∀ (l : List Ch) (k : Nat), (l.map fun c => b + c.val) = List.range' k l.length →
      Traces r v v (.range E k (k + l.length)) (Machine.forEach l f) := fun l => by
    induction l with
    | nil => exact fun k _ => (Traces.pure ()).cast (Foot.range_self E k).symm
    | cons c l ih =>
      intro k hk
      obtain ⟨hc, hl⟩ : b + c.val = k ∧ _ := List.cons.inj hk
      subst hc
      have h := ih _ hl
      refine ((hf c).bind fun _ => h).cast ?_
      rw [← Foot.range_succ E (b + c.val), Foot.range_append E (by omega) (by omega), List.length_cons]
      congr 1
      omega
  have hlen : (channels n).length = n := by simp [channels, hn]
  have h := hloop (channels n) b (by interval_cases n <;> rfl)
  rwa [hlen] at h

end Rules

end Sys2Proof.Machine
end

section
/-! SUPPORT. What the shared operations touch: the memory port, the packer, the reader, trees and the scan of a frame. -/

namespace Sys2Proof.Machine

open Spec (loadedTo)

variable {r : State} {v w : View} {E : Foot}

/-! ### Views -/

/-- No stream is followed. -/
def View.still : View := ⟨fun _ => 0, fun _ => 0⟩

/-- PK_PTR is followed, and `p` of the reader. -/
def View.writing (p : Reader → Nat) : View := ⟨fun m => p m.rd, fun m => m.pk.ptr.toNat⟩

/-- The refills of the reader are followed, and `q` of the packer. -/
def View.bits (q : Packer → Nat) : View := ⟨fun m => loadedTo m.rd, fun m => q m.pk⟩

/-- RD_PTR is followed. -/
def View.bytes : View := ⟨fun m => m.rd.ptr.toNat, fun _ => 0⟩

/-! ### Updates that move no stream -/

theorem State.setCode_shifts (c : Ch) (sym : Nat) (e : CodeEntry) : Shifts v v fun s => s.setCode c sym e := fun _ =>
  ⟨fun _ => rfl, rfl, rfl, rfl⟩

theorem State.clearCodes_shifts (c : Ch) : Shifts v v fun s => s.clearCodes c := fun _ => ⟨fun _ => rfl, rfl, rfl, rfl⟩

theorem State.setLeft_shifts (c : Ch) (i x : Nat) : Shifts v v fun s => s.setLeft c i x := fun _ =>
  ⟨fun _ => rfl, rfl, rfl, rfl⟩

theorem State.setRight_shifts (c : Ch) (i x : Nat) : Shifts v v fun s => s.setRight c i x := fun _ =>
  ⟨fun _ => rfl, rfl, rfl, rfl⟩

theorem State.setTreeRegs_shifts (c : Ch) (nc rt : Nat) : Shifts v v fun s => s.setTreeRegs c nc rt := fun _ =>
  ⟨fun _ => rfl, rfl, rfl, rfl⟩

theorem State.setPrev_shifts (c : Ch) (x : Nat) : Shifts v v fun s => s.setPrev c x := fun _ =>
  ⟨fun _ => rfl, rfl, rfl, rfl⟩

theorem State.setAcc_shifts (c : Ch) (x : Nat) : Shifts v v fun s => s.setAcc c x := fun _ =>
  ⟨fun _ => rfl, rfl, rfl, rfl⟩

theorem State.bumpHist_shifts (c : Ch) (sym : Nat) : Shifts v v fun s => s.bumpHist c sym := fun _ =>
  ⟨fun _ => rfl, rfl, rfl, rfl⟩

theorem State.setResult_shifts (x : BitVec 64) : Shifts v v fun s => s.setResult x := fun _ =>
  ⟨fun _ => rfl, rfl, rfl, rfl⟩

/-! ### The memory port -/

theorem memRead_traces (a : Nat) : Traces r v v {(.read, a)} (memRead a) := fun s _ _ hs h =>
  .of_port (x := s) (b := s.mem.read a) hs (fun D => memRead_run a (s.under D)) rfl le_rfl le_rfl
    (by rw [View.foot_none rfl rfl, Set.union_empty]) h

theorem memWrite_traces (a : Nat) (x : Byte) : Traces r v v {(.write, a)} (memWrite a x) := fun s _ _ hs h =>
  .of_port (x := { s with mem := s.mem.write a x }) (b := ()) hs (fun D => memWrite_run a x (s.under D)) rfl le_rfl le_rfl
    ((congrArg _ (View.foot_none rfl rfl)).trans (Set.union_empty _)) h

theorem toNat_add_one_of_lt {x : Word} {n : Nat} (h : x.toNat < n) (hn : n < 2 ^ 32) : (x + 1).toNat = x.toNat + 1 :=
  BitVec.toNat_add_of_lt (x := x) (y := 1) (by simp; omega)

/-! ### The packer -/

section Packer

variable {p : Reader → Nat}

theorem emitByte_traces (x : Byte) : Traces r (.writing p) (.writing p) ∅ (emitByte x) := fun s a t hs h => by
  by_cases hroom : s.pk.ptr.toNat < s.outCap.toNat
  · have hptr : (s.pk.ptr + 1).toNat = s.pk.ptr.toNat + 1 := toNat_add_one_of_lt hroom s.outCap.isLt
    refine .of_port (p := s.outAddr.toNat + s.pk.ptr.toNat) (x := s.emitted x) (b := ()) hs
      (fun D => (emitByte_run x (s.under D)).trans (if_pos hroom)) rfl le_rfl ((Nat.le_succ _).trans hptr.ge) ?_ h
    rw [Set.empty_union, ← hs.writeAt]
    exact View.foot_write rfl hptr
  · rw [emitByte_run, if_neg hroom] at h
    cases h

theorem emptyPacker_shifts : Shifts (.writing p) (.writing p) State.emptyPacker := fun _ =>
  ⟨fun _ => rfl, rfl, rfl, rfl⟩

/-- The bit `b` goes into the partial byte. -/
def State.pushBit (b : Bool) (s : State) : State :=
  { s with pk := { s.pk with acc := shiftIn s.pk.acc b, fill := s.pk.fill + 1 } }

theorem writeBit_traces (b : Bool) : Traces r (.writing p) (.writing p) ∅ (writeBit b) := by
  refine Traces.get_run (g := fun s => if s.pk.fill = 7 then
    emitByte (shiftIn s.pk.acc b) >>= fun _ => modify State.emptyPacker else modify (State.pushBit b)) (fun s D => ?_)
    fun s _ => .ite (fun _ => (emitByte_traces _).seq fun _ => .modify emptyPacker_shifts)
      fun _ => .modify fun _ => ⟨fun _ => rfl, rfl, rfl, rfl⟩
  show (if s.pk.fill = 7 then _ else _ : Cmd Unit) _ = (if s.pk.fill = 7 then _ else _ : Cmd Unit) _
  split <;> rfl

theorem writeBits_traces (x n : Nat) : Traces r (.writing p) (.writing p) ∅ (writeBits x n) := by
  induction n with
  | zero => exact .pure ()
  | succ n ih => exact (writeBit_traces _).seq fun _ => ih

theorem emitCode_traces (c : Ch) (sym : Nat) : Traces r (.writing p) (.writing p) ∅ (emitCode c sym) :=
  .get (fun _ _ => rfl) fun _ _ => (Traces.require _ _ _).seq fun _ => writeBits_traces _ _

theorem flushPartial_traces : Traces r (.writing p) (.writing p) ∅ flushPartial :=
  .get (fun _ _ => rfl) fun _ _ => .ite (fun _ => .pure ()) fun _ =>
    (emitByte_traces _).seq fun _ => .modify emptyPacker_shifts

theorem emitLe_traces (n x : Nat) : Traces r (.writing p) (.writing p) ∅ (emitLe n x) := by
  induction n generalizing x with
  | zero => exact .pure ()
  | succ n ih => exact (emitByte_traces _).seq fun _ => ih _

end Packer

/-! ### The reader -/

section Reader

variable {q : Packer → Nat}

theorem loadedTo_of_boundary {d : Reader} (hbit : d.bit = 0) : loadedTo d = d.ptr.toNat := if_pos hbit

theorem loadedTo_next_of_boundary {d : Reader} {n : Nat} (hbit : d.bit = 0) (hptr : d.ptr.toNat < n) (hn : n < 2 ^ 32) :
    loadedTo d.next = loadedTo d + 1 := by
  have hnext : d.next = { d with bit := 1 } := by simp [Reader.next, hbit]
  rw [hnext, loadedTo_of_boundary hbit]
  exact toNat_add_one_of_lt hptr hn

theorem loadedTo_next_of_inside {d : Reader} (hbit : d.bit ≠ 0) : loadedTo d.next = loadedTo d := by
  unfold Reader.next loadedTo
  by_cases h7 : d.bit = 7
  · simp [h7]
  · rw [if_neg h7, if_neg hbit, if_neg (show d.bit + 1 ≠ 0 by bv_omega)]

/-- The reader after a bit of the byte that the refill loads. -/
def State.refilled (s : State) : State :=
  { s with rd := Reader.next { s.rd with buf := s.mem.read (s.inAddr.toNat + s.rd.ptr.toNat) } }

theorem readBit_of_boundary {s : State} (hbit : s.rd.bit = 0) (hptr : s.rd.ptr.toNat < s.inLen.toNat) :
    readBit s = if s.memOk .read (s.inAddr.toNat + s.rd.ptr.toNat) then
        .ok ((s.mem.read (s.inAddr.toNat + s.rd.ptr.toNat)).getLsbD (7 - s.rd.bit.toNat)) s.refilled
      else .error (.raise .busError (BitVec.ofNat 32 (s.inAddr.toNat + s.rd.ptr.toNat))) s := by
  rw [readBit_run, refill_run, if_pos hbit, if_pos hptr]
  cases s.memOk .read (s.inAddr.toNat + s.rd.ptr.toNat) <;> rfl

theorem readBit_of_inside {s : State} (hbit : s.rd.bit ≠ 0) :
    readBit s = .ok (s.rd.buf.getLsbD (7 - s.rd.bit.toNat)) { s with rd := s.rd.next } := by
  rw [readBit_run, refill_run, if_neg hbit]

/-- One refill moves the reader over one byte; the other bits of the byte do not move it. -/
theorem readBit_traces : Traces r (.bits q) (.bits q) ∅ readBit := fun s a t hs h => by
  by_cases hbit : s.rd.bit = 0
  · by_cases hptr : s.rd.ptr.toNat < s.inLen.toNat
    · have hload : loadedTo s.refilled.rd = loadedTo s.rd + 1 :=
        loadedTo_next_of_boundary (d := { s.rd with buf := _ }) hbit hptr s.inLen.isLt
      refine .of_port (p := s.inAddr.toNat + s.rd.ptr.toNat) (x := s.refilled)
        (b := (s.mem.read (s.inAddr.toNat + s.rd.ptr.toNat)).getLsbD (7 - s.rd.bit.toNat)) hs
        (fun D => readBit_of_boundary (s := s.under D) hbit hptr) rfl ((Nat.le_succ _).trans hload.ge) le_rfl ?_ h
      rw [Set.empty_union, ← hs.readAt, ← loadedTo_of_boundary hbit]
      exact View.foot_read hload rfl
    · rw [readBit_run, refill_run, if_pos hbit, if_neg hptr] at h
      cases h
  · exact .of_run (x := { s with rd := s.rd.next }) (b := s.rd.buf.getLsbD (7 - s.rd.bit.toNat)) hs (fun D => readBit_of_inside (s := s.under D) hbit) rfl
      (loadedTo_next_of_inside hbit) rfl h

theorem readBits_traces (n x : Nat) : Traces r (.bits q) (.bits q) ∅ (readBits n x) := by
  induction n generalizing x with
  | zero => exact .pure _
  | succ n ih => exact readBit_traces.seq fun _ => ih _

theorem descend_traces (c : Ch) (fuel node : Nat) : Traces r (.bits q) (.bits q) ∅ (descend c fuel node) := by
  induction fuel generalizing node with
  | zero => exact .get (fun _ _ => rfl) fun _ _ => .raise _ _
  | succ fuel ih =>
    exact readBit_traces.seq fun _ => .get (fun _ _ => rfl) fun _ _ => .ite (fun _ => .pure _) fun _ => ih _

theorem decodeSymbol_traces (c : Ch) : Traces r (.bits q) (.bits q) ∅ (decodeSymbol c) :=
  .get (fun _ _ => rfl) fun _ _ => .ite (fun _ => .pure _) fun _ => descend_traces c _ _

theorem readByte_traces : Traces r .bytes .bytes ∅ readByte := fun s a t hs h => by
  by_cases hroom : s.rd.ptr.toNat < s.inLen.toNat
  · have hptr : (s.rd.ptr + 1).toNat = s.rd.ptr.toNat + 1 := toNat_add_one_of_lt hroom s.inLen.isLt
    refine .of_port (p := s.inAddr.toNat + s.rd.ptr.toNat) (x := { s with rd := { s.rd with ptr := s.rd.ptr + 1 } })
      (b := s.mem.read (s.inAddr.toNat + s.rd.ptr.toNat)) hs
      (fun D => (readByte_run (s.under D)).trans (if_pos hroom)) rfl ((Nat.le_succ _).trans hptr.ge) le_rfl ?_ h
    rw [Set.empty_union, ← hs.readAt]
    exact View.foot_read hptr rfl
  · rw [readByte_run, if_neg hroom] at h
    cases h

theorem readLe_traces (n : Nat) : Traces r .bytes .bytes ∅ (readLe n) := by
  induction n with
  | zero => exact .pure _
  | succ n ih => exact readByte_traces.seq fun _ => ih.seq fun _ => .pure _

end Reader

/-! ### Checks, trees and codes -/

theorem checkCfg_traces : Traces r v v ∅ checkCfg := .get (fun _ _ => rfl) fun _ _ => .require _ _ _

theorem checkCfgDecode_traces : Traces r v v ∅ checkCfgDecode :=
  checkCfg_traces.seq fun _ => .get (fun _ _ => rfl) fun _ _ => .require _ _ _

theorem checkIn_traces : Traces r v v ∅ checkIn := .get (fun _ _ => rfl) fun _ _ => .require _ _ _

theorem checkOut_traces : Traces r v v ∅ checkOut := .get (fun _ _ => rfl) fun _ _ => .require _ _ _

theorem checkRaw_traces : Traces r v v ∅ checkRaw := .get (fun _ _ => rfl) fun _ _ => .require _ _ _

theorem checkOutSize_traces : Traces r v v ∅ checkOutSize := .get (fun _ _ => rfl) fun _ _ => .require _ _ _

theorem duties_traces (i : Instr) : Traces r v v ∅ (duties i) := .get (fun _ _ => rfl) fun s _ => by
  cases s.brokenDuty i
  · exact .pure ()
  · exact .throw _

theorem validateTree_traces (c : Ch) : Traces r v v ∅ (validateTree c) := .get (fun _ _ => rfl) fun s _ => by
  cases s.treeFault c
  · exact .pure ()
  · exact .raise _ _

theorem writeCode_traces (c : Ch) (sym len path : Nat) : Traces r v v ∅ (writeCode c sym len path) :=
  .ite (fun _ => Traces.seq (v := v) (.raise _ _) fun _ => .modify (State.setCode_shifts c _ _)) fun _ =>
    .modify (State.setCode_shifts c _ _)

theorem visitChild_traces {c : Ch} {down : Nat → Nat → Nat → List Nat → Cmd (List Nat)}
    (hdown : ∀ i depth path seen, Traces r v v ∅ (down i depth path seen)) (ref : BitVec 16) (len path : Nat)
    (seen : List Nat) : Traces r v v ∅ (visitChild c down ref len path seen) :=
  .ite (fun _ => (writeCode_traces c _ _ _).seq fun _ => .pure _) fun _ => hdown _ _ _ _

theorem visit_traces (c : Ch) (fuel i depth path : Nat) (seen : List Nat) :
    Traces r v v ∅ (visit c fuel i depth path seen) := by
  induction fuel generalizing i depth path seen with
  | zero => exact .raise _ _
  | succ fuel ih =>
    exact .ite (fun _ => .raise _ _) fun _ => .get (fun _ _ => rfl) fun _ _ =>
      (visitChild_traces ih _ _ _ _).seq fun _ => visitChild_traces ih _ _ _ _

theorem codeGenBody_traces (c : Ch) : Traces r v v ∅ (codeGenBody c) :=
  (validateTree_traces c).seq fun _ => (Traces.modify (State.clearCodes_shifts c)).seq fun _ =>
    .get (fun _ _ => rfl) fun _ _ => .ite (fun _ => .modify (State.setCode_shifts c _ _)) fun _ =>
      (visit_traces c _ _ _ _ _).seq fun _ => .pure ()

theorem State.storeNodes_under (c : Ch) (i : Nat) (l : List Node) (s : State) (D : List Deny) :
    State.storeNodes c i l (s.under D) = (State.storeNodes c i l s).under D := by
  induction l generalizing i s with
  | nil => rfl
  | cons n t ih => exact ih (i + 1) (s.setNode c i n)

theorem workFrom_under (s : State) (D : List Deny) (c : Ch) (n i : Nat) (l : List Entry) :
    workFrom (s.under D) c n i l = workFrom s c n i l := by
  induction n generalizing i l with
  | zero => rfl
  | succ n ih => exact ih _ _

theorem merges_under (s : State) (D : List Deny) (c : Ch) : merges (s.under D) c = merges s c := by
  have hlist : workList (s.under D) c = workList s c := workFrom_under s D c _ 0 []
  rw [merges, merges, hlist]

theorem State.buildTree_shifts (c : Ch) : Shifts v v fun s => s.buildTree c := fun s => by
  have hs : s.buildTree c = { s with
      tree := (s.buildTree c).tree, ncount := (s.buildTree c).ncount, root := (s.buildTree c).root } := by
    unfold State.buildTree
    rw [State.storeNodes_eq]
  refine ⟨fun D => ?_, .trans (congrArg State.setup hs) rfl, .trans (congrArg (v.rd ·.marks) hs) rfl,
    .trans (congrArg (v.pk ·.marks) hs) rfl⟩
  show State.buildTree _ c = State.under D (State.buildTree _ c)
  unfold State.buildTree
  rw [merges_under, State.storeNodes_under]
  rfl

/-! ### Headers -/

theorem writeHeader_traces {p : Reader → Nat} (c : Ch) : Traces r (.writing p) (.writing p) ∅ (writeHeader c) :=
  .get (fun _ _ => rfl) fun _ _ => (emitLe_traces _ _).seq fun _ => (emitLe_traces _ _).seq fun _ =>
    (Traces.forUp (fun _ => (emitLe_traces _ _).seq fun _ => emitLe_traces _ _) _ _).cast (Foot.range_empty _ _)

theorem hdrWriteBody_traces {p : Reader → Nat} : Traces r (.writing p) (.writing p) ∅ hdrWriteBody :=
  .get (fun _ _ => rfl) fun _ _ => (Traces.require _ _ _).seq fun _ =>
    (Traces.forEach validateTree_traces _).seq fun _ => .forEach writeHeader_traces _

theorem readNode_traces (c : Ch) (i : Nat) : Traces r .bytes .bytes ∅ (readNode c i) :=
  (readLe_traces 2).seq fun _ => (Traces.modify (State.setLeft_shifts c i _)).seq fun _ =>
    (readLe_traces 2).seq fun _ => .modify (State.setRight_shifts c i _)

theorem readHeader_traces (c : Ch) : Traces r .bytes .bytes ∅ (readHeader c) :=
  (readLe_traces 4).seq fun _ => (readLe_traces 4).seq fun _ => .get (fun _ _ => rfl) fun _ _ =>
    (Traces.require _ _ _).seq fun _ =>
      ((Traces.forUp (readNode_traces c) _ _).cast (Foot.range_empty _ _)).seq fun _ =>
        (Traces.modify (State.setTreeRegs_shifts c _ _)).seq fun _ => validateTree_traces c

theorem hdrReadBody_traces : Traces r .bytes .bytes ∅ hdrReadBody :=
  .get (fun _ _ => rfl) fun _ _ => (Traces.require _ _ _).seq fun _ => .forEach readHeader_traces _

end Sys2Proof.Machine
end

section
/-! SUPPORT. What the passes over a frame touch: the scan of the samples, the decode and its output. -/

namespace Sys2Proof.Machine

open Spec (loadedTo)

variable {α β : Type} {r : State} {v w : View}

/-! ### Samples (R85, R86) -/

/-- The parts a sample has: bits in the packed layout, else bytes. -/
def State.stride (s : State) : Nat := if s.cfg.packed then s.bw else s.unit

/-- The parts a byte has. -/
def State.grain (s : State) : Nat := if s.cfg.packed then 8 else 1

/-- The read of the byte that part `i` of the frame is in. -/
def State.partAt (r : State) (i : Nat) : Foot := r.readAt (i / r.grain)

/-- The reads of sample `k`. -/
def State.sampleAt (r : State) (k : Nat) : Foot := .range r.partAt (k * r.stride) ((k + 1) * r.stride)

theorem State.samples_foot (r : State) : Foot.range r.sampleAt 0 r.samples = .range r.readAt 0 r.rawSize := by
  have hgrain : 0 < r.grain := by
    unfold State.grain
    split <;> decide
  have hsize : (r.samples * r.stride + r.grain - 1) / r.grain = r.rawSize := by
    unfold State.grain State.stride State.rawSize
    split
    · rfl
    · simp
  unfold State.sampleAt
  rw [Foot.range_blocks, Nat.zero_mul]
  exact (Foot.range_parts _ _ hgrain _).trans (by rw [hsize])

theorem packedBits_traces (hp : r.cfg.packed = true) (n j x : Nat) :
    Traces r v v (.range r.partAt j (j + n)) (packedBits n j x) := by
  induction n generalizing j x with
  | zero => exact (Traces.pure x).cast (Foot.range_self _ _).symm
  | succ n ih =>
    refine .get (fun _ _ => rfl) fun s hs => ((memRead_traces _).bind fun _ => ih (j + 1) _).cast ?_
    have hpart : r.partAt j = {(.read, s.inAddr.toNat + j / 8)} := by
      rw [State.partAt, hs.readAt, State.grain, if_pos hp]
    rw [← hpart, ← Foot.range_succ r.partAt j, Foot.range_append _ (by omega) (by omega),
      show j + 1 + n = j + (n + 1) by omega]

theorem sample_traces (k : Nat) : Traces r v v (r.sampleAt k) (sample k) := by
  refine .get (fun _ _ => rfl) fun s hs => .ite (fun hp => ?_) fun hp => .ite (fun hbw => ?_) fun hbw => ?_
  · rw [hs.cfg] at hp
    refine ((packedBits_traces hp _ _ _).bind fun _ => .pure _).cast ?_
    rw [Set.union_empty, State.sampleAt, State.stride, if_pos hp, hs.bw, Nat.succ_mul]
  · have hstride : r.stride = 1 := by simp [State.stride, State.unit, ← hs.cfg, ← hs.bw, hp, hbw]
    have hgrain : r.grain = 1 := by simp [State.grain, ← hs.cfg, hp]
    refine ((memRead_traces _).bind fun _ => .pure _).cast ?_
    rw [Set.union_empty, State.sampleAt, hstride, Nat.mul_one, Nat.mul_one, Foot.range_succ, State.partAt, hgrain,
      Nat.div_one, hs.readAt]
  · have hstride : r.stride = 2 := by simp [State.stride, State.unit, ← hs.cfg, ← hs.bw, hp, hbw]
    have hgrain : r.grain = 1 := by simp [State.grain, ← hs.cfg, hp]
    refine ((memRead_traces _).bind fun _ => (memRead_traces _).bind fun _ => .pure _).cast ?_
    have hbytes : r.sampleAt k = r.readAt (2 * k) ∪ r.readAt (2 * k + 1) := by
      rw [State.sampleAt, hstride, show k * 2 = 2 * k by omega, show (k + 1) * 2 = 2 * k + 1 + 1 by omega,
        ← Foot.range_append _ (Nat.le_succ (2 * k)) (Nat.le_succ _), Foot.range_succ, Foot.range_succ, State.partAt,
        State.partAt, hgrain, Nat.div_one, Nat.div_one]
    rw [Set.union_empty, hbytes, hs.readAt, hs.readAt, Nat.add_assoc]

/-! ### The scan (R88) -/

section Scan

variable {visit : Nat → Ch → Nat → Cmd Unit} (hvisit : ∀ k c d, Traces r v v ∅ (visit k c d))
include hvisit

theorem scanSample_traces (k : Nat) (c : Ch) : Traces r v v (r.sampleAt k) (scanSample visit k c) :=
  ((sample_traces k).bind fun x =>
    .get_run (g := fun s => modify (fun t : State => t.setPrev c x) >>= fun _ => visit k c (s.delta c x)) (fun _ _ => rfl)
      fun _ _ => (Traces.modify (State.setPrev_shifts c x)).seq fun _ => hvisit _ _ _).cast (Set.union_empty _)

/-- A row is the samples of `WIDTH` pixels of `NCH` each. -/
theorem scanRow_traces (hn : r.nch ≤ 4) (row : Nat) :
    Traces r v v (.range (fun x => .range r.sampleAt (x * r.nch) ((x + 1) * r.nch)) (row * r.width.toNat)
      ((row + 1) * r.width.toNat)) (scanRow visit row) := by
  refine .get (fun _ _ => rfl) fun s hs => ?_
  rw [hs.nch, hs.width]
  refine (Traces.forEach (fun c => .modify (State.setPrev_shifts c 0)) _).seq fun _ => ?_
  refine (Traces.forUp (fun x => .forChannels hn fun c => scanSample_traces hvisit _ c) _ _).cast ?_
  rw [Nat.succ_mul, ← Nat.add_zero (row * r.width.toNat), Nat.add_assoc, ← Foot.range_shift, Nat.zero_add]
  simp only [Nat.add_zero, Nat.succ_mul]

theorem rowScan_traces (hn : r.nch ≤ 4) : Traces r v v (.range r.readAt 0 r.rawSize) (rowScan visit) := by
  refine .get (fun _ _ => rfl) fun s hs => ?_
  rw [hs.height]
  refine (Traces.forUp (scanRow_traces hvisit hn) _ _).cast ?_
  rw [Foot.range_blocks, Foot.range_blocks, Nat.zero_add, Nat.zero_mul, Nat.zero_mul, ← State.samples_foot, State.samples,
    Nat.mul_comm r.width.toNat]

end Scan

theorem histPass_traces (hn : r.nch ≤ 4) : Traces r v v (.range r.readAt 0 r.rawSize) histPass :=
  rowScan_traces (fun _ c d => .modify (State.bumpHist_shifts c d)) hn

theorem packPass_traces {p : Reader → Nat} (hn : r.nch ≤ 4) :
    Traces r (.writing p) (.writing p) (.range r.readAt 0 r.rawSize) packPass :=
  rowScan_traces (fun _ c d => emitCode_traces c d) hn

/-! ### The decode (R127, R140) -/

section Decode

variable {q : Packer → Nat}

theorem decodeSample_traces (c : Ch) : Traces r (.bits q) (.bits q) ∅ (decodeSample c) :=
  (decodeSymbol_traces c).seq fun d =>
    .get_run (g := fun s => modify (fun t : State => t.setAcc c (s.accumulated c d)) >>= fun _ => pure (s.accumulated c d))
      (fun _ _ => rfl) fun _ _ => (Traces.modify (State.setAcc_shifts c _)).seq fun _ => .pure _

theorem decodePixel_traces (l : List Ch) (row : List Nat) : Traces r (.bits q) (.bits q) ∅ (decodePixel l row) := by
  induction l generalizing row with
  | nil => exact .pure row
  | cons c l ih => exact (decodeSample_traces c).seq fun _ => ih _

theorem decodePixels_traces (l : List Ch) (n : Nat) (row : List Nat) :
    Traces r (.bits q) (.bits q) ∅ (decodePixels l n row) := by
  induction n generalizing row with
  | zero => exact .pure row
  | succ n ih => exact (decodePixel_traces l row).seq fun _ => ih _

end Decode

theorem decodePixel_length {l : List Ch} {row out : List Nat} {s t : State} (h : decodePixel l row s = .ok out t) :
    out.length = row.length + l.length := by
  induction l generalizing row s with
  | nil => cases h; rfl
  | cons c l ih =>
    obtain ⟨x, u, -, hrest⟩ := Cmd.bind_ok.1 h
    rw [ih hrest, List.length_cons, List.length_cons]
    omega

theorem decodePixels_length {l : List Ch} {n : Nat} {row out : List Nat} {s t : State}
    (h : decodePixels l n row s = .ok out t) : out.length = row.length + n * l.length := by
  induction n generalizing row s with
  | zero => cases h; simp
  | succ n ih =>
    obtain ⟨mid, u, hpixel, hrest⟩ := Cmd.bind_ok.1 h
    rw [ih hrest, decodePixel_length hpixel, Nat.succ_mul]
    omega

/-! ### The output of a row (R82, R138) -/

theorem putBytes_traces (o : Nat) (l : List Byte) : Traces r v v (.range r.writeAt o (o + l.length)) (putBytes o l) := by
  induction l generalizing o with
  | nil => exact (Traces.pure ()).cast (Foot.range_self _ _).symm
  | cons x l ih =>
    refine .get (fun _ _ => rfl) fun s hs => ((memWrite_traces _ x).bind fun _ => ih (o + 1)).cast ?_
    rw [← hs.writeAt, ← Foot.range_succ r.writeAt o, Foot.range_append _ (by omega) (by omega), List.length_cons,
      show o + 1 + l.length = o + (l.length + 1) by omega]

theorem length_flatMap_of_const {f : α → List β} {k : Nat} (hf : ∀ x, (f x).length = k) (l : List α) :
    (l.flatMap f).length = k * l.length := by
  simp [List.length_flatMap, hf, Nat.mul_comm]

theorem uyvyBytes_length (alpha : Bool) (n : Nat) (l : List Nat) (hl : l.length = 4 * n) :
    (uyvyBytes alpha l).length = (if alpha then 8 else 6) * n := by
  induction n generalizing l with
  | zero =>
    cases List.eq_nil_of_length_eq_zero hl
    rfl
  | succ n ih =>
    match l, hl with
    | u :: y0 :: x :: y1 :: t, hl =>
      have ht := ih t (by simp only [List.length_cons] at hl; omega)
      cases alpha <;> simp [uyvyBytes, bgrBytes, ht] <;> omega

theorem rgbaBytes_length (n : Nat) (l : List Nat) (hl : l.length = 3 * n) : (rgbaBytes l).length = 4 * n := by
  induction n generalizing l with
  | zero =>
    cases List.eq_nil_of_length_eq_zero hl
    rfl
  | succ n ih =>
    match l, hl with
    | c0 :: c1 :: c2 :: t, hl =>
      have ht := ih t (by simp only [List.length_cons] at hl; omega)
      simp [rgbaBytes, ht]
      omega

/-- A whole row of samples gives the bytes of an output row. -/
theorem State.rowBytes_length {s : State} {row : List Nat} (hmode : s.outMode ≠ .identPacked)
    (hfits : s.outMode.fits s.nch s.width.toNat = true) (hrow : row.length = s.width.toNat * s.nch) :
    (rowBytes s.outMode s.bw row).length = s.bytesPerRow := by
  have hnarrow : (row.map (narrow s.bw)).length = s.width.toNat * s.nch := by rw [List.length_map, hrow]
  unfold State.bytesPerRow
  cases hm : s.outMode <;> simp only [hm, OutMode.fits, Bool.and_eq_true, beq_iff_eq] at hfits hmode <;>
    simp only [rowBytes]
  case ident =>
    rw [length_flatMap_of_const (k := s.unit), hrow, Nat.mul_comm]
    intro x
    unfold unitBytes State.unit
    split <;> rfl
  case identPacked => exact absurd rfl hmode
  case narrow8 => rw [List.length_map, hnarrow]
  case grayRgb24 => rw [length_flatMap_of_const (k := 3) fun _ => rfl, hnarrow, hfits, Nat.mul_one]
  case grayRgb32 => rw [length_flatMap_of_const (k := 4) fun _ => rfl, hnarrow, hfits, Nat.mul_one]
  case grayYuyv8 => rw [length_flatMap_of_const (k := 2) fun _ => rfl, hnarrow, hfits, Nat.mul_one]
  case grayYuyv16 => rw [length_flatMap_of_const (k := 4) fun _ => rfl, hnarrow, hfits, Nat.mul_one]
  case uyvyRgb24 =>
    rw [uyvyBytes_length _ (s.width.toNat / 2) _ (by rw [hnarrow, hfits.1]; omega)]
    simp only [Bool.false_eq_true, if_false]
    omega
  case uyvyRgb32 =>
    rw [uyvyBytes_length _ (s.width.toNat / 2) _ (by rw [hnarrow, hfits.1]; omega)]
    simp only [if_true]
    omega
  case rgb24Rgb32 => exact rgbaBytes_length _ _ (by rw [hnarrow, hfits, Nat.mul_comm])
  case rgb24Rgb32Flip => exact rgbaBytes_length _ _ (by rw [hnarrow, hfits, Nat.mul_comm])

/-- The writes of output row `row`. -/
def State.rowAt (r : State) (row : Nat) : Foot :=
  .range r.writeAt (row * r.bytesPerRow) ((row + 1) * r.bytesPerRow)

theorem convertRow_traces (hmode : r.outMode ≠ .identPacked) (hfits : r.outMode.fits r.nch r.width.toNat = true)
    {row : List Nat} (hrow : row.length = r.width.toNat * r.nch) (k : Nat) :
    Traces r v v (r.rowAt (r.outRow k)) (convertRow k row) := by
  refine .get (fun _ _ => rfl) fun s hs => .ite (fun h => absurd (hs.outMode ▸ h) hmode) fun _ => ?_
  rw [hs.outRow, hs.bytesPerRow, hs.outMode, hs.bw]
  refine (putBytes_traces _ _).cast ?_
  rw [State.rowBytes_length hmode hfits hrow, State.rowAt, Nat.succ_mul]

theorem convertRow_packed_traces {p : Reader → Nat} (hmode : r.outMode = .identPacked) (k : Nat) (row : List Nat) :
    Traces r (.writing p) (.writing p) ∅ (convertRow k row) :=
  .get (fun _ _ => rfl) fun _ hs => .ite (fun _ => .forEach (fun _ => writeBits_traces _ _) _)
    fun h => absurd (hs.outMode.trans hmode) h

/-- A row of a decode: its samples are decoded, then converted. -/
theorem decodeRow_traces_of {q : Packer → Nat} {E : Foot} (hn : r.nch ≤ 4) (k : Nat)
    (hconvert : ∀ row : List Nat, row.length = r.width.toNat * r.nch →
      Traces r (.bits q) (.bits q) E (convertRow k row)) : Traces r (.bits q) (.bits q) E (decodeRow k) := by
  refine .get (fun _ _ => rfl) fun s hs => (Traces.forEach (fun c => .modify (State.setAcc_shifts c 0)) _).seq fun _ => ?_
  rw [hs.nch, hs.width]
  refine ((decodePixels_traces _ _ _).bind_of_ok fun row _ _ _ hrow => hconvert _ ?_).cast (Set.empty_union E)
  rw [List.length_reverse, decodePixels_length hrow]
  simp [channels, hn]

theorem State.fits_of_modeOk {s : State} (h : s.modeOk = true) : s.outMode.fits s.nch s.width.toNat = true := by
  unfold State.modeOk at h
  unfold State.outMode
  cases hm : OutMode.ofField s.cfg.mode <;> rw [hm] at h
  · cases h
  · exact h

theorem rows_traces {q : Packer → Nat} (hn : r.nch ≤ 4) (hmode : r.outMode ≠ .identPacked)
    (hfits : r.outMode.fits r.nch r.width.toNat = true) :
    Traces r (.bits q) (.bits q) (.range r.writeAt 0 r.outBytes) (forUp r.height.toNat 0 decodeRow) := by
  refine (Traces.forUp (fun k => decodeRow_traces_of hn k fun row hrow => convertRow_traces hmode hfits hrow k) _ _).cast ?_
  have hflip : Foot.range (fun k => r.rowAt (r.outRow k)) 0 r.height.toNat = .range r.rowAt 0 r.height.toNat := by
    unfold State.outRow
    cases r.outMode.flips
    · rfl
    · exact Foot.range_flip r.rowAt _
  rw [Nat.zero_add, hflip, State.outBytes, if_neg hmode]
  exact (Foot.range_blocks _ _ _ _).trans (by rw [Nat.zero_mul])

/-! ### The packed output (R135) -/

/-- The bits the packer has taken in since PK_INIT. -/
def Packer.taken (k : Packer) : Nat := 8 * k.ptr.toNat + k.fill.toNat

/-- Where `m` completes, it has put `n` bits into the packer. -/
def Packs (r : State) (n : Nat) (m : Cmd α) : Prop :=
  ∀ s a t, SameSetup r s → m s = .ok a t → SameSetup r t ∧ t.pk.taken = s.pk.taken + n

/-- A pseudocode that traces under every view of the packer moves none of them, so it does not change the packer: take the
view that tells the packer it began with from all others. -/
theorem Packs.of_traces {E : Foot} {m : Cmd α}
    (h : ∀ q : Packer → Nat, Traces r (.bits q) (.bits q) E m) : Packs r 0 m := fun s a t hs hm => by
  have hpk : t.pk = s.pk := by
    have hle : (if s.pk = s.pk then 1 else 0) ≤ if t.pk = s.pk then 1 else 0 :=
      (h (fun k => if k = s.pk then 1 else 0) s a t hs hm).pk
    by_contra hne
    simp [hne] at hle
  exact ⟨(h (fun _ => 0) s a t hs hm).same, by rw [hpk, Nat.add_zero]⟩

theorem Packs.bind {m : Cmd α} {f : α → Cmd β} {k n : Nat} (hm : Packs r k m)
    (hf : ∀ a s t, SameSetup r s → m s = .ok a t → Packs r n (f a)) : Packs r (k + n) (m >>= f) := fun s b t hs h => by
  obtain ⟨a, u, hu, ht⟩ := Cmd.bind_ok.1 h
  obtain ⟨hsu, hk⟩ := hm s a u hs hu
  obtain ⟨hst, hn⟩ := hf a s u hs hu u b t hsu ht
  exact ⟨hst, by rw [hn, hk, Nat.add_assoc]⟩

theorem Packs.forUp {f : Nat → Cmd Unit} {k : Nat} (hf : ∀ i, Packs r k (f i)) (n i : Nat) :
    Packs r (n * k) (forUp n i f) := by
  induction n generalizing i with
  | zero => exact fun s a t hs h => by cases h; exact ⟨hs, by omega⟩
  | succ n ih =>
    rw [Nat.succ_mul, Nat.add_comm]
    exact (hf i).bind fun _ _ _ _ _ => ih (i + 1)

theorem Packs.forEach {f : α → Cmd Unit} {k : Nat} (hf : ∀ x, Packs r k (f x)) (l : List α) :
    Packs r (l.length * k) (forEach l f) := by
  induction l with
  | nil => exact fun s a t hs h => by cases h; exact ⟨hs, by simp⟩
  | cons x l ih =>
    rw [List.length_cons, Nat.succ_mul, Nat.add_comm]
    exact (hf x).bind fun _ _ _ _ _ => ih

theorem emitByte_ok {x : Byte} {s t : State} (h : emitByte x s = .ok () t) :
    t = s.emitted x ∧ (s.pk.ptr + 1).toNat = s.pk.ptr.toNat + 1 := by
  rw [emitByte_run] at h
  split at h
  · rename_i hroom
    split at h
    · cases h
      exact ⟨rfl, toNat_add_one_of_lt hroom s.outCap.isLt⟩
    · cases h
  · cases h

theorem writeBit_packs (b : Bool) : Packs r 1 (writeBit b) := fun s a t hs h => by
  refine ⟨(writeBit_traces (p := fun _ => 0) b s a t hs h).same, ?_⟩
  by_cases hfill : s.pk.fill = 7
  · rw [writeBit_full hfill] at h
    cases he : emitByte (shiftIn s.pk.acc b) s with
    | error e u =>
      rw [he] at h
      cases h
    | ok x u =>
      rw [he] at h
      cases h
      obtain ⟨rfl, hptr⟩ := emitByte_ok he
      show 8 * (s.pk.ptr + 1).toNat + 0 = 8 * s.pk.ptr.toNat + s.pk.fill.toNat + 1
      rw [hptr, hfill]
      rfl
  · rw [writeBit_room hfill] at h
    cases h
    show 8 * s.pk.ptr.toNat + (s.pk.fill + 1).toNat = 8 * s.pk.ptr.toNat + s.pk.fill.toNat + 1
    bv_omega

theorem writeBits_packs (x n : Nat) : Packs r n (writeBits x n) := by
  induction n with
  | zero => exact fun s a t hs h => by cases h; exact ⟨hs, rfl⟩
  | succ n ih =>
    have h : Packs r (1 + n) (writeBits x (n + 1)) := (writeBit_packs _).bind fun _ _ _ _ _ => ih
    rwa [Nat.add_comm] at h

theorem convertRow_packs (hmode : r.outMode = .identPacked) (k : Nat) (row : List Nat) :
    Packs r (row.length * r.bw) (convertRow k row) := fun s a t hs h => by
  have hrun : forEach row (fun x => writeBits x s.bw) s = .ok a t := by
    rw [← h]
    show _ = (if s.outMode = .identPacked then _ else _ : Cmd Unit) s
    rw [if_pos (hs.outMode.trans hmode)]
  exact Packs.forEach (fun x => hs.bw ▸ writeBits_packs x s.bw) row s a t hs hrun

theorem decodeRow_packs (hn : r.nch ≤ 4) (hmode : r.outMode = .identPacked) (k : Nat) :
    Packs r (r.width.toNat * r.nch * r.bw) (decodeRow k) := fun s a t hs h => by
  have hclear : Packs r 0 (forEach (channels s.nch) fun c => modify fun t : State => t.setAcc c 0) :=
    .of_traces fun _ => .forEach (fun c => .modify (State.setAcc_shifts c 0)) _
  have hrow : Packs r (r.width.toNat * r.nch * r.bw)
      (decodePixels (channels s.nch) s.width.toNat [] >>= fun row => convertRow k row.reverse) := by
    rw [← Nat.zero_add (r.width.toNat * r.nch * r.bw)]
    refine Packs.bind (.of_traces fun _ => decodePixels_traces _ _ _) fun row _ _ _ hok => ?_
    have hlen : row.reverse.length = r.width.toNat * r.nch := by
      rw [List.length_reverse, decodePixels_length hok, hs.nch, hs.width]
      simp [channels, hn]
    exact hlen ▸ convertRow_packs hmode k row.reverse
  exact (Nat.zero_add _ ▸ hclear.bind fun _ _ _ _ _ => hrow) s a t hs h

theorem flushPartial_ptr {s t : State} (h : flushPartial s = .ok () t) : t.pk.ptr.toNat = (s.pk.taken + 7) / 8 := by
  have hfill := s.pk.fill.isLt
  rw [flushPartial_run] at h
  unfold Packer.taken
  split at h
  · cases h
    omega
  · cases he : emitByte (s.pk.acc <<< (8 - s.pk.fill.toNat)) s with
    | error e u =>
      rw [he] at h
      cases h
    | ok x u =>
      rw [he] at h
      cases h
      obtain ⟨rfl, hptr⟩ := emitByte_ok he
      show (s.pk.ptr + 1).toNat = _
      omega

/-! ### The body of a decode (R140) -/

theorem whenPacked_run (m : Cmd Unit) (s : State) :
    whenPacked m s = if s.outMode = .identPacked then m s else .ok () s := by
  show (if s.outMode = .identPacked then _ else _ : Cmd Unit) s = _
  split <;> rfl

theorem whenPacked_traces {E : Foot} {m : Cmd Unit} (hmode : r.outMode = .identPacked) (hm : Traces r v w E m) :
    Traces r v w E (whenPacked m) :=
  .get (fun _ _ => rfl) fun _ hs => .ite (fun _ => hm) fun h => absurd (hs.outMode.trans hmode) h

theorem whenPacked_other_traces {m : Cmd Unit} (hmode : r.outMode ≠ .identPacked) : Traces r v v ∅ (whenPacked m) :=
  .get (fun _ _ => rfl) fun _ hs => .ite (fun h => absurd (hs.outMode.symm.trans h) hmode) fun _ => .pure ()

theorem State.reportDecoded_shifts {q : Packer → Nat} : Shifts (.bits q) (.bits q) State.reportDecoded := fun _ =>
  ⟨fun _ => rfl, rfl, rfl, rfl⟩

theorem State.initPacker_shifts : Shifts (.bits fun _ => 0) (.bits (·.ptr.toNat)) State.initPacker := fun _ =>
  ⟨fun _ => rfl, rfl, rfl, rfl⟩

theorem rows_packed_traces (hn : r.nch ≤ 4) (hmode : r.outMode = .identPacked) (n : Nat) :
    Traces r (.bits (·.ptr.toNat)) (.bits (·.ptr.toNat)) ∅ (forUp n 0 decodeRow) :=
  (Traces.forUp (fun k => decodeRow_traces_of (q := (·.ptr.toNat)) hn k fun row _ =>
    convertRow_packed_traces (p := loadedTo) hmode k row) n 0).cast (Foot.range_empty _ _)

/-- The packed output is as long as its bits need. -/
theorem decScanBody_ptr (hn : r.nch ≤ 4) (hmode : r.outMode = .identPacked) {s t : State} (hs : SameSetup r s)
    (h : decScanBody s = .ok () t) : t.pk.ptr.toNat = r.outBytes := by
  obtain ⟨_, s1, h1, h⟩ := Cmd.bind_ok.1 h
  obtain ⟨_, s2, h2, h⟩ := Cmd.bind_ok.1 h
  cases h2
  obtain ⟨_, s3, h3, h⟩ := Cmd.bind_ok.1 h
  obtain ⟨_, s4, h4, h⟩ := Cmd.bind_ok.1 h
  cases h
  rw [whenPacked_run, if_pos (hs.outMode.trans hmode)] at h1
  cases h1
  have hs1 : SameSetup r s.initPacker := ⟨hs.setup, hs.deny⟩
  obtain ⟨hs3, htaken⟩ := Packs.forUp (decodeRow_packs hn hmode) _ _ _ _ _ hs1 h3
  rw [whenPacked_run, if_pos (hs3.outMode.trans hmode)] at h4
  show s4.pk.ptr.toNat = _
  rw [flushPartial_ptr h4, htaken, hs1.height, State.outBytes, if_pos hmode, State.samples]
  show (0 + _ + 7) / 8 = _
  rw [Nat.zero_add, Nat.mul_comm r.width.toNat r.height.toNat]
  simp only [Nat.mul_assoc]

/-- Where the packer ends at offset `n`, it has written all offsets below. -/
theorem Traces.settle {p p' : Marks → Nat} {E : Foot} {m : Cmd α} {n : Nat}
    (hm : Traces r ⟨p, fun _ => 0⟩ ⟨p', fun k => k.pk.ptr.toNat⟩ E m)
    (hn : ∀ s a t, SameSetup r s → m s = .ok a t → t.pk.ptr.toNat = n) :
    Traces r ⟨p, fun _ => 0⟩ ⟨p', fun _ => 0⟩ (E ∪ .range r.writeAt 0 n) m := fun s a t hs h => by
  obtain ⟨hsame, hrd, -, htouch⟩ := hm s a t hs h
  refine ⟨hsame, hrd, le_rfl, ?_⟩
  have hfoot : E ∪ .range r.writeAt 0 n ∪ View.foot r ⟨p, fun _ => 0⟩ ⟨p', fun _ => 0⟩ s.marks t.marks =
      E ∪ View.foot r ⟨p, fun _ => 0⟩ ⟨p', fun k => k.pk.ptr.toNat⟩ s.marks t.marks := by
    simp only [View.foot, Foot.range_self, Set.union_empty, ← hn s a t hs h, State.marks]
    ac_rfl
  rwa [hfoot]

theorem decScanBody_traces (hn : r.nch ≤ 4) (hmode : r.modeOk = true) :
    Traces r (.bits fun _ => 0) (.bits fun _ => 0) (.range r.writeAt 0 r.outBytes) decScanBody := by
  by_cases hpacked : r.outMode = .identPacked
  · refine (Traces.settle (E := ∅) ?_ fun s _ t hs h => decScanBody_ptr hn hpacked hs h).cast (Set.empty_union _)
    refine (whenPacked_traces (v := .bits fun _ => 0) (w := .bits (·.ptr.toNat)) hpacked
      (.modify State.initPacker_shifts)).seq fun _ => ?_
    exact .get (fun _ _ => rfl) fun s _ => (rows_packed_traces hn hpacked _).seq fun _ =>
      (whenPacked_traces hpacked (flushPartial_traces (p := loadedTo))).seq fun _ =>
        .modify (State.reportDecoded_shifts (q := (·.ptr.toNat)))
  · refine (whenPacked_other_traces hpacked).seq fun _ => .get (fun _ _ => rfl) fun s hs => ?_
    rw [hs.height]
    refine ((rows_traces hn hpacked (State.fits_of_modeOk hmode)).bind fun _ => (whenPacked_other_traces hpacked).seq
      fun _ => .modify State.reportDecoded_shifts).cast (Set.union_empty _)

end Sys2Proof.Machine
end

section
/-! SUPPORT. What each command touches, and R15 for every command: a refused access stops it, and MEM_OK decides nothing
else. -/

namespace Sys2Proof.Machine

open Spec (loadedTo)

variable {α : Type} {r : State} {v w : View} {E : Foot}

/-! ### Checks whose success is used -/

theorem State.nch_le_of_cfgOk {s : State} (h : s.cfgOk = true) : s.nch ≤ 4 := by
  simp only [State.cfgOk, Bool.and_eq_true, decide_eq_true_eq] at h
  exact h.2

theorem Traces.afterCheckCfg {f : Unit → Cmd α} (hf : r.nch ≤ 4 → Traces r v w E (f ())) :
    Traces r v w E (checkCfg >>= f) := by
  refine (checkCfg_traces.bind_of_ok fun _ s t hs h => hf ?_).cast (Set.empty_union E)
  rw [checkCfg_run] at h
  split at h
  · exact State.nch_le_of_cfgOk (hs.cfgOk ▸ ‹_›)
  · cases h

theorem Traces.afterCheckCfgDecode {f : Unit → Cmd α} (hf : r.nch ≤ 4 → r.modeOk = true → Traces r v w E (f ())) :
    Traces r v w E (checkCfgDecode >>= f) := by
  refine (checkCfgDecode_traces.bind_of_ok fun _ s t hs h => ?_).cast (Set.empty_union E)
  rw [checkCfgDecode_run] at h
  split at h
  · rename_i hok
    obtain ⟨hcfg, hmode⟩ := Bool.and_eq_true_iff.1 hok
    exact hf (State.nch_le_of_cfgOk (hs.cfgOk ▸ hcfg)) (hs.modeOk ▸ hmode)
  · cases h

/-! ### Headers read at a byte boundary -/

/-- The bit offset of the reader is as before. -/
def SameBit (s t : State) : Prop := t.rd.bit = s.rd.bit

theorem SameBit.refl (s : State) : SameBit s s := rfl

theorem SameBit.trans (s t u : State) (h1 : SameBit s t) (h2 : SameBit t u) : SameBit s u := Eq.trans h2 h1

theorem readByte_keepsBit : Keeps SameBit readByte := fun s => by
  rw [readByte_run]
  split_ifs <;> rfl

theorem readLe_keepsBit (n : Nat) : Keeps SameBit (readLe n) := by
  induction n with
  | zero => exact .pure SameBit.refl 0
  | succ n ih =>
    exact .bind SameBit.trans readByte_keepsBit fun _ => .bind SameBit.trans ih fun _ => .pure SameBit.refl _

theorem readNode_keepsBit (c : Ch) (i : Nat) : Keeps SameBit (readNode c i) :=
  .bind SameBit.trans (readLe_keepsBit 2) fun _ => .bind SameBit.trans (.modify fun _ => rfl) fun _ =>
    .bind SameBit.trans (readLe_keepsBit 2) fun _ => .modify fun _ => rfl

theorem validateTree_keepsBit (c : Ch) : Keeps SameBit (validateTree c) := fun s => by
  rw [validateTree_run]
  cases s.treeFault c <;> rfl

theorem readHeader_keepsBit (c : Ch) : Keeps SameBit (readHeader c) :=
  .bind SameBit.trans (readLe_keepsBit 4) fun _ => .bind SameBit.trans (readLe_keepsBit 4) fun _ =>
    .bind SameBit.trans (.get SameBit.refl) fun _ => .bind SameBit.trans (.require SameBit.refl _ _ _) fun _ =>
      .bind SameBit.trans (.forUp SameBit.refl SameBit.trans (readNode_keepsBit c) _ _) fun _ =>
        .bind SameBit.trans (.modify fun _ => rfl) fun _ => validateTree_keepsBit c

theorem hdrReadBody_keepsBit : Keeps SameBit hdrReadBody :=
  .bind SameBit.trans (.get SameBit.refl) fun _ => .bind SameBit.trans (.require SameBit.refl _ _ _) fun _ =>
    .forEach SameBit.refl SameBit.trans readHeader_keepsBit _

/-- HDR_READ starts and ends at a byte boundary, where RD_PTR is the first offset not loaded. -/
theorem hdrReadBody_bits_traces : Traces r (.bits fun _ => 0) (.bits fun _ => 0) ∅ hdrReadBody := fun s a t hs h => by
  have hbit : s.rd.bit = 0 := by
    obtain ⟨_, u, hu, h'⟩ := Cmd.bind_ok.1 h
    cases hu
    obtain ⟨_, u, hu, -⟩ := Cmd.bind_ok.1 h'
    rw [require_run] at hu
    by_contra hne
    have hne' : s.rd.bit.toNat ≠ 0 := fun h0 => hne (BitVec.eq_of_toNat_eq h0)
    simp [hne'] at hu
  have hbit' : t.rd.bit = 0 := by
    have := hdrReadBody_keepsBit s
    rw [h] at this
    exact Eq.trans this hbit
  obtain ⟨hsame, hrd, hpk, htouch⟩ := hdrReadBody_traces s a t hs h
  have hs0 : (View.bits fun _ => 0).rd s.marks = s.rd.ptr.toNat := loadedTo_of_boundary hbit
  have ht0 : (View.bits fun _ => 0).rd t.marks = t.rd.ptr.toNat := loadedTo_of_boundary hbit'
  refine ⟨hsame, by rw [hs0, ht0]; exact hrd, hpk, ?_⟩
  rw [View.foot, hs0, ht0]
  exact htouch

/-! ### The commands -/

theorem marking_traces {m : Cmd Unit} (hm : Traces r v w E m) : Traces r v w E (marking m) := fun s a t hs h => by
  have hok : ∃ u, m s = .ok a u ∧ t = s.markSince u := by
    unfold marking at h
    cases hu : m s <;> rw [hu] at h <;> cases h
    exact ⟨_, rfl, rfl⟩
  obtain ⟨u, hu, rfl⟩ := hok
  obtain ⟨hsame, hrd, hpk, haccepted, hrefused⟩ := hm s a u hs hu
  refine ⟨⟨hsame.setup, hsame.deny⟩, hrd, hpk, fun D hD => marking_of_ok (haccepted D hD), fun D p hp hD => ?_⟩
  obtain ⟨q, hq, hqD, x, hx⟩ := hrefused D p hp hD
  exact ⟨q, hq, hqD, _, by unfold marking; rw [hx]⟩

/-! ### Updates of the commands, and where they begin or end a stream -/

/-- OUT_SIZE is followed. -/
def View.reported : View := ⟨fun _ => 0, fun m => m.out.toNat⟩

theorem State.forgetScans_shifts : Shifts v v State.forgetScans := fun _ => ⟨fun _ => rfl, rfl, rfl, rfl⟩

theorem State.clearHist_shifts : Shifts v v State.clearHist := fun _ => ⟨fun _ => rfl, rfl, rfl, rfl⟩

theorem State.initPacker_starts : Shifts .still (.writing fun _ => 0) State.initPacker := fun _ =>
  ⟨fun _ => rfl, rfl, rfl, rfl⟩

theorem State.initPacker_still : Shifts .still .still State.initPacker := fun _ => ⟨fun _ => rfl, rfl, rfl, rfl⟩

theorem State.initReader_still : Shifts .still .still State.initReader := fun _ => ⟨fun _ => rfl, rfl, rfl, rfl⟩

theorem State.clearPredictors_shifts : Shifts v v State.clearPredictors := fun _ => ⟨fun _ => rfl, rfl, rfl, rfl⟩

theorem State.predFwd_shifts (c : Ch) : Shifts v v fun s => s.predFwd c := fun _ => ⟨fun _ => rfl, rfl, rfl, rfl⟩

theorem State.predInv_shifts (c : Ch) : Shifts v v fun s => s.predInv c := fun _ => ⟨fun _ => rfl, rfl, rfl, rfl⟩

theorem State.openScan_shifts : Shifts v v State.openScan := fun _ => ⟨fun _ => rfl, rfl, rfl, rfl⟩

theorem State.closeScan_shifts : Shifts v v State.closeScan := fun _ => ⟨fun _ => rfl, rfl, rfl, rfl⟩

theorem State.initReader_starts : Shifts .still (.bits fun _ => 0) State.initReader := fun _ =>
  ⟨fun _ => rfl, rfl, rfl, rfl⟩

theorem State.reportRaw_shifts : Shifts .still .still State.reportRaw := fun _ => ⟨fun _ => rfl, rfl, rfl, rfl⟩

theorem State.reportPacked_shifts {p : Reader → Nat} : Shifts (.writing p) (.writing p) State.reportPacked := fun _ =>
  ⟨fun _ => rfl, rfl, rfl, rfl⟩

theorem State.reportPacked_reports : Shifts (.writing fun _ => 0) .reported State.reportPacked := fun _ =>
  ⟨fun _ => rfl, rfl, rfl, rfl⟩

/-! ### Frames -/

theorem buildChannel_traces (c : Ch) : Traces r v v ∅ (buildChannel c) :=
  (Traces.modify (State.buildTree_shifts c)).seq fun _ => codeGenBody_traces c

theorem copyByte_traces (k : Nat) : Traces r v v (r.readAt k ∪ r.writeAt k) (copyByte k) := by
  refine .get (fun _ _ => rfl) fun s hs => ?_
  rw [hs.readAt, hs.writeAt]
  exact (memRead_traces _).bind fun _ => memWrite_traces _ _

theorem encFrameBody_traces (hn : r.nch ≤ 4) :
    Traces r .still .reported (.range r.readAt 0 r.rawSize) encFrameBody := by
  refine (Traces.modify State.forgetScans_shifts).seq fun _ => (Traces.modify State.clearHist_shifts).seq fun _ => ?_
  refine ((histPass_traces hn).bind (F := .range r.readAt 0 r.rawSize) fun _ => .get (fun _ _ => rfl) fun s _ =>
    (Traces.forEach buildChannel_traces _).seq fun _ => (Traces.modify State.initPacker_starts).seq fun _ =>
      hdrWriteBody_traces.seq fun _ => ?_).cast (Set.union_self _)
  exact ((packPass_traces hn).bind fun _ => flushPartial_traces.seq fun _ =>
    .modify State.reportPacked_reports).cast (Set.union_empty _)

/-! ### Every command -/

open Spec (Accesses readOffsets writeOffsets)

/-- The accesses the statements give command `i` from `s` to its completion `t`. -/
def accessFoot (i : Instr) (s t : State) : Foot := {p | Accesses i s t p.1 p.2}

theorem accessFoot_eq (i : Instr) (s t : State) :
    accessFoot i s t = .range s.readAt (readOffsets i s t).1 (readOffsets i s t).2 ∪
      .range s.writeAt (writeOffsets i s t).1 (writeOffsets i s t).2 := by
  ext ⟨kind, a⟩
  cases kind <;> simp [accessFoot, Accesses, Foot.range, State.readAt, State.writeAt]

/-- MEM_OK decides nothing but this for command `i` from `s`: where the command completes over a memory that accepts every
access, it completes alike or stops with BUS_ERROR at the address of an access MEM_OK refuses. -/
def RefusalsStop (i : Instr) (s : State) : Prop :=
  ∀ t : State, exec i (s.under []) = .next t → t.err = false →
    ((∀ kind a, Accesses i s t kind a → s.memOk kind a = true) → exec i s = .next (t.under s.deny)) ∧
    ∀ kind a, Accesses i s t kind a → s.memOk kind a = false →
      ∃ u kind' a', exec i s = .next u ∧ u.phase = .idle ∧ u.done = true ∧ u.err = true ∧ u.errCode = 0x0D ∧
        u.errInfo = BitVec.ofNat 32 a' ∧ Accesses i s t kind' a' ∧ s.memOk kind' a' = false

theorem refusalsStop_of_traces {i : Instr} {s : State} {leave : ErrCode → State → State} {m : Cmd Unit}
    (hexec : ∀ s, exec i s = commandWith leave m s) (hm : Traces s v w E m)
    (hfoot : ∀ t : State, E ∪ v.foot s w s.marks t.marks = accessFoot i s t) : RefusalsStop i s := fun t h herr => by
  rw [hexec] at h
  obtain ⟨u, hu, hnext⟩ | ⟨e, info, u, -, hnext⟩ | ⟨e, u, -, hnext⟩ := commandWith_cases leave m (s.under []) <;>
    rw [hnext] at h <;> cases h
  · obtain ⟨haccepted, hrefused⟩ := (hm (s.under []) () u ⟨rfl, rfl⟩ hu).touches
    have hfoot' : E ∪ v.foot s w (s.under []).marks u.marks = accessFoot i s u.finish := hfoot u.finish
    rw [hfoot'] at haccepted hrefused
    refine ⟨fun hok => ?_, fun kind a ha hno => ?_⟩
    · rw [hexec]
      exact commandWith_of_ok (haccepted s.deny fun p hp => hok p.1 p.2 hp)
    · obtain ⟨q, hq, hqno, x, hx⟩ := hrefused s.deny (kind, a) ha hno
      refine ⟨(leave .busError x).stop .busError (BitVec.ofNat 32 q.2), q.1, q.2, ?_, rfl, rfl, rfl, rfl, rfl, hq, hqno⟩
      have hx' : m s = _ := hx
      rw [hexec, commandWith, hx']
  · cases herr

theorem bitWidth_eq (s : State) : Spec.bitWidth s = s.bw := by
  unfold Spec.bitWidth State.bw
  generalize s.cfg.bw = b
  fin_cases b <;> rfl

theorem storageUnit_eq (s : State) : Spec.storageUnit s = s.unit := by
  unfold Spec.storageUnit State.unit
  rw [bitWidth_eq]

theorem rawBytes_eq (s : State) : Spec.rawBytes s = s.rawSize := by
  unfold Spec.rawBytes State.rawSize
  rw [bitWidth_eq, storageUnit_eq]
  rfl

theorem decodedBytes_eq {s : State} (hmode : s.modeOk = true) : Spec.decodedBytes s = s.outBytes := by
  unfold State.modeOk at hmode
  unfold Spec.decodedBytes Spec.rowSize State.outBytes State.bytesPerRow State.outMode
  rw [bitWidth_eq, storageUnit_eq]
  generalize s.cfg.mode = b at hmode ⊢
  fin_cases b <;> first | rfl | cases hmode

section Views

variable (s t : Marks)

theorem View.foot_still : View.still.foot r .still s t = ∅ := View.foot_none rfl rfl

theorem View.foot_writing :
    (View.writing fun _ => 0).foot r (.writing fun _ => 0) s t = .range r.writeAt s.pk.ptr.toNat t.pk.ptr.toNat :=
  (congrArg (· ∪ _) (Foot.range_self _ _)).trans (Set.empty_union _)

theorem View.foot_bits :
    (View.bits fun _ => 0).foot r (.bits fun _ => 0) s t = .range r.readAt (loadedTo s.rd) (loadedTo t.rd) :=
  (congrArg (_ ∪ ·) (Foot.range_self _ _)).trans (Set.union_empty _)

end Views

section Commands

variable (s : State)

/-- The commands that make no access. -/
theorem refusalsStop_of_still {i : Instr} {leave : ErrCode → State → State} {m : Cmd Unit}
    (hexec : ∀ s, exec i s = commandWith leave m s) (hm : Traces s .still .still ∅ m)
    (hnone : ∀ t, readOffsets i s t = (0, 0) ∧ writeOffsets i s t = (0, 0)) : RefusalsStop i s :=
  refusalsStop_of_traces hexec hm fun t => by
    rw [accessFoot_eq, (hnone t).1, (hnone t).2, View.foot_still, Foot.range_self, Foot.range_self]

theorem refusalsStop_of_modify {i : Instr} (f : State → State)
    (hexec : ∀ s, exec i s = command (checkCfg >>= fun _ => modify f) s) (hf : Shifts .still .still f)
    (hnone : ∀ t, readOffsets i s t = (0, 0) ∧ writeOffsets i s t = (0, 0)) : RefusalsStop i s :=
  refusalsStop_of_still s hexec (checkCfg_traces.seq fun _ => .modify hf) hnone

theorem histAdd_refusalsStop (c : Ch) : RefusalsStop (.histAdd c) s := by
  refine refusalsStop_of_still s (fun _ => rfl) ?_ fun _ => ⟨rfl, rfl⟩
  refine checkCfg_traces.seq fun _ => .get_run (g := fun t =>
    require (decide (t.arg.toNat < t.alpha)) .badArg 0 >>= fun _ => modify fun u => u.bumpHist c t.arg.toNat)
    (fun t D => ?_) fun t _ => (Traces.require _ _ _).seq fun _ => .modify (State.bumpHist_shifts c _)
  show (require (decide (t.arg.toNat < t.alpha)) .badArg 0 >>= fun _ => set _) _ =
    (require (decide (t.arg.toNat < t.alpha)) .badArg 0 >>= fun _ => modify _) _
  cases decide (t.arg.toNat < t.alpha) <;> rfl

/-- The commands that write through the packer alone. -/
theorem refusalsStop_of_writing {i : Instr} {leave : ErrCode → State → State} {m : Cmd Unit}
    (hexec : ∀ s, exec i s = commandWith leave (marking m) s) (hm : Traces s (.writing fun _ => 0) (.writing fun _ => 0) ∅ m)
    (hr : ∀ t, readOffsets i s t = (0, 0)) (hw : ∀ t, writeOffsets i s t = (s.pk.ptr.toNat, t.pk.ptr.toNat)) :
    RefusalsStop i s :=
  refusalsStop_of_traces hexec (marking_traces hm) fun t => by
    rw [accessFoot_eq, hr, hw, View.foot_writing, Foot.range_self]
    rfl

theorem hdrWrite_refusalsStop : RefusalsStop .hdrWrite s :=
  refusalsStop_of_writing s (fun _ => rfl)
    (checkCfg_traces.seq fun _ => checkOut_traces.seq fun _ => hdrWriteBody_traces) (fun _ => rfl) fun _ => rfl

theorem pkBits_refusalsStop : RefusalsStop .pkBits s :=
  refusalsStop_of_writing s (fun _ => rfl)
    (checkCfg_traces.seq fun _ => checkOut_traces.seq fun _ => .get (fun _ _ => rfl) fun _ _ =>
      (Traces.require _ _ _).seq fun _ => writeBits_traces _ _) (fun _ => rfl) fun _ => rfl

theorem pkFlush_refusalsStop : RefusalsStop .pkFlush s :=
  refusalsStop_of_writing s (fun _ => rfl)
    (checkCfg_traces.seq fun _ => checkOut_traces.seq fun _ => flushPartial_traces.seq fun _ =>
      .modify State.reportPacked_shifts) (fun _ => rfl) fun _ => rfl

theorem encSym_refusalsStop (c : Ch) : RefusalsStop (.encSym c) s :=
  refusalsStop_of_writing s (fun _ => rfl)
    (checkCfg_traces.seq fun _ => checkOut_traces.seq fun _ => .get (fun _ _ => rfl) fun _ _ =>
      (Traces.require _ _ _).seq fun _ => emitCode_traces c _) (fun _ => rfl) fun _ => rfl

theorem hdrRead_refusalsStop : RefusalsStop .hdrRead s :=
  refusalsStop_of_traces (fun _ => rfl) (checkCfg_traces.seq fun _ => checkIn_traces.seq fun _ => hdrReadBody_traces)
    fun t => by
      rw [accessFoot_eq, Set.empty_union]
      rfl

theorem rdBits_refusalsStop : RefusalsStop .rdBits s :=
  refusalsStop_of_traces (fun _ => rfl)
    (checkCfg_traces.seq fun _ => checkIn_traces.seq fun _ => .get (fun _ _ => rfl) fun _ _ =>
      (Traces.require _ _ _).seq fun _ => (readBits_traces (q := fun _ => 0) _ 0).seq fun _ =>
        .modify (State.setResult_shifts _)) fun t => by
      rw [accessFoot_eq, Set.empty_union]
      rfl

theorem decSym_refusalsStop (c : Ch) : RefusalsStop (.decSym c) s :=
  refusalsStop_of_traces (fun _ => rfl)
    (checkCfg_traces.seq fun _ => checkIn_traces.seq fun _ => (validateTree_traces c).seq fun _ =>
      (decodeSymbol_traces (q := fun _ => 0) c).seq fun _ => .modify (State.setResult_shifts _)) fun t => by
      rw [accessFoot_eq, Set.empty_union]
      rfl

theorem histScan_refusalsStop : RefusalsStop .histScan s :=
  refusalsStop_of_traces (fun _ => rfl)
    ((duties_traces _).seq fun _ => .afterCheckCfg fun hn => checkIn_traces.seq fun _ => checkRaw_traces.seq fun _ =>
      ((histPass_traces hn).bind fun _ => .modify State.openScan_shifts).cast (Set.union_empty _)) fun t => by
      rw [accessFoot_eq, View.foot_still, readOffsets, rawBytes_eq]
      exact congrArg (_ ∪ ·) (Foot.range_self _ _).symm

theorem packScan_refusalsStop : RefusalsStop .packScan s :=
  refusalsStop_of_traces (fun _ => rfl)
    ((duties_traces _).seq fun _ => .afterCheckCfg fun hn => checkIn_traces.seq fun _ => checkOut_traces.seq fun _ =>
      checkRaw_traces.seq fun _ =>
        ((packPass_traces hn).bind fun _ => .modify State.closeScan_shifts).cast (Set.union_empty _)) fun t => by
      rw [accessFoot_eq, View.foot_writing, readOffsets, rawBytes_eq]
      rfl

theorem encFrame_refusalsStop : RefusalsStop .encFrame s :=
  refusalsStop_of_traces (fun _ => rfl)
    ((duties_traces _).seq fun _ => .afterCheckCfg fun hn => checkIn_traces.seq fun _ => checkOut_traces.seq fun _ =>
      checkRaw_traces.seq fun _ => encFrameBody_traces hn) fun t => by
      rw [accessFoot_eq, readOffsets, rawBytes_eq, View.foot]
      exact congrArg (_ ∪ ·) ((congrArg (· ∪ _) (Foot.range_self _ _)).trans (Set.empty_union _))

theorem decScan_refusalsStop : RefusalsStop .decScan s := by
  refine refusalsStop_of_traces (E := .range s.writeAt 0 (Spec.decodedBytes s)) (fun _ => rfl)
    ((duties_traces _).seq fun _ => .afterCheckCfgDecode fun hn hmode => checkIn_traces.seq fun _ =>
      checkOut_traces.seq fun _ => checkOutSize_traces.seq fun _ => .get (fun _ _ => rfl) fun _ _ =>
        (Traces.forEach validateTree_traces _).seq fun _ => (decScanBody_traces hn hmode).cast ?_) fun t => ?_
  · rw [decodedBytes_eq hmode]
  · rw [accessFoot_eq, View.foot_bits, Set.union_comm]
    rfl

theorem decFrame_refusalsStop : RefusalsStop .decFrame s := by
  refine refusalsStop_of_traces (E := .range s.writeAt 0 (Spec.decodedBytes s)) (v := .still) (fun _ => rfl)
    ((duties_traces _).seq fun _ => .afterCheckCfgDecode fun hn hmode => checkIn_traces.seq fun _ =>
      checkOut_traces.seq fun _ => checkOutSize_traces.seq fun _ => (Traces.modify State.initReader_starts).seq fun _ =>
        hdrReadBody_bits_traces.seq fun _ => (decScanBody_traces hn hmode).cast ?_) fun t => ?_
  · rw [decodedBytes_eq hmode]
  · rw [accessFoot_eq, View.foot, Set.union_comm]
    exact congrArg (· ∪ _) ((congrArg (_ ∪ ·) (Foot.range_self _ _)).trans (Set.union_empty _))

theorem passthru_refusalsStop : RefusalsStop .passthru s := by
  refine refusalsStop_of_traces (E := .range s.readAt 0 s.rawSize ∪ .range s.writeAt 0 s.rawSize) (v := .still)
    (w := .still) (fun _ => rfl) ((duties_traces _).seq fun _ => checkCfg_traces.seq fun _ => checkIn_traces.seq fun _ =>
      checkOut_traces.seq fun _ => .get (fun _ _ => rfl) fun t ht => (Traces.require _ _ _).seq fun _ =>
        (Traces.require _ _ _).seq fun _ => ?_) fun t => ?_
  · refine ((Traces.forUp copyByte_traces _ _).bind fun _ => .modify State.reportRaw_shifts).cast ?_
    rw [ht.rawSize, Foot.range_union, Nat.zero_add, Set.union_empty]
  · rw [accessFoot_eq, View.foot_still, Set.union_empty, readOffsets, writeOffsets, rawBytes_eq]

/-- R15 for every command. -/
theorem exec_refusalsStop (i : Instr) : RefusalsStop i s := by
  cases i with
  | nop => exact refusalsStop_of_still s (leave := fun _ t => t) (fun _ => rfl) (.pure ()) fun _ => ⟨rfl, rfl⟩
  | histClear => exact refusalsStop_of_modify s _ (fun _ => rfl) State.clearHist_shifts fun _ => ⟨rfl, rfl⟩
  | histScan => exact histScan_refusalsStop s
  | histAdd c => exact histAdd_refusalsStop s c
  | treeBuild c => exact refusalsStop_of_modify s _ (fun _ => rfl) (State.buildTree_shifts c) fun _ => ⟨rfl, rfl⟩
  | codeGen c =>
    exact refusalsStop_of_still s (fun _ => rfl) (checkCfg_traces.seq fun _ => codeGenBody_traces c) fun _ => ⟨rfl, rfl⟩
  | hdrWrite => exact hdrWrite_refusalsStop s
  | hdrRead => exact hdrRead_refusalsStop s
  | pkInit => exact refusalsStop_of_modify s _ (fun _ => rfl) State.initPacker_still fun _ => ⟨rfl, rfl⟩
  | pkBits => exact pkBits_refusalsStop s
  | pkFlush => exact pkFlush_refusalsStop s
  | encSym c => exact encSym_refusalsStop s c
  | packScan => exact packScan_refusalsStop s
  | rdInit => exact refusalsStop_of_modify s _ (fun _ => rfl) State.initReader_still fun _ => ⟨rfl, rfl⟩
  | rdBits => exact rdBits_refusalsStop s
  | decSym c => exact decSym_refusalsStop s c
  | decScan => exact decScan_refusalsStop s
  | predReset => exact refusalsStop_of_modify s _ (fun _ => rfl) State.clearPredictors_shifts fun _ => ⟨rfl, rfl⟩
  | predFwd c => exact refusalsStop_of_modify s _ (fun _ => rfl) (State.predFwd_shifts c) fun _ => ⟨rfl, rfl⟩
  | predInv c => exact refusalsStop_of_modify s _ (fun _ => rfl) (State.predInv_shifts c) fun _ => ⟨rfl, rfl⟩
  | csc =>
    exact refusalsStop_of_modify s (fun t => t.setResult _) (fun _ => rfl) (fun _ => ⟨fun _ => rfl, rfl, rfl, rfl⟩)
      fun _ => ⟨rfl, rfl⟩
  | scale =>
    exact refusalsStop_of_modify s (fun t => t.setResult _) (fun _ => rfl) (fun _ => ⟨fun _ => rfl, rfl, rfl, rfl⟩)
      fun _ => ⟨rfl, rfl⟩
  | encFrame => exact encFrame_refusalsStop s
  | decFrame => exact decFrame_refusalsStop s
  | passthru => exact passthru_refusalsStop s

end Commands

end Sys2Proof.Machine
end

section
/-! The obligation O60: refused accesses. -/

namespace Sys2Proof.Machine

open Spec

/-! ### The first access of a command -/

section FirstAccess

variable {α β : Type}

theorem Cmd.bind_run_ok {m : Cmd α} {f : α → Cmd β} {s t : State} {a : α} (h : m s = .ok a t) : (m >>= f) s = f a t := by
  rw [Cmd.bind_run, h]

theorem Cmd.bind_run_error {m : Cmd α} {f : α → Cmd β} {s t : State} {e : Stop} (h : m s = .error e t) :
    (m >>= f) s = .error e t := by
  rw [Cmd.bind_run, h]

theorem checkCfg_ok {s : State} (h : FormatLegal s) : checkCfg s = .ok () s := by
  obtain ⟨hbw, h1, h4⟩ := h
  rw [checkCfg_run, if_pos]
  simp only [State.cfgOk, Bool.and_eq_true, bne_iff_ne, decide_eq_true_eq]
  exact ⟨⟨hbw, h1⟩, h4⟩

theorem checkIn_ok {s : State} (h : InFits s) : checkIn s = .ok () s := by
  rw [checkIn_run, if_pos]
  exact decide_eq_true h

theorem checkOut_ok {s : State} (h : OutFits s) : checkOut s = .ok () s := by
  rw [checkOut_run, if_pos]
  exact decide_eq_true h

theorem ofNat_toNat_add (a b : Word) : BitVec.ofNat 32 (a.toNat + b.toNat) = a + b := by
  apply BitVec.eq_of_toNat_eq
  rw [BitVec.toNat_ofNat, BitVec.toNat_add]

variable {s : State}

theorem emitByte_refused (h : s.memOk .write (s.outAddr.toNat + s.pk.ptr.toNat) = false) (x : Byte) :
    emitByte x s = if s.pk.ptr.toNat < s.outCap.toNat then .error (.raise .busError (s.outAddr + s.pk.ptr)) s
      else .error (.raise .outOverflow s.pk.ptr) s := by
  rw [emitByte_run, h, ofNat_toNat_add]
  rfl

theorem readBit_refused (hbit : s.rd.bit = 0) (h : s.memOk .read (s.inAddr.toNat + s.rd.ptr.toNat) = false) :
    readBit s = if s.rd.ptr.toNat < s.inLen.toNat then .error (.raise .busError (s.inAddr + s.rd.ptr)) s
      else .error (.raise .bitUnderrun s.rd.ptr) s := by
  rw [readBit_run, refill_run, h, ofNat_toNat_add, if_pos hbit]
  by_cases hroom : s.rd.ptr.toNat < s.inLen.toNat <;> simp [hroom]

theorem readByte_refused (h : s.memOk .read (s.inAddr.toNat + s.rd.ptr.toNat) = false) :
    readByte s = if s.rd.ptr.toNat < s.inLen.toNat then .error (.raise .busError (s.inAddr + s.rd.ptr)) s
      else .error (.raise .hdrTrunc s.rd.ptr) s := by
  rw [readByte_run, h, ofNat_toNat_add]
  rfl

theorem State.markSince_self (s : State) : s.markSince s = s := by
  unfold State.markSince
  rw [Nat.sub_self]
  rfl

/-- A command that emits and stops before it changes anything leaves the bytes R67 keeps (log 26). -/
theorem stopsUnwritten_of_error (hs : Inv s) {m : Cmd Unit} {e : ErrCode} {info : Word}
    (h : m s = .error (.raise e info) s) : StopsUnwritten s (commandEmit m s) e.code info := by
  have hrun : commandEmit m s = .next (s.loosenUnwritten.stop e info) := by
    unfold commandEmit commandWith marking
    rw [h]
    simp only [State.markSince_self]
  obtain ⟨-, hread⟩ := Memory.loosenUnwritten_spec hs.mem (lo := s.outAddr.toNat) (n := s.draws) s.outTop_le
    fun p hp => (hs.drawn p hp).ne
  refine ⟨_, hrun, rfl, rfl, rfl, rfl, rfl, rfl, fun a ha => ?_⟩
  refine (hread a).1.trans (if_neg fun hfree => ?_)
  obtain ⟨⟨hlo, hhi⟩, hunwritten⟩ := hfree
  rcases ha with hout | hemitted
  · exact hout ⟨hlo, hhi.trans_le (Nat.min_le_left _ _)⟩
  · exact Bool.noConfusion (hunwritten.symm.trans hemitted)

theorem command_of_error {m : Cmd Unit} {e : ErrCode} {info : Word} (h : m s = .error (.raise e info) s) :
    command m s = stopped s e.code info := by
  unfold command commandWith
  rw [h]
  rfl

theorem pkFlush_refused (hs : Inv s) (hformat : FormatLegal s) (hout : OutFits s) (hfill : s.pk.fill ≠ 0)
    (h : s.memOk .write (s.outAddr.toNat + s.pk.ptr.toNat) = false) :
    if s.pk.ptr.toNat < s.outCap.toNat then StopsUnwritten s (exec .pkFlush s) 0x0D (s.outAddr + s.pk.ptr)
    else StopsUnwritten s (exec .pkFlush s) 0x05 s.pk.ptr := by
  have hfill' : ¬s.pk.fill.toNat = 0 := fun h0 => hfill (BitVec.eq_of_toNat_eq h0)
  have hbody : ∀ e, emitByte (s.pk.acc <<< (8 - s.pk.fill.toNat)) s = .error e s →
      (checkCfg >>= fun _ => checkOut >>= fun _ => flushPartial >>= fun _ => modify State.reportPacked) s =
        .error e s := fun e he => by
    rw [Cmd.bind_run_ok (checkCfg_ok hformat), Cmd.bind_run_ok (checkOut_ok hout)]
    apply Cmd.bind_run_error
    rw [flushPartial_run, if_neg hfill', he]
  have hemit := emitByte_refused h (s.pk.acc <<< (8 - s.pk.fill.toNat))
  split at hemit <;> rename_i hroom
  · rw [if_pos hroom]
    exact stopsUnwritten_of_error hs (hbody _ hemit)
  · rw [if_neg hroom]
    exact stopsUnwritten_of_error hs (hbody _ hemit)

theorem rdBits_refused (hformat : FormatLegal s) (hin : InFits s) (hbit : s.rd.bit = 0) (h1 : 1 ≤ s.argLen.toNat)
    (h64 : s.argLen.toNat ≤ 64) (h : s.memOk .read (s.inAddr.toNat + s.rd.ptr.toNat) = false) :
    exec .rdBits s =
      if s.rd.ptr.toNat < s.inLen.toNat then stopped s 0x0D (s.inAddr + s.rd.ptr) else stopped s 0x09 s.rd.ptr := by
  obtain ⟨n, hn⟩ : ∃ n, s.count = n + 1 := ⟨s.argLen.toNat - 1, (Nat.sub_add_cancel h1).symm⟩
  have hcount : decide (s.count ≤ 64) = true := decide_eq_true h64
  have hbody : ∀ e info, readBit s = .error (.raise e info) s → exec .rdBits s = stopped s e.code info := fun e info he => by
    refine command_of_error ?_
    rw [Cmd.bind_run_ok (checkCfg_ok hformat), Cmd.bind_run_ok (checkIn_ok hin), Cmd.get_bind_run,
      Cmd.bind_run_ok (by rw [require_run, if_pos hcount]), hn]
    exact Cmd.bind_run_error (Cmd.bind_run_error he)
  have hread := readBit_refused hbit h
  split at hread <;> rename_i hroom
  · rw [if_pos hroom]
    exact hbody _ _ hread
  · rw [if_neg hroom]
    exact hbody _ _ hread

theorem hdrRead_refused (hformat : FormatLegal s) (hin : InFits s) (hbit : s.rd.bit = 0)
    (h : s.memOk .read (s.inAddr.toNat + s.rd.ptr.toNat) = false) :
    exec .hdrRead s =
      if s.rd.ptr.toNat < s.inLen.toNat then stopped s 0x0D (s.inAddr + s.rd.ptr) else stopped s 0x06 s.rd.ptr := by
  obtain ⟨n, hn⟩ : ∃ n, s.nch = n + 1 := ⟨s.nch - 1, (Nat.sub_add_cancel hformat.2.1).symm⟩
  have hbody : ∀ e info, readByte s = .error (.raise e info) s → exec .hdrRead s = stopped s e.code info :=
    fun e info he => by
      refine command_of_error ?_
      rw [Cmd.bind_run_ok (checkCfg_ok hformat), Cmd.bind_run_ok (checkIn_ok hin)]
      show (require (decide (s.rd.bit.toNat = 0)) .badState 0 >>= fun _ => forEach (channels s.nch) readHeader) s = _
      rw [Cmd.bind_run_ok (by rw [require_run, hbit]; rfl), hn]
      exact Cmd.bind_run_error (Cmd.bind_run_error (Cmd.bind_run_error he))
  have hread := readByte_refused h
  split at hread <;> rename_i hroom
  · rw [if_pos hroom]
    exact hbody _ _ hread
  · rw [if_neg hroom]
    exact hbody _ _ hread

end FirstAccess

/-- Settles O60: every command touches the accesses the statement gives it, so MEM_OK decides nothing else; the three first
accesses are run. -/
theorem refusedAccessesStop : Obligations.RefusedAccessesStop := by
  unfold Obligations.RefusedAccessesStop
  refine ⟨fun i s t _ _ => exec_refusalsStop s i t, fun s hs hformat => ⟨?_, ?_, ?_⟩⟩
  · exact pkFlush_refused hs hformat
  · exact rdBits_refused hformat
  · exact hdrRead_refused hformat

end Sys2Proof.Machine
end

section
/-! SUPPORT. Two runs of one pseudocode in step. A rule for an operation is stated once, for two runs whose states stand in
a relation; a property that every run keeps is the case of equal states. -/

namespace Sys2Proof.Machine

variable {α β : Type}

/-- A relation between the states of two runs. -/
abbrev Link := State → State → Prop

/-- Two runs end alike: with one answer `a` in states of `S a`, or with one error in states of `E`. Neither is refused. -/
def Alike (S : α → Link) (E : Link) (x y : EStateM.Result Stop State α) : Prop :=
  (∃ a t v, x = .ok a t ∧ y = .ok a v ∧ S a t v) ∨
    ∃ e info t v, x = .error (.raise e info) t ∧ y = .error (.raise e info) v ∧ E t v

/-- From any two states of `R`, the runs of `m` end alike. -/
def Couples (R : Link) (m : Cmd α) (S : α → Link) (E : Link) : Prop := ∀ s u, R s u → Alike S E (m s) (m u)

/-- The runs of `m` keep `R`, however they end. -/
abbrev Lockstep (R : Link) (m : Cmd α) : Prop := Couples R m (fun _ => R) R

variable {S S' : α → Link} {T : β → Link} {R E E' : Link} {s u : State}

theorem Alike.ok {a : α} {x y : EStateM.Result Stop State α} {t v : State} (hx : x = .ok a t) (hy : y = .ok a v)
    (h : S a t v) : Alike S E x y := .inl ⟨a, t, v, hx, hy, h⟩

theorem Alike.error {e : ErrCode} {info : Word} {x y : EStateM.Result Stop State α} {t v : State}
    (hx : x = .error (.raise e info) t) (hy : y = .error (.raise e info) v) (h : E t v) : Alike S E x y :=
  .inr ⟨e, info, t, v, hx, hy, h⟩

theorem Alike.mono {x y : EStateM.Result Stop State α} (h : Alike S E x y) (hS : ∀ a t v, S a t v → S' a t v)
    (hE : ∀ t v, E t v → E' t v) : Alike S' E' x y := by
  obtain ⟨a, t, v, hx, hy, h⟩ | ⟨e, info, t, v, hx, hy, h⟩ := h
  · exact .ok hx hy (hS _ _ _ h)
  · exact .error hx hy (hE _ _ h)

/-- The rule of a sequence: the second part runs where the first completes. -/
theorem Alike.bind_of_ok {m : Cmd α} {f : α → Cmd β} (hm : Alike S E (m s) (m u))
    (hf : ∀ a t v, m s = .ok a t → S a t v → Alike T E (f a t) (f a v)) : Alike T E ((m >>= f) s) ((m >>= f) u) := by
  obtain ⟨a, t, v, hx, hy, h⟩ | ⟨e, info, t, v, hx, hy, h⟩ := hm
  · rw [Cmd.bind_run_ok hx, Cmd.bind_run_ok hy]
    exact hf a t v hx h
  · exact .error (Cmd.bind_run_error hx) (Cmd.bind_run_error hy) h

theorem Alike.bind {m : Cmd α} {f : α → Cmd β} (hm : Alike S E (m s) (m u)) (hf : ∀ a, Couples (S a) (f a) T E) :
    Alike T E ((m >>= f) s) ((m >>= f) u) := hm.bind_of_ok fun a _ _ _ h => hf a _ _ h

theorem Couples.mono {m : Cmd α} (h : Couples R m S E) (hS : ∀ a t v, S a t v → S' a t v) (hE : ∀ t v, E t v → E' t v) :
    Couples R m S' E' := fun _ _ hR => (h _ _ hR).mono hS hE

theorem Couples.bind {m : Cmd α} {f : α → Cmd β} (hm : Couples R m S E) (hf : ∀ a, Couples (S a) (f a) T E) :
    Couples R (m >>= f) T E := fun _ _ h => (hm _ _ h).bind hf

theorem Couples.pure {a : α} (h : ∀ s u, R s u → S a s u) : Couples R (pure a : Cmd α) S E := fun _ _ hR =>
  .ok rfl rfl (h _ _ hR)

theorem Couples.raise (e : ErrCode) (info : Word) (h : ∀ s u, R s u → E s u) : Couples R (raise e info : Cmd α) S E :=
  fun _ _ hR => .error rfl rfl (h _ _ hR)

theorem Couples.modify {S : Unit → Link} {f : State → State} (h : ∀ s u, R s u → S () (f s) (f u)) :
    Couples R (modify f : Cmd Unit) S E := fun _ _ hR => .ok rfl rfl (h _ _ hR)

/-- What a failing check leaves is what it found. -/
theorem Alike.require_bind {p : Bool} {e : ErrCode} {info : Word} {f : Unit → Cmd β} (hE : E s u)
    (hf : p = true → Alike T E (f () s) (f () u)) :
    Alike T E ((require p e info >>= f) s) ((require p e info >>= f) u) := by
  cases p
  · exact .error rfl rfl hE
  · exact hf rfl

/-- A read of the state, where what follows is one pseudocode for both states. -/
theorem Alike.get_bind {f : State → Cmd β} (hf : f u = f s) (h : Alike T E (f s s) (f s u)) :
    Alike T E (((get : Cmd State) >>= f) s) (((get : Cmd State) >>= f) u) := by
  show Alike T E (f s s) (f u u)
  rwa [hf]

theorem Alike.modify_bind {f : State → State} {g : Unit → Cmd β} (h : Alike T E (g () (f s)) (g () (f u))) :
    Alike T E (((modify f : Cmd Unit) >>= g) s) (((modify f : Cmd Unit) >>= g) u) := h

/-- A counted loop, with a relation for each value of the counter. -/
theorem Couples.forUp {R : Nat → Link} {f : Nat → Cmd Unit} {n i : Nat}
    (hf : ∀ k, i ≤ k → k < i + n → Couples (R k) (f k) (fun _ => R (k + 1)) E) :
    Couples (R i) (forUp n i f) (fun _ => R (i + n)) E := by
  induction n generalizing i with
  | zero => exact Couples.pure fun _ _ h => h
  | succ n ih =>
    rw [show i + (n + 1) = i + 1 + n by omega]
    exact (hf i le_rfl (by omega)).bind fun _ => ih fun k h1 h2 => hf k (by omega) (by omega)

/-- A loop over a list, with a relation for each list of elements still to come. -/
theorem Couples.forEach {R : List α → Link} {f : α → Cmd Unit} {l : List α}
    (hf : ∀ x t, x ∈ l → Couples (R (x :: t)) (f x) (fun _ => R t) E) :
    Couples (R l) (forEach l f) (fun _ => R []) E := by
  induction l with
  | nil => exact Couples.pure fun _ _ h => h
  | cons x t ih =>
    exact (hf x t List.mem_cons_self).bind fun _ => ih fun y t' hy => hf y t' (List.mem_cons_of_mem x hy)

theorem Lockstep.forUp {f : Nat → Cmd Unit} (hf : ∀ k, Lockstep R (f k)) (n i : Nat) : Lockstep R (Machine.forUp n i f) :=
  Couples.forUp (R := fun _ => R) fun k _ _ => hf k

theorem Lockstep.forEach {f : α → Cmd Unit} {l : List α} (hf : ∀ x ∈ l, Lockstep R (f x)) :
    Lockstep R (Machine.forEach l f) := Couples.forEach (R := fun _ => R) fun x _ hx => hf x hx

theorem mem_channels {n : Nat} {c : Ch} : c ∈ channels n ↔ c.val < n := by
  unfold channels
  rcases n with _ | _ | _ | _ | n <;> fin_cases c <;> simp

/-! ### A property of one run -/

/-- Equal states of `P`. -/
def Diag (P : State → Prop) : Link := fun s u => s = u ∧ P s

theorem Diag.of {P : State → Prop} (h : P s) : Diag P s s := ⟨rfl, h⟩

theorem Diag.map {P Q : State → Prop} {f : State → State} (hf : ∀ s, P s → Q (f s)) (h : Diag P s u) :
    Diag Q (f s) (f u) := ⟨congrArg f h.1, hf s h.2⟩

/-! ### States that agree on all but what R48 calls stale -/

/-- `s` without its tables, channel registers and unit state (R48), and without the script, which no command reads. -/
def State.bare (s : State) : State :=
  { s with
    hist := [], tree := [], code := [], ncount := .all 0, root := .all 0, prev := .all 0, acc := .all 0
    pk := ⟨0, 0, 0⟩, rd := ⟨0, 0, 0⟩, script := [] }

/-- The two states differ at most in tables, channel registers, unit state and the script. -/
def Agree : Link := fun s u => s.bare = u.bare

namespace Agree

variable (h : Agree s u)
include h

theorem eq {f : State → α} (hf : ∀ s, f s.bare = f s) : f s = f u := by rw [← hf s, ← hf u, show s.bare = u.bare from h]

theorem cfg : s.cfg = u.cfg := h.eq (f := State.cfg) fun _ => rfl
theorem width : s.width = u.width := h.eq (f := State.width) fun _ => rfl
theorem height : s.height = u.height := h.eq (f := State.height) fun _ => rfl
theorem inAddr : s.inAddr = u.inAddr := h.eq (f := State.inAddr) fun _ => rfl
theorem inLen : s.inLen = u.inLen := h.eq (f := State.inLen) fun _ => rfl
theorem outAddr : s.outAddr = u.outAddr := h.eq (f := State.outAddr) fun _ => rfl
theorem outCap : s.outCap = u.outCap := h.eq (f := State.outCap) fun _ => rfl
theorem mem : s.mem = u.mem := h.eq (f := State.mem) fun _ => rfl
theorem memOk (k : AccessKind) (a : Nat) : s.memOk k a = u.memOk k a := h.eq (f := (State.memOk · k a)) fun _ => rfl
theorem bw : s.bw = u.bw := h.eq (f := State.bw) fun _ => rfl
theorem alpha : s.alpha = u.alpha := h.eq (f := State.alpha) fun _ => rfl
theorem nch : s.nch = u.nch := h.eq (f := State.nch) fun _ => rfl
theorem outMode : s.outMode = u.outMode := h.eq (f := State.outMode) fun _ => rfl
theorem bytesPerRow : s.bytesPerRow = u.bytesPerRow := h.eq (f := State.bytesPerRow) fun _ => rfl
theorem outRow (r : Nat) : s.outRow r = u.outRow r := h.eq (f := (State.outRow · r)) fun _ => rfl
theorem outBytes : s.outBytes = u.outBytes := h.eq (f := State.outBytes) fun _ => rfl
theorem rawSize : s.rawSize = u.rawSize := h.eq (f := State.rawSize) fun _ => rfl
theorem cfgOk : s.cfgOk = u.cfgOk := h.eq (f := State.cfgOk) fun _ => rfl
theorem modeOk : s.modeOk = u.modeOk := h.eq (f := State.modeOk) fun _ => rfl
theorem inFits : s.inFits = u.inFits := h.eq (f := State.inFits) fun _ => rfl
theorem outFits : s.outFits = u.outFits := h.eq (f := State.outFits) fun _ => rfl
theorem brokenDuty (i : Instr) : s.brokenDuty i = u.brokenDuty i := h.eq (f := (State.brokenDuty · i)) fun _ => rfl

end Agree

theorem Agree.refl (s : State) : Agree s s := rfl

theorem Diag.agree {P : State → Prop} (h : Diag P s u) : Agree s u := congrArg State.bare h.1

end Sys2Proof.Machine
end

section
/-! SUPPORT. One rule per shared operation, for two runs in step: the memory port, the packer, the reader, trees and codes. -/

namespace Sys2Proof.Machine

variable {α β : Type} {R S T E : Link} {s u : State}

theorem forUp_congr {f g : Nat → Cmd Unit} {n i : Nat} (h : ∀ k, i ≤ k → k < i + n → f k = g k) :
    forUp n i f = forUp n i g := by
  induction n generalizing i with
  | zero => rfl
  | succ n ih =>
    show (f i >>= fun _ => _) = (g i >>= fun _ => _)
    rw [h i le_rfl (by omega), ih fun k h1 h2 => h k (by omega) (by omega)]

/-! ### Checks -/

theorem Alike.check_bind {T : β → Link} {m : Cmd Unit} {f : Unit → Cmd β} {p : State → Prop} [DecidablePred p]
    {e : ErrCode} {info : State → Word} (hm : ∀ s, m s = if p s then .ok () s else .error (.raise e (info s)) s)
    (hp : p s ↔ p u) (hinfo : info s = info u) (hE : E s u) (hf : p s → Alike T E (f () s) (f () u)) :
    Alike T E ((m >>= f) s) ((m >>= f) u) := by
  by_cases h : p s
  · rw [Cmd.bind_run_ok (by rw [hm, if_pos h]), Cmd.bind_run_ok (by rw [hm, if_pos (hp.1 h)])]
    exact hf h
  · rw [Cmd.bind_run_error (by rw [hm, if_neg h]), Cmd.bind_run_error (by rw [hm, if_neg (mt hp.2 h)]), hinfo]
    exact .error rfl rfl hE

/-- ValidateTree(c) reads the count, the root, and the nodes below the count. -/
def TreeAlike (c : Ch) : Link := fun s u =>
  s.ncount.get c = u.ncount.get c ∧ s.root.get c = u.root.get c ∧
    ∀ i < (s.ncount.get c).toNat, s.nodeAt c i = u.nodeAt c i

theorem TreeAlike.refl (c : Ch) (s : State) : TreeAlike c s s := ⟨rfl, rfl, fun _ _ => rfl⟩

theorem TreeAlike.treeFault {c : Ch} (h : TreeAlike c s u) (hag : Agree s u) : s.treeFault c = u.treeFault c := by
  obtain ⟨hn, hr, hnode⟩ := h
  have hrefs : s.refsOk c = u.refsOk c := by
    unfold State.refsOk
    rw [← hn, ← hag.alpha, Bool.eq_iff_iff, List.all_eq_true, List.all_eq_true]
    refine forall₂_congr fun i hi => ?_
    rw [hnode i (List.mem_range.1 hi)]
  unfold State.treeFault
  rw [hrefs, hn, hr, hag.alpha]

theorem validateTree_alike {c : Ch} (htree : TreeAlike c s u) (hag : Agree s u) (hR : R s u) :
    Alike (fun _ t v => R t v ∧ t.treeFault c = none) R (validateTree c s) (validateTree c u) := by
  rw [validateTree_run, validateTree_run, ← htree.treeFault hag]
  cases hfault : s.treeFault c with
  | none => exact .ok rfl rfl ⟨hR, hfault⟩
  | some e => exact .error rfl rfl hR

/-! ### The memory port -/

theorem memRead_lockstep (hag : ∀ s u, R s u → Agree s u) (a : Nat) : Lockstep R (memRead a) := fun s u h => by
  rw [memRead_run, memRead_run, ← (hag s u h).memOk, ← (hag s u h).mem]
  split
  · exact .ok rfl rfl h
  · exact .error rfl rfl h

/-! ### The packer -/

/-- `R` holds the packer equal, and the updates of WriteBit and EmitByte keep it. -/
structure Packing (R : Link) : Prop where
  agree : ∀ s u, R s u → Agree s u
  pk : ∀ s u, R s u → s.pk = u.pk
  emitted : ∀ s u v, R s u → s.pk.ptr.toNat < s.outCap.toNat → R (s.emitted v) (u.emitted v)
  pushBit : ∀ s u b, R s u → s.pk.fill ≠ 7 → R (s.pushBit b) (u.pushBit b)
  emptyPacker : ∀ s u, R s u → R s.emptyPacker u.emptyPacker

section Packing

variable (hR : Packing R)
include hR

theorem Packing.and {Q : Link} (hemit : ∀ s u v, Q s u → Q (s.emitted v) (u.emitted v))
    (hpush : ∀ s u b, Q s u → Q (s.pushBit b) (u.pushBit b)) (hempty : ∀ s u, Q s u → Q s.emptyPacker u.emptyPacker) :
    Packing fun s u => R s u ∧ Q s u where
  agree s u h := hR.agree s u h.1
  pk s u h := hR.pk s u h.1
  emitted s u v h hroom := ⟨hR.emitted s u v h.1 hroom, hemit s u v h.2⟩
  pushBit s u b h hfill := ⟨hR.pushBit s u b h.1 hfill, hpush s u b h.2⟩
  emptyPacker s u h := ⟨hR.emptyPacker s u h.1, hempty s u h.2⟩

theorem emitByte_lockstep (x : Byte) : Lockstep R (emitByte x) := fun s u h => by
  have hag := hR.agree s u h
  rw [emitByte_run, emitByte_run, ← hag.outCap, ← hag.outAddr, ← hag.memOk, ← hR.pk s u h]
  split
  · rename_i hroom
    split
    · exact .ok rfl rfl (hR.emitted s u x h hroom)
    · exact .error rfl rfl h
  · exact .error rfl rfl h

theorem writeBit_lockstep (b : Bool) : Lockstep R (writeBit b) := fun s u h => by
  have hpk := hR.pk s u h
  by_cases hfill : s.pk.fill = 7
  · rw [writeBit_full hfill, writeBit_full (hpk ▸ hfill), ← hpk]
    obtain ⟨a, t, v, ht, hv, h'⟩ | ⟨e, info, t, v, ht, hv, h'⟩ := emitByte_lockstep hR (shiftIn s.pk.acc b) s u h <;>
      rw [ht, hv]
    · exact .ok rfl rfl (hR.emptyPacker t v h')
    · exact .error rfl rfl h'
  · exact .ok (writeBit_room hfill b) (writeBit_room (hpk ▸ hfill) b) (hR.pushBit s u b h hfill)

theorem writeBits_lockstep (x n : Nat) : Lockstep R (writeBits x n) := by
  induction n with
  | zero => exact Couples.pure fun _ _ h => h
  | succ n ih => exact (writeBit_lockstep hR _).bind fun _ => ih

theorem emitCode_alike {c : Ch} {sym : Nat} (h : R s u) (hcode : s.codeAt c sym = u.codeAt c sym) :
    Alike (fun _ => R) R (emitCode c sym s) (emitCode c sym u) := by
  rw [emitCode_run, emitCode_run, ← hcode]
  split
  · exact writeBits_lockstep hR _ _ s u h
  · exact .error rfl rfl h

theorem flushPartial_lockstep : Lockstep R flushPartial := fun s u h => by
  rw [flushPartial_run, flushPartial_run, ← hR.pk s u h]
  split
  · exact .ok rfl rfl h
  · obtain ⟨a, t, v, ht, hv, h'⟩ | ⟨e, info, t, v, ht, hv, h'⟩ :=
      emitByte_lockstep hR (s.pk.acc <<< (8 - s.pk.fill.toNat)) s u h <;> rw [ht, hv]
    · exact .ok rfl rfl (hR.emptyPacker t v h')
    · exact .error rfl rfl h'

theorem emitLe_lockstep (n x : Nat) : Lockstep R (emitLe n x) := by
  induction n generalizing x with
  | zero => exact Couples.pure fun _ _ h => h
  | succ n ih => exact (emitByte_lockstep hR _).bind fun _ => ih _

theorem writeHeader_lockstep {c : Ch} (htree : ∀ s u, R s u → TreeAlike c s u) : Lockstep R (writeHeader c) :=
  fun s u h => by
    obtain ⟨hn, hr, hnode⟩ := htree s u h
    refine Alike.get_bind ?_ ((emitLe_lockstep hR _ _ s u h).bind fun _ => (emitLe_lockstep hR _ _).bind fun _ =>
      Lockstep.forUp (fun _ => (emitLe_lockstep hR _ _).bind fun _ => emitLe_lockstep hR _ _) _ _)
    simp only [← hn, ← hr]
    rw [forUp_congr fun i _ hi => by rw [← hnode i (by omega)]]

/-- The body of HDR_WRITE changes no tree. -/
theorem hdrWriteBody_lockstep {n : Nat} (hnch : ∀ s u, R s u → s.nch = n)
    (htree : ∀ (c : Ch) s u, c.val < n → R s u → TreeAlike c s u) : Lockstep R hdrWriteBody := fun s u h => by
  have hc : ∀ c ∈ channels s.nch, c.val < n := fun c hc => hnch s u h ▸ mem_channels.1 hc
  refine Alike.get_bind (by rw [hR.pk s u h, (hR.agree s u h).nch]) (.require_bind h fun _ => ?_)
  refine Couples.bind (S := fun _ => R) (Lockstep.forEach fun c hm t v h' => ?_)
    (fun _ => Lockstep.forEach fun c hm => writeHeader_lockstep hR fun t v => htree c t v (hc c hm)) s u h
  exact (validateTree_alike (htree c t v (hc c hm) h') (hR.agree t v h') h').mono (fun _ _ _ h => h.1) fun _ _ h => h

end Packing

/-! ### The reader -/

/-- The reader becomes `d`. -/
def State.setReader (d : Reader) (s : State) : State := { s with rd := d }

/-- `refill_run`, with the update of the reader by name. -/
theorem refill_setReader (s : State) :
    refill s =
      if s.rd.bit = 0 then
        if s.rd.ptr.toNat < s.inLen.toNat then
          if s.memOk .read (s.inAddr.toNat + s.rd.ptr.toNat) then
            .ok () (s.setReader { s.rd with buf := s.mem.read (s.inAddr.toNat + s.rd.ptr.toNat) })
          else .error (.raise .busError (BitVec.ofNat 32 (s.inAddr.toNat + s.rd.ptr.toNat))) s
        else .error (.raise .bitUnderrun s.rd.ptr) s
      else .ok () s := refill_run s

/-- `readByte_run`, with the update of the reader by name. -/
theorem readByte_setReader (s : State) :
    readByte s =
      if s.rd.ptr.toNat < s.inLen.toNat then
        if s.memOk .read (s.inAddr.toNat + s.rd.ptr.toNat) then
          .ok (s.mem.read (s.inAddr.toNat + s.rd.ptr.toNat)) (s.setReader { s.rd with ptr := s.rd.ptr + 1 })
        else .error (.raise .busError (BitVec.ofNat 32 (s.inAddr.toNat + s.rd.ptr.toNat))) s
      else .error (.raise .hdrTrunc s.rd.ptr) s := readByte_run s

/-- `R` holds the reader equal, and the updates of ReadBit keep it. -/
structure BitReading (R : Link) : Prop where
  agree : ∀ s u, R s u → Agree s u
  rd : ∀ s u, R s u → s.rd = u.rd
  loaded : ∀ s u v, R s u → R (s.setReader { s.rd with buf := v }) (u.setReader { u.rd with buf := v })
  next : ∀ s u, R s u → R (s.setReader s.rd.next) (u.setReader u.rd.next)

/-- `R` holds the reader equal, and the update of ReadByte keeps it. -/
structure ByteReading (R : Link) : Prop where
  agree : ∀ s u, R s u → Agree s u
  rd : ∀ s u, R s u → s.rd = u.rd
  advanced : ∀ s u, R s u →
    R (s.setReader { s.rd with ptr := s.rd.ptr + 1 }) (u.setReader { u.rd with ptr := u.rd.ptr + 1 })

theorem BitReading.and (hR : BitReading R) {Q : Link}
    (hQ : ∀ s u d e, Q s u → Q (s.setReader d) (u.setReader e)) : BitReading fun s u => R s u ∧ Q s u where
  agree s u h := hR.agree s u h.1
  rd s u h := hR.rd s u h.1
  loaded s u v h := ⟨hR.loaded s u v h.1, hQ s u _ _ h.2⟩
  next s u h := ⟨hR.next s u h.1, hQ s u _ _ h.2⟩

theorem ByteReading.and (hR : ByteReading R) {Q : Link}
    (hQ : ∀ s u d e, Q s u → Q (s.setReader d) (u.setReader e)) : ByteReading fun s u => R s u ∧ Q s u where
  agree s u h := hR.agree s u h.1
  rd s u h := hR.rd s u h.1
  advanced s u h := ⟨hR.advanced s u h.1, hQ s u _ _ h.2⟩

section Bits

variable (hR : BitReading R)
include hR

theorem refill_lockstep : Lockstep R refill := fun s u h => by
  have hag := hR.agree s u h
  have hload := hR.loaded s u (s.mem.read (s.inAddr.toNat + s.rd.ptr.toNat)) h
  rw [refill_setReader, refill_setReader, ← hag.inLen, ← hag.inAddr, ← hag.memOk, ← hag.mem, ← hR.rd s u h]
  rw [← hR.rd s u h] at hload
  split_ifs
  · exact .ok rfl rfl hload
  · exact .error rfl rfl h
  · exact .error rfl rfl h
  · exact .ok rfl rfl h

theorem readBit_lockstep : Lockstep R readBit := fun s u h => by
  rw [readBit_run, readBit_run]
  obtain ⟨a, t, v, ht, hv, h'⟩ | ⟨e, info, t, v, ht, hv, h'⟩ := refill_lockstep hR s u h <;> rw [ht, hv]
  · refine .ok rfl ?_ (hR.next t v h')
    rw [hR.rd t v h']
    rfl
  · exact .error rfl rfl h'

theorem readBits_lockstep (n x : Nat) : Lockstep R (readBits n x) := by
  induction n generalizing x with
  | zero => exact Couples.pure fun _ _ h => h
  | succ n ih => exact (readBit_lockstep hR).bind fun _ => ih _

end Bits

/-- The walks from node `i` of the stored tree of channel `c` meet the same nodes in both states. -/
def SameWalk (c : Ch) (i : Nat) : Link := fun s u =>
  ∃ met : Nat → Prop, met i ∧ ∀ j, met j → s.nodeAt c j = u.nodeAt c j ∧
    ∀ b, Config.leafLimit ≤ ((s.nodeAt c j).child b).toNat → met (((s.nodeAt c j).child b).toNat - Config.leafLimit)

theorem SameWalk.refl (c : Ch) (i : Nat) (s : State) : SameWalk c i s s :=
  ⟨fun _ => True, trivial, fun _ _ => ⟨rfl, fun _ _ => trivial⟩⟩

section Bits

variable (hR : BitReading R)
include hR

theorem descend_couples (c : Ch) (fuel node : Nat) :
    Couples (fun s u => R s u ∧ SameWalk c node s u) (descend c fuel node) (fun _ => R) R := by
  induction fuel generalizing node with
  | zero => exact fun s u h => .get_bind (by rw [hR.rd s u h.1]) (.error rfl rfl h.1)
  | succ fuel ih =>
    refine fun s u h => Alike.bind_of_ok (S := fun _ t v => R t v ∧ SameWalk c node t v)
      ((readBit_lockstep (hR.and fun _ _ _ _ h => h) s u h).mono (fun _ _ _ h => h) fun _ _ h => h.1)
      fun b t v _ h' => ?_
    obtain ⟨hRtv, met, hnode, hmet⟩ := h'
    refine Alike.get_bind (by rw [(hmet node hnode).1]) ?_
    show Alike _ _ ((if ((t.nodeAt c node).child b).toNat < Config.leafLimit then _ else _ : Cmd Nat) t)
      ((if ((t.nodeAt c node).child b).toNat < Config.leafLimit then _ else _ : Cmd Nat) v)
    split
    · exact .ok rfl rfl hRtv
    · exact ih _ t v ⟨hRtv, met, (hmet node hnode).2 b (by omega), hmet⟩

theorem decodeSymbol_lockstep {c : Ch}
    (htree : ∀ s u, R s u → s.ncount.get c = u.ncount.get c ∧ s.root.get c = u.root.get c ∧
      ((s.ncount.get c).toNat ≠ 0 → SameWalk c (s.root.get c).toNat s u)) :
    Lockstep R (decodeSymbol c) := fun s u h => by
  obtain ⟨hn, hr, hwalk⟩ := htree s u h
  refine Alike.get_bind (by simp only [hn, hr, (hR.agree s u h).inLen]) ?_
  show Alike _ _ ((if (s.ncount.get c).toNat = 0 then _ else _ : Cmd Nat) s)
    ((if (s.ncount.get c).toNat = 0 then _ else _ : Cmd Nat) u)
  split
  · exact .ok rfl rfl h
  · exact descend_couples hR c _ _ s u ⟨h, hwalk ‹_›⟩

end Bits

section Bytes

variable (hR : ByteReading R)
include hR

theorem readByte_lockstep : Lockstep R readByte := fun s u h => by
  have hag := hR.agree s u h
  have hmove := hR.advanced s u h
  rw [readByte_setReader, readByte_setReader, ← hag.inLen, ← hag.inAddr, ← hag.memOk, ← hag.mem, ← hR.rd s u h]
  rw [← hR.rd s u h] at hmove
  split_ifs
  · exact .ok rfl rfl hmove
  · exact .error rfl rfl h
  · exact .error rfl rfl h

theorem readLe_lockstep (n : Nat) : Lockstep R (readLe n) := by
  induction n with
  | zero => exact Couples.pure fun _ _ h => h
  | succ n ih => exact (readByte_lockstep hR).bind fun _ => ih.bind fun _ => Couples.pure fun _ _ h => h

end Bytes

/-! ### Codes (R106) -/

/-- The code paths inside a tree that ValidateTree accepts: the nodes below the count have legal references. -/
theorem State.refOk_of_treeFault {s : State} {c : Ch} {i : Nat} (h : s.treeFault c = none)
    (hi : i < (s.ncount.get c).toNat) :
    refOk s.alpha (s.ncount.get c).toNat (s.nodeAt c i).left = true ∧
      refOk s.alpha (s.ncount.get c).toNat (s.nodeAt c i).right = true := by
  unfold State.treeFault at h
  split_ifs at h with h1 h2 h3 h4 h5
  · omega
  · exact (Bool.and_eq_true_iff.1 (List.all_eq_true.1 h5 i (List.mem_range.2 hi)))

/-- The root of a tree that ValidateTree accepts is a symbol if there is no node, else a node. -/
theorem State.root_of_treeFault {s : State} {c : Ch} (h : s.treeFault c = none) :
    if (s.ncount.get c).toNat = 0 then (s.root.get c).toNat < s.alpha
    else (s.root.get c).toNat < (s.ncount.get c).toNat := by
  unfold State.treeFault at h
  split_ifs at h ⊢ <;> omega

/-- What a run of CODE_GEN c needs of its relation while it writes codes: a legal tree of `n` nodes over `a` symbols, and that
any code of a symbol inside the alphabet may be written. -/
structure Coding (c : Ch) (a n : Nat) (R : Link) : Prop where
  agree : ∀ s u, R s u → Agree s u
  alpha : ∀ s u, R s u → s.alpha = a
  count : ∀ s u, R s u → (s.ncount.get c).toNat = n
  tree : ∀ s u, R s u → TreeAlike c s u
  legal : ∀ s u, R s u → s.treeFault c = none
  setCode : ∀ s u sym e, R s u → sym < a → e.fits → R (s.setCode c sym e) (u.setCode c sym e)

section Visit

variable {c : Ch} {a n : Nat} (hR : Coding c a n R)
include hR

theorem writeCode_lockstep {sym len p : Nat} (hsym : sym < a) (hp : p < 2 ^ len) :
    Lockstep R (writeCode c sym len p) := by
  unfold writeCode
  split
  · exact (Couples.raise (S := fun _ _ _ => False) _ _ fun _ _ h => h).bind fun _ _ _ h => h.elim
  · rename_i hlen
    have hlen' : len ≤ 64 := Nat.le_of_not_lt hlen
    have hpow : 2 ^ len ≤ 2 ^ 64 := Nat.pow_le_pow_right (by omega) hlen'
    have hfits : CodeEntry.fits ⟨true, BitVec.ofNat 7 len, BitVec.ofNat 64 p⟩ := by
      refine ⟨rfl, ?_, ?_⟩
      · simpa [BitVec.toNat_ofNat, Nat.mod_eq_of_lt (show len < 128 by omega)] using hlen
      · simpa [BitVec.toNat_ofNat, Nat.mod_eq_of_lt (show len < 128 by omega),
          Nat.mod_eq_of_lt (show p < 18446744073709551616 by omega)] using hp
    exact Couples.modify (S := fun _ => R) (f := fun t => t.setCode c sym _) fun s u h =>
      hR.setCode s u _ _ h hsym hfits

theorem visitChild_lockstep {down : Nat → Nat → Nat → List Nat → Cmd (List Nat)}
    (hdown : ∀ i depth path seen, i < n → path < 2 ^ depth → Lockstep R (down i depth path seen)) {ref : BitVec 16}
    (href : refOk a n ref = true) {len path : Nat} (hpath : path < 2 ^ len) (seen : List Nat) :
    Lockstep R (visitChild c down ref len path seen) := by
  unfold refOk at href
  unfold visitChild
  split at href
  · rw [if_pos ‹_›]
    exact (writeCode_lockstep hR (of_decide_eq_true href) hpath).bind fun _ => Couples.pure fun _ _ h => h
  · rw [if_neg ‹_›]
    exact hdown _ _ _ _ (of_decide_eq_true href) hpath

/-- Every code Visit writes is of a symbol inside the alphabet: its nodes are below the count, and their references legal. -/
theorem visit_lockstep (fuel : Nat) {i depth path : Nat} (hi : i < n) (hpath : path < 2 ^ depth) (seen : List Nat) :
    Lockstep R (visit c fuel i depth path seen) := by
  induction fuel generalizing i depth path seen with
  | zero => exact Couples.raise _ _ fun _ _ h => h
  | succ fuel ih =>
    unfold visit
    split
    · exact Couples.raise _ _ fun _ _ h => h
    · intro s u h
      have hi' : i < (s.ncount.get c).toNat := hR.count s u h ▸ hi
      obtain ⟨hleft, hright⟩ := State.refOk_of_treeFault (hR.legal s u h) hi'
      rw [hR.alpha s u h, hR.count s u h] at hleft hright
      refine Alike.get_bind (by rw [(hR.tree s u h).2.2 i hi']) ?_
      refine (visitChild_lockstep hR (fun i depth path seen hi hp => ih hi hp seen) hleft (by rw [Nat.pow_succ]; omega) _).bind
        (fun seen => visitChild_lockstep hR (fun i depth path seen hi hp => ih hi hp seen) hright
          (by rw [Nat.pow_succ]; omega) seen) s u h

end Visit

/-- CODE_GEN c after CheckCfg: where the tree is legal the codes are cleared, then written. -/
theorem codeGenBody_couples {c : Ch} (hag : ∀ s u, R s u → Agree s u) (htree : ∀ s u, R s u → TreeAlike c s u)
    (hRE : ∀ s u, R s u → E s u) (hSE : ∀ s u, S s u → E s u)
    (hclear : ∀ s u, R s u → s.treeFault c = none → S (s.clearCodes c) (u.clearCodes c))
    (hS : ∀ a n, Coding c a n fun s u => S s u ∧ s.alpha = a ∧ (s.ncount.get c).toNat = n ∧ s.treeFault c = none) :
    Couples R (codeGenBody c) (fun _ => S) E := fun s u h => by
  refine Alike.bind_of_ok ((validateTree_alike (htree s u h) (hag s u h) h).mono (fun _ _ _ h => h) hRE)
    fun _ t v _ ⟨h', hlegal⟩ => ?_
  have hcoding := hS t.alpha (t.ncount.get c).toNat
  have hstart : S (t.clearCodes c) (v.clearCodes c) ∧ (t.clearCodes c).alpha = t.alpha ∧
      ((t.clearCodes c).ncount.get c).toNat = (t.ncount.get c).toNat ∧ (t.clearCodes c).treeFault c = none :=
    ⟨hclear t v h' hlegal, rfl, rfl, hlegal⟩
  refine Alike.modify_bind ?_
  generalize t.clearCodes c = x at hstart ⊢
  generalize v.clearCodes c = y at hstart ⊢
  obtain ⟨hn, hr, -⟩ := hcoding.tree x y hstart
  have hroot := State.root_of_treeFault hstart.2.2.2
  refine Alike.get_bind (by rw [hn, hr]) ?_
  split at hroot
  · rw [if_pos ‹_›]
    exact .ok rfl rfl (hcoding.setCode x y _ _ hstart (hstart.2.1 ▸ hroot) ⟨rfl, by decide, by decide⟩).1
  · rw [if_neg ‹_›]
    exact (((visit_lockstep hcoding _ (hstart.2.2.1 ▸ hroot) (by decide) []).mono (S' := fun _ => S)
      (fun _ _ _ h => h.1) fun _ _ h => hSE _ _ h.1).bind fun _ => Couples.pure fun _ _ h => h) x y hstart

/-! ### Headers (R111) -/

/-- One node of a header: its left reference is stored before its right one is read. -/
theorem readNode_couples {c : Ch} {i : Nat} {M : Link} (hR : ByteReading R) (hM : ByteReading M)
    (hRE : ∀ s u, R s u → E s u) (hME : ∀ s u, M s u → E s u)
    (hleft : ∀ s u l, R s u → M (s.setLeft c i l) (u.setLeft c i l))
    (hright : ∀ s u r, M s u → S (s.setRight c i r) (u.setRight c i r)) :
    Couples R (readNode c i) (fun _ => S) E :=
  ((readLe_lockstep hR 2).mono (fun _ _ _ h => h) hRE).bind fun l =>
    (Couples.modify (S := fun _ => M) fun s u h => hleft s u l h).bind fun _ =>
      ((readLe_lockstep hM 2).mono (fun _ _ _ h => h) hME).bind fun r => Couples.modify fun s u h => hright s u r h

/-- What a run of HDR_READ needs of its relations while it reads the header of channel `c`: `R` outside the nodes, `N i` when
the nodes below `i` are stored, `M i` when the left reference of node `i` is too, and `T` at the end. -/
structure Loading (c : Ch) (R : Link) (N M : Nat → Link) (T E : Link) : Prop where
  header : ByteReading R
  below : ∀ i, ByteReading (N i)
  inside : ∀ i, ByteReading (M i)
  start : ∀ s u, R s u → N 0 s u
  setLeft : ∀ s u i l, i < Config.nodes → N i s u → M i (s.setLeft c i l) (u.setLeft c i l)
  setRight : ∀ s u i r, i < Config.nodes → M i s u → N (i + 1) (s.setRight c i r) (u.setRight c i r)
  setRegs : ∀ s u n r, N n s u → T (s.setTreeRegs c n r) (u.setTreeRegs c n r)
  agree : ∀ s u, T s u → Agree s u
  tree : ∀ s u, T s u → TreeAlike c s u
  below_error : ∀ i s u, N i s u → E s u
  inside_error : ∀ i s u, M i s u → E s u
  error : ∀ s u, T s u → E s u

theorem State.alpha_le (s : State) : s.alpha ≤ Config.symbols := by
  have hbw : s.bw ≤ 12 := by
    unfold State.bw
    split <;> omega
  exact Nat.pow_le_pow_right (by omega) hbw

theorem readHeader_couples {c : Ch} {N M : Nat → Link} {T : Link} (h : Loading c R N M T E) :
    Couples R (readHeader c) (fun _ s u => T s u ∧ s.treeFault c = none) E := by
  have hRE : ∀ s u, R s u → E s u := fun s u hR => h.below_error 0 s u (h.start s u hR)
  refine ((readLe_lockstep h.header 4).mono (fun _ _ _ h => h) hRE).bind fun nc =>
    ((readLe_lockstep h.header 4).mono (fun _ _ _ h => h) hRE).bind fun rt => fun s u hR => ?_
  refine Alike.get_bind (by rw [((h.header.agree s u hR).alpha)]) (.require_bind (hRE s u hR) fun hnc => ?_)
  have hnodes : nc ≤ Config.nodes := (of_decide_eq_true hnc).trans (Nat.sub_le_sub_right s.alpha_le 1)
  refine Couples.bind (Couples.forUp (R := N) fun i _ hi => ?_) (fun _ => Couples.bind (S := fun _ => T)
    (Couples.modify fun t v hN => h.setRegs t v nc rt (Nat.zero_add nc ▸ hN)) fun _ t v hT => ?_) s u (h.start s u hR)
  · exact readNode_couples (h.below i) (h.inside i) (h.below_error i) (h.inside_error i)
      (fun t v l hN => h.setLeft t v i l (by omega) hN) fun t v r hM => h.setRight t v i r (by omega) hM
  · exact (validateTree_alike (h.tree t v hT) (h.agree t v hT) hT).mono (fun _ _ _ h => h) h.error

end Sys2Proof.Machine
end

section
/-! SUPPORT. The rules of the passes over a frame, for two runs in step: the scan of the samples, the decode and its output. -/

namespace Sys2Proof.Machine

variable {α β : Type} {R S T E : Link} {r s u : State}

/-! ### The setup of a run -/

/-- The reset state with setup `x`. -/
def Setup.blank (x : Setup) : State :=
  { State.reset with
    cfg := x.cfg, width := x.width, height := x.height, inAddr := x.inAddr, inLen := x.inLen, outAddr := x.outAddr
    outCap := x.outCap }

/-- What depends on the setup alone is the same in two states of one setup. -/
theorem State.eq_of_setup (h : s.setup = r.setup) {f : State → α} (hf : ∀ s, f s.setup.blank = f s) : f s = f r := by
  rw [← hf s, ← hf r, h]

namespace Setup

variable (h : s.setup = r.setup)
include h

theorem alpha_eq : s.alpha = r.alpha := State.eq_of_setup h fun _ => rfl
theorem nch_eq : s.nch = r.nch := State.eq_of_setup h fun _ => rfl
theorem bw_eq : s.bw = r.bw := State.eq_of_setup h fun _ => rfl
theorem width_eq : s.width = r.width := State.eq_of_setup h (f := State.width) fun _ => rfl
theorem height_eq : s.height = r.height := State.eq_of_setup h (f := State.height) fun _ => rfl
theorem outMode_eq : s.outMode = r.outMode := State.eq_of_setup h fun _ => rfl
theorem bytesPerRow_eq : s.bytesPerRow = r.bytesPerRow := State.eq_of_setup h fun _ => rfl
theorem outRow_eq (k : Nat) : s.outRow k = r.outRow k := State.eq_of_setup h (f := (State.outRow · k)) fun _ => rfl
theorem outBytes_eq : s.outBytes = r.outBytes := State.eq_of_setup h fun _ => rfl
theorem rawSize_eq : s.rawSize = r.rawSize := State.eq_of_setup h fun _ => rfl
theorem outFits_eq : s.outFits = r.outFits := State.eq_of_setup h fun _ => rfl
theorem outCap_eq : s.outCap = r.outCap := State.eq_of_setup h (f := State.outCap) fun _ => rfl
theorem outAddr_eq : s.outAddr = r.outAddr := State.eq_of_setup h (f := State.outAddr) fun _ => rfl

end Setup

/-! ### Samples (R85, R86) -/

section Sample

variable (hag : ∀ s u, R s u → Agree s u)
include hag

theorem packedBits_lockstep (n j x : Nat) : Lockstep R (packedBits n j x) := by
  induction n generalizing j x with
  | zero => exact Couples.pure fun _ _ h => h
  | succ n ih =>
    exact fun s u h => Alike.get_bind (by rw [(hag s u h).inAddr])
      (((memRead_lockstep hag _).bind fun _ => ih _ _) s u h)

theorem sample_lockstep (k : Nat) : Lockstep R (sample k) := fun s u h => by
  have hR := hag s u h
  refine Alike.get_bind (by simp only [hR.cfg, hR.bw, hR.alpha, hR.inAddr]) ?_
  split_ifs
  · exact ((packedBits_lockstep hag _ _ _).bind fun _ => Couples.pure fun _ _ h => h) s u h
  · exact ((memRead_lockstep hag _).bind fun _ => Couples.pure fun _ _ h => h) s u h
  · exact ((memRead_lockstep hag _).bind fun _ => (memRead_lockstep hag _).bind fun _ =>
      Couples.pure fun _ _ h => h) s u h

end Sample

/-! ### The scan (R88) -/

/-- PREV of the channels below NCH is the same in both states. -/
def PrevAlike : Link := fun s u => ∀ c : Ch, c.val < s.nch → s.prev.get c = u.prev.get c

/-- What a scan of the frame of `r` needs of its relation: the setup stays, and PREV may be written. -/
structure Scanning (r : State) (R : Link) : Prop where
  agree : ∀ s u, R s u → Agree s u
  setup : ∀ s u, R s u → s.setup = r.setup
  setPrev : ∀ s u (c : Ch) x, c.val < r.nch → R s u → R (s.setPrev c x) (u.setPrev c x)

section Scan

variable (hR : Scanning r R)
include hR

theorem clearPrev_couples :
    Couples R (forEach (channels r.nch) fun c => modify fun t => t.setPrev c 0) (fun _ s u => R s u ∧ PrevAlike s u) R := by
  have h := Couples.forEach (E := R) (R := fun l s u => R s u ∧ ∀ c : Ch, c.val < r.nch → c ∉ l → s.prev.get c = u.prev.get c)
    (l := channels r.nch) (f := fun c => modify fun t => t.setPrev c 0) fun x l hx => Couples.modify fun s u h =>
      ⟨hR.setPrev s u x 0 (mem_channels.1 hx) h.1, fun c hc hl => by
        rw [State.setPrev_prev, State.setPrev_prev, Quad.get_set, Quad.get_set]
        split
        · rfl
        · exact h.2 c hc fun hm => (List.mem_cons.1 hm).elim ‹_› hl⟩
  refine fun s u hs => (h s u ⟨hs, fun c hc hl => absurd (mem_channels.2 hc) hl⟩).mono (fun _ t v ⟨h1, h2⟩ => ⟨h1, fun c hc => ?_⟩)
    fun _ _ h => h
  exact h2 c (Setup.nch_eq (hR.setup t v h1) ▸ hc) List.not_mem_nil

variable {visit : Nat → Ch → Nat → Cmd Unit}
  (hvisit : ∀ k c d, c.val < r.nch → d < r.alpha →
    Couples (fun s u => R s u ∧ PrevAlike s u) (visit k c d) (fun _ s u => R s u ∧ PrevAlike s u) R)
include hvisit

theorem scanSample_couples (k : Nat) {c : Ch} (hc : c.val < r.nch) :
    Couples (fun s u => R s u ∧ PrevAlike s u) (scanSample visit k c) (fun _ s u => R s u ∧ PrevAlike s u) R := by
  have hprev : ∀ s u, R s u ∧ PrevAlike s u → Agree s u := fun s u h => hR.agree s u h.1
  refine Couples.bind ((sample_lockstep hprev k).mono (fun _ _ _ h => h) fun _ _ h => h.1) fun x t v h => ?_
  have hset := hR.setup t v h.1
  have hdelta : t.delta c x = v.delta c x := by
    rw [State.delta, State.delta, h.2 c (Setup.nch_eq hset ▸ hc), (hprev t v h).alpha]
  have hlt : t.delta c x < r.alpha := by
    have hpos : 0 < t.alpha := Nat.pow_pos (by decide)
    have := Int.emod_lt_of_pos ((x : Int) - ((t.prev.get c).toNat : Int)) (Int.natCast_pos.2 hpos)
    have := Int.emod_nonneg ((x : Int) - ((t.prev.get c).toNat : Int)) (Int.natCast_ne_zero.2 hpos.ne')
    rw [← Setup.alpha_eq hset]
    unfold State.delta subMod
    omega
  show Alike _ _ (((modify fun y => y.setPrev c x) >>= fun _ => visit k c (t.delta c x)) t)
    (((modify fun y => y.setPrev c x) >>= fun _ => visit k c (v.delta c x)) v)
  rw [← hdelta]
  refine Alike.modify_bind (hvisit k c _ hc hlt _ _ ⟨hR.setPrev t v c x hc h.1, fun d hd => ?_⟩)
  rw [State.setPrev_prev, State.setPrev_prev, Quad.get_set, Quad.get_set, h.2 d hd]

theorem scanRow_couples (row : Nat) : Couples R (scanRow visit row) (fun _ s u => R s u ∧ PrevAlike s u) R :=
  fun s u h => by
    refine Alike.get_bind (by simp only [(hR.agree s u h).nch, (hR.agree s u h).width]) ?_
    rw [Setup.nch_eq (hR.setup s u h)]
    exact ((clearPrev_couples hR).bind fun _ => Couples.forUp (R := fun _ s u => R s u ∧ PrevAlike s u) fun x _ _ =>
      Couples.forEach (R := fun _ s u => R s u ∧ PrevAlike s u) fun c _ hc =>
        scanSample_couples hR hvisit _ (mem_channels.1 hc)) s u h

/-- After a scan PREV does not depend on what it was, where there is a row. -/
theorem rowScan_couples :
    Couples R (rowScan visit) (fun _ s u => R s u ∧ (r.height ≠ 0 → PrevAlike s u)) R := fun s u h => by
  refine Alike.get_bind (by rw [(hR.agree s u h).height]) ?_
  rw [Setup.height_eq (hR.setup s u h)]
  have hrows := Couples.forUp (E := R) (R := fun k s u => R s u ∧ (k ≠ 0 → PrevAlike s u)) (f := scanRow visit)
    (n := r.height.toNat) (i := 0) fun k _ _ s u h =>
      (scanRow_couples hR hvisit k s u h.1).mono (fun _ _ _ h => ⟨h.1, fun _ => h.2⟩) fun _ _ h => h
  refine (hrows s u ⟨h, fun h => absurd rfl h⟩).mono (fun _ _ _ h => ⟨h.1, fun hne => h.2 ?_⟩) fun _ _ h => h
  exact fun h0 => hne (BitVec.eq_of_toNat_eq ((Nat.zero_add _).symm.trans h0))

end Scan

theorem histPass_couples (hR : Scanning r R)
    (hbump : ∀ s u c d, R s u → c.val < r.nch → d < r.alpha → R (s.bumpHist c d) (u.bumpHist c d)) :
    Couples R histPass (fun _ s u => R s u ∧ (r.height ≠ 0 → PrevAlike s u)) R :=
  rowScan_couples hR fun _ c d hc hd => Couples.modify fun s u h => ⟨hbump s u c d h.1 hc hd, h.2⟩

theorem packPass_couples (hR : Scanning r R) (hpack : Packing R)
    (hcode : ∀ s u (c : Ch) d, R s u → c.val < r.nch → d < r.alpha → s.codeAt c d = u.codeAt c d) :
    Couples R packPass (fun _ s u => R s u ∧ (r.height ≠ 0 → PrevAlike s u)) R :=
  rowScan_couples hR fun _ c d hc hd s u h =>
    (emitCode_alike (hpack.and (fun _ _ _ h => h) (fun _ _ _ h => h) fun _ _ h => h) h (hcode s u c d h.1 hc hd)).mono
      (fun _ _ _ h => h) fun _ _ h => h.1

/-! ### The decode (R127, R140) -/

/-- ACC of the channels below NCH is the same in both states. -/
def AccAlike : Link := fun s u => ∀ c : Ch, c.val < s.nch → s.acc.get c = u.acc.get c

/-- The store of `x` at offset `o` of the output region. -/
def State.putAt (s : State) (o : Nat) (x : Byte) : State := { s with mem := s.mem.write (s.outAddr.toNat + o) x }

/-- What a decode into the frame of `r` needs of its relation: the setup stays, the trees walked are the same, ACC, the reader
and the output may be written. -/
structure Decoding (r : State) (R : Link) : Prop where
  setup : ∀ s u, R s u → s.setup = r.setup
  bits : BitReading R
  setAcc : ∀ s u (c : Ch) x, c.val < r.nch → R s u → R (s.setAcc c x) (u.setAcc c x)
  tree : ∀ (c : Ch) s u, c.val < r.nch → R s u → s.ncount.get c = u.ncount.get c ∧ s.root.get c = u.root.get c ∧
    ((s.ncount.get c).toNat ≠ 0 → SameWalk c (s.root.get c).toNat s u)
  packing : r.outMode = .identPacked → Packing R
  putAt : r.outMode ≠ .identPacked → ∀ s u o x, R s u → o < r.outBytes → R (s.putAt o x) (u.putAt o x)

section Decode

variable (hR : Decoding r R)
include hR

theorem Decoding.withAcc : BitReading fun s u => R s u ∧ AccAlike s u := hR.bits.and fun _ _ _ _ h => h

theorem clearAcc_couples :
    Couples R (forEach (channels r.nch) fun c => modify fun t => t.setAcc c 0) (fun _ s u => R s u ∧ AccAlike s u) R := by
  have h := Couples.forEach (E := R) (R := fun l s u => R s u ∧ ∀ c : Ch, c.val < r.nch → c ∉ l → s.acc.get c = u.acc.get c)
    (l := channels r.nch) (f := fun c => modify fun t => t.setAcc c 0) fun x l hx => Couples.modify fun s u h =>
      ⟨hR.setAcc s u x 0 (mem_channels.1 hx) h.1, fun c hc hl => by
        rw [State.setAcc_acc, State.setAcc_acc, Quad.get_set, Quad.get_set]
        split
        · rfl
        · exact h.2 c hc fun hm => (List.mem_cons.1 hm).elim ‹_› hl⟩
  refine fun s u hs => (h s u ⟨hs, fun c hc hl => absurd (mem_channels.2 hc) hl⟩).mono (fun _ t v ⟨h1, h2⟩ => ⟨h1, fun c hc => ?_⟩)
    fun _ _ h => h
  exact h2 c (Setup.nch_eq (hR.setup t v h1) ▸ hc) List.not_mem_nil

theorem decodeSample_lockstep {c : Ch} (hc : c.val < r.nch) :
    Lockstep (fun s u => R s u ∧ AccAlike s u) (decodeSample c) := by
  refine (decodeSymbol_lockstep hR.withAcc fun s u h => hR.tree c s u hc h.1).bind fun d t v h => ?_
  have hacc : v.accumulated c d = t.accumulated c d := by
    rw [State.accumulated, State.accumulated, h.2 c (Setup.nch_eq (hR.setup t v h.1) ▸ hc), (hR.bits.agree t v h.1).alpha]
  refine .ok (t := t.setAcc c (t.accumulated c d)) (v := v.setAcc c (t.accumulated c d)) rfl
    (show EStateM.Result.ok (v.accumulated c d) (v.setAcc c (v.accumulated c d)) = _ by rw [hacc])
    ⟨hR.setAcc t v c _ hc h.1, fun e he => ?_⟩
  rw [State.setAcc_acc, State.setAcc_acc, Quad.get_set, Quad.get_set, h.2 e he]

theorem decodePixel_lockstep {l : List Ch} (hl : ∀ c ∈ l, c.val < r.nch) (row : List Nat) :
    Lockstep (fun s u => R s u ∧ AccAlike s u) (decodePixel l row) := by
  induction l generalizing row with
  | nil => exact Couples.pure fun _ _ h => h
  | cons c l ih =>
    exact (decodeSample_lockstep hR (hl c List.mem_cons_self)).bind fun _ =>
      ih (fun d hd => hl d (List.mem_cons_of_mem c hd)) _

theorem decodePixels_lockstep {l : List Ch} (hl : ∀ c ∈ l, c.val < r.nch) (n : Nat) (row : List Nat) :
    Lockstep (fun s u => R s u ∧ AccAlike s u) (decodePixels l n row) := by
  induction n generalizing row with
  | zero => exact Couples.pure fun _ _ h => h
  | succ n ih => exact (decodePixel_lockstep hR hl row).bind fun _ => ih _

end Decode

/-! ### The output (R138) -/

theorem memWrite_putAt (s : State) (o : Nat) (x : Byte) :
    memWrite (s.outAddr.toNat + o) x s = if s.memOk .write (s.outAddr.toNat + o) then .ok () (s.putAt o x)
      else .error (.raise .busError (BitVec.ofNat 32 (s.outAddr.toNat + o))) s := memWrite_run _ x s

theorem putAt_alike {o : Nat} {x : Byte} (hag : Agree s u) (h : R s u) (hput : R (s.putAt o x) (u.putAt o x)) :
    Alike (fun _ => R) R (memWrite (s.outAddr.toNat + o) x s) (memWrite (s.outAddr.toNat + o) x u) := by
  have hu := memWrite_putAt u o x
  rw [← hag.outAddr, ← hag.memOk] at hu
  rw [hu, memWrite_putAt]
  split
  · exact .ok rfl rfl hput
  · exact .error rfl rfl h

theorem putBytes_lockstep (hag : ∀ s u, R s u → Agree s u) {n : Nat}
    (hput : ∀ s u o x, R s u → o < n → R (s.putAt o x) (u.putAt o x)) {l : List Byte} {o : Nat} (hl : o + l.length ≤ n) :
    Lockstep R (putBytes o l) := by
  induction l generalizing o with
  | nil => exact Couples.pure fun _ _ h => h
  | cons x l ih =>
    rw [List.length_cons] at hl
    refine fun s u h => Alike.get_bind (by rw [(hag s u h).outAddr]) ?_
    exact (putAt_alike (hag s u h) h (hput s u o x h (by omega))).bind fun _ => ih (by omega)

/-- A row of the output is inside it. -/
theorem State.outRow_fits {s : State} (hmode : s.outMode ≠ .identPacked) {k : Nat} (hk : k < s.height.toNat) :
    s.outRow k * s.bytesPerRow + s.bytesPerRow ≤ s.outBytes := by
  have hrow : s.outRow k + 1 ≤ s.height.toNat := by
    unfold State.outRow
    split <;> omega
  rw [State.outBytes, if_neg hmode, ← Nat.succ_mul]
  exact Nat.mul_le_mul_right _ hrow

section Output

variable (hR : Decoding r R)
include hR

theorem convertRow_lockstep (hmode : r.modeOk = true) {k : Nat} (hk : k < r.height.toNat) {row : List Nat}
    (hrow : row.length = r.width.toNat * r.nch) :
    Lockstep (fun s u => R s u ∧ AccAlike s u) (convertRow k row) := fun s u h => by
  have hset := hR.setup s u h.1
  have hag := hR.bits.agree s u h.1
  refine Alike.get_bind (by simp only [hag.outMode, hag.bw, hag.outRow, hag.bytesPerRow]) ?_
  rw [Setup.outMode_eq hset, Setup.bw_eq hset, Setup.outRow_eq hset, Setup.bytesPerRow_eq hset]
  split
  · exact Lockstep.forEach (fun x _ => writeBits_lockstep
      ((hR.packing ‹_›).and (fun _ _ _ h => h) (fun _ _ _ h => h) fun _ _ h => h) x _) s u h
  · refine putBytes_lockstep (n := r.outBytes) hR.withAcc.agree
      (fun t v o x ht ho => ⟨hR.putAt ‹_› t v o x ht.1 ho, ht.2⟩) ?_ s u h
    rw [State.rowBytes_length ‹_› (State.fits_of_modeOk hmode) hrow]
    exact State.outRow_fits ‹_› hk

theorem decodeRow_couples (hn : r.nch ≤ 4) (hmode : r.modeOk = true) {k : Nat} (hk : k < r.height.toNat) :
    Couples R (decodeRow k) (fun _ s u => R s u ∧ AccAlike s u) R := fun s u h => by
  refine Alike.get_bind (by simp only [(hR.bits.agree s u h).nch, (hR.bits.agree s u h).width]) ?_
  rw [Setup.nch_eq (hR.setup s u h), Setup.width_eq (hR.setup s u h)]
  refine ((clearAcc_couples hR).bind fun _ t v h' => ?_) s u h
  refine (decodePixels_lockstep hR (fun c hc => mem_channels.1 hc) _ [] t v h').mono (fun _ _ _ h => h) (fun _ _ h => h.1)
    |>.bind_of_ok fun row x y hok hxy => ?_
  refine (convertRow_lockstep hR hmode hk ?_ x y hxy).mono (fun _ _ _ h => h) fun _ _ h => h.1
  rw [List.length_reverse, decodePixels_length hok]
  simp [channels, hn]

/-- After the rows of a decode ACC does not depend on what it was, where there is a row. -/
theorem rows_couples (hn : r.nch ≤ 4) (hmode : r.modeOk = true) :
    Couples R (forUp r.height.toNat 0 decodeRow) (fun _ s u => R s u ∧ (r.height ≠ 0 → AccAlike s u)) R := by
  have hrows := Couples.forUp (E := R) (R := fun k s u => R s u ∧ (k ≠ 0 → AccAlike s u)) (f := decodeRow)
    (n := r.height.toNat) (i := 0) fun k _ hk s u h =>
      (decodeRow_couples hR hn hmode (by omega) s u h.1).mono (fun _ _ _ h => ⟨h.1, fun _ => h.2⟩) fun _ _ h => h
  refine fun s u h => (hrows s u ⟨h, fun h => absurd rfl h⟩).mono (fun _ _ _ h => ⟨h.1, fun hne => h.2 ?_⟩) fun _ _ h => h
  exact fun h0 => hne (BitVec.eq_of_toNat_eq ((Nat.zero_add _).symm.trans h0))

end Output

/-- What a decode leaves before it reports its size. -/
def DecodeEnd (r : State) (R : Link) : Link := fun s u =>
  ∃ x y, R x y ∧ (r.height ≠ 0 → AccAlike x y) ∧ s = x.reportDecoded ∧ u = y.reportDecoded

theorem decScanBody_couples (hS : Decoding r S) (hn : r.nch ≤ 4) (hmode : r.modeOk = true)
    (hset : ∀ s u, R s u → Agree s u ∧ s.setup = r.setup)
    (hinit : r.outMode = .identPacked → ∀ s u, R s u → S s.initPacker u.initPacker)
    (hid : r.outMode ≠ .identPacked → ∀ s u, R s u → S s u) : Couples R decScanBody (fun _ => DecodeEnd r S) S := by
  have hfirst : Couples R (whenPacked (modify State.initPacker)) (fun _ => S) S := fun s u h => by
    rw [whenPacked_run, whenPacked_run, ← (hset s u h).1.outMode, Setup.outMode_eq (hset s u h).2]
    split
    · exact .ok rfl rfl (hinit ‹_› s u h)
    · exact .ok rfl rfl (hid ‹_› s u h)
  have hlast : Lockstep (fun s u => S s u ∧ (r.height ≠ 0 → AccAlike s u)) (whenPacked flushPartial) := fun s u h => by
    rw [whenPacked_run, whenPacked_run, ← (hS.bits.agree s u h.1).outMode, Setup.outMode_eq (hS.setup s u h.1)]
    split
    · exact flushPartial_lockstep ((hS.packing ‹_›).and (fun _ _ _ h => h) (fun _ _ _ h => h) fun _ _ h => h) s u h
    · exact .ok rfl rfl h
  refine hfirst.bind fun _ s u h => Alike.get_bind (by rw [(hS.bits.agree s u h).height]) ?_
  rw [Setup.height_eq (hS.setup s u h)]
  exact ((rows_couples hS hn hmode).bind fun _ => (hlast.mono (fun _ _ _ h => h) fun _ _ h => h.1).bind fun _ =>
    Couples.modify fun x y h => ⟨x, y, h.1, h.2, rfl, rfl⟩) s u h

/-! ### Headers and trees of the frame -/

/-- `B l` relates the states of two runs of HDR_READ while the headers of the channels `l` are still to come. -/
theorem hdrReadBody_couples {B : List Ch → Link} (hbit : ∀ s u, B (channels r.nch) s u → s.rd = u.rd ∧ s.setup = r.setup ∧ Agree s u)
    (hE : ∀ s u, B (channels r.nch) s u → E s u)
    (hload : ∀ c l, c.val < r.nch → Couples (B (c :: l)) (readHeader c) (fun _ => B l) E) :
    Couples (B (channels r.nch)) hdrReadBody (fun _ => B []) E := fun s u h => by
  obtain ⟨hrd, hset, hag⟩ := hbit s u h
  refine Alike.get_bind (by rw [hrd, hag.nch]) (.require_bind (hE s u h) fun _ => ?_)
  rw [Setup.nch_eq hset]
  exact Couples.forEach (fun c l hc => hload c l (mem_channels.1 hc)) s u h

/-- What ENC_FRAME leaves before it reports its size. -/
def EncodeEnd (r : State) (R : Link) : Link := fun s u =>
  ∃ x y, R x y ∧ (r.height ≠ 0 → PrevAlike x y) ∧ s = x.reportPacked ∧ u = y.reportPacked

/-- What two runs of ENC_FRAME need of their relations: `R` while the histogram is counted, `B l` while the trees of the
channels `l` are still to come, and `S` when the packer has been cleared. -/
structure Encoding (r : State) (R : Link) (B : List Ch → Link) (S E : Link) : Prop where
  scanning : Scanning r R
  bump : ∀ s u c d, R s u → c.val < r.nch → d < r.alpha → R (s.bumpHist c d) (u.bumpHist c d)
  start : ∀ s u, R s u → B (channels r.nch) s u
  build : ∀ c l, c.val < r.nch → Couples (B (c :: l)) (buildChannel c) (fun _ => B l) E
  initPacker : ∀ s u, B [] s u → S s.initPacker u.initPacker
  packing : Packing S
  rescanning : Scanning r S
  code : ∀ s u (c : Ch) d, S s u → c.val < r.nch → d < r.alpha → s.codeAt c d = u.codeAt c d
  tree : ∀ (c : Ch) s u, c.val < r.nch → S s u → TreeAlike c s u
  count_error : ∀ s u, R s u → E s u
  pack_error : ∀ s u, S s u → E s u

theorem encFrameBody_couples {B : List Ch → Link} (h : Encoding r R B S E)
    (hs : R s.forgetScans.clearHist u.forgetScans.clearHist) :
    Alike (fun _ => EncodeEnd r S) E (encFrameBody s) (encFrameBody u) := by
  have hpacked := h.packing.and (Q := fun s u => r.height ≠ 0 → PrevAlike s u) (fun _ _ _ h => h) (fun _ _ _ h => h)
    fun _ _ h => h
  refine Alike.modify_bind (Alike.modify_bind (Alike.bind
    ((histPass_couples h.scanning h.bump _ _ hs).mono (fun _ _ _ h => h) h.count_error) fun _ s u h' => ?_))
  refine Alike.get_bind (by rw [(h.scanning.agree s u h'.1).nch]) ?_
  rw [Setup.nch_eq (h.scanning.setup s u h'.1)]
  refine Couples.bind (Couples.forEach (R := B) fun c l hc => h.build c l (mem_channels.1 hc)) (fun _ =>
    Couples.bind (S := fun _ => S) (Couples.modify h.initPacker) fun _ => ?_) s u (h.start s u h'.1)
  refine ((hdrWriteBody_lockstep h.packing (fun s u h' => Setup.nch_eq (h.rescanning.setup s u h')) h.tree).mono
    (fun _ _ _ h => h) h.pack_error).bind fun _ => ?_
  refine ((packPass_couples h.rescanning h.packing h.code).mono (fun _ _ _ h => h) h.pack_error).bind fun _ => ?_
  exact ((flushPartial_lockstep hpacked).mono (fun _ _ _ h => h) fun s u h' => h.pack_error s u h'.1).bind fun _ =>
    Couples.modify fun x y h' => ⟨x, y, h'.1, h'.2, rfl, rfl⟩

theorem copyByte_lockstep (hag : ∀ s u, R s u → Agree s u) {k : Nat}
    (hput : ∀ s u x, R s u → R (s.putAt k x) (u.putAt k x)) : Lockstep R (copyByte k) := fun s u h => by
  refine Alike.get_bind (by rw [(hag s u h).inAddr, (hag s u h).outAddr]) ?_
  refine Alike.bind_of_ok (S := fun _ t v => t = s ∧ v = u) ?_ fun x t v _ htv => by
    obtain ⟨rfl, rfl⟩ := htv
    exact putAt_alike (hag _ _ h) h (hput _ _ x h)
  rw [memRead_run, memRead_run, ← (hag s u h).memOk, ← (hag s u h).mem]
  split
  · exact .ok rfl rfl ⟨rfl, rfl⟩
  · exact .error rfl rfl h

end Sys2Proof.Machine
end

section
/-! SUPPORT. What a command can do to the state: a property that every update of its pseudocode keeps holds at its end, where
the command has still to report its result, and at its error stop. -/

namespace Sys2Proof.Machine

variable {P : State → Prop} {i : Instr} {r s t u : State} {leave : ErrCode → State → State} {m : Cmd Unit}

/-! ### How many nodes a tree gets (R98, R107) -/

theorem insertEntry_length (e : Entry) (l : List Entry) : (insertEntry e l).length = l.length + 1 := by
  induction l with
  | nil => rfl
  | cons x l ih =>
    unfold insertEntry
    split
    · rw [List.length_cons, ih, List.length_cons]
    · rfl

theorem workFrom_length_le (s : State) (c : Ch) (n i : Nat) (l : List Entry) :
    (workFrom s c n i l).length ≤ l.length + n := by
  induction n generalizing i l with
  | zero => exact Nat.le_refl _
  | succ n ih =>
    unfold workFrom
    split
    · exact (ih (i + 1) l).trans (by omega)
    · have := ih (i + 1) (insertEntry ⟨BitVec.ofNat 16 i, (s.histAt c i).toNat⟩ l)
      rw [insertEntry_length] at this
      omega

theorem mergeAll_length_le (fuel n : Nat) (l : List Entry) : (mergeAll fuel n l).1.length ≤ l.length - 1 := by
  induction fuel generalizing n l with
  | zero => simp [mergeAll]
  | succ fuel ih =>
    match l with
    | [] => simp [mergeAll]
    | [_] => simp [mergeAll]
    | a :: b :: rest =>
      have := ih (n + 1) (insertEntry ⟨BitVec.ofNat 16 (Config.leafLimit + n), a.freq + b.freq⟩ rest)
      rw [insertEntry_length] at this
      simp only [mergeAll, List.length_cons]
      omega

theorem merges_length_le (s : State) (c : Ch) : (merges s c).1.length ≤ Config.nodes := by
  have h1 := mergeAll_length_le (workList s c).length 0 (workList s c)
  have h2 : (workList s c).length ≤ 0 + s.alpha := workFrom_length_le s c s.alpha 0 []
  have h3 := s.alpha_le
  unfold merges
  simp only [Config.nodes, Config.symbols] at h3 ⊢
  omega

/-! ### Properties that the updates keep -/

/-- The updates of WriteBit and EmitByte keep `P`. -/
structure KeepsPacking (P : State → Prop) : Prop where
  emitted : ∀ s x, P s → s.outFits = true → s.pk.ptr.toNat < s.outCap.toNat → P (s.emitted x)
  pushBit : ∀ s b, P s → s.pk.fill ≠ 7 → P (s.pushBit b)
  emptyPacker : ∀ s, P s → P s.emptyPacker

/-- Every update of a command's pseudocode keeps `P`, but for that of RESULT or OUT_SIZE at its end. -/
structure Steady (P : State → Prop) : Prop extends KeepsPacking P where
  initPacker : ∀ s, P s → P s.initPacker
  putAt : ∀ s o x, P s → s.outFits = true → o < s.outCap.toNat → P (s.putAt o x)
  setReader : ∀ s d, P s → P (s.setReader d)
  setPrev : ∀ s c x, P s → P (s.setPrev c x)
  setAcc : ∀ s c x, P s → P (s.setAcc c x)
  clearPredictors : ∀ s, P s → P s.clearPredictors
  bumpHist : ∀ s c d, P s → d < s.alpha → P (s.bumpHist c d)
  clearHist : ∀ s, P s → P s.clearHist
  setNode : ∀ s c i n, P s → i < Config.nodes → P (s.setNode c i n)
  setRegs : ∀ s n r, P s → P { s with ncount := n, root := r }
  setCode : ∀ s c sym e, P s → sym < s.alpha → e.fits → P (s.setCode c sym e)
  clearCodes : ∀ s c, P s → P (s.clearCodes c)
  openScan : ∀ s, P s → P s.openScan
  closeScan : ∀ s, P s → P s.closeScan
  forgetScans : ∀ s, P s → P s.forgetScans

/-- `P`, in a state of the setup of `r`. -/
def Within (r : State) (P : State → Prop) : State → Prop := fun s => P s ∧ s.setup = r.setup

theorem Within.map {f : State → State} (hf : ∀ s, P s → P (f s)) (hset : ∀ s, (f s).setup = s.setup)
    (h : Diag (Within r P) s u) : Diag (Within r P) (f s) (f u) :=
  Diag.map (fun s hs => ⟨hf s hs.1, (hset s).trans hs.2⟩) h

theorem bits_of (hreader : ∀ s d, P s → P (s.setReader d)) : BitReading (Diag (Within r P)) where
  agree _ _ h := h.agree
  rd _ _ h := congrArg State.rd h.1
  loaded _ _ x h := h.map (f := fun s => s.setReader { s.rd with buf := x }) fun s hs => ⟨hreader s _ hs.1, hs.2⟩
  next _ _ h := h.map (f := fun s => s.setReader s.rd.next) fun s hs => ⟨hreader s _ hs.1, hs.2⟩

theorem bytes_of (hptr : ∀ s, P s → P (s.setReader { s.rd with ptr := s.rd.ptr + 1 })) : ByteReading (Diag (Within r P)) where
  agree _ _ h := h.agree
  rd _ _ h := congrArg State.rd h.1
  advanced _ _ h := Within.map (f := fun s => s.setReader { s.rd with ptr := s.rd.ptr + 1 }) hptr (fun _ => rfl) h

theorem scanning_of (hprev : ∀ s (c : Ch) x, c.val < r.nch → P s → P (s.setPrev c x)) : Scanning r (Diag (Within r P)) where
  agree _ _ h := h.agree
  setup _ _ h := h.2.2
  setPrev _ _ c x hc h := Within.map (f := fun s => s.setPrev c x) (fun s => hprev s c x hc) (fun _ => rfl) h

theorem loading_of {c : Ch} (hptr : ∀ s, P s → P (s.setReader { s.rd with ptr := s.rd.ptr + 1 }))
    (hnode : ∀ s i n, i < Config.nodes → P s → P (s.setNode c i n)) (hregs : ∀ s n x, P s → P (s.setTreeRegs c n x)) :
    Loading c (Diag (Within r P)) (fun _ => Diag (Within r P)) (fun _ => Diag (Within r P)) (Diag (Within r P))
      (Diag (Within r P)) where
  header := bytes_of hptr
  below _ := bytes_of hptr
  inside _ := bytes_of hptr
  start _ _ h := h
  setLeft _ _ i x hi h := Within.map (f := fun s => s.setLeft c i x) (fun s => hnode s i _ hi) (fun _ => rfl) h
  setRight _ _ i x hi h := Within.map (f := fun s => s.setRight c i x) (fun s => hnode s i _ hi) (fun _ => rfl) h
  setRegs _ _ n x h := Within.map (f := fun s => s.setTreeRegs c n x) (fun s => hregs s n x) (fun _ => rfl) h
  agree _ _ h := h.agree
  tree s _ h := h.1 ▸ TreeAlike.refl c s
  below_error _ _ _ h := h
  inside_error _ _ _ h := h
  error _ _ h := h

theorem codeGenBody_keeps {c : Ch} (hclear : ∀ s, P s → P (s.clearCodes c))
    (hcode : ∀ s sym e, sym < s.alpha → e.fits → P s → P (s.setCode c sym e)) :
    Lockstep (Diag (Within r P)) (codeGenBody c) :=
  codeGenBody_couples (fun _ _ h => h.agree) (fun s _ h => h.1 ▸ TreeAlike.refl c s) (fun _ _ h => h) (fun _ _ h => h)
    (fun _ _ h _ => Within.map (f := fun s => s.clearCodes c) hclear (fun _ => rfl) h) fun _ _ =>
    { agree := fun _ _ h => h.1.agree
      alpha := fun _ _ h => h.2.1
      count := fun _ _ h => h.2.2.1
      tree := fun s _ h => h.1.1 ▸ TreeAlike.refl c s
      legal := fun _ _ h => h.2.2.2
      setCode := by
        rintro s _ sym e ⟨⟨rfl, hs, hset⟩, halpha, hrest⟩ hsym he
        exact ⟨⟨rfl, hcode s sym e (halpha ▸ hsym) he hs, hset⟩, halpha, hrest⟩ }

theorem hdrReadBody_keeps (hptr : ∀ s, P s → P (s.setReader { s.rd with ptr := s.rd.ptr + 1 }))
    (hnode : ∀ s (c : Ch) i n, c.val < r.nch → i < Config.nodes → P s → P (s.setNode c i n))
    (hregs : ∀ s (c : Ch) n x, c.val < r.nch → P s → P (s.setTreeRegs c n x)) :
    Lockstep (Diag (Within r P)) hdrReadBody :=
  hdrReadBody_couples (B := fun _ => Diag (Within r P)) (fun _ _ h => ⟨congrArg State.rd h.1, h.2.2, h.agree⟩)
    (fun _ _ h => h) fun c _ hc => (readHeader_couples (loading_of hptr (fun s i n => hnode s c i n hc) fun s n x =>
      hregs s c n x hc)).mono (fun _ _ _ h => h.1) fun _ _ h => h

theorem KeepsPacking.packing (hP : KeepsPacking P) (hout : r.outFits = true) : Packing (Diag (Within r P)) where
  agree _ _ h := h.agree
  pk _ _ h := congrArg State.pk h.1
  emitted := by
    rintro s _ x ⟨rfl, hs, hset⟩ hroom
    exact ⟨rfl, hP.emitted s x hs ((Setup.outFits_eq hset).trans hout) hroom, hset⟩
  pushBit := by
    rintro s _ b ⟨rfl, hs, hset⟩ hfill
    exact ⟨rfl, hP.pushBit s b hs hfill, hset⟩
  emptyPacker _ _ h := h.map fun s hs => ⟨hP.emptyPacker s hs.1, hs.2⟩

namespace Steady

variable (hP : Steady P)
include hP

theorem bits : BitReading (Diag (Within r P)) := bits_of hP.setReader

theorem scanning : Scanning r (Diag (Within r P)) := scanning_of fun s c x _ hs => hP.setPrev s c x hs

theorem codeGenBody (c : Ch) : Lockstep (Diag (Within r P)) (codeGenBody c) :=
  codeGenBody_keeps (fun s => hP.clearCodes s c) fun s sym e hsym he hs => hP.setCode s c sym e hs hsym he

theorem hdrReadBody : Lockstep (Diag (Within r P)) hdrReadBody :=
  hdrReadBody_keeps (fun s => hP.setReader s _) (fun s c i n _ hi hs => hP.setNode s c i n hs hi)
    fun s _ _ _ _ hs => hP.setRegs s _ _ hs

theorem decoding (hout : r.outFits = true) (hcap : r.outBytes ≤ r.outCap.toNat) : Decoding r (Diag (Within r P)) where
  setup _ _ h := h.2.2
  bits := hP.bits
  setAcc _ _ c x _ h := h.map (f := fun s => s.setAcc c x) fun s hs => ⟨hP.setAcc s c x hs.1, hs.2⟩
  tree _ _ _ _ h := h.1 ▸ ⟨rfl, rfl, fun _ => SameWalk.refl _ _ _⟩
  packing _ := hP.toKeepsPacking.packing hout
  putAt _ _ _ o x h ho := h.map (f := fun s => s.putAt o x) fun s hs =>
    ⟨hP.putAt s o x hs.1 ((Setup.outFits_eq hs.2).trans hout) (by rw [Setup.outCap_eq hs.2]; omega), hs.2⟩

theorem storeNodes {c : Ch} {i : Nat} {l : List Node} (hl : i + l.length ≤ Config.nodes) (hs : P s) :
    P (State.storeNodes c i l s) := by
  induction l generalizing i s with
  | nil => exact hs
  | cons n l ih =>
    rw [List.length_cons] at hl
    exact ih (i := i + 1) (by omega) (hP.setNode s c i n hs (by omega))

theorem buildTree (c : Ch) (hs : P s) : P (s.buildTree c) :=
  hP.setRegs _ _ _ (hP.storeNodes (by rw [Nat.zero_add]; exact merges_length_le s c) hs)

theorem buildChannel (c : Ch) : Lockstep (Diag (Within r P)) (buildChannel c) := fun _ _ h =>
  Alike.modify_bind (hP.codeGenBody c _ _ (h.map (f := fun s => s.buildTree c) fun s hs =>
    ⟨hP.buildTree c hs.1, (State.buildTree_shifts (v := .still) c s).2.1.trans hs.2⟩))

theorem counted (s u : State) (c : Ch) (d : Nat) (h : Diag (Within r P) s u) (hd : d < r.alpha) :
    Diag (Within r P) (s.bumpHist c d) (u.bumpHist c d) :=
  h.map (f := fun s => s.bumpHist c d) fun s hs => ⟨hP.bumpHist s c d hs.1 (by rwa [Setup.alpha_eq hs.2]), hs.2⟩

theorem encoding (hout : r.outFits = true) :
    Encoding r (Diag (Within r P)) (fun _ => Diag (Within r P)) (Diag (Within r P)) (Diag (Within r P)) where
  scanning := hP.scanning
  bump s u c d h _ hd := hP.counted s u c d h hd
  start _ _ h := h
  build c _ _ := hP.buildChannel c
  initPacker _ _ h := h.map fun s hs => ⟨hP.initPacker s hs.1, hs.2⟩
  packing := hP.toKeepsPacking.packing hout
  rescanning := hP.scanning
  code _ _ _ _ h _ _ := h.1 ▸ rfl
  tree c s _ _ h := h.1 ▸ TreeAlike.refl c s
  count_error _ _ h := h
  pack_error _ _ h := h

end Steady

/-! ### How a command ends -/

/-- What the last step of command `i` makes of `u`: RESULT or OUT_SIZE is written, or nothing (R33, R36). -/
def Reports (i : Instr) (u t : State) : Prop :=
  match i with
  | .rdBits | .decSym _ | .predFwd _ | .predInv _ | .csc | .scale => ∃ v, t = u.setResult v
  | .pkFlush | .encFrame => t = u.reportPacked
  | .decScan | .decFrame => t = u.reportDecoded ∧ u.modeOk = true
  | .passthru => t = u.reportRaw
  | .nop | .histClear | .histScan | .histAdd _ | .treeBuild _ | .codeGen _ | .hdrWrite | .hdrRead | .pkInit | .pkBits
  | .encSym _ | .packScan | .rdInit | .predReset => t = u

/-- Command `i` ran from `r` to `t` without a mark: it completed, with its report, or stopped on an error and left `leave`. -/
def Ends (P : State → Prop) (leave : State → State) (i : Instr) (r t : State) : Prop :=
  (∃ u w, Within r P u ∧ Reports i u w ∧ t = w.finish) ∨ ∃ e info u, Within r P u ∧ t = (leave u).stop e info

/-- The run of a pseudocode that completes with the report of command `i`, or stops, in states of `P`. -/
abbrev Runs (P : State → Prop) (i : Instr) (m : Cmd Unit) (r : State) : Prop :=
  Alike (fun _ w _ => ∃ u, Within r P u ∧ Reports i u w) (Diag (Within r P)) (m r) (m r)

variable {left : State → State}

theorem ends_of_runs (hexec : exec i r = commandWith (fun _ => left) m r) (hm : Runs P i m r) (h : exec i r = .next t) :
    Ends P left i r t := by
  rw [hexec, commandWith] at h
  obtain ⟨_, w, _, hw, -, u, hu, hrep⟩ | ⟨e, info, u, _, hw, -, hu⟩ := hm <;> rw [hw] at h <;> cases h
  · exact .inl ⟨u, w, hu, hrep, rfl⟩
  · exact .inr ⟨e, info, u, hu.2, rfl⟩

/-- The same of a command with host duties: it ran, so it kept them. -/
theorem ends_of_duties {f : Unit → Cmd Unit} (hexec : exec i r = commandWith (fun _ => left) (duties i >>= f) r)
    (hm : Runs P i (f ()) r) (h : exec i r = .next t) : Ends P left i r t := by
  cases hduty : r.brokenDuty i with
  | some x =>
    have hrun : (duties i >>= f) r = .error (.refuse x) r := Cmd.bind_run_error (by rw [duties_run, hduty])
    rw [hexec, commandWith, hrun] at h
    cases h
  | none =>
    have hrun : (duties i >>= f) r = f () r := Cmd.bind_run_ok (by rw [duties_run, hduty])
    exact ends_of_runs (hexec.trans (by rw [commandWith, commandWith, hrun])) hm h

/-! ### The commands that store nothing -/

section Tables

variable (hr : P r)
include hr

theorem Diag.start : Diag (Within r P) r r := ⟨rfl, hr, rfl⟩

theorem nop_ends (h : exec .nop r = .next t) : Ends P id .nop r t :=
  ends_of_runs (m := pure ()) rfl (.ok rfl rfl ⟨r, ⟨hr, rfl⟩, rfl⟩) h

/-- A command that is one update after CheckCfg. -/
theorem update_ends {f : State → State} (hexec : exec i r = command (checkCfg >>= fun _ => modify f) r)
    (hf : ∃ u, Within r P u ∧ Reports i u (f r)) (h : exec i r = .next t) : Ends P id i r t :=
  ends_of_runs hexec (.check_bind checkCfg_run Iff.rfl rfl (Diag.start hr) fun _ => .ok rfl rfl hf) h

theorem histAdd_ends (c : Ch) (hbump : r.arg.toNat < r.alpha → P (r.bumpHist c r.arg.toNat))
    (h : exec (.histAdd c) r = .next t) : Ends P id (.histAdd c) r t :=
  ends_of_runs rfl (.check_bind checkCfg_run Iff.rfl rfl (Diag.start hr) fun _ => .get_bind rfl <|
    .require_bind (Diag.start hr) fun hlt => .ok rfl rfl ⟨_, ⟨hbump (of_decide_eq_true hlt), rfl⟩, rfl⟩) h

theorem histScan_ends (hprev : ∀ s (c : Ch) x, c.val < r.nch → P s → P (s.setPrev c x))
    (hbump : ∀ s (c : Ch) d, c.val < r.nch → d < s.alpha → P s → P (s.bumpHist c d)) (hopen : ∀ s, P s → P s.openScan)
    (h : exec .histScan r = .next t) : Ends P id .histScan r t := by
  refine ends_of_duties rfl ?_ h
  refine .check_bind checkCfg_run Iff.rfl rfl (Diag.start hr) fun _ => .check_bind checkIn_run Iff.rfl rfl (Diag.start hr)
    fun _ => .check_bind checkRaw_run Iff.rfl rfl (Diag.start hr) fun _ => ?_
  exact (histPass_couples (scanning_of hprev) (fun s u c d h hc hd =>
    h.map (f := fun s => s.bumpHist c d) fun s hs => ⟨hbump s c d hc (by rwa [Setup.alpha_eq hs.2]) hs.1, hs.2⟩) _ _
      (Diag.start hr)).bind
      fun _ s u h => .ok rfl rfl ⟨_, ⟨hopen s h.1.2.1, h.1.2.2⟩, rfl⟩

theorem codeGen_ends {c : Ch} (hbody : Lockstep (Diag (Within r P)) (codeGenBody c)) (h : exec (.codeGen c) r = .next t) :
    Ends P id (.codeGen c) r t :=
  ends_of_runs rfl (.check_bind checkCfg_run Iff.rfl rfl (Diag.start hr) fun _ =>
    (hbody _ _ (Diag.start hr)).mono (fun _ s _ h => ⟨s, h.2, rfl⟩) fun _ _ h => h) h

theorem hdrRead_ends (hbody : Lockstep (Diag (Within r P)) hdrReadBody) (h : exec .hdrRead r = .next t) :
    Ends P id .hdrRead r t :=
  ends_of_runs rfl (.check_bind checkCfg_run Iff.rfl rfl (Diag.start hr) fun _ =>
    .check_bind checkIn_run Iff.rfl rfl (Diag.start hr) fun _ =>
      (hbody _ _ (Diag.start hr)).mono (fun _ s _ h => ⟨s, h.2, rfl⟩) fun _ _ h => h) h

theorem rdBits_ends (hbits : BitReading (Diag (Within r P))) (h : exec .rdBits r = .next t) : Ends P id .rdBits r t :=
  ends_of_runs rfl (.check_bind checkCfg_run Iff.rfl rfl (Diag.start hr) fun _ =>
    .check_bind checkIn_run Iff.rfl rfl (Diag.start hr) fun _ => .get_bind rfl <| .require_bind (Diag.start hr) fun _ =>
      (readBits_lockstep hbits _ 0 _ _ (Diag.start hr)).bind fun _ => Couples.modify fun s _ h => ⟨s, h.2, _, rfl⟩) h

theorem decSym_ends (hbits : BitReading (Diag (Within r P))) (c : Ch) (h : exec (.decSym c) r = .next t) :
    Ends P id (.decSym c) r t := by
  refine ends_of_runs rfl (.check_bind checkCfg_run Iff.rfl rfl (Diag.start hr) fun _ =>
    .check_bind checkIn_run Iff.rfl rfl (Diag.start hr) fun _ => ?_) h
  refine (validateTree_alike (TreeAlike.refl c r) (Agree.refl r) (Diag.start hr)).bind fun _ s u h => ?_
  exact (decodeSymbol_lockstep hbits (c := c) (fun _ _ h => h.1 ▸ ⟨rfl, rfl, fun _ => SameWalk.refl _ _ _⟩) s u h.1).bind
    fun _ => Couples.modify fun s _ h => ⟨s, h.2, _, rfl⟩

end Tables

/-! ### The scan and frame commands -/

section Commands

variable (hP : Steady P) (hr : P r)
include hP hr

theorem packScan_ends (h : exec .packScan r = .next t) : Ends P State.loosenOut .packScan r t := by
  refine ends_of_duties rfl ?_ h
  refine .check_bind checkCfg_run Iff.rfl rfl (Diag.start hr) fun _ => .check_bind checkIn_run Iff.rfl rfl (Diag.start hr)
    fun _ => .check_bind checkOut_run Iff.rfl rfl (Diag.start hr) fun hout => .check_bind checkRaw_run Iff.rfl rfl
      (Diag.start hr) fun _ => ?_
  exact (packPass_couples hP.scanning (hP.packing hout) (fun _ _ _ _ h _ _ => h.1 ▸ rfl) _ _ (Diag.start hr)).bind
    fun _ => Couples.modify fun s _ h => ⟨_, ⟨hP.closeScan s h.1.2.1, h.1.2.2⟩, rfl⟩

theorem encFrame_ends (h : exec .encFrame r = .next t) : Ends P State.loosenOut .encFrame r t := by
  refine ends_of_duties rfl ?_ h
  refine .check_bind checkCfg_run Iff.rfl rfl (Diag.start hr) fun _ => .check_bind checkIn_run Iff.rfl rfl (Diag.start hr)
    fun _ => .check_bind checkOut_run Iff.rfl rfl (Diag.start hr) fun hout => .check_bind checkRaw_run Iff.rfl rfl
      (Diag.start hr) fun _ => ?_
  refine (encFrameBody_couples (hP.encoding hout) ⟨rfl, hP.clearHist _ (hP.forgetScans r hr), rfl⟩).mono ?_ fun _ _ h => h
  rintro _ w _ ⟨x, y, h, -, rfl, -⟩
  exact ⟨x, h.2, rfl⟩

omit hP hr in
/-- The end of the two decodes. -/
theorem runs_of_decodeEnd {x y : EStateM.Result Stop State Unit} (hmode : r.modeOk = true)
    (hi : ∀ u, u.modeOk = true → Reports i u u.reportDecoded)
    (h : Alike (fun _ => DecodeEnd r (Diag (Within r P))) (Diag (Within r P)) x y) :
    Alike (fun _ w _ => ∃ u, Within r P u ∧ Reports i u w) (Diag (Within r P)) x y := by
  refine h.mono ?_ fun _ _ h => h
  rintro _ w _ ⟨x, y, h, -, rfl, -⟩
  exact ⟨x, h.2, hi x ((State.eq_of_setup h.2.2 fun _ => rfl).trans hmode)⟩

theorem decScan_ends (h : exec .decScan r = .next t) : Ends P State.loosenOut .decScan r t := by
  refine ends_of_duties rfl ?_ h
  refine .check_bind checkCfgDecode_run Iff.rfl rfl (Diag.start hr) fun hcfg => .check_bind checkIn_run Iff.rfl rfl
    (Diag.start hr) fun _ => .check_bind checkOut_run Iff.rfl rfl (Diag.start hr) fun hout =>
      .check_bind checkOutSize_run Iff.rfl rfl (Diag.start hr) fun hcap => .get_bind rfl ?_
  obtain ⟨hcfg, hmode⟩ := Bool.and_eq_true_iff.1 hcfg
  have htrees : Lockstep (Diag (Within r P)) (forEach (channels r.nch) validateTree) := Lockstep.forEach fun c _ s u h =>
    (validateTree_alike (h.1 ▸ TreeAlike.refl c s) h.agree h).mono (fun _ _ _ h => h.1) fun _ _ h => h
  refine runs_of_decodeEnd hmode (fun u hu => ⟨rfl, hu⟩) ((htrees _ _ (Diag.start hr)).bind fun _ => ?_)
  exact decScanBody_couples (hP.decoding hout hcap) (State.nch_le_of_cfgOk hcfg) hmode (fun _ _ h => ⟨h.agree, h.2.2⟩)
    (fun _ _ _ h => h.map fun s hs => ⟨hP.initPacker s hs.1, hs.2⟩) fun _ _ _ h => h

theorem decFrame_ends (h : exec .decFrame r = .next t) : Ends P State.loosenOut .decFrame r t := by
  refine ends_of_duties rfl ?_ h
  refine .check_bind checkCfgDecode_run Iff.rfl rfl (Diag.start hr) fun hcfg => .check_bind checkIn_run Iff.rfl rfl
    (Diag.start hr) fun _ => .check_bind checkOut_run Iff.rfl rfl (Diag.start hr) fun hout =>
      .check_bind checkOutSize_run Iff.rfl rfl (Diag.start hr) fun hcap => .modify_bind ?_
  obtain ⟨hcfg, hmode⟩ := Bool.and_eq_true_iff.1 hcfg
  refine runs_of_decodeEnd hmode (fun u hu => ⟨rfl, hu⟩)
    ((hP.hdrReadBody _ _ ⟨rfl, hP.setReader r ⟨0, 0, 0⟩ hr, rfl⟩).bind fun _ => ?_)
  exact decScanBody_couples (hP.decoding hout hcap) (State.nch_le_of_cfgOk hcfg) hmode (fun _ _ h => ⟨h.agree, h.2.2⟩)
    (fun _ _ _ h => h.map fun s hs => ⟨hP.initPacker s hs.1, hs.2⟩) fun _ _ _ h => h

theorem passthru_ends (h : exec .passthru r = .next t) : Ends P State.loosenOut .passthru r t := by
  refine ends_of_duties rfl ?_ h
  refine .check_bind checkCfg_run Iff.rfl rfl (Diag.start hr) fun _ => .check_bind checkIn_run Iff.rfl rfl (Diag.start hr)
    fun _ => .check_bind checkOut_run Iff.rfl rfl (Diag.start hr) fun hout => .get_bind rfl <|
      .require_bind (Diag.start hr) fun _ => .require_bind (Diag.start hr) fun hcap => ?_
  have hput : ∀ k, 0 ≤ k → k < 0 + r.rawSize → ∀ s u x, Diag (Within r P) s u →
      Diag (Within r P) (s.putAt k x) (u.putAt k x) := fun k _ hk s u x h => h.map (f := fun s => s.putAt k x) fun s hs =>
    ⟨hP.putAt s k x hs.1 ((Setup.outFits_eq hs.2).trans hout)
      (by rw [Setup.outCap_eq hs.2]; have := of_decide_eq_true hcap; omega), hs.2⟩
  exact (Couples.forUp (R := fun _ => Diag (Within r P)) (fun k h1 h2 =>
    copyByte_lockstep (fun _ _ h => h.agree) (hput k h1 h2)) _ _ (Diag.start hr)).bind
    fun _ => Couples.modify fun s _ h => ⟨s, h.2, rfl⟩

/-- What every command that does not mark its bytes can do, said once: its updates keep `P`, and then it reports. -/
theorem exec_ends_cases (hi : Instr.emits i = false) (h : exec i r = .next t) : Ends P id i r t ∨ Ends P State.loosenOut i r t := by
  cases i with
  | nop => exact .inl (nop_ends hr h)
  | histClear => exact .inl (update_ends hr rfl ⟨_, ⟨hP.clearHist r hr, rfl⟩, rfl⟩ h)
  | histScan =>
    exact .inl (histScan_ends hr (fun s c x _ hs => hP.setPrev s c x hs)
      (fun s c d _ hd hs => hP.bumpHist s c d hs hd) hP.openScan h)
  | histAdd c => exact .inl (histAdd_ends hr c (fun hlt => hP.bumpHist r c _ hr hlt) h)
  | treeBuild c =>
    exact .inl (update_ends hr rfl ⟨_, ⟨hP.buildTree c hr, (State.buildTree_shifts (v := .still) c r).2.1⟩, rfl⟩ h)
  | codeGen c => exact .inl (codeGen_ends hr (hP.codeGenBody c) h)
  | hdrRead => exact .inl (hdrRead_ends hr hP.hdrReadBody h)
  | pkInit => exact .inl (update_ends hr rfl ⟨_, ⟨hP.initPacker r hr, rfl⟩, rfl⟩ h)
  | packScan => exact .inr (packScan_ends hP hr h)
  | rdInit => exact .inl (update_ends hr rfl ⟨_, ⟨hP.setReader r ⟨0, 0, 0⟩ hr, rfl⟩, rfl⟩ h)
  | rdBits => exact .inl (rdBits_ends hr hP.bits h)
  | decSym c => exact .inl (decSym_ends hr hP.bits c h)
  | decScan => exact .inr (decScan_ends hP hr h)
  | predReset => exact .inl (update_ends hr rfl ⟨_, ⟨hP.clearPredictors r hr, rfl⟩, rfl⟩ h)
  | predFwd c => exact .inl (update_ends hr rfl ⟨_, ⟨hP.setPrev r c _ hr, rfl⟩, _, rfl⟩ h)
  | predInv c => exact .inl (update_ends hr rfl ⟨_, ⟨hP.setAcc r c _ hr, rfl⟩, _, rfl⟩ h)
  | csc => exact .inl (update_ends hr rfl ⟨r, ⟨hr, rfl⟩, _, rfl⟩ h)
  | scale => exact .inl (update_ends hr rfl ⟨r, ⟨hr, rfl⟩, _, rfl⟩ h)
  | encFrame => exact .inr (encFrame_ends hP hr h)
  | decFrame => exact .inr (decFrame_ends hP hr h)
  | passthru => exact .inr (passthru_ends hP hr h)
  | hdrWrite | pkBits | pkFlush | encSym _ => cases hi

theorem exec_ends (hi : Instr.emits i = false) (h : exec i r = .next t) :
    (∃ u w, Within r P u ∧ Reports i u w ∧ t = w.finish) ∨
      ∃ e info u, Within r P u ∧ (t = u.stop e info ∨ t = u.loosenOut.stop e info) := by
  obtain (h | ⟨e, info, u, hu, ht⟩) | (h | ⟨e, info, u, hu, ht⟩) := exec_ends_cases hP hr hi h
  · exact .inl h
  · exact .inr ⟨e, info, u, hu, .inl ht⟩
  · exact .inl h
  · exact .inr ⟨e, info, u, hu, .inr ht⟩

end Commands

/-! ### The commands that mark their bytes -/

/-- Command `i`, one of those that mark the bytes they emit, ran from `r` to `t`. -/
def EndsMarked (P : State → Prop) (i : Instr) (r t : State) : Prop :=
  (∃ u w, Within r P u ∧ Reports i u w ∧ t = (r.markSince w).finish) ∨
    ∃ e info u, Within r P u ∧ (t = (r.markSince u).stop e info ∨ t = (r.markSince u).loosenUnwritten.stop e info)

/-- What an error stop of HDR_WRITE leaves depends on the error. -/
theorem State.headersLeft_cases (e : ErrCode) :
    (∀ u : State, u.headersLeft e = u) ∨ ∀ u : State, u.headersLeft e = u.loosenUnwritten := by
  by_cases h : e = .badState ∨ e = .badCount ∨ e = .badRef
  · exact .inl fun u => if_pos h
  · exact .inr fun u => if_neg h

/-- Two runs of a command that marks its bytes, said once: the pseudocode behind the marks, what an error leaves, and that the
runs end alike. -/
theorem marked_alike {R : Link} (hi : Instr.emits i = true) (hR : r.outFits = true → Packing R) (h : R r u) (hag : Agree r u)
    (hnch : ∀ s v, R s v → s.nch = r.nch) (htree : ∀ c s v, R s v → TreeAlike c s v)
    (hcode : ∀ c sym, r.codeAt c sym = u.codeAt c sym) :
    ∃ m leave, (∀ s, exec i s = commandWith leave (marking m) s) ∧
      (∀ e, (∀ s, leave e s = s) ∨ ∀ s, leave e s = s.loosenUnwritten) ∧
      Alike (fun _ s v => ∃ x y, R x y ∧ Reports i x s ∧ Reports i y v) R (m r) (m u) := by
  have harg : r.arg = u.arg := hag.eq (f := State.arg) fun _ => rfl
  have hcount : r.count = u.count := hag.eq (f := State.count) fun _ => rfl
  have hchecks {f : Cmd Unit} {S : Unit → Link} (hf : Packing R → Alike S R (f r) (f u)) :
      Alike S R ((checkCfg >>= fun _ => checkOut >>= fun _ => f) r) ((checkCfg >>= fun _ => checkOut >>= fun _ => f) u) :=
    .check_bind checkCfg_run (by rw [hag.cfgOk]) rfl h fun _ =>
      .check_bind checkOut_run (by rw [hag.outFits]) rfl h fun hout => hf (hR hout)
  cases i with
  | hdrWrite =>
    exact ⟨_, _, fun _ => rfl, State.headersLeft_cases, hchecks fun hR =>
      (hdrWriteBody_lockstep hR hnch (fun c s v _ => htree c s v) _ _ h).mono
        (fun _ s v h => ⟨s, v, h, rfl, rfl⟩) fun _ _ h => h⟩
  | pkBits =>
    exact ⟨_, _, fun _ => rfl, fun _ => .inr fun _ => rfl, hchecks fun hR => .get_bind (by simp only [harg, hcount]) <|
      .require_bind h fun _ => (writeBits_lockstep hR _ _ _ _ h).mono (fun _ s v h => ⟨s, v, h, rfl, rfl⟩) fun _ _ h => h⟩
  | pkFlush =>
    exact ⟨_, _, fun _ => rfl, fun _ => .inr fun _ => rfl, hchecks fun hR => (flushPartial_lockstep hR _ _ h).bind
      fun _ => Couples.modify fun s v h => ⟨s, v, h, rfl, rfl⟩⟩
  | encSym c =>
    exact ⟨_, _, fun _ => rfl, fun _ => .inr fun _ => rfl, hchecks fun hR => .get_bind (by simp only [harg, hag.alpha]) <|
      .require_bind h fun _ => (emitCode_alike hR h (hcode c _)).mono (fun _ s v h => ⟨s, v, h, rfl, rfl⟩) fun _ _ h => h⟩
  | nop | histClear | histScan | histAdd _ | treeBuild _ | codeGen _ | hdrRead | pkInit | packScan | rdInit | rdBits
  | decSym _ | decScan | predReset | predFwd _ | predInv _ | csc | scale | encFrame | decFrame | passthru => cases hi

/-- What each command that marks its bytes can do; it is never refused. -/
theorem exec_endsMarked (hP : KeepsPacking P) (hr : P r) (hi : Instr.emits i = true) :
    ∃ t, exec i r = .next t ∧ EndsMarked P i r t := by
  obtain ⟨m, leave, hexec, hleave, hm⟩ := marked_alike hi (fun hout => hP.packing hout) (Diag.start hr) (Agree.refl r)
    (fun _ _ h => Setup.nch_eq h.2.2) (fun c s _ h => h.1 ▸ TreeAlike.refl c s) fun _ _ => rfl
  obtain ⟨_, w, _, hw, -, u, _, hu, hrep, -⟩ | ⟨e, info, u, _, hw, -, hu⟩ := hm
  · exact ⟨_, (hexec r).trans (commandWith_of_ok (marking_of_ok hw)), .inl ⟨u, w, hu.2, hrep, rfl⟩⟩
  · have hrun : exec i r = .next ((leave e (r.markSince u)).stop e info) := by
      rw [hexec, commandWith, marking, hw]
    refine ⟨_, hrun, .inr ⟨e, info, u, hu.2, ?_⟩⟩
    obtain h | h := hleave e <;> rw [h]
    · exact .inl rfl
    · exact .inr rfl

end Sys2Proof.Machine
end

section
/-! SUPPORT. The updates of the pseudocode keep the invariant, and so does every command and every action of the host. -/

namespace Sys2Proof.Machine

variable {r s t u : State} {i : Instr}

/-! ### Updates -/

theorem keyBelow_tableKey (c : Ch) {i n : Nat} (hi : i < n) (hn : n ≤ Config.symbols) : KeyBelow n (tableKey c i) := by
  have hc := c.isLt
  simp only [Config.symbols] at hn
  simp only [KeyBelow, tableKey, Config.symbols]
  constructor <;> omega

/-- Memory in canonical form, drawn before draw `n`. -/
def Memory.Drawn (m : Memory) (n : Nat) : Prop := m.wf ∧ ∀ p ∈ m.loose, p.draw < n

theorem Memory.Drawn.mono {m : Memory} {n k : Nat} (h : m.Drawn n) (hk : n ≤ k) : m.Drawn k :=
  ⟨h.1, fun p hp => (h.2 p hp).trans_le hk⟩

theorem Memory.Drawn.write {m : Memory} {n a : Nat} (h : m.Drawn n) (ha : a < Config.memSize) (x : Byte) :
    (m.write a x).Drawn n := ⟨Memory.write_wf h.1 x ha, Memory.draw_write (P := (· < n)) h.2 a x⟩

theorem Memory.Drawn.loosen {m : Memory} {n : Nat} (h : m.Drawn n) {lo hi : Nat} (hhi : hi ≤ Config.memSize) :
    (m.loosen lo hi n).Drawn (n + 1) :=
  ⟨Memory.loosen_wf h.1 hhi fun p hp => (h.2 p hp).ne,
    Memory.draw_loosen (P := (· < n + 1)) (fun p hp => (h.2 p hp).trans (Nat.lt_succ_self n)) (Nat.lt_succ_self n) lo hi⟩

theorem Memory.Drawn.loosenUnwritten {m : Memory} {n : Nat} (h : m.Drawn n) {lo hi : Nat} (hhi : hi ≤ Config.memSize) :
    (m.loosenUnwritten lo hi n).Drawn (n + 1) :=
  ⟨(Memory.loosenUnwritten_spec h.1 hhi fun p hp => (h.2 p hp).ne).1,
    Memory.draw_loosenUnwritten (P := (· < n + 1)) (fun p hp => (h.2 p hp).trans (Nat.lt_succ_self n)) (Nat.lt_succ_self n) lo
      hi⟩

theorem Memory.Drawn.window {m : Memory} {n : Nat} (h : m.Drawn n) (lo hi : Nat) : (m.window lo hi).Drawn n :=
  ⟨Memory.window_wf h.1 lo hi, fun q hq => by
    obtain ⟨p, hp, hq⟩ := Memory.mem_window_loose hq
    obtain ⟨-, -, -, -, -, hdraw⟩ := Span.mem_clip hq
    exact hdraw ▸ h.2 p hp⟩

/-- A packer without bits holds what it says. -/
theorem empty_fits : (0 : Byte).toNat < 2 ^ (0 : BitVec 3).toNat := by decide

namespace Inv

variable (h : Inv s)
include h

theorem memory : s.mem.Drawn s.draws := ⟨h.mem, h.drawn⟩

theorem withMemory {m : Memory} {n : Nat} (hm : m.Drawn n) (hn : s.draws ≤ n) : Inv { s with mem := m, draws := n } :=
  { h with
    mem := hm.1
    drawn := hm.2
    scans := fun k hk => ⟨(h.scans k hk).1, fun p hp => ((h.scans k hk).2 p hp).trans_le hn⟩ }

theorem putAt {o : Nat} (x : Byte) (ho : s.outAddr.toNat + o < Config.memSize) : Inv (s.putAt o x) :=
  h.withMemory (h.memory.write ho x) le_rfl

theorem setHist (c : Ch) {sym : Nat} (v : Word) (hsym : sym < Config.symbols) : Inv (s.setHist c sym v) :=
  { h with
    hist := ⟨Sparse.put_wf h.hist.1, fun e he => by
      obtain he | ⟨rfl, -⟩ := Sparse.mem_put he
      · exact h.hist.2 e he
      · exact keyBelow_tableKey c hsym le_rfl⟩ }

theorem setNode (c : Ch) {i : Nat} (n : Node) (hi : i < Config.nodes) : Inv (s.setNode c i n) :=
  { h with
    tree := ⟨Sparse.put_wf h.tree.1, fun e he => by
      obtain he | ⟨rfl, -⟩ := Sparse.mem_put he
      · exact h.tree.2 e he
      · exact keyBelow_tableKey c hi (by decide)⟩ }

theorem setCode (c : Ch) {sym : Nat} {x : CodeEntry} (hsym : sym < Config.symbols) (hx : x.fits) : Inv (s.setCode c sym x) :=
  { h with
    code := ⟨Sparse.put_wf h.code.1, fun e he => by
      obtain he | ⟨rfl, -⟩ := Sparse.mem_put he
      · exact h.code.2 e he
      · exact ⟨keyBelow_tableKey c hsym le_rfl, hx⟩⟩ }

theorem clearCodes (c : Ch) : Inv (s.clearCodes c) :=
  { h with code := ⟨Sparse.filter_wf h.code.1, fun e he => h.code.2 e (List.mem_filter.1 he).1⟩ }

theorem otherScans {m : ScanMark} (hm : m ∈ s.otherScans) : m.found.wf ∧ ∀ p ∈ m.found.loose, p.draw < s.draws :=
  h.scans m (List.mem_filter.1 hm).1

theorem closeScan : Inv s.closeScan := { h with scans := fun _ hm => h.otherScans hm }

theorem openScan : Inv s.openScan :=
  { h with
    scans := fun m hm => by
      rw [State.openScan_scans] at hm
      split at hm
      · exact h.otherScans hm
      · obtain rfl | hm := List.mem_cons.1 hm
        · exact h.memory.window _ _
        · exact h.otherScans hm }

/-- A shifted-in bit is the new lowest one (R114). -/
theorem pushBit (b : Bool) (hfill : s.pk.fill ≠ 7) : Inv (s.pushBit b) :=
  { h with
    packer := by
      have hacc := h.packer
      have hlt : s.pk.fill.toNat < 7 := by bv_omega
      have hfill' : (s.pk.fill + 1).toNat = s.pk.fill.toNat + 1 := by bv_omega
      show (shiftIn s.pk.acc b).toNat < 2 ^ (s.pk.fill + 1).toNat
      rw [hfill']
      unfold shiftIn
      rw [BitVec.toNat_or]
      refine Nat.or_lt_two_pow ?_ ?_
      · rw [BitVec.toNat_shiftLeft, Nat.shiftLeft_eq]
        refine (Nat.mod_le _ _).trans_lt ?_
        rw [Nat.pow_succ]
        omega
      · have hbit : ((BitVec.ofBool b).setWidth 8).toNat < 2 := by cases b <;> decide
        have hpow : 2 ^ 1 ≤ 2 ^ (s.pk.fill.toNat + 1) := Nat.pow_le_pow_right (by decide) (by omega)
        omega }

theorem emptyPacker : Inv s.emptyPacker := { h with packer := empty_fits }

theorem emitted (x : Byte) (hout : s.outFits = true) (hroom : s.pk.ptr.toNat < s.outCap.toNat) : Inv (s.emitted x) :=
  have hfits := of_decide_eq_true hout
  { h.putAt (o := s.pk.ptr.toNat) x (by omega) with packer := h.packer }

end Inv

/-- The invariant is one of the properties that every update keeps. -/
theorem Inv.steady : Steady Inv where
  emitted _ x h hout hroom := h.emitted x hout hroom
  pushBit _ b h hfill := h.pushBit b hfill
  emptyPacker _ h := h.emptyPacker
  initPacker _ h := { h with packer := empty_fits }
  putAt s o x h hout ho := h.putAt x (by have := of_decide_eq_true hout; omega)
  setReader _ _ h := { h with }
  setPrev _ _ _ h := { h with }
  setAcc _ _ _ h := { h with }
  clearPredictors _ h := { h with }
  bumpHist s c d h hd := h.setHist c _ (hd.trans_le s.alpha_le)
  clearHist _ h := { h with hist := ⟨⟨.nil, nofun⟩, nofun⟩ }
  setNode _ c _ n h hi := h.setNode c n hi
  setRegs _ _ _ h := { h with }
  setCode s c sym e h hsym he := h.setCode c (hsym.trans_le s.alpha_le) he
  clearCodes _ c h := h.clearCodes c
  openScan _ h := h.openScan
  closeScan _ h := h.closeScan
  forgetScans _ h := { h with scans := nofun }

/-! ### The end of a command -/

/-- A report changes at most RESULT and OUT_SIZE. -/
theorem Reports.eq (h : Reports i u t) : ∃ lo hi n, t = { u with resLo := lo, resHi := hi, outSize := n } := by
  unfold Reports at h
  split at h
  case h_1 | h_2 | h_3 | h_4 | h_5 | h_6 =>
    obtain ⟨v, rfl⟩ := h
    exact ⟨_, _, _, rfl⟩
  case h_9 | h_10 =>
    obtain ⟨rfl, -⟩ := h
    exact ⟨_, _, _, rfl⟩
  all_goals subst h; exact ⟨_, _, _, rfl⟩

theorem ErrCode.code_bounds (e : ErrCode) : e.code.toNat ≤ 0x0D ∧ e.code ≠ 0 := by cases e <;> decide

namespace Inv

variable (h : Inv s)
include h

theorem finish : Inv s.finish := { h with busy := fun hp => absurd rfl hp, legal := nofun }

theorem stop (e : ErrCode) (info : Word) : Inv (s.stop e info) :=
  { h with
    busy := fun hp => absurd rfl hp
    legal := nofun
    codes := ⟨e.code_bounds.1, fun _ => e.code_bounds.2⟩ }

theorem loosenOut : Inv s.loosenOut := h.withMemory (h.memory.loosen s.outTop_le) (Nat.le_succ _)

theorem loosenUnwritten : Inv s.loosenUnwritten := h.withMemory (h.memory.loosenUnwritten s.outTop_le) (Nat.le_succ _)

theorem reports (hrep : Reports i s t) : Inv t := by
  obtain ⟨lo, hi, n, rfl⟩ := hrep.eq
  exact { h with }

end Inv

/-! ### The bytes a command emits -/

/-- `s`, reached from PK_PTR `p`: the invariant holds, and the bytes emitted since are known and inside the output region. -/
structure EmittedFrom (p : Nat) (s : State) : Prop where
  inv : Inv s
  ptr : p ≤ s.pk.ptr.toNat
  room : p < s.pk.ptr.toNat → s.outFits = true ∧ s.pk.ptr.toNat ≤ s.outCap.toNat
  known : ∀ b, s.outAddr.toNat + p ≤ b → b < s.outAddr.toNat + s.pk.ptr.toNat → ∀ q ∈ s.mem.loose, q.covers b = false

theorem Inv.emittedFrom (h : Inv s) : EmittedFrom s.pk.ptr.toNat s :=
  ⟨h, le_rfl, fun hlt => absurd hlt (lt_irrefl _), fun _ h1 h2 => absurd h2 (not_lt.2 h1)⟩

/-- A write makes no other byte unspecified. -/
theorem Memory.write_keeps_known {m : Memory} {b : Nat} (h : ∀ q ∈ m.loose, q.covers b = false) (a : Nat) (x : Byte) :
    ∀ q ∈ (m.write a x).loose, q.covers b = false := by
  intro q hq
  unfold Memory.write at hq
  split at hq
  · obtain ⟨p, hp, hq⟩ := Memory.mem_cutLoose hq
    have hp' := Span.covers_eq_false.1 (h p hp)
    have := Span.mem_cut hq
    rw [Span.covers_eq_false]
    omega
  · exact h q hq

theorem EmittedFrom.keepsPacking (p : Nat) : KeepsPacking (EmittedFrom p) where
  pushBit _ b h hfill := ⟨h.inv.pushBit b hfill, h.ptr, h.room, h.known⟩
  emptyPacker _ h := ⟨h.inv.emptyPacker, h.ptr, h.room, h.known⟩
  emitted s x h hout hroom := by
    have hptr := h.ptr
    have hnext : (s.pk.ptr + 1).toNat = s.pk.ptr.toNat + 1 := toNat_add_one_of_lt hroom s.outCap.isLt
    refine ⟨h.inv.emitted x hout hroom, ?_, fun _ => ⟨hout, ?_⟩, fun b h1 h2 => ?_⟩
    · show p ≤ (s.pk.ptr + 1).toNat
      omega
    · show (s.pk.ptr + 1).toNat ≤ s.outCap.toNat
      omega
    · replace h2 : b < s.outAddr.toNat + (s.pk.ptr + 1).toNat := h2
      by_cases hb : b = s.outAddr.toNat + s.pk.ptr.toNat
      · exact hb ▸ Memory.write_known s.mem _ x
      · exact Memory.write_keeps_known (h.known b h1 (by omega)) _ x

/-- The bytes emitted are inside the address space, if there are any. -/
theorem EmittedFrom.fits {p : Nat} (h : EmittedFrom p s) (hlt : p < s.pk.ptr.toNat) :
    s.outAddr.toNat + p + (s.pk.ptr.toNat - p) ≤ Config.memSize := by
  obtain ⟨hout, hcap⟩ := h.room hlt
  have := of_decide_eq_true hout
  omega

/-- What a command that marks its bytes leaves has the invariant. -/
theorem EmittedFrom.markSince (h : EmittedFrom r.pk.ptr.toNat s) (haddr : s.outAddr = r.outAddr) : Inv (r.markSince s) := by
  have hmark : (s.mem.markRun (r.outAddr.toNat + r.pk.ptr.toNat) (s.pk.ptr.toNat - r.pk.ptr.toNat)).wf := by
    have hptr := h.ptr
    obtain hlt | heq := hptr.lt_or_eq
    · rw [← haddr]
      exact (Memory.markRun_spec h.inv.mem (h.fits hlt) fun b h1 h2 => h.known b h1 (by omega)).1
    · rw [heq, Nat.sub_self]
      exact h.inv.mem
  exact h.inv.withMemory ⟨hmark, by rw [Memory.markRun_loose]; exact h.inv.drawn⟩ le_rfl

/-! ### Every command -/

theorem Inv.of_exec (h : Inv r) (hexec : exec i r = .next t) : Inv t := by
  cases hemit : Instr.emits i with
  | false =>
    obtain ⟨u, w, ⟨hu, -⟩, hrep, rfl⟩ | ⟨e, info, u, ⟨hu, -⟩, rfl | rfl⟩ := exec_ends Inv.steady h hemit hexec
    · exact (hu.reports hrep).finish
    · exact hu.stop e info
    · exact hu.loosenOut.stop e info
  | true =>
    obtain ⟨t', ht', hend⟩ := exec_endsMarked (EmittedFrom.keepsPacking r.pk.ptr.toNat) h.emittedFrom hemit
    obtain rfl : t' = t := by
      rw [ht'] at hexec
      injection hexec
    obtain ⟨u, w, ⟨hu, hset⟩, hrep, rfl⟩ | ⟨e, info, u, ⟨hu, hset⟩, rfl | rfl⟩ := hend
    · have hmarked := hu.markSince (Setup.outAddr_eq hset)
      obtain ⟨lo, hi, n, rfl⟩ := hrep.eq
      exact { hmarked with : Inv (r.markSince { u with resLo := lo, resHi := hi, outSize := n }) }.finish
    · exact (hu.markSince (Setup.outAddr_eq hset)).stop e info
    · exact (hu.markSince (Setup.outAddr_eq hset)).loosenUnwritten.stop e info

end Sys2Proof.Machine
end

section
/-! SUPPORT. The host's actions and the core's turn keep the invariant. -/

namespace Sys2Proof.Machine

variable {r s t u : State} {i : Instr}

/-! ### Aborted commands -/

/-- The bytes that a command which marks them has emitted are inside the address space. -/
theorem emitted_fits (h : Inv s) (hi : Instr.emits i = true) :
    ∃ t, exec i s = .next t ∧ s.pk.ptr.toNat ≤ t.pk.ptr.toNat ∧
      (s.pk.ptr.toNat < t.pk.ptr.toNat → s.outFits = true ∧ t.pk.ptr.toNat ≤ s.outCap.toNat) := by
  obtain ⟨t, ht, hend⟩ := exec_endsMarked (EmittedFrom.keepsPacking s.pk.ptr.toNat) h.emittedFrom hi
  have hpk : ∃ u, Within s (EmittedFrom s.pk.ptr.toNat) u ∧ t.pk = u.pk := by
    obtain ⟨u, w, hu, hrep, rfl⟩ | ⟨e, info, u, hu, rfl | rfl⟩ := hend
    · obtain ⟨lo, hi, n, rfl⟩ := hrep.eq
      exact ⟨u, hu, rfl⟩
    · exact ⟨u, hu, rfl⟩
    · exact ⟨u, hu, rfl⟩
  obtain ⟨u, ⟨hu, hset⟩, hpk⟩ := hpk
  refine ⟨t, ht, ?_⟩
  rw [hpk, ← Setup.outFits_eq hset, ← Setup.outCap_eq hset]
  exact ⟨hu.ptr, hu.room⟩

/-- `State.abortedEmit_spec` for every state that meets the invariant. -/
theorem Inv.abortedEmit (h : Inv s) (hi : Instr.emits i = true) :
    ∃ t n m, exec i s = .next t ∧ s.pk.ptr.toNat + n ≤ t.pk.ptr.toNat ∧
      s.abortedEmit i = { s with mem := m, draws := s.draws + 2 } ∧ m.Drawn (s.draws + 2) ∧
      (0 < n → s.outFits = true ∧ t.pk.ptr.toNat ≤ s.outCap.toNat) ∧ ∀ b, m.read b =
        if s.outAddr.toNat + s.pk.ptr.toNat ≤ b ∧ b < s.outAddr.toNat + s.pk.ptr.toNat + n then t.mem.read b
        else if (s.outAddr.toNat ≤ b ∧ b < s.outTop) ∧ s.mem.isEmitted b = false then Config.freeByte (s.draws + 1) b
        else s.mem.read b := by
  obtain ⟨t, ht, hptr, hroom⟩ := emitted_fits h hi
  obtain hlt | heq := hptr.lt_or_eq
  · have hfit : s.outAddr.toNat + s.pk.ptr.toNat + (t.pk.ptr.toNat - s.pk.ptr.toNat) ≤ Config.memSize := by
      obtain ⟨hout, hcap⟩ := hroom hlt
      have := of_decide_eq_true hout
      omega
    obtain ⟨n, m, hn, hab, hwf, hdraw, hread⟩ := State.abortedEmit_spec ht h.mem h.drawn hfit
    exact ⟨t, n, m, ht, by omega, hab, ⟨hwf, hdraw⟩, fun _ => hroom hlt, hread⟩
  · have hdrawn : ∀ p ∈ s.mem.loose, p.draw ≠ s.draws + 1 := fun p hp => by have := h.drawn p hp; omega
    obtain ⟨-, hread⟩ := Memory.loosenUnwritten_spec h.mem (lo := s.outAddr.toNat) s.outTop_le hdrawn
    refine ⟨t, 0, s.mem.loosenUnwritten s.outAddr.toNat s.outTop (s.draws + 1), ht, heq.le, ?_,
      (h.memory.mono (Nat.le_succ _)).loosenUnwritten s.outTop_le, fun h0 => absurd h0 (lt_irrefl 0), fun b => ?_⟩
    · unfold State.abortedEmit
      simp only [ht, heq, Nat.sub_self, Nat.zero_add, Nat.mod_one]
      rfl
    · rw [(hread b).1, if_neg (c := _ ≤ b ∧ _) (by omega)]

/-- What an abort leaves: memory and the count of draws change, and no more. -/
theorem Inv.aborted (h : Inv s) : ∃ m n, s.aborted = { s with mem := m, draws := n } ∧ m.Drawn n := by
  unfold State.aborted
  cases s.runningInstr with
  | none => exact ⟨s.mem, s.draws, rfl, h.memory⟩
  | some i =>
    cases hemit : Instr.emits i with
    | true =>
      obtain ⟨-, -, m, -, -, hab, hm, -⟩ := h.abortedEmit hemit
      exact ⟨m, _, (if_pos hemit).trans hab, hm⟩
    | false =>
      cases hout : Instr.usesOut i with
      | true => exact ⟨s.mem.loosen s.outAddr.toNat s.outTop s.draws, s.draws + 1, by simp [hemit, hout, State.loosenOut], h.memory.loosen s.outTop_le⟩
      | false => exact ⟨_, _, by simp [hemit, hout], h.memory⟩

/-- The reset values with any memory meet the invariant. -/
theorem Inv.cleared {m : Memory} {n : Nat} (hm : m.Drawn n) (p : Phase) (hp : p ≠ .running) {deny : List Deny}
    {script : List HostAction} {data : Word} :
    Inv { State.reset with phase := p, mem := m, draws := n, deny, script, hostData := data } where
  mem := hm.1
  drawn := hm.2
  scans := nofun
  hist := ⟨⟨.nil, nofun⟩, nofun⟩
  tree := ⟨⟨.nil, nofun⟩, nofun⟩
  code := ⟨⟨.nil, nofun⟩, nofun⟩
  packer := empty_fits
  busy _ := ⟨rfl, rfl, rfl, rfl⟩
  legal h := absurd h hp
  codes := ⟨Nat.zero_le _, nofun⟩

/-- A reset that is not refused leaves what it should. -/
theorem resetTo_eq_next (h : s.resetTo t = .next u) : t = u := by
  obtain ⟨-, heq⟩ | ⟨_, _, -, -, -, heq⟩ := s.resetTo_cases t <;> rw [heq] at h <;> cases h
  rfl

namespace Inv

variable (h : Inv s)
include h

theorem beginReset : Inv s.beginReset := by
  obtain ⟨m, n, hab, hm⟩ := h.aborted
  unfold State.beginReset
  rw [hab]
  exact Inv.cleared hm .resetting nofun

/-! ### Register writes -/

theorem clearStatus (v : Word) : Inv (s.clearStatus v) :=
  { h with
    busy := fun hp => by
      obtain ⟨hdone, herr, hcode, hinfo⟩ := h.busy hp
      exact ⟨by rw [State.clearStatus_done, hdone, Bool.false_and], by rw [State.clearStatus_err, herr, Bool.false_and], hcode, hinfo⟩
    codes := ⟨h.codes.1, fun he => h.codes.2 (Bool.and_eq_true_iff.1 he).1⟩ }

theorem start {w : Word} (hw : ∃ i, decode w = .ok i) : Inv (s.start w) :=
  { h with
    busy := fun _ => ⟨rfl, rfl, rfl, rfl⟩
    legal := fun _ => hw
    codes := ⟨Nat.zero_le _, nofun⟩ }

theorem acceptCmd (w : Word) : Inv (s.acceptCmd w) := by
  cases hw : decode w with
  | ok i =>
    rw [State.acceptCmd_of_ok hw]
    exact h.start ⟨i, hw⟩
  | illegal why =>
    rw [State.acceptCmd_of_illegal hw]
    exact { h.stop .badCmd 0 with legal := nofun }

theorem writeTab0 (v : Word) : Inv (s.writeTab0 v) := by
  unfold State.writeTab0
  cases s.tab.sel with
  | hist => exact h.setHist _ _ s.tab.index.isLt
  | tree =>
    dsimp only
    split
    · exact h.setNode _ _ ‹_›
    · exact h
  | code => exact h
  | chan =>
    dsimp only
    unfold State.writeChan
    split <;> exact { h with }

theorem writeCtrl (v : Word) : Inv (s.writeCtrl v) := by
  unfold State.writeCtrl
  split
  · exact h.beginReset
  · exact { h with }

theorem writeIdle (reg : Reg) (v : Word) : Inv (s.writeIdle reg v) := by
  cases reg with
  | ctrl => exact h.writeCtrl v
  | status => exact h.clearStatus v
  | cmd => exact h.acceptCmd v
  | tabData0 => exact h.writeTab0 v
  | _ => exact { h with }

theorem writeRunning (reg : Reg) (v : Word) : Inv (s.writeRunning reg v) := by
  cases reg with
  | ctrl => exact h.writeCtrl v
  | status => exact h.clearStatus v
  | _ => exact { h with }

theorem hostWrite (off : BitVec 12) (v : Word) : Inv (s.hostWrite off v) := by
  unfold State.hostWrite
  split
  · exact h
  · split
    · exact h.writeIdle _ v
    · exact h.writeRunning _ v
    · exact h

/-! ### Reads, memory accesses and steps -/

theorem deliver (v : Word) : Inv (s.deliver v) := { h with }

theorem deliverFree : Inv s.deliverFree := { h.withMemory (h.memory.mono (Nat.le_succ _)) (Nat.le_succ _) with }

theorem hostRead (off : BitVec 12) : Inv (s.hostRead off) := by
  unfold State.hostRead
  split
  · exact h.deliver 0
  · split
    · exact h.deliverFree
    · exact h.deliver _

theorem written {off : BitVec 12} {v : Word} (hnext : s.written off v = .next u) : Inv u := by
  unfold State.written at hnext
  split at hnext
  · exact resetTo_eq_next hnext ▸ h.hostWrite off v
  · cases hnext
    exact h.hostWrite off v

theorem hostMemWrite {a : Word} {v : Byte} (hnext : s.hostMemWrite a v = .next u) : Inv u := by
  unfold State.hostMemWrite at hnext
  split_ifs at hnext
  cases hnext
  exact h.withMemory (h.memory.write a.isLt v) le_rfl

theorem hostMemRead {a : Word} (hnext : s.hostMemRead a = .next u) : Inv u := by
  unfold State.hostMemRead at hnext
  split_ifs at hnext
  cases hnext
  exact h.deliver _

theorem hostAct {act : HostAction} (hnext : s.hostAct act = .next u) : Inv u := by
  obtain ⟨_, _, _, -, -, heq⟩ | ⟨_, _, -, -, heq⟩ | ⟨_, _, -, heq⟩ | ⟨_, _, -, heq⟩ | ⟨_, -, heq⟩ | ⟨-, heq⟩ | ⟨-, heq⟩ |
    ⟨-, heq⟩ := hostAct_cases s act <;> rw [heq] at hnext
  · exact h.written hnext
  · cases hnext
    exact h.hostRead _
  · cases hnext
  · exact h.hostMemWrite hnext
  · exact h.hostMemRead hnext
  · exact resetTo_eq_next hnext ▸ h.beginReset
  · cases hnext
    exact h.deliver _
  · cases hnext
    exact h

theorem coreTurn (hnext : s.coreTurn = .next u) : Inv u := by
  obtain ⟨-, i, -, heq⟩ | ⟨-, _, -, heq⟩ | ⟨-, heq⟩ | ⟨-, heq⟩ := coreTurn_cases s <;> rw [heq] at hnext
  · exact h.of_exec hnext
  · cases hnext
    exact h.stop _ _
  · cases hnext
    exact { h with busy := fun hp => absurd rfl hp, legal := nofun }
  · cases hnext
    exact h

theorem proceed (rest : List HostAction) : Inv (s.proceed rest) := { h with }

end Inv

/-- Settles O15: every update of a command keeps the invariant (`Inv.steady`), and so does every action of the host. -/
theorem stepKeepsInvariant : Obligations.StepKeepsInvariant := by
  intro s t h hnext
  obtain ⟨rest, heq⟩ | ⟨rest, act, -, heq⟩ := step_cases s <;> rw [heq] at hnext
  · exact (h.proceed rest).coreTurn hnext
  · exact (h.proceed rest).hostAct hnext

/-- Settles O1. -/
theorem resetStateMeetsInvariant : Obligations.ResetStateMeetsInvariant :=
  Inv.cleared (m := ⟨[], [], []⟩) (n := 0)
    ⟨⟨⟨.nil, nofun⟩, nofun, nofun, nofun, .nil, ⟨.nil, nofun⟩, nofun⟩, nofun⟩ .idle nofun

end Sys2Proof.Machine
end

section
/-! SUPPORT. What a table entry reads after a write of the tables: of the written entry the value, of every other entry what it
was. -/

namespace Sys2Proof.Machine

variable {s u : State} {c d : Ch} {i j : Nat}

theorem tableKey_eq_iff (hi : i < Config.symbols) (hj : j < Config.symbols) : tableKey d j = tableKey c i ↔ d = c ∧ j = i := by
  simp only [Config.symbols] at hi hj
  simp only [tableKey, Config.symbols, Fin.ext_iff]
  omega

theorem get_put_tableKey {β : Type} [DecidableEq β] {z : β} {l : List (Nat × β)} (hl : l.Pairwise (fun e f => e.1 < f.1))
    (hi : i < Config.symbols) (hj : j < Config.symbols) (v : β) :
    Sparse.get z (Sparse.put z l (tableKey c i) v) (tableKey d j) =
      if d = c ∧ j = i then v else Sparse.get z l (tableKey d j) := by
  split
  · rename_i hkey
    rw [(tableKey_eq_iff hi hj).2 hkey]
    exact Sparse.get_put_same hl
  · rename_i hkey
    exact Sparse.get_put_other hl (mt (tableKey_eq_iff hi hj).1 hkey)

/-- The entries of the three tables stand in rising order of their keys. -/
structure Rising (s : State) : Prop where
  hist : s.hist.Pairwise (fun e f => e.1 < f.1)
  tree : s.tree.Pairwise (fun e f => e.1 < f.1)
  code : s.code.Pairwise (fun e f => e.1 < f.1)

theorem Inv.rising (h : Inv s) : Rising s := ⟨h.hist.1.1, h.tree.1.1, h.code.1.1⟩

namespace Rising

variable (h : Rising s)
include h

theorem setHist (c : Ch) (i : Nat) (v : Word) : Rising (s.setHist c i v) := { h with hist := Sparse.put_rising h.hist }

theorem setNode (c : Ch) (i : Nat) (n : Node) : Rising (s.setNode c i n) := { h with tree := Sparse.put_rising h.tree }

theorem setCode (c : Ch) (i : Nat) (e : CodeEntry) : Rising (s.setCode c i e) := { h with code := Sparse.put_rising h.code }

theorem clearCodes (c : Ch) : Rising (s.clearCodes c) := { h with code := h.code.filter _ }

theorem storeNodes (c : Ch) (i : Nat) (l : List Node) : Rising (State.storeNodes c i l s) := by
  induction l generalizing i s with
  | nil => exact h
  | cons n l ih => exact ih (h.setNode c i n) (i + 1)

theorem buildTree (c : Ch) : Rising (s.buildTree c) := { h.storeNodes c 0 (merges s c).1 with }

theorem histAt_setHist (hi : i < Config.symbols) (hj : j < Config.symbols) (v : Word) :
    (s.setHist c i v).histAt d j = if d = c ∧ j = i then v else s.histAt d j :=
  get_put_tableKey h.hist hi hj v

theorem nodeAt_setNode (hi : i < Config.symbols) (hj : j < Config.symbols) (n : Node) :
    (s.setNode c i n).nodeAt d j = if d = c ∧ j = i then n else s.nodeAt d j :=
  get_put_tableKey h.tree hi hj n

theorem codeAt_setCode (hi : i < Config.symbols) (hj : j < Config.symbols) (e : CodeEntry) :
    (s.setCode c i e).codeAt d j = if d = c ∧ j = i then e else s.codeAt d j :=
  get_put_tableKey h.code hi hj e

theorem codeAt_clearCodes (hj : j < Config.symbols) :
    (s.clearCodes c).codeAt d j = if d = c then CodeEntry.none else s.codeAt d j := by
  have hkey : tableKey d j / Config.symbols = d.val := by
    simp only [Config.symbols] at hj
    simp only [tableKey, Config.symbols]
    omega
  refine (Sparse.get_filter (p := fun k => k / Config.symbols != c.val) h.code (tableKey d j)).trans ?_
  rw [hkey]
  simp only [bne_iff_ne, ne_eq, Fin.val_inj, ite_not]
  rfl

theorem nodeAt_storeNodes {l : List Node} (hl : i + l.length ≤ Config.nodes) (hj : j < Config.symbols) :
    (State.storeNodes c i l s).nodeAt d j = if d = c ∧ i ≤ j ∧ j < i + l.length then l.getD (j - i) Node.zero
      else s.nodeAt d j := by
  induction l generalizing i s with
  | nil => exact (if_neg fun hc => absurd hc.2 (by simp)).symm
  | cons n l ih =>
    simp only [List.length_cons] at hl ⊢
    have hi : i < Config.symbols := by
      simp only [Config.nodes] at hl
      simp only [Config.symbols]
      omega
    rw [State.storeNodes, ih (h.setNode c i n) (by omega), h.nodeAt_setNode hi hj]
    by_cases hc : d = c
    · obtain hlt | rfl | hgt := Nat.lt_trichotomy j i
      · simp [show ¬i + 1 ≤ j by omega, show ¬i ≤ j by omega, hlt.ne]
      · simp [hc]
      · obtain ⟨k, rfl⟩ := Nat.exists_eq_add_of_lt hgt
        simp [hc, show i + k + 1 - i = k + 1 by omega, show i + k + 1 - (i + 1) = k by omega,
          show i + k + 1 < i + 1 + l.length ↔ i + k + 1 < i + (l.length + 1) by omega, show i + 1 ≤ i + k + 1 by omega,
          show i ≤ i + k + 1 by omega, show i + k + 1 ≠ i by omega]
    · simp [hc]

end Rising

/-! ### What a build makes -/

/-- The merges depend on the histogram and the alphabet alone. -/
theorem merges_congr (hhist : s.hist = u.hist) (halpha : s.alpha = u.alpha) (c : Ch) : merges s c = merges u c := by
  have hwork : ∀ n i l, workFrom s c n i l = workFrom u c n i l := fun n => by
    induction n with
    | zero => exact fun _ _ => rfl
    | succ n ih => exact fun i l => by rw [workFrom, workFrom, ih, State.histAt, State.histAt, hhist]
  have hlist : workList s c = workList u c := by rw [workList, workList, halpha, hwork]
  rw [merges, merges, hlist]

theorem State.buildTree_eq (s : State) (c : Ch) : s.buildTree c = { s with
    tree := (State.storeNodes c 0 (merges s c).1 s).tree
    ncount := s.ncount.set c (BitVec.ofNat 32 (merges s c).1.length)
    root := s.root.set c (rootOf (merges s c).1 (merges s c).2) } := by
  rw [State.buildTree, State.storeNodes_eq]

theorem Rising.nodeAt_buildTree (h : Rising s) (hj : j < Config.symbols) :
    (s.buildTree c).nodeAt d j =
      if d = c ∧ j < (merges s c).1.length then (merges s c).1.getD j Node.zero else s.nodeAt d j := by
  refine (h.nodeAt_storeNodes (i := 0) (by rw [Nat.zero_add]; exact merges_length_le s c) hj).trans ?_
  simp only [Nat.zero_le, true_and, Nat.zero_add, Nat.sub_zero]

end Sys2Proof.Machine
end

section
/-! SUPPORT. Two runs of a frame command from states that differ in what R48 calls stale (O59). -/

namespace Sys2Proof.Machine

variable {r s u t : State} {c d : Ch} {i : Nat}

/-! ### Trees and codes of one channel in both states -/

theorem Agree.symm (h : Agree s u) : Agree u s := Eq.symm h

theorem Agree.map {f : State → State} (h : Agree s u) (hf : ∀ s, (f s.bare).bare = (f s).bare) : Agree (f s) (f u) := by
  rw [Agree, ← hf s, ← hf u, show s.bare = u.bare from h]

theorem TreeAlike.symm (h : TreeAlike c s u) : TreeAlike c u s :=
  ⟨h.1.symm, h.2.1.symm, fun i hi => (h.2.2 i (h.1 ▸ hi)).symm⟩

theorem TreeAlike.trans (h : TreeAlike c s u) (h' : TreeAlike c u t) : TreeAlike c s t :=
  ⟨h.1.trans h'.1, h.2.1.trans h'.2.1, fun i hi => (h.2.2 i hi).trans (h'.2.2 i (h.1 ▸ hi))⟩

/-- The tree of channel `c` is the same in both states, and ValidateTree accepts it. -/
def Loaded (c : Ch) : Link := fun s u => TreeAlike c s u ∧ s.treeFault c = none

theorem State.count_le_of_treeFault (h : s.treeFault c = none) : (s.ncount.get c).toNat ≤ Config.nodes := by
  have halpha := s.alpha_le
  unfold State.treeFault at h
  split_ifs at h <;> simp only [Config.symbols, Config.nodes] at halpha ⊢ <;> omega

/-- A change of other trees keeps the tree of channel `c` loaded. -/
theorem Loaded.of_same {x y : State} (h : Loaded c s u) (hs : TreeAlike c s x) (hu : TreeAlike c u y) (hag : Agree s x) :
    Loaded c x y := ⟨hs.symm.trans (h.1.trans hu), hs.treeFault hag ▸ h.2⟩

theorem TreeAlike.setNode (h : Rising s) (hd : d ≠ c) (hn : (s.ncount.get d).toNat ≤ Config.nodes) (hi : i < Config.nodes)
    (n : Node) : TreeAlike d s (s.setNode c i n) := by
  refine ⟨rfl, rfl, fun j hj => ?_⟩
  have hsym : Config.nodes < Config.symbols := by decide
  rw [h.nodeAt_setNode (hi.trans hsym) (hj.trans_le (hn.trans hsym.le)), if_neg fun hc => hd hc.1]

theorem TreeAlike.setTreeRegs (hd : d ≠ c) (n x : Nat) : TreeAlike d s (s.setTreeRegs c n x) :=
  ⟨(Quad.get_set_other s.ncount _ hd).symm, (Quad.get_set_other s.root _ hd).symm, fun _ _ => rfl⟩

theorem TreeAlike.buildTree (h : Rising s) (hd : d ≠ c) (hn : (s.ncount.get d).toNat ≤ Config.nodes) :
    TreeAlike d s (s.buildTree c) := by
  refine ⟨(Quad.get_set_other s.ncount _ hd).symm, (Quad.get_set_other s.root _ hd).symm, fun j hj => ?_⟩
  have hsym : Config.nodes < Config.symbols := by decide
  rw [h.nodeAt_buildTree (hj.trans_le (hn.trans hsym.le)), if_neg fun hc => hd hc.1]

/-- The built tree depends on the histogram and the alphabet alone (R98). -/
theorem TreeAlike.built (hs : Rising s) (hu : Rising u) (hhist : s.hist = u.hist) (halpha : s.alpha = u.alpha) (c : Ch) :
    TreeAlike c (s.buildTree c) (u.buildTree c) := by
  have hmerge := merges_congr hhist halpha c
  have hlen := merges_length_le s c
  have hn : ((s.buildTree c).ncount.get c) = BitVec.ofNat 32 (merges s c).1.length := Quad.get_set_same _ _ _
  refine ⟨?_, ?_, fun j hj => ?_⟩
  · exact hn.trans (hmerge ▸ (Quad.get_set_same _ _ _).symm)
  · exact (Quad.get_set_same _ _ _).trans (hmerge ▸ (Quad.get_set_same _ _ _).symm)
  · rw [hn, BitVec.toNat_ofNat] at hj
    have hj' : j < (merges s c).1.length := hj.trans_le (Nat.mod_le _ _)
    have hsym : j < Config.symbols := (hj'.trans_le hlen).trans (by decide)
    rw [hs.nodeAt_buildTree hsym, hu.nodeAt_buildTree hsym, ← hmerge, if_pos ⟨rfl, hj'⟩, if_pos ⟨rfl, hj'⟩]

/-- The codes of channel `c` are the same in both states. -/
def CodeAlike (c : Ch) : Link := fun s u => ∀ sym < Config.symbols, s.codeAt c sym = u.codeAt c sym

theorem CodeAlike.setCode (h : CodeAlike d s u) (hs : Rising s) (hu : Rising u) (c : Ch) {sym : Nat}
    (hsym : sym < Config.symbols) (e : CodeEntry) : CodeAlike d (s.setCode c sym e) (u.setCode c sym e) := fun y hy => by
  rw [hs.codeAt_setCode hsym hy, hu.codeAt_setCode hsym hy, h y hy]

theorem CodeAlike.clearCodes (hs : Rising s) (hu : Rising u) (h : d ≠ c → CodeAlike d s u) :
    CodeAlike d (s.clearCodes c) (u.clearCodes c) := fun y hy => by
  rw [hs.codeAt_clearCodes hy, hu.codeAt_clearCodes hy]
  split
  · rfl
  · exact h ‹_› y hy

/-! ### What both frame commands keep -/

/-- Two states of a run with the setup of `r`, which differ at most in what R48 calls stale, with tables in order. -/
structure Fresh (r s u : State) : Prop where
  agree : Agree s u
  setup : s.setup = r.setup
  left : Rising s
  right : Rising u

/-- An update of what R48 calls stale. -/
theorem Fresh.stale {x y : State} (h : Fresh r s u) (hx : Agree s x) (hy : Agree u y) (hleft : Rising x) (hright : Rising y) :
    Fresh r x y :=
  ⟨hx.symm.trans (h.agree.trans hy), (hx.symm.eq (f := State.setup) fun _ => rfl).trans h.setup, hleft, hright⟩

theorem Agree.withMem (h : Agree s u) (m : Memory) : Agree { s with mem := m } { u with mem := m } :=
  h.map (f := fun s => { s with mem := m }) fun _ => rfl

namespace Fresh

variable (h : Fresh r s u)
include h

theorem write {a b : Nat} (hab : a = b) (x : Byte) : Fresh r { s with mem := s.mem.write a x } { u with mem := u.mem.write b x } where
  agree := by
    rw [← hab, ← h.agree.mem]
    exact h.agree.withMem _
  setup := h.setup
  left := { h.left with }
  right := { h.right with }

theorem emitted (hpk : s.pk = u.pk) (x : Byte) : Fresh r (s.emitted x) (u.emitted x) :=
  (h.write (by rw [h.agree.outAddr, hpk]) x).stale rfl rfl { h.left with } { h.right with }

theorem pushBit (b : Bool) : Fresh r (s.pushBit b) (u.pushBit b) := h.stale rfl rfl { h.left with } { h.right with }

theorem emptyPacker : Fresh r s.emptyPacker u.emptyPacker := h.stale rfl rfl { h.left with } { h.right with }

end Fresh

/-! ### ENC_FRAME -/

/-- While the histogram is counted. -/
def Counting (r : State) : Link := fun s u => Fresh r s u ∧ s.hist = u.hist

/-- The trees and codes of the channels `l` are still to come. -/
def Building (r : State) (l : List Ch) : Link := fun s u =>
  Counting r s u ∧ ∀ c : Ch, c.val < r.nch → c ∉ l → Loaded c s u ∧ CodeAlike c s u

/-- While the stream is written. -/
def Writing (r : State) : Link := fun s u => Building r [] s u ∧ s.pk = u.pk

theorem Counting.scanning : Scanning r (Counting r) where
  agree _ _ h := h.1.agree
  setup _ _ h := h.1.setup
  setPrev _ _ _ _ _ h := ⟨h.1.stale rfl rfl { h.1.left with } { h.1.right with }, h.2⟩

theorem Building.buildTree {l : List Ch} (h : Building r (c :: l) s u) :
    Building r (c :: l) (s.buildTree c) (u.buildTree c) ∧ TreeAlike c (s.buildTree c) (u.buildTree c) := by
  obtain ⟨⟨hfresh, hhist⟩, hdone⟩ := h
  have hag (s : State) : Agree s (s.buildTree c) := (congrArg State.bare (s.buildTree_eq c)).symm
  have hsame (s : State) : (s.buildTree c).hist = s.hist := (congrArg State.hist (s.buildTree_eq c)).trans rfl
  have hcode (s : State) (d : Ch) (y : Nat) : (s.buildTree c).codeAt d y = s.codeAt d y :=
    (congrArg (State.codeAt · d y) (s.buildTree_eq c)).trans rfl
  refine ⟨⟨⟨hfresh.stale (hag s) (hag u) (hfresh.left.buildTree c) (hfresh.right.buildTree c), ?_⟩, fun d hd hl => ?_⟩,
    .built hfresh.left hfresh.right hhist hfresh.agree.alpha c⟩
  · rw [hsame, hsame, hhist]
  · obtain ⟨htree, hcodes⟩ := hdone d hd hl
    have hne : d ≠ c := fun hc => hl (hc ▸ List.mem_cons_self)
    have hn := State.count_le_of_treeFault htree.2
    refine ⟨htree.of_same (.buildTree hfresh.left hne hn) (.buildTree hfresh.right hne (htree.1.1 ▸ hn)) (hag s), fun y hy => ?_⟩
    rw [hcode, hcode, hcodes y hy]

theorem Building.setCode {l : List Ch} (h : Building r l s u) (c : Ch) {sym : Nat} (hsym : sym < Config.symbols)
    (e : CodeEntry) : Building r l (s.setCode c sym e) (u.setCode c sym e) := by
  obtain ⟨⟨hfresh, hhist⟩, hdone⟩ := h
  exact ⟨⟨hfresh.stale rfl rfl (hfresh.left.setCode c sym e) (hfresh.right.setCode c sym e), hhist⟩, fun d hd hl =>
    ⟨(hdone d hd hl).1, (hdone d hd hl).2.setCode hfresh.left hfresh.right c hsym e⟩⟩

theorem Building.clearCodes {l : List Ch} (h : Building r (c :: l) s u) :
    Building r (c :: l) (s.clearCodes c) (u.clearCodes c) := by
  obtain ⟨⟨hfresh, hhist⟩, hdone⟩ := h
  exact ⟨⟨hfresh.stale rfl rfl (hfresh.left.clearCodes c) (hfresh.right.clearCodes c), hhist⟩, fun d hd hl =>
    ⟨(hdone d hd hl).1, .clearCodes hfresh.left hfresh.right fun _ => (hdone d hd hl).2⟩⟩

theorem Building.coding (l : List Ch) (c : Ch) (a n : Nat) :
    Coding c a n fun s u => (Building r l s u ∧ Loaded c s u ∧ CodeAlike c s u) ∧ s.alpha = a ∧
      (s.ncount.get c).toNat = n ∧ s.treeFault c = none where
  agree _ _ h := h.1.1.1.1.agree
  alpha _ _ h := h.2.1
  count _ _ h := h.2.2.1
  tree _ _ h := h.1.2.1.1
  legal _ _ h := h.2.2.2
  setCode := by
    rintro s u sym e ⟨⟨h, htree, hcode⟩, halpha, hrest⟩ hsym -
    have hsym' : sym < Config.symbols := (hsym.trans_eq halpha.symm).trans_le s.alpha_le
    exact ⟨⟨h.setCode c hsym' e, htree, hcode.setCode h.1.1.left h.1.1.right c hsym' e⟩, halpha, hrest⟩

theorem Building.build (c : Ch) (l : List Ch) :
    Couples (Building r (c :: l)) (buildChannel c) (fun _ => Building r l) Agree := fun s u h => by
  have hbody : Couples (fun s u => Building r (c :: l) s u ∧ TreeAlike c s u) (codeGenBody c)
      (fun _ s u => Building r (c :: l) s u ∧ Loaded c s u ∧ CodeAlike c s u) Agree :=
    codeGenBody_couples (fun _ _ h => h.1.1.1.agree) (fun _ _ h => h.2) (fun _ _ h => h.1.1.1.agree)
      (fun _ _ h => h.1.1.1.agree)
      (fun _ _ h hlegal => ⟨h.1.clearCodes, ⟨h.2, hlegal⟩, .clearCodes h.1.1.1.left h.1.1.1.right fun hc => absurd rfl hc⟩)
      (Building.coding _ c)
  refine Alike.modify_bind ((hbody _ _ h.buildTree).mono (fun _ x y h' => ⟨h'.1.1, fun d hd hl => ?_⟩) fun _ _ h => h)
  by_cases hdc : d = c
  · exact hdc ▸ h'.2
  · exact h'.1.2 d hd fun hm => (List.mem_cons.1 hm).elim hdc hl

theorem Writing.packing : Packing (Writing r) where
  agree _ _ h := h.1.1.1.agree
  pk _ _ h := h.2
  emitted s u x h _ := by
    obtain ⟨⟨⟨hfresh, hhist⟩, hdone⟩, hpk⟩ := h
    exact ⟨⟨⟨hfresh.emitted hpk x, hhist⟩, hdone⟩, congrArg (fun p => { p with ptr := p.ptr + 1 }) hpk⟩
  pushBit s u b h _ := by
    obtain ⟨⟨⟨hfresh, hhist⟩, hdone⟩, hpk⟩ := h
    exact ⟨⟨⟨hfresh.pushBit b, hhist⟩, hdone⟩,
      congrArg (fun p => { p with acc := shiftIn p.acc b, fill := p.fill + 1 }) hpk⟩
  emptyPacker s u h := by
    obtain ⟨⟨⟨hfresh, hhist⟩, hdone⟩, hpk⟩ := h
    exact ⟨⟨⟨hfresh.emptyPacker, hhist⟩, hdone⟩, congrArg (fun p => { p with acc := 0, fill := 0 }) hpk⟩

/-- The two runs of ENC_FRAME after its checks. -/
theorem encoding : Encoding r (Counting r) (Building r) (Writing r) Agree where
  scanning := Counting.scanning
  bump s u c d h _ hd := by
    obtain ⟨hfresh, hhist⟩ := h
    refine ⟨hfresh.stale rfl rfl (hfresh.left.setHist c d _) (hfresh.right.setHist c d _), ?_⟩
    show Sparse.put 0 s.hist _ (Sparse.get 0 s.hist _ + 1) = Sparse.put 0 u.hist _ (Sparse.get 0 u.hist _ + 1)
    rw [hhist]
  start _ _ h := ⟨h, fun c hc hl => absurd (mem_channels.2 hc) hl⟩
  build c l _ := Building.build c l
  initPacker s u h := by
    obtain ⟨⟨hfresh, hhist⟩, hdone⟩ := h
    exact ⟨⟨⟨hfresh.stale rfl rfl { hfresh.left with } { hfresh.right with }, hhist⟩, hdone⟩, rfl⟩
  packing := Writing.packing
  rescanning :=
    { agree := fun _ _ h => h.1.1.1.agree
      setup := fun _ _ h => h.1.1.1.setup
      setPrev := fun s u c x _ h => by
        obtain ⟨⟨⟨hfresh, hhist⟩, hdone⟩, hpk⟩ := h
        exact ⟨⟨⟨hfresh.stale rfl rfl { hfresh.left with } { hfresh.right with }, hhist⟩, hdone⟩, hpk⟩ }
  code s u c d h hc hd := (h.1.2 c hc List.not_mem_nil).2 d
    ((hd.trans_eq (Setup.alpha_eq h.1.1.1.setup).symm).trans_le s.alpha_le)
  tree c s u hc h := (h.1.2 c hc List.not_mem_nil).1.1
  count_error _ _ h := h.1.agree
  pack_error _ _ h := h.1.1.1.agree

end Sys2Proof.Machine
end

section
/-! SUPPORT. Two runs of DEC_FRAME from states that differ in what R48 calls stale, and the results of both frame commands
(O59). -/

namespace Sys2Proof.Machine

variable {r s u t : State} {c d : Ch} {i : Nat}

/-! ### DEC_FRAME -/

/-- While the headers of the channels `l` are still to come. -/
def Reading (r : State) (l : List Ch) : Link := fun s u =>
  Fresh r s u ∧ s.rd = u.rd ∧ ∀ c : Ch, c.val < r.nch → c ∉ l → Loaded c s u

/-- The first `i` nodes of channel `c` are stored. -/
def NodesAlike (c : Ch) (i : Nat) : Link := fun s u => ∀ j < i, s.nodeAt c j = u.nodeAt c j

/-- While the rows are decoded. -/
def Showing (r : State) : Link := fun s u => Reading r [] s u ∧ (r.outMode = .identPacked → s.pk = u.pk)

theorem Fresh.setReader (h : Fresh r s u) (x y : Reader) : Fresh r (s.setReader x) (u.setReader y) :=
  h.stale rfl rfl { h.left with } { h.right with }

theorem Reading.setReader {l : List Ch} (h : Reading r l s u) (f : Reader → Reader) :
    Reading r l (s.setReader (f s.rd)) (u.setReader (f u.rd)) := by
  obtain ⟨hfresh, hrd, hdone⟩ := h
  exact ⟨hfresh.setReader _ _, congrArg f hrd, hdone⟩

theorem Reading.bytes (l : List Ch) : ByteReading (Reading r l) where
  agree _ _ h := h.1.agree
  rd _ _ h := h.2.1
  advanced _ _ h := h.setReader fun d => { d with ptr := d.ptr + 1 }

theorem Reading.setNode {l : List Ch} (h : Reading r (c :: l) s u) (hi : i < Config.nodes) (n k : Node) :
    Reading r (c :: l) (s.setNode c i n) (u.setNode c i k) := by
  obtain ⟨hfresh, hrd, hdone⟩ := h
  refine ⟨hfresh.stale rfl rfl (hfresh.left.setNode c i n) (hfresh.right.setNode c i k), hrd, fun d hd hl => ?_⟩
  have htree := hdone d hd hl
  have hne : d ≠ c := fun hc => hl (hc ▸ List.mem_cons_self)
  have hn := State.count_le_of_treeFault htree.2
  exact htree.of_same (.setNode hfresh.left hne hn hi n) (.setNode hfresh.right hne (htree.1.1 ▸ hn) hi k) rfl

theorem Reading.setTreeRegs {l : List Ch} (h : Reading r (c :: l) s u) (n x : Nat) :
    Reading r (c :: l) (s.setTreeRegs c n x) (u.setTreeRegs c n x) := by
  obtain ⟨hfresh, hrd, hdone⟩ := h
  refine ⟨hfresh.stale rfl rfl { hfresh.left with } { hfresh.right with }, hrd, fun d hd hl => ?_⟩
  have hne : d ≠ c := fun hc => hl (hc ▸ List.mem_cons_self)
  exact (hdone d hd hl).of_same (.setTreeRegs hne n x) (.setTreeRegs hne n x) rfl

theorem NodesAlike.setNode (h : NodesAlike c i s u) (hs : Rising s) (hu : Rising u) (hi : i < Config.nodes) (n k : Node) :
    NodesAlike c i (s.setNode c i n) (u.setNode c i k) := fun j hj => by
  have hsym : Config.nodes < Config.symbols := by decide
  rw [hs.nodeAt_setNode (hi.trans hsym) ((hj.trans hi).trans hsym), hu.nodeAt_setNode (hi.trans hsym) ((hj.trans hi).trans hsym),
    if_neg fun hc => hj.ne hc.2, if_neg fun hc => hj.ne hc.2, h j hj]

theorem Rising.nodeAt_setNode_same (h : Rising s) (hi : i < Config.nodes) (n : Node) : (s.setNode c i n).nodeAt c i = n := by
  have hsym : Config.nodes < Config.symbols := by decide
  rw [h.nodeAt_setNode (hi.trans hsym) (hi.trans hsym), if_pos ⟨rfl, rfl⟩]

/-- The left reference of node `i` is stored too. -/
def LeftAlike (c : Ch) (i : Nat) : Link := fun s u => NodesAlike c i s u ∧ (s.nodeAt c i).left = (u.nodeAt c i).left

theorem Reading.loading (c : Ch) (l : List Ch) :
    Loading c (Reading r (c :: l)) (fun i s u => Reading r (c :: l) s u ∧ NodesAlike c i s u)
      (fun i s u => Reading r (c :: l) s u ∧ LeftAlike c i s u) (fun s u => Reading r (c :: l) s u ∧ TreeAlike c s u)
      Agree where
  header := Reading.bytes _
  below _ := (Reading.bytes _).and fun _ _ _ _ h => h
  inside _ := (Reading.bytes _).and fun _ _ _ _ h => h
  start _ _ h := ⟨h, fun _ hj => absurd hj (Nat.not_lt_zero _)⟩
  setLeft s u i x hi h := by
    obtain ⟨hread, hnodes⟩ := h
    refine ⟨hread.setNode hi _ _, hnodes.setNode hread.1.left hread.1.right hi _ _, ?_⟩
    rw [State.setLeft, State.setLeft, hread.1.left.nodeAt_setNode_same hi, hread.1.right.nodeAt_setNode_same hi]
  setRight s u i x hi h := by
    obtain ⟨hread, hnodes, hleft⟩ := h
    refine ⟨hread.setNode hi _ _, fun j hj => ?_⟩
    obtain hlt | rfl := Nat.lt_succ_iff_lt_or_eq.1 hj
    · exact hnodes.setNode hread.1.left hread.1.right hi _ _ j hlt
    · rw [State.setRight, State.setRight, hread.1.left.nodeAt_setNode_same hi, hread.1.right.nodeAt_setNode_same hi]
      exact congrArg (Node.mk · (BitVec.ofNat 16 x)) hleft
  setRegs s u n x h := by
    obtain ⟨hread, hnodes⟩ := h
    have hcount : ((s.setTreeRegs c n x).ncount.get c) = BitVec.ofNat 32 n := Quad.get_set_same _ _ _
    refine ⟨hread.setTreeRegs n x, hcount.trans (Quad.get_set_same _ _ _).symm,
      (Quad.get_set_same _ _ _).trans (Quad.get_set_same _ _ _).symm, fun j hj => hnodes j ?_⟩
    rw [hcount, BitVec.toNat_ofNat] at hj
    exact hj.trans_le (Nat.mod_le _ _)
  agree _ _ h := h.1.1.agree
  tree _ _ h := h.2
  below_error _ _ _ h := h.1.1.agree
  inside_error _ _ _ h := h.1.1.agree
  error _ _ h := h.1.1.agree

theorem Reading.load (c : Ch) (l : List Ch) :
    Couples (Reading r (c :: l)) (readHeader c) (fun _ => Reading r l) Agree :=
  (readHeader_couples (Reading.loading c l)).mono (fun _ s u h => by
    obtain ⟨⟨hread, htree⟩, hlegal⟩ := h
    refine ⟨hread.1, hread.2.1, fun d hd hl => ?_⟩
    by_cases hdc : d = c
    · exact hdc ▸ ⟨htree, hlegal⟩
    · exact hread.2.2 d hd fun hm => (List.mem_cons.1 hm).elim hdc hl) fun _ _ h => h

/-- The walks of a tree that ValidateTree accepts stay below its node count. -/
theorem Loaded.sameWalk (h : Loaded c s u) (hn : (s.ncount.get c).toNat ≠ 0) : SameWalk c (s.root.get c).toNat s u := by
  obtain ⟨⟨-, -, hnode⟩, hlegal⟩ := h
  have hroot := State.root_of_treeFault hlegal
  rw [if_neg hn] at hroot
  refine ⟨fun j => j < (s.ncount.get c).toNat, hroot, fun j hj => ⟨hnode j hj, fun b hb => ?_⟩⟩
  obtain ⟨hleft, hright⟩ := State.refOk_of_treeFault hlegal hj
  unfold refOk at hleft hright
  cases b with
  | false => exact of_decide_eq_true ((if_neg (not_lt.2 hb)).symm.trans hleft)
  | true => exact of_decide_eq_true ((if_neg (not_lt.2 hb)).symm.trans hright)

theorem Showing.bits : BitReading (Showing r) where
  agree _ _ h := h.1.1.agree
  rd _ _ h := h.1.2.1
  loaded _ _ x h := ⟨h.1.setReader fun d => { d with buf := x }, h.2⟩
  next _ _ h := ⟨h.1.setReader Reader.next, h.2⟩

theorem Showing.packing (hmode : r.outMode = .identPacked) : Packing (Showing r) where
  agree _ _ h := h.1.1.agree
  pk _ _ h := h.2 hmode
  emitted s u x h _ := by
    obtain ⟨⟨hfresh, hrd, hdone⟩, hpk⟩ := h
    exact ⟨⟨hfresh.emitted (hpk hmode) x, hrd, hdone⟩, fun _ => congrArg (fun p => { p with ptr := p.ptr + 1 }) (hpk hmode)⟩
  pushBit s u b h _ := by
    obtain ⟨⟨hfresh, hrd, hdone⟩, hpk⟩ := h
    exact ⟨⟨hfresh.pushBit b, hrd, hdone⟩,
      fun _ => congrArg (fun p => { p with acc := shiftIn p.acc b, fill := p.fill + 1 }) (hpk hmode)⟩
  emptyPacker s u h := by
    obtain ⟨⟨hfresh, hrd, hdone⟩, hpk⟩ := h
    exact ⟨⟨hfresh.emptyPacker, hrd, hdone⟩, fun _ => congrArg (fun p => { p with acc := 0, fill := 0 }) (hpk hmode)⟩

theorem Showing.decoding : Decoding r (Showing r) where
  setup _ _ h := h.1.1.setup
  bits := Showing.bits
  setAcc s u c x _ h := by
    obtain ⟨⟨hfresh, hrd, hdone⟩, hpk⟩ := h
    exact ⟨⟨hfresh.stale rfl rfl { hfresh.left with } { hfresh.right with }, hrd, hdone⟩, hpk⟩
  tree c s u hc h :=
    have hload := h.1.2.2 c hc List.not_mem_nil
    ⟨hload.1.1, hload.1.2.1, hload.sameWalk⟩
  packing := Showing.packing
  putAt _ s u o x h _ := by
    obtain ⟨⟨hfresh, hrd, hdone⟩, hpk⟩ := h
    exact ⟨⟨hfresh.write (by rw [hfresh.agree.outAddr]) x, hrd, hdone⟩, hpk⟩

/-- The two runs of DEC_FRAME after its checks. -/
theorem decFrameBody_couples (hfresh : Fresh r s u) (hnch : r.nch ≤ 4) (hmode : r.modeOk = true) :
    Alike (fun _ => DecodeEnd r (Showing r)) Agree
      (((modify State.initReader : Cmd Unit) >>= fun _ => hdrReadBody >>= fun _ => decScanBody) s)
      (((modify State.initReader : Cmd Unit) >>= fun _ => hdrReadBody >>= fun _ => decScanBody) u) := by
  have hstart : Reading r (channels r.nch) s.initReader u.initReader :=
    ⟨hfresh.setReader _ _, rfl, fun c hc hl => absurd (mem_channels.2 hc) hl⟩
  have hheaders := hdrReadBody_couples (B := Reading r) (E := Agree) (fun _ _ h => ⟨h.2.1, h.1.setup, h.1.agree⟩)
    (fun _ _ h => h.1.agree) fun c l _ => Reading.load c l
  refine Alike.modify_bind ((hheaders _ _ hstart).bind fun _ => ?_)
  refine (decScanBody_couples (R := Reading r []) Showing.decoding hnch hmode (fun _ _ h => ⟨h.1.agree, h.1.setup⟩)
    (fun _ s u h => ?_) fun hne s u h => ⟨h, fun he => absurd he hne⟩).mono (fun _ _ _ h => h) fun _ _ h => h.1.1.agree
  obtain ⟨hfresh, hrd, hdone⟩ := h
  exact ⟨⟨hfresh.stale rfl rfl { hfresh.left with } { hfresh.right with }, hrd, hdone⟩, fun _ => rfl⟩

/-! ### The results of a frame command -/

/-- Two runs of a command with host duties, from states that agree: the first one kept them, so both end alike. -/
theorem exec_alike {leave : ErrCode → State → State} {f : Unit → Cmd Unit} {S E : Link} {i : Instr}
    (hexec : ∀ s, exec i s = commandWith leave (duties i >>= f) s) (hag : Agree s u)
    (hm : Alike (fun _ => S) E (f () s) (f () u)) (ht : exec i s = .next t) :
    (∃ x y, S x y ∧ t = x.finish ∧ exec i u = .next y.finish) ∨
      ∃ e info x y, E x y ∧ t = (leave e x).stop e info ∧ exec i u = .next ((leave e y).stop e info) := by
  cases hduty : s.brokenDuty i with
  | some k =>
    have hrun : (duties i >>= f) s = .error (.refuse k) s := Cmd.bind_run_error (by rw [duties_run, hduty])
    rw [hexec, commandWith, hrun] at ht
    cases ht
  | none =>
    have hs : (duties i >>= f) s = f () s := Cmd.bind_run_ok (by rw [duties_run, hduty])
    have hu : (duties i >>= f) u = f () u := Cmd.bind_run_ok (by rw [duties_run, ← hag.brokenDuty, hduty])
    rw [hexec, commandWith, hs] at ht
    rw [hexec, commandWith, hu]
    obtain ⟨_, x, y, hx, hy, h⟩ | ⟨e, info, x, y, hx, hy, h⟩ := hm <;> rw [hx] at ht <;> rw [hy] <;> cases ht
    · exact .inl ⟨x, y, h, rfl, rfl⟩
    · exact .inr ⟨e, info, x, y, h, rfl, rfl⟩

/-- States that agree have the same memory, OUT_SIZE and status. -/
theorem Agree.results {P : Prop} (h : Agree t u) (hp : P) :
    u.mem = t.mem ∧ u.draws = t.draws ∧ u.outSize = t.outSize ∧ u.phase = t.phase ∧ u.done = t.done ∧ u.err = t.err ∧
      u.errCode = t.errCode ∧ u.errInfo = t.errInfo ∧ P :=
  ⟨h.symm.eq (f := State.mem) fun _ => rfl, h.symm.eq (f := State.draws) fun _ => rfl,
    h.symm.eq (f := State.outSize) fun _ => rfl, h.symm.eq (f := State.phase) fun _ => rfl,
    h.symm.eq (f := State.done) fun _ => rfl, h.symm.eq (f := State.err) fun _ => rfl,
    h.symm.eq (f := State.errCode) fun _ => rfl, h.symm.eq (f := State.errInfo) fun _ => rfl, hp⟩

theorem Agree.stopLoose (h : Agree s u) (e : ErrCode) (info : Word) :
    Agree (s.loosenOut.stop e info) (u.loosenOut.stop e info) :=
  h.map (f := fun s => s.loosenOut.stop e info) fun _ => rfl

theorem TreeAlike.treeOf_eq (h : TreeAlike c s u) : Spec.treeOf u c = Spec.treeOf s c := by
  obtain ⟨hn, hr, hnode⟩ := h
  unfold Spec.treeOf
  rw [← hn, ← hr]
  exact congrArg _ (List.map_congr_left fun i hi => (hnode i (List.mem_range.1 hi)).symm)

/-- What two completed runs of ENC_FRAME leave. -/
theorem EncodeEnd.results {x y : State} (h : EncodeEnd s (Writing s) x y) :
    Agree x y ∧ x.hist = y.hist ∧ x.pk = y.pk ∧ ∀ c : Ch, c.val < s.nch →
      TreeAlike c x y ∧ CodeAlike c x y ∧ (s.height ≠ 0 → x.prev.get c = y.prev.get c) := by
  obtain ⟨x, y, ⟨⟨⟨hfresh, hhist⟩, hdone⟩, hpk⟩, hprev, rfl, rfl⟩ := h
  refine ⟨?_, hhist, hpk, fun c hc => ⟨(hdone c hc List.not_mem_nil).1.1, (hdone c hc List.not_mem_nil).2, fun hne => ?_⟩⟩
  · show State.bare { x with outSize := x.pk.ptr } = State.bare { y with outSize := y.pk.ptr }
    rw [hpk]
    exact hfresh.agree.map (f := fun s => { s with outSize := y.pk.ptr }) fun _ => rfl
  · exact hprev hne c ((Setup.nch_eq hfresh.setup).symm ▸ hc)

/-- What two completed runs of DEC_FRAME leave. -/
theorem DecodeEnd.results {x y : State} (h : DecodeEnd s (Showing s) x y) :
    Agree x y ∧ x.rd = y.rd ∧ (s.outMode = .identPacked → x.pk = y.pk) ∧ ∀ c : Ch, c.val < s.nch →
      TreeAlike c x y ∧ (s.height ≠ 0 → x.acc.get c = y.acc.get c) := by
  obtain ⟨x, y, ⟨⟨hfresh, hrd, hdone⟩, hpk⟩, hacc, rfl, rfl⟩ := h
  refine ⟨hfresh.agree.map (f := State.reportDecoded) fun _ => rfl, hrd, hpk, fun c hc =>
    ⟨(hdone c hc List.not_mem_nil).1, fun hne => ?_⟩⟩
  exact hacc hne c ((Setup.nch_eq hfresh.setup).symm ▸ hc)

section Frames

variable (hs : Rising s) (hu : Rising u) (hag : Agree s u)
include hs hu hag

theorem encFrame_alike (ht : exec .encFrame s = .next t) :
    (∃ x y, EncodeEnd s (Writing s) x y ∧ t = x.finish ∧ exec .encFrame u = .next y.finish) ∨
      ∃ e info x y, Agree x y ∧ t = x.loosenOut.stop e info ∧ exec .encFrame u = .next (y.loosenOut.stop e info) := by
  refine exec_alike (fun _ => rfl) hag ?_ ht
  refine .check_bind checkCfg_run (by rw [hag.cfgOk]) rfl hag fun _ => .check_bind checkIn_run (by rw [hag.inFits]) rfl hag
    fun _ => .check_bind checkOut_run (by rw [hag.outFits]) rfl hag fun _ =>
      .check_bind checkRaw_run (by rw [hag.rawSize, hag.inLen]) (by rw [hag.rawSize]) hag fun _ => ?_
  exact encFrameBody_couples encoding ⟨⟨hag.map (f := fun s => s.forgetScans.clearHist) fun _ => rfl, rfl,
    { hs with hist := .nil }, { hu with hist := .nil }⟩, rfl⟩

theorem decFrame_alike (ht : exec .decFrame s = .next t) :
    (∃ x y, DecodeEnd s (Showing s) x y ∧ t = x.finish ∧ exec .decFrame u = .next y.finish) ∨
      ∃ e info x y, Agree x y ∧ t = x.loosenOut.stop e info ∧ exec .decFrame u = .next (y.loosenOut.stop e info) := by
  refine exec_alike (fun _ => rfl) hag ?_ ht
  refine .check_bind checkCfgDecode_run (by rw [hag.cfgOk, hag.modeOk]) rfl hag fun hcfg =>
    .check_bind checkIn_run (by rw [hag.inFits]) rfl hag fun _ => .check_bind checkOut_run (by rw [hag.outFits]) rfl hag
      fun _ => .check_bind checkOutSize_run (by rw [hag.outBytes, hag.outCap]) (by rw [hag.outBytes]) hag fun _ => ?_
  obtain ⟨hcfg, hmode⟩ := Bool.and_eq_true_iff.1 hcfg
  exact decFrameBody_couples ⟨hag, rfl, hs, hu⟩ (State.nch_le_of_cfgOk hcfg) hmode

end Frames

/-- Settles O59: two runs from such states stay in step, and each table the frame command reads it has written before. -/
theorem frameCommandsIgnoreStaleTables : Obligations.FrameCommandsIgnoreStaleTables := by
  intro i s u t hs hu hi heq ht
  have hag : Agree s u := (congrArg State.bare heq).symm
  obtain rfl | rfl := hi
  · obtain ⟨x, y, h, rfl, hv⟩ | ⟨e, info, x, y, h, rfl, hv⟩ := encFrame_alike hs.rising hu.rising hag ht
    · obtain ⟨hxy, hhist, hpk, hch⟩ := h.results
      refine ⟨_, hv, (hxy.map (f := State.finish) fun _ => rfl).results fun _ _ =>
        ⟨fun c hc => (hch c hc).1.treeOf_eq, fun _ => ⟨hhist.symm, hpk.symm, fun c hc => ?_⟩, nofun⟩⟩
      obtain ⟨-, hcode, hprev⟩ := hch c hc
      exact ⟨fun sym hsym => (hcode sym hsym).symm, fun hne => (hprev hne).symm⟩
    · exact ⟨_, hv, (h.stopLoose e info).results nofun⟩
  · obtain ⟨x, y, h, rfl, hv⟩ | ⟨e, info, x, y, h, rfl, hv⟩ := decFrame_alike hs.rising hu.rising hag ht
    · obtain ⟨hxy, hrd, hpk, hch⟩ := h.results
      refine ⟨_, hv, (hxy.map (f := State.finish) fun _ => rfl).results fun _ _ =>
        ⟨fun c hc => (hch c hc).1.treeOf_eq, nofun, fun _ => ⟨hrd.symm, fun hmode => (hpk ?_).symm, fun hne c hc =>
          ((hch c hc).2 hne).symm⟩⟩⟩
      rw [State.outMode, hmode]
      rfl
    · exact ⟨_, hv, (h.stopLoose e info).results nofun⟩

end Sys2Proof.Machine
end

section
/-! SUPPORT. The host's register accesses: which register an offset is of, what a read delivers and what a write leaves. -/

namespace Sys2Proof.Machine

variable {s t : State} {off : BitVec 12} {v : Word} {r : Reg} {rest : List HostAction}

/-! ### The register map -/

/-- The offset of a register (R25). -/
def Reg.offset : Reg → BitVec 12
  | .id => 0x000
  | .ctrl => 0x004
  | .status => 0x008
  | .cmd => 0x00C
  | .cfg => 0x010
  | .width => 0x014
  | .height => 0x018
  | .inAddr => 0x020
  | .inLen => 0x024
  | .outAddr => 0x028
  | .outCap => 0x02C
  | .outSize => 0x030
  | .errInfo => 0x034
  | .argLo => 0x040
  | .argHi => 0x044
  | .argLen => 0x048
  | .resultLo => 0x050
  | .resultHi => 0x054
  | .pkPtr => 0x060
  | .pkState => 0x064
  | .rdPtr => 0x068
  | .rdState => 0x06C
  | .tabAddr => 0x070
  | .tabData0 => 0x074
  | .tabData1 => 0x078
  | .tabData2 => 0x07C

theorem Reg.at_offset (r : Reg) : Reg.at r.offset = some r := by cases r <;> rfl

theorem Reg.eq_offset (h : Reg.at off = some r) : off = r.offset := by
  unfold Reg.at at h
  split at h <;> cases h <;> exact BitVec.eq_of_toNat_eq ‹_›

theorem Reg.offset_aligned (r : Reg) : r.offset.toNat % 4 = 0 := by cases r <;> rfl

theorem Reg.offset_listed (r : Reg) : r.offset ∈ Spec.listedOffsets := by cases r <;> decide

theorem Reg.at_of_unlisted (h : off ∉ Spec.listedOffsets) : Reg.at off = none := by
  cases hat : Reg.at off with
  | none => rfl
  | some r => exact absurd (Reg.eq_offset hat ▸ r.offset_listed) h

theorem Reg.exists_offset (h : off ∈ Spec.listedOffsets) : ∃ r : Reg, off = r.offset := by
  have hlist : Spec.listedOffsets = List.map Reg.offset
      [.id, .ctrl, .status, .cmd, .cfg, .width, .height, .inAddr, .inLen, .outAddr, .outCap, .outSize, .errInfo, .argLo,
        .argHi, .argLen, .resultLo, .resultHi, .pkPtr, .pkState, .rdPtr, .rdState, .tabAddr, .tabData0, .tabData1,
        .tabData2] := rfl
  obtain ⟨r, -, hr⟩ := List.mem_map.1 (hlist ▸ h)
  exact ⟨r, hr.symm⟩

/-! ### Accesses as steps -/

theorem wellFormed_iff {size : AccessSize} : accessWellFormed size off = true ↔ size = .word ∧ off.toNat % 4 = 0 := by
  simp [accessWellFormed]

theorem step_write {size : AccessSize} (h : s.script = .write size off v :: rest) :
    step s = (s.proceed rest).hostAct (.write size off v) := by
  show s.turn = _
  unfold State.turn
  rw [h]

theorem step_read {size : AccessSize} (h : s.script = .read size off :: rest) :
    step s = (s.proceed rest).hostAct (.read size off) := by
  show s.turn = _
  unfold State.turn
  rw [h]

theorem step_elapse (h : s.script = .elapse :: rest) : step s = (s.proceed rest).coreTurn := by
  show s.turn = _
  unfold State.turn
  rw [h]

theorem step_rst (h : s.script = .rst :: rest) : step s = (s.proceed rest).hostAct .rst := by
  show s.turn = _
  unfold State.turn
  rw [h]

theorem hostAct_write (h : off.toNat % 4 = 0) : s.hostAct (.write .word off v) = s.written off v :=
  if_pos (wellFormed_iff.2 ⟨rfl, h⟩)

theorem hostAct_read (h : off.toNat % 4 = 0) : s.hostAct (.read .word off) = .next (s.hostRead off) :=
  if_pos (wellFormed_iff.2 ⟨rfl, h⟩)

theorem write_eq (h : off.toNat % 4 = 0) : Spec.write s off v = s.written off v := hostAct_write (s := s) h

theorem read_eq (h : off.toNat % 4 = 0) : Spec.read s off = .next (s.hostRead off) := hostAct_read (s := s) h

/-- A write that does not reset. -/
theorem written_eq (h : isSoftReset off v = false) : s.written off v = .next (s.hostWrite off v) := by
  rw [State.written, h, if_neg Bool.false_ne_true]

theorem hostWrite_idle (hidle : s.phase = .idle) (r : Reg) (v : Word) : s.hostWrite r.offset v = s.writeIdle r v := by
  simp only [State.hostWrite, r.at_offset, hidle]

theorem hostWrite_running (hrun : s.phase = .running) (r : Reg) (v : Word) :
    s.hostWrite r.offset v = s.writeRunning r v := by
  simp only [State.hostWrite, r.at_offset, hrun]

theorem not_softReset (h : r ≠ .ctrl ∨ v.getLsbD 0 = false) : isSoftReset r.offset v = false := by
  rw [isSoftReset, r.at_offset]
  obtain h | h := h
  · rw [beq_false_of_ne fun hr => h (Option.some.inj hr), Bool.false_and]
  · rw [h, Bool.and_false]

theorem hostAct_write_idle (hidle : s.phase = .idle) (r : Reg) (h : r ≠ .ctrl ∨ v.getLsbD 0 = false) :
    s.hostAct (.write .word r.offset v) = .next (s.writeIdle r v) := by
  rw [hostAct_write r.offset_aligned, written_eq (not_softReset h), hostWrite_idle hidle]

theorem write_idle (hidle : s.phase = .idle) (r : Reg) (h : r ≠ .ctrl ∨ v.getLsbD 0 = false) :
    Spec.write s r.offset v = .next (s.writeIdle r v) := hostAct_write_idle (s := s) hidle r h

theorem write_running (hrun : s.phase = .running) (r : Reg) (h : r ≠ .ctrl ∨ v.getLsbD 0 = false) :
    Spec.write s r.offset v = .next (s.writeRunning r v) := by
  rw [write_eq r.offset_aligned, written_eq (not_softReset h), hostWrite_running hrun]

/-- While BUSY is 0 a register reads its word. -/
theorem reads_idle (hidle : s.phase = .idle) (r : Reg) {x : Word} (hx : s.readReg r = x) : Spec.Reads s r.offset x := by
  have hbusy : s.busy = false := by rw [State.busy, hidle]; rfl
  rw [Spec.Reads, read_eq r.offset_aligned, State.hostRead, r.at_offset, ← hx]
  simp [hbusy, State.deliver]

/-- While BUSY is 1 the readable registers read their words too. -/
theorem reads_readable (hr : r.readableBusy = true) : Spec.Reads s r.offset (s.readReg r) := by
  rw [Spec.Reads, read_eq r.offset_aligned, State.hostRead, r.at_offset]
  simp [hr, State.deliver]

theorem read_busy (hbusy : s.phase ≠ .idle) (hr : r.readableBusy = false) :
    Spec.read s r.offset = .next s.deliverFree := by
  have hb : s.busy = true := bne_iff_ne.2 hbusy
  rw [read_eq r.offset_aligned, State.hostRead, r.at_offset]
  simp [hr, hb]

theorem reads_unlisted (h : off.toNat % 4 = 0) (hoff : off ∉ Spec.listedOffsets) : Spec.Reads s off 0 := by
  rw [Spec.Reads, read_eq h, State.hostRead, Reg.at_of_unlisted hoff]
  rfl

theorem write_unlisted (h : off.toNat % 4 = 0) (hoff : off ∉ Spec.listedOffsets) : Spec.write s off v = .next s := by
  have hat := Reg.at_of_unlisted hoff
  rw [write_eq h, written_eq (by rw [isSoftReset, hat]; rfl), State.hostWrite, hat]

/-! ### The words of the registers -/

theorem toNat_append_add {n m : Nat} (x : BitVec n) (y : BitVec m) : (x ++ y).toNat = x.toNat * 2 ^ m + y.toNat := by
  rw [BitVec.toNat_append, ← Nat.shiftLeft_add_eq_or_of_lt y.isLt, Nat.shiftLeft_eq]

theorem Cfg.word_eq (c : Cfg) : c.word = 0#20 ++ c.mode ++ 0#2 ++ BitVec.ofBool c.packed ++ c.nch ++ c.bw := by
  have h1 := c.bw.isLt
  have h2 := c.nch.isLt
  have h3 := c.mode.isLt
  apply BitVec.eq_of_toNat_eq
  rw [Cfg.word]
  simp only [toNat_append_add, BitVec.toNat_ofNat, BitVec.toNat_ofBool]
  cases c.packed <;> simp only [Bool.toNat_true, Bool.toNat_false] <;> omega

theorem TabAddr.word_eq (t : TabAddr) : t.word = 0#14 ++ t.table ++ 0#2 ++ t.ch ++ t.index := by
  have h1 := t.table.isLt
  have h2 := t.ch.isLt
  have h3 := t.index.isLt
  apply BitVec.eq_of_toNat_eq
  rw [TabAddr.word]
  simp only [toNat_append_add, BitVec.toNat_ofNat]
  omega

/-- PK_STATE and RD_STATE: a byte over a number of bits. -/
theorem stateWord_eq (a : Byte) (b : BitVec 3) : BitVec.ofNat 32 (b.toNat + 256 * a.toNat) = 0#16 ++ a ++ 0#5 ++ b := by
  have h1 := a.isLt
  have h2 := b.isLt
  apply BitVec.eq_of_toNat_eq
  simp only [toNat_append_add, BitVec.toNat_ofNat]
  omega

theorem setWidth_eq_and_mask (v : Word) {n : Nat} (h : n ≤ 32) :
    (v.setWidth n).setWidth 32 = v &&& BitVec.ofNat 32 (2 ^ n - 1) := by
  have hpow : 2 ^ n ≤ 2 ^ 32 := Nat.pow_le_pow_right (by decide) h
  have hpos : 0 < 2 ^ n := Nat.pow_pos (by decide)
  apply BitVec.eq_of_toNat_eq
  rw [BitVec.toNat_and, BitVec.toNat_setWidth, BitVec.toNat_setWidth, BitVec.toNat_ofNat,
    Nat.mod_eq_of_lt (by omega : 2 ^ n - 1 < 2 ^ 32), Nat.and_two_pow_sub_one_eq_mod]
  exact Nat.mod_eq_of_lt ((Nat.mod_lt _ hpos).trans_le hpow)

theorem Cfg.word_ofWord (v : Word) : (Cfg.ofWord v).word = v &&& 0x00000F3F := by
  rw [Cfg.word_eq]
  refine BitVec.eq_of_getLsbD_eq fun i hi => ?_
  simp only [Cfg.ofWord, BitVec.getLsbD_and, BitVec.getLsbD_append, BitVec.getLsbD_extractLsb', BitVec.getLsbD_ofBool]
  interval_cases i <;> simp

theorem TabAddr.word_ofWord (v : Word) : (TabAddr.ofWord v).word = v &&& 0x00033FFF := by
  rw [TabAddr.word_eq]
  refine BitVec.eq_of_getLsbD_eq fun i hi => ?_
  simp only [TabAddr.ofWord, BitVec.getLsbD_and, BitVec.getLsbD_append, BitVec.getLsbD_extractLsb']
  interval_cases i <;> simp

end Sys2Proof.Machine
end

section
/-! SUPPORT. The statements about registers and the host's accesses (O3 to O7, O13). -/

namespace Sys2Proof.Machine

variable {s t : State} {off : BitVec 12} {v : Word} {r : Reg} {rest : List HostAction}

/-! ### Registers (R25) -/

/-- A register that a write leaves BUSY at 0 reads back what the write put there. -/
theorem reads_back (hidle : s.phase = .idle) (r : Reg) (hr : r ≠ .ctrl) {x : Word}
    (hphase : (s.writeIdle r v).phase = .idle) (hx : (s.writeIdle r v).readReg r = x) :
    ∃ t, Spec.write s r.offset v = .next t ∧ Spec.Reads t r.offset x :=
  ⟨_, write_idle hidle r (.inl hr), reads_idle hphase r hx⟩

theorem ctrlWord_eq (s : State) : s.ctrlWord = if s.irqEn then 2 else 0 := by
  unfold State.ctrlWord
  cases s.irqEn <;> rfl

/-- Settles O3. -/
theorem registersReadBack : Obligations.RegistersReadBack := by
  intro s v hidle
  have hone : v &&& 0xFFFFFFFF = v := BitVec.and_allOnes
  refine ⟨List.forall_iff_forall_mem.1 ?_, List.forall_iff_forall_mem.1 ?_, List.forall_iff_forall_mem.1 ?_,
    reads_idle hidle .ctrl (ctrlWord_eq s), fun hv => ?_, List.forall_iff_forall_mem.1 ?_⟩
  · have hpad : ∀ w : BitVec 16, w.setWidth 32 = 0#16 ++ w := fun w => BitVec.setWidth_eq_append (by decide)
    exact ⟨reads_idle hidle .id rfl, reads_idle hidle .cmd rfl, reads_idle hidle .cfg s.cfg.word_eq,
      reads_idle hidle .width (hpad _), reads_idle hidle .height (hpad _), reads_idle hidle .inAddr rfl,
      reads_idle hidle .inLen rfl, reads_idle hidle .outAddr rfl, reads_idle hidle .outCap rfl,
      reads_idle hidle .outSize rfl, reads_idle hidle .errInfo rfl, reads_idle hidle .argLo rfl,
      reads_idle hidle .argHi rfl, reads_idle hidle .argLen (BitVec.setWidth_eq_append (by decide)),
      reads_idle hidle .resultLo rfl, reads_idle hidle .resultHi rfl, reads_idle hidle .pkPtr rfl,
      reads_idle hidle .pkState (stateWord_eq _ _), reads_idle hidle .rdPtr rfl, reads_idle hidle .rdState (stateWord_eq _ _),
      reads_idle hidle .tabAddr s.tab.word_eq⟩
  · exact ⟨write_idle hidle .cfg (.inl nofun), write_idle hidle .width (.inl nofun), write_idle hidle .height (.inl nofun),
      write_idle hidle .inAddr (.inl nofun), write_idle hidle .inLen (.inl nofun), write_idle hidle .outAddr (.inl nofun),
      write_idle hidle .outCap (.inl nofun), write_idle hidle .argLo (.inl nofun), write_idle hidle .argHi (.inl nofun),
      write_idle hidle .argLen (.inl nofun), write_idle hidle .tabAddr (.inl nofun)⟩
  · exact ⟨reads_back hidle .cfg nofun hidle (Cfg.word_ofWord v),
      reads_back hidle .width nofun hidle (setWidth_eq_and_mask v (n := 16) (by decide)),
      reads_back hidle .height nofun hidle (setWidth_eq_and_mask v (n := 16) (by decide)),
      reads_back hidle .inAddr nofun hidle hone.symm, reads_back hidle .inLen nofun hidle hone.symm,
      reads_back hidle .outAddr nofun hidle hone.symm, reads_back hidle .outCap nofun hidle hone.symm,
      reads_back hidle .argLo nofun hidle hone.symm, reads_back hidle .argHi nofun hidle hone.symm,
      reads_back hidle .argLen nofun hidle (setWidth_eq_and_mask v (n := 7) (by decide)),
      reads_back hidle .tabAddr nofun hidle (TabAddr.word_ofWord v)⟩
  · refine (write_idle hidle .ctrl (.inr hv)).trans ?_
    rw [State.writeIdle, State.writeCtrl, hv, if_neg Bool.false_ne_true]
  · exact ⟨write_idle hidle .id (.inl nofun), write_idle hidle .outSize (.inl nofun), write_idle hidle .errInfo (.inl nofun),
      write_idle hidle .resultLo (.inl nofun), write_idle hidle .resultHi (.inl nofun), write_idle hidle .pkPtr (.inl nofun),
      write_idle hidle .pkState (.inl nofun), write_idle hidle .rdPtr (.inl nofun), write_idle hidle .rdState (.inl nofun),
      write_idle hidle .tabData1 (.inl nofun), write_idle hidle .tabData2 (.inl nofun)⟩

/-- Settles O4. -/
theorem unlistedAndMisalignedAccesses : Obligations.UnlistedAndMisalignedAccesses := by
  refine fun s off v size rest => ⟨fun h hoff => ⟨reads_unlisted h hoff, write_unlisted h hoff⟩, fun h => ?_⟩
  have hbad : ¬accessWellFormed size off = true := fun hwf => by
    obtain ⟨hsize, hoff⟩ := wellFormed_iff.1 hwf
    exact h.elim (· hsize) (· hoff)
  exact ⟨(step_write rfl).trans (if_neg hbad), (step_read rfl).trans (if_neg hbad)⟩

/-! ### STATUS (R28) -/

/-- Bit `i` of a word that is one bit of it in arithmetic. -/
theorem getLsbD_eq_of_div {w : Word} {i : Nat} {b : Bool} (h : w.toNat / 2 ^ i % 2 = b.toNat) : w.getLsbD i = b := by
  refine (Nat.testBit_eq_decide_div_mod_eq (x := w.toNat)).trans ?_
  rw [h]
  cases b <;> rfl

theorem statusWord_fields (s : State) :
    s.statusWord.getLsbD 0 = s.busy ∧ s.statusWord.getLsbD 1 = s.done ∧ s.statusWord.getLsbD 2 = s.err ∧
      s.statusWord.getLsbD 3 = s.ovr ∧ s.statusWord.extractLsb' 8 8 = s.errCode ∧ s.statusWord.extractLsb' 4 4 = 0 ∧
      s.statusWord.extractLsb' 16 16 = 0 := by
  have hcode := s.errCode.isLt
  have hbusy := s.busy.toNat_le
  have hdone := s.done.toNat_le
  have herr := s.err.toNat_le
  have hovr := s.ovr.toNat_le
  have hzero4 : (0 : BitVec 4).toNat = 0 := rfl
  have hzero16 : (0 : BitVec 16).toNat = 0 := rfl
  have hword : s.statusWord.toNat =
      s.busy.toNat + 2 * s.done.toNat + 4 * s.err.toNat + 8 * s.ovr.toNat + 256 * s.errCode.toNat := by
    rw [State.statusWord, BitVec.toNat_ofNat]
    omega
  have hfield : ∀ (i n : Nat) (x : BitVec n), s.statusWord.toNat / 2 ^ i % 2 ^ n = x.toNat →
      s.statusWord.extractLsb' i n = x := fun i n x h =>
    BitVec.eq_of_toNat_eq (by rw [BitVec.extractLsb'_toNat, Nat.shiftRight_eq_div_pow, h])
  refine ⟨getLsbD_eq_of_div ?_, getLsbD_eq_of_div ?_, getLsbD_eq_of_div ?_, getLsbD_eq_of_div ?_, hfield _ _ _ ?_,
    hfield _ _ _ ?_, hfield _ _ _ ?_⟩ <;> rw [hword] <;> omega

theorem write_status (h : s.phase ≠ .resetting) : Spec.write s Reg.status.offset v = .next (s.clearStatus v) := by
  cases hp : s.phase with
  | idle => exact write_idle hp .status (.inl nofun)
  | running => exact write_running hp .status (.inl nofun)
  | resetting => exact absurd hp h

/-- Settles O6. -/
theorem statusWriteOneToClear : Obligations.StatusWriteOneToClear := by
  intro s v hphase
  obtain ⟨hbusy, hrest⟩ := statusWord_fields s
  exact ⟨write_status hphase, s.statusWord, reads_readable (r := .status) rfl, by rw [hbusy]; exact bne_iff_ne, hrest⟩

/-! ### CMD (R29, R156) -/

theorem decode_encode (i : Instr) : decode (encode i) = .ok i := by
  cases i with
  | histAdd c | treeBuild c | codeGen c | encSym c | decSym c | predFwd c | predInv c => revert c; decide
  | _ => rfl

/-- Settles O13. -/
theorem commandWriteStartsCommand : Obligations.CommandWriteStartsCommand := by
  rintro s _ i rest hidle rfl hscript
  have hdec := decode_encode i
  have hstep : step s = .next ((s.proceed (.elapse :: rest)).start (encode i)) := by
    have haccept := hostAct_write_idle (s := s.proceed (.elapse :: rest)) (v := encode i) hidle .cmd (.inl nofun)
    exact (step_write hscript).trans (haccept.trans (congrArg _ (State.acceptCmd_of_ok hdec)))
  refine ⟨_, hstep, rfl, Bool.and_false _, ?_⟩
  rw [step_elapse rfl]
  exact runCommand_of_ok hdec

end Sys2Proof.Machine
end

section
/-! SUPPORT. The host's accesses while BUSY is 1, and the table window (O5, O7). -/

namespace Sys2Proof.Machine

variable {s t : State} {off : BitVec 12} {v : Word} {r : Reg} {i : Instr} {c : Ch}

/-! ### Which regions are busy (R66) -/

theorem runningInstr_eq_some : s.runningInstr = some i ↔ s.phase = .running ∧ decode s.cmd = .ok i := by
  unfold State.runningInstr
  cases s.phase <;> cases decode s.cmd <;> simp [Decoded.toOption]

theorem usesIn_iff : Instr.usesIn i = true ↔ Spec.UsesInput i := by cases i <;> simp [Instr.usesIn, Spec.UsesInput]

theorem usesOut_iff : Instr.usesOut i = true ↔ Spec.UsesOutput i := by cases i <;> simp [Instr.usesOut, Spec.UsesOutput]

theorem emits_iff : Instr.emits i = true ↔ Spec.Emits i := by cases i <;> simp [Instr.emits, Spec.Emits]

theorem getD_map_eq_true {α : Type} {o : Option α} {f : α → Bool} : (o.map f).getD false = true ↔ ∃ x, o = some x ∧ f x = true := by
  cases o <;> simp

theorem inputBusy_iff {a : Nat} : (s.inBusy && s.inRegion a) = true ↔ Spec.InputBusy s a := by
  rw [Bool.and_eq_true_iff, State.inBusy, State.inRegion, getD_map_eq_true, decide_eq_true_iff]
  simp only [runningInstr_eq_some, usesIn_iff, Spec.InputBusy, Spec.InRegion]
  tauto

theorem outputBusy_iff {a : Nat} : (s.outBusy && s.outRegion a) = true ↔ Spec.OutputBusy s a := by
  rw [Bool.and_eq_true_iff, State.outBusy, State.outRegion, getD_map_eq_true, decide_eq_true_iff]
  simp only [runningInstr_eq_some, usesOut_iff, Spec.OutputBusy, Spec.OutRegion]
  tauto

theorem storeByte_eq (s : State) (a : Word) (x : Byte) : Spec.storeByte s a x = s.hostMemWrite a x := rfl

theorem loadByte_eq (s : State) (a : Word) : Spec.loadByte s a = s.hostMemRead a := rfl

theorem byte_padded (x : Byte) : x.setWidth 32 = 0#24 ++ x := BitVec.setWidth_eq_append (by decide)

/-- Settles O7. -/
theorem busyWindow : Obligations.BusyWindow := by
  refine ⟨fun s a x h => ⟨fun hbusy => ?_, fun hin hout => ⟨fun hok => ?_, fun hok => ?_⟩, fun hout => ?_, fun hout =>
    ⟨fun hok => ?_, fun hok => ?_⟩⟩, fun s off v hbusy hoff => ?_⟩
  · rw [← inputBusy_iff, ← outputBusy_iff, ← Bool.or_eq_true_iff] at hbusy
    exact if_pos hbusy
  · rw [← inputBusy_iff] at hin
    rw [← outputBusy_iff] at hout
    refine ⟨{ s with mem := s.mem.write a.toNat x }, ?_, rfl, fun b => Memory.read_write h.mem a.toNat b x⟩
    rw [storeByte_eq, State.hostMemWrite, if_neg (by simp [hin, hout]), if_pos hok]
  · rw [← inputBusy_iff] at hin
    rw [← outputBusy_iff] at hout
    rw [storeByte_eq, State.hostMemWrite, if_neg (by simp [hin, hout]), if_neg (by simp [hok])]
  · exact if_pos (outputBusy_iff.2 hout)
  · rw [loadByte_eq, State.hostMemRead, if_neg (mt outputBusy_iff.1 hout), if_pos hok]
    exact congrArg (fun w => Host.Outcome.next { s with hostData := w }) (byte_padded _)
  · rw [loadByte_eq, State.hostMemRead, if_neg (mt outputBusy_iff.1 hout), if_neg (by simp [hok])]
  · obtain ⟨r, rfl⟩ := Reg.exists_offset hoff
    have hstatus : s.statusWord = BitVec.ofNat 32
        (1 + 2 * s.done.toNat + 4 * s.err.toNat + 8 * s.ovr.toNat + 256 * s.errCode.toNat) := by
      rw [State.statusWord, show s.busy = true from bne_iff_ne.2 hbusy]
      rfl
    have hne : ∀ {q : Reg}, r.offset ≠ q.offset → r ≠ q := fun h hq => h (congrArg Reg.offset hq)
    refine ⟨reads_readable (r := .id) rfl, ctrlWord_eq s ▸ reads_readable (r := .ctrl) rfl,
      hstatus ▸ reads_readable (r := .status) rfl, fun h0 h4 h8 => read_busy hbusy ?_, fun hrun => ⟨fun h4 h8 hC => ?_,
      write_running hrun .cmd (.inl nofun), fun hv => ?_, write_status (by rw [hrun]; nofun)⟩⟩
    · cases r with
      | id => exact absurd rfl h0
      | ctrl => exact absurd rfl h4
      | status => exact absurd rfl h8
      | _ => rfl
    · rw [write_running hrun r (.inl (hne (q := .ctrl) h4))]
      cases r with
      | ctrl => exact absurd rfl h4
      | status => exact absurd rfl h8
      | cmd => exact absurd rfl hC
      | _ => rfl
    · refine (write_running hrun .ctrl (.inr hv)).trans ?_
      rw [State.writeRunning, State.writeCtrl, hv, if_neg Bool.false_ne_true]

/-! ### The table window (R38) -/

/-- The table selected by TAB_ADDR. -/
theorem TabAddr.sel_of_table {a : TabAddr} :
    (a.table = 0 → a.sel = .hist) ∧ (a.table = 1 → a.sel = .tree) ∧ (a.table = 2 → a.sel = .code) ∧
      (a.table = 3 → a.sel = .chan) := by
  refine ⟨fun h => ?_, fun h => ?_, fun h => ?_, fun h => ?_⟩ <;> rw [TabAddr.sel, h] <;> rfl

/-- What the three words of the window read. -/
def Window (s : State) (x y z : Word) : Prop := s.readTab0 = x ∧ s.readTab1 = y ∧ s.readTab2 = z

section Window

variable {j : Nat} (hc : s.tab.channel = c) (hj : s.tab.index.toNat = j)
include hc hj

theorem window_hist (hsel : s.tab.sel = .hist) : Window s (s.histAt c j) 0 0 ∧ s.writeTab0 v = s.setHist c j v := by
  simp only [Window, State.readTab0, State.readTab1, State.readTab2, State.writeTab0, hsel, hc, hj, and_self]

theorem window_tree (hsel : s.tab.sel = .tree) :
    Window s (if j < Config.nodes then (s.nodeAt c j).word else 0) 0 0 ∧
      s.writeTab0 v = if j < Config.nodes then s.setNode c j (Node.ofWord v) else s := by
  simp only [Window, State.readTab0, State.readTab1, State.readTab2, State.writeTab0, hsel, hc, hj, and_self]

theorem window_code (hsel : s.tab.sel = .code) :
    Window s (BitVec.ofNat 32 ((s.codeAt c j).len.toNat + (s.codeAt c j).valid.toNat * 2 ^ 31))
      ((s.codeAt c j).bits.extractLsb' 0 32) ((s.codeAt c j).bits.extractLsb' 32 32) ∧ s.writeTab0 v = s := by
  simp only [Window, State.readTab0, State.readTab1, State.readTab2, State.writeTab0, hsel, hc, hj, and_self]

theorem window_chan (hsel : s.tab.sel = .chan) : Window s (s.readChan c j) 0 0 ∧ s.writeTab0 v = s.writeChan c j v := by
  simp only [Window, State.readTab0, State.readTab1, State.readTab2, State.writeTab0, hsel, hc, hj, and_self]

end Window

theorem Window.reads (h : Window s x y z) (hidle : s.phase = .idle) :
    Spec.Reads s 0x074 x ∧ Spec.Reads s 0x078 y ∧ Spec.Reads s 0x07C z := by
  obtain ⟨h0, h1, h2⟩ := h
  exact ⟨reads_idle hidle .tabData0 h0, reads_idle hidle .tabData1 h1, reads_idle hidle .tabData2 h2⟩

theorem write_window (hidle : s.phase = .idle) (h : s.writeTab0 v = t) : Spec.write s 0x074 v = .next t :=
  h ▸ write_idle hidle .tabData0 (.inl nofun)

/-- The channel registers with an INDEX above 3 (R38). -/
theorem readChan_above {j : Nat} (hj : 4 ≤ j) : s.readChan c j = 0 ∧ s.writeChan c j v = s := by
  obtain ⟨k, rfl⟩ := Nat.exists_eq_add_of_le' hj
  exact ⟨rfl, rfl⟩

/-- Settles O5. -/
theorem tableWindowReadsAndWrites : Obligations.TableWindowReadsAndWrites := by
  intro s c v h hidle hch
  have hc : s.tab.channel = c := Fin.ext hch
  have hi : s.tab.index.toNat < Config.symbols := s.tab.index.isLt
  obtain ⟨hhist, htree, hcode, hchan⟩ := TabAddr.sel_of_table (a := s.tab)
  refine ⟨fun htab => ?_, fun htab hnode => ?_, fun htab hnode => ?_, fun htab => ?_, fun htab => ?_,
    write_idle hidle .tabData1 (.inl nofun), write_idle hidle .tabData2 (.inl nofun)⟩
  · obtain ⟨hread, hwrite⟩ := window_hist (v := v) hc rfl (hhist htab)
    obtain ⟨h0, h1, h2⟩ := hread.reads hidle
    exact ⟨h0, h1, h2, _, write_window hidle hwrite, rfl, fun d j hj => h.rising.histAt_setHist hi hj v⟩
  · have hlt : s.tab.index.toNat < Config.nodes := Nat.lt_succ_of_le hnode
    obtain ⟨hread, hwrite⟩ := window_tree (v := v) hc rfl (htree htab)
    rw [if_pos hlt] at hread hwrite
    obtain ⟨h0, h1, h2⟩ := hread.reads hidle
    exact ⟨h0, h1, h2, _, write_window hidle hwrite, rfl, fun d j hj => h.rising.nodeAt_setNode hi hj _⟩
  · obtain ⟨hread, hwrite⟩ := window_tree (v := v) hc hnode (htree htab)
    obtain ⟨h0, h1, h2⟩ := hread.reads hidle
    exact ⟨h0, h1, h2, write_window hidle hwrite⟩
  · obtain ⟨hread, hwrite⟩ := window_code (v := v) hc rfl (hcode htab)
    obtain ⟨h0, h1, h2⟩ := hread.reads hidle
    exact ⟨Nat.add_comm _ _ ▸ h0, h1, h2, write_window hidle hwrite⟩
  · have hwin : ∀ j, s.tab.index.toNat = j → Window s (s.readChan c j) 0 0 ∧ s.writeTab0 v = s.writeChan c j v :=
      fun j hj => window_chan hc hj (hchan htab)
    have hsmall : ∀ j : BitVec 12, s.tab.index = j → Spec.Reads s 0x074 (s.readChan c j.toNat) ∧
        Spec.write s 0x074 v = .next (s.writeChan c j.toNat v) := fun j hj => by
      obtain ⟨hread, hwrite⟩ := hwin j.toNat (hj ▸ rfl)
      exact ⟨(hread.reads hidle).1, write_window hidle hwrite⟩
    obtain ⟨-, h1, h2⟩ := (hwin _ rfl).1.reads hidle
    have htrim : v.setWidth 12 = v.extractLsb' 0 12 := BitVec.setWidth_eq_extractLsb' (by decide)
    refine ⟨h1, h2, hsmall 0, hsmall 1, fun hj => htrim ▸ hsmall 2 hj, fun hj => htrim ▸ hsmall 3 hj, fun hj => ?_⟩
    obtain ⟨hread, hwrite⟩ := hwin _ rfl
    obtain ⟨hr, hw⟩ := readChan_above (s := s) (c := c) (v := v) hj
    exact ⟨hr ▸ (hread.reads hidle).1, write_window hidle (hwrite.trans hw)⟩

end Sys2Proof.Machine
end

section
/-! SUPPORT. Reset: from any state, every register and table at its reset value, and what becomes of external memory (O2). -/

namespace Sys2Proof.Machine

variable {r s t u : State} {i : Instr} {rest : List HostAction} {off : BitVec 12} {v : Word}

/-! ### Reset values -/

/-- The reset values, with any memory and the model's own fields. -/
theorem atReset_of_cleared (s : State) : Spec.AtReset s.cleared := by
  refine ⟨fun off h => ?_, fun _ _ => ⟨rfl, rfl, rfl⟩, fun c => ?_, rfl, rfl, rfl, rfl⟩
  · by_cases hoff : off ∈ Spec.listedOffsets
    · obtain ⟨r, rfl⟩ := Reg.exists_offset hoff
      exact reads_idle rfl r (by cases r <;> rfl)
    · rw [if_neg (by rintro rfl; exact hoff (by decide)), if_neg (by rintro rfl; exact hoff (by decide))]
      exact reads_unlisted h hoff
  · exact ⟨Quad.get_all 0 c, Quad.get_all 0 c, Quad.get_all 0 c, Quad.get_all 0 c⟩

/-- While the reset sequence runs every register write is ignored (R168). -/
theorem write_resetting (hphase : s.phase = .resetting) (h : off.toNat % 4 = 0) : Spec.write s off v = .next s := by
  have hwrite : s.hostWrite off v = s := by
    unfold State.hostWrite
    split
    · rfl
    · simp only [hphase]
  have howed : s.dutyOwed = none := by rw [State.dutyOwed, State.runningInstr, hphase]; rfl
  rw [write_eq h, State.written, hwrite, State.resetTo, howed]
  exact ite_self _

/-! ### The host duties of the command a reset aborts -/

theorem brokenDuty_of_kept (h : Inv s) (hkept : Spec.DutiesKept i s) : s.brokenDuty i = none := by
  cases hduty : s.brokenDuty i with
  | none => rfl
  | some x =>
    obtain ⟨hapart, hinput⟩ := hkept
    obtain ⟨-, hover, hi⟩ | ⟨-, -, hchanged, hi⟩ := State.brokenDuty_eq_some.1 hduty
    · have hlt := of_decide_eq_true hover
      refine absurd ?_ (hapart hi (max s.inAddr.toNat s.outAddr.toNat))
      exact ⟨⟨le_max_left _ _, by omega⟩, ⟨le_max_right _ _, by omega⟩⟩
    · obtain ⟨m, hm, hc⟩ := List.any_eq_true.1 hchanged
      have hsame := (ScanMark.changed_eq_false (h.scans m hm).1 h.mem s.inAddr.toNat s.inEnd).2
        fun a h1 h2 h3 h4 => hinput hi m hm a ⟨h3, h4⟩ h1 h2
      rw [hsame] at hc
      cases hc

/-- A reset that is not refused. -/
theorem resetTo_of_kept (h : Inv s) (hkept : Spec.RunKeepsDuties s) (t : State) : s.resetTo t = .next t := by
  obtain ⟨-, heq⟩ | ⟨i, x, hrun, hdec, hduty, -⟩ := s.resetTo_cases t
  · exact heq
  · rw [brokenDuty_of_kept h (hkept hrun i hdec)] at hduty
    cases hduty

/-- The step that resets. -/
theorem step_reset (h : Spec.ResetNext s rest) : step s = (s.proceed rest).resetTo (s.proceed rest).beginReset := by
  obtain hscript | ⟨v, hv, hphase, hscript⟩ := h
  · exact step_rst hscript
  · have hsoft : isSoftReset Reg.ctrl.offset v = true := by rw [isSoftReset, Reg.at_offset, hv]; rfl
    have hwrite : (s.proceed rest).hostWrite Reg.ctrl.offset v = (s.proceed rest).beginReset := by
      cases hp : s.phase with
      | idle => exact (hostWrite_idle (s := s.proceed rest) hp .ctrl v).trans (if_pos hv)
      | running => exact (hostWrite_running (s := s.proceed rest) hp .ctrl v).trans (if_pos hv)
      | resetting => exact absurd hp hphase
    rw [step_write hscript]
    refine (hostAct_write (s := s.proceed rest) Reg.ctrl.offset_aligned).trans ?_
    rw [State.written, if_pos hsoft, hwrite]

/-! ### The memory an abort leaves -/

/-- The relation of a state and the same with another script, which no command reads. -/
def Moved (rest : List HostAction) : Link := fun s u => u = s.proceed rest

theorem Moved.packing : Packing (Moved rest) where
  agree := by rintro s _ rfl; rfl
  pk := by rintro s _ rfl; rfl
  emitted := by rintro s _ x rfl -; rfl
  pushBit := by rintro s _ b rfl -; rfl
  emptyPacker := by rintro s _ rfl; rfl

theorem Reports.proceed {x w w' : State} (hi : Instr.emits i = true) (h : Reports i x w) (h' : Reports i (x.proceed rest) w') :
    w' = w.proceed rest := by
  cases i <;> cases hi <;> cases h <;> cases h' <;> rfl

/-- A command that marks its bytes runs alike under another script. -/
theorem exec_proceed (hi : Instr.emits i = true) (s : State) (rest : List HostAction) :
    ∃ t, exec i s = .next t ∧ exec i (s.proceed rest) = .next (t.proceed rest) := by
  obtain ⟨m, leave, hexec, hleave, hm⟩ := marked_alike (R := fun x y => Moved rest x y ∧ x.setup = s.setup)
    (u := s.proceed rest) hi (fun _ => Moved.packing.and (fun _ _ _ h => h) (fun _ _ _ h => h) fun _ _ h => h) ⟨rfl, rfl⟩ rfl
    (fun _ _ h => Setup.nch_eq h.2) (fun c x y h => h.1 ▸ TreeAlike.refl c x) fun _ _ => rfl
  obtain ⟨_, w, w', hw, hw', x, y, ⟨rfl, -⟩, hrep, hrep'⟩ | ⟨e, info, x, y, hx, hy, rfl, -⟩ := hm
  · obtain rfl := hrep.proceed hi hrep'
    exact ⟨_, (hexec _).trans (commandWith_of_ok (marking_of_ok hw)), (hexec _).trans (commandWith_of_ok (marking_of_ok hw'))⟩
  · refine ⟨(leave e (s.markSince x)).stop e info, by rw [hexec, commandWith, marking, hx], ?_⟩
    rw [hexec, commandWith, marking, hy]
    obtain h | h := hleave e <;> simp only [h] <;> rfl

theorem usesOut_of_emits (h : Instr.emits i = true) : Instr.usesOut i = true := by
  cases i with
  | hdrWrite | encSym | pkBits | pkFlush => rfl
  | _ => cases h

theorem outRegion_of_lt_outTop {a : Nat} (h : s.outAddr.toNat ≤ a ∧ a < s.outTop) : Spec.OutRegion s a :=
  ⟨h.1, h.2.trans_le (min_le_left _ _)⟩

/-- The abort of a command that marks its bytes: some first bytes are written, and of the others those that EmitByte wrote
stay (R67, I6). -/
theorem Inv.aborted_emitting (h : Inv s) (hrun : s.runningInstr = some i) (hemit : Instr.emits i = true) :
    ∃ u n, exec i s = .next u ∧ s.pk.ptr.toNat + n ≤ u.pk.ptr.toNat ∧ ∀ a,
      if s.outAddr.toNat + s.pk.ptr.toNat ≤ a ∧ a < s.outAddr.toNat + s.pk.ptr.toNat + n then
        Spec.OutRegion s a ∧ s.aborted.mem.read a = u.mem.read a
      else Spec.Kept s a → s.aborted.mem.read a = s.mem.read a := by
  obtain ⟨u, n, m, hu, hn, hab, -, hroom, hread⟩ := h.abortedEmit hemit
  have habort : s.aborted.mem = m := by
    rw [State.aborted, hrun]
    exact congrArg State.mem ((if_pos hemit).trans hab)
  refine ⟨u, n, hu, hn, fun a => ?_⟩
  rw [habort, hread]
  split
  · obtain ⟨-, hcap⟩ := hroom (by omega)
    exact ⟨⟨by omega, by omega⟩, rfl⟩
  · refine fun hkept => if_neg fun hc => ?_
    obtain hk | hk := hkept
    · exact hk (outRegion_of_lt_outTop hc.1)
    · exact Bool.false_ne_true (hc.2.symm.trans hk)

/-- The abort of any other command, or of none, changes nothing outside the output region, and nothing at all where the command
does not write it. -/
theorem Inv.aborted_other (h : Inv s) (hemit : ∀ i, s.runningInstr = some i → Instr.emits i = false) :
    (∀ a, ¬(s.phase = .running ∧ Spec.OutRegion s a) → s.aborted.mem.read a = s.mem.read a) ∧
      ∀ i, s.runningInstr = some i → Instr.usesOut i = false → s.aborted.mem = s.mem := by
  unfold State.aborted
  cases hrun : s.runningInstr with
  | none => exact ⟨fun _ _ => rfl, fun _ _ _ => rfl⟩
  | some i =>
    obtain ⟨hp, -⟩ := runningInstr_eq_some.1 hrun
    simp only [hemit i hrun, Bool.false_eq_true, if_false, Option.some.injEq]
    refine ⟨fun a ha => ?_, ?_⟩
    · split
      · exact Memory.read_loosen_outside h.mem fun hc => ha ⟨hp, outRegion_of_lt_outTop hc⟩
      · rfl
    · rintro _ rfl hout
      simp only [hout, Bool.false_eq_true, if_false]

/-- What the abort of the running command, if one runs, leaves in external memory. -/
theorem Inv.aborted_memory (h : Inv s) :
    (∀ a, ¬(s.phase = .running ∧ Spec.OutRegion s a) → s.aborted.mem.read a = s.mem.read a) ∧
      ∀ i, s.runningInstr = some i → ¬Spec.UsesOutput i → s.aborted.mem = s.mem := by
  by_cases hemit : ∃ i, s.runningInstr = some i ∧ Instr.emits i = true
  · obtain ⟨i, hrun, hi⟩ := hemit
    obtain ⟨u, n, -, -, hread⟩ := h.aborted_emitting hrun hi
    obtain ⟨hp, -⟩ := runningInstr_eq_some.1 hrun
    refine ⟨fun a ha => ?_, fun j hj hno => ?_⟩
    · have hread := hread a
      split at hread
      · exact absurd ⟨hp, hread.1⟩ ha
      · exact hread (.inl fun hr => ha ⟨hp, hr⟩)
    · cases hrun.symm.trans hj
      exact absurd (usesOut_iff.1 (usesOut_of_emits hi)) hno
  · obtain ⟨hmem, hsame⟩ := h.aborted_other fun i hrun => Bool.eq_false_iff.2 fun hi => hemit ⟨i, hrun, hi⟩
    exact ⟨hmem, fun i hi hno => hsame i hi (Bool.eq_false_iff.2 (mt usesOut_iff.1 hno))⟩

/-- The reset sequence ends with the core's next turn (R168). -/
theorem step_resetting (hphase : t.phase = .resetting) (hscript : t.script = rest) :
    step { t with script := .elapse :: rest } = .next { t with phase := .idle } := by
  subst hscript
  rw [step_elapse rfl]
  simp only [State.coreTurn, State.proceed, hphase]

/-- Settles O2. -/
theorem resetRestoresEveryRegister : Obligations.ResetRestoresEveryRegister := by
  refine ⟨atReset_of_cleared State.reset, fun s rest h hnext hkept => ?_⟩
  have h' : Inv (s.proceed rest) := h.proceed rest
  have hstep : step s = .next (s.proceed rest).beginReset := (step_reset hnext).trans (resetTo_of_kept h' hkept _)
  obtain ⟨hmem, hsame⟩ := h'.aborted_memory
  have hscript : (s.proceed rest).beginReset.script = rest := by
    obtain ⟨m, n, hab, -⟩ := h'.aborted
    exact congrArg State.script hab
  refine ⟨_, hstep, hscript, rfl, rfl, reads_readable (r := .status) rfl, fun off v hoff => write_resetting rfl hoff,
    atReset_of_cleared _, step_resetting rfl hscript, hmem, fun i hp hd => ?_⟩
  have hrun : (s.proceed rest).runningInstr = some i := runningInstr_eq_some.2 ⟨hp, hd⟩
  refine ⟨hsame i hrun, fun he => ?_⟩
  obtain ⟨u, n, hu, hn, hread⟩ := h'.aborted_emitting hrun (emits_iff.2 he)
  obtain ⟨t, ht, ht'⟩ := exec_proceed (emits_iff.2 he) s rest
  cases ht'.symm.trans hu
  refine ⟨t, n, ht, hn, fun a => ?_⟩
  have hread := hread a
  split at hread
  · exact (if_pos ‹_›).mpr hread.2
  · exact (if_neg ‹_›).mpr hread

end Sys2Proof.Machine
end

section
/-! SUPPORT. Which commands write RESULT and OUT_SIZE, and with what (O20, O21). -/

namespace Sys2Proof.Machine

variable {s t u w : State} {i : Instr}

/-- ERR, RESULT and OUT_SIZE are those of `r`. -/
structure Quiet (r s : State) : Prop where
  err : s.err = r.err
  resLo : s.resLo = r.resLo
  resHi : s.resHi = r.resHi
  outSize : s.outSize = r.outSize

/-- No update of the pseudocode but a report writes ERR, RESULT or OUT_SIZE. -/
theorem Quiet.steady (r : State) : Steady (Quiet r) where
  emitted _ _ h _ _ := { h with }
  pushBit _ _ h _ := { h with }
  emptyPacker _ h := { h with }
  initPacker _ h := { h with }
  putAt _ _ _ h _ _ := { h with }
  setReader _ _ h := { h with }
  setPrev _ _ _ h := { h with }
  setAcc _ _ _ h := { h with }
  clearPredictors _ h := { h with }
  bumpHist _ _ _ h _ := { h with }
  clearHist _ h := { h with }
  setNode _ _ _ _ h _ := { h with }
  setRegs _ _ _ h := { h with }
  setCode _ _ _ _ h _ _ := { h with }
  clearCodes _ _ h := { h with }
  openScan _ h := { h with }
  closeScan _ h := { h with }
  forgetScans _ h := { h with }

/-- Every command: it completes with its report, or stops with ERR, RESULT and OUT_SIZE as they were. -/
theorem exec_quiet (h : exec i s = .next t) :
    (∃ u w, Quiet s u ∧ u.setup = s.setup ∧ Reports i u w ∧ Quiet w t ∧ t.pk = w.pk) ∨
      t.err = true ∧ t.resLo = s.resLo ∧ t.resHi = s.resHi ∧ t.outSize = s.outSize := by
  have hstart : Quiet s s := ⟨rfl, rfl, rfl, rfl⟩
  cases hemit : Instr.emits i with
  | false =>
    obtain ⟨u, w, ⟨hu, hset⟩, hrep, rfl⟩ | ⟨e, info, u, ⟨hu, -⟩, rfl | rfl⟩ := exec_ends (Quiet.steady s) hstart hemit h
    · exact .inl ⟨u, w, hu, hset, hrep, ⟨rfl, rfl, rfl, rfl⟩, rfl⟩
    · exact .inr ⟨rfl, hu.resLo, hu.resHi, hu.outSize⟩
    · exact .inr ⟨rfl, hu.resLo, hu.resHi, hu.outSize⟩
  | true =>
    obtain ⟨t', ht, hend⟩ := exec_endsMarked (Quiet.steady s).toKeepsPacking hstart hemit
    cases ht.symm.trans h
    obtain ⟨u, w, ⟨hu, hset⟩, hrep, rfl⟩ | ⟨e, info, u, ⟨hu, -⟩, rfl | rfl⟩ := hend
    · exact .inl ⟨u, w, hu, hset, hrep, ⟨rfl, rfl, rfl, rfl⟩, rfl⟩
    · exact .inr ⟨rfl, hu.resLo, hu.resHi, hu.outSize⟩
    · exact .inr ⟨rfl, hu.resLo, hu.resHi, hu.outSize⟩

theorem Reports.err (h : Reports i u w) : w.err = u.err := by
  obtain ⟨_, _, _, rfl⟩ := h.eq
  rfl

theorem Reports.result_eq (h : Reports i u w) (hi : i ∉ [Instr.rdBits, .csc, .scale])
    (hch : ∀ c, i ≠ .decSym c ∧ i ≠ .predFwd c ∧ i ≠ .predInv c) : w.resLo = u.resLo ∧ w.resHi = u.resHi := by
  cases i with
  | rdBits | csc | scale => exact absurd (by decide) hi
  | decSym c => exact absurd rfl (hch c).1
  | predFwd c => exact absurd rfl (hch c).2.1
  | predInv c => exact absurd rfl (hch c).2.2
  | decScan | decFrame =>
    obtain ⟨rfl, -⟩ := h
    exact ⟨rfl, rfl⟩
  | _ =>
    obtain rfl := h
    exact ⟨rfl, rfl⟩

theorem Reports.outSize_eq (h : Reports i u w) (hi : i ∉ [Instr.pkFlush, .encFrame, .decScan, .decFrame, .passthru]) :
    w.outSize = u.outSize := by
  cases i with
  | pkFlush | encFrame | decScan | decFrame | passthru => exact absurd (by decide) hi
  | rdBits | decSym _ | predFwd _ | predInv _ | csc | scale =>
    obtain ⟨v, rfl⟩ := h
    rfl
  | _ =>
    obtain rfl := h
    rfl

/-- Settles O20. -/
theorem resultWriters : Obligations.ResultWriters := by
  refine ⟨fun i s t h => ?_, fun s v => ?_⟩
  · obtain ⟨u, w, hu, -, hrep, ht, -⟩ | ⟨herr, hlo, hhi, -⟩ := exec_quiet h
    · refine ⟨fun hi hch => ?_, fun hs herr => ?_⟩
      · obtain ⟨hlo, hhi⟩ := hrep.result_eq hi hch
        exact ⟨ht.resLo.trans (hlo.trans hu.resLo), ht.resHi.trans (hhi.trans hu.resHi)⟩
      · rw [ht.err, hrep.err, hu.err, hs] at herr
        cases herr
    · exact ⟨fun _ _ => ⟨hlo, hhi⟩, fun _ _ => ⟨hlo, hhi⟩⟩
  · rfl

/-- Settles O21. -/
theorem outSizeWriters : Obligations.OutSizeWriters := by
  intro i s t h
  obtain ⟨u, w, hu, hset, hrep, ht, hpk⟩ | ⟨herr, -, -, hsize⟩ := exec_quiet h
  · refine ⟨fun hi => ht.outSize.trans ((hrep.outSize_eq hi).trans hu.outSize), fun hs herr => ?_, fun _ => ⟨?_, ?_, ?_⟩⟩
    · rw [ht.err, hrep.err, hu.err, hs] at herr
      cases herr
    · rintro (rfl | rfl) <;> obtain rfl := hrep <;> exact ht.outSize.trans (congrArg Packer.ptr hpk.symm)
    · have hsize (hmode : u.modeOk = true) : u.reportDecoded.outSize = BitVec.ofNat 32 (Spec.decodedBytes s) := by
        have hmode' : s.modeOk = true := (State.eq_of_setup hset fun _ => rfl).symm.trans hmode
        rw [decodedBytes_eq hmode', ← Setup.outBytes_eq hset]
        rfl
      rintro (rfl | rfl) <;> obtain ⟨rfl, hmode⟩ := hrep <;> exact ht.outSize.trans (hsize hmode)
    · rintro rfl
      obtain rfl := hrep
      rw [ht.outSize, rawBytes_eq, ← Setup.rawSize_eq hset]
      rfl
  · refine ⟨fun _ => hsize, fun _ _ => hsize, fun hno => ?_⟩
    rw [herr] at hno
    cases hno

end Sys2Proof.Machine
end

section
/-! SUPPORT. HIST_ADD and PK_FLUSH (O31, O45). -/

namespace Sys2Proof.Machine

open Spec (FormatLegal OutFits argument alphabet completed stopped)

variable {s t u w : State} {i : Instr} {c : Ch}

theorem argument_eq (s : State) : argument s = s.arg.toNat := (toNat_append_add s.argHi s.argLo).symm

theorem alphabet_eq (s : State) : alphabet s = s.alpha := by rw [alphabet, bitWidth_eq, State.alpha]

/-- Settles O31. -/
theorem histAddCounts : Obligations.HistAddCounts := by
  intro s c h hformat
  have hrun : ∀ o, (require (decide (s.arg.toNat < s.alpha)) .badArg 0 >>= fun _ => set (s.bumpHist c s.arg.toNat)) s = o →
      (checkCfg >>= fun _ => get >>= fun t => require (decide (t.arg.toNat < t.alpha)) .badArg 0 >>= fun _ =>
        set (t.bumpHist c t.arg.toNat)) s = o := fun o ho => (Cmd.bind_run_ok (checkCfg_ok hformat)).trans ho
  rw [argument_eq, alphabet_eq]
  refine ⟨fun hlt => ⟨_, command_of_ok (hrun (.ok () (s.bumpHist c s.arg.toNat)) ?_), rfl, fun d i hi => ?_⟩, fun hle =>
    command_of_error (e := .badArg) (info := 0) (hrun _ ?_)⟩
  · rw [decide_eq_true hlt]
    rfl
  · refine (h.rising.histAt_setHist (hlt.trans_le s.alpha_le) hi _).trans ?_
    split
    · obtain ⟨rfl, rfl⟩ := ‹_ ∧ _›
      rfl
    · rfl
  · rw [decide_eq_false (not_lt.2 hle)]
    rfl

/-! ### PK_FLUSH (R120) -/

theorem pkFlush_run (hformat : FormatLegal s) (hout : OutFits s) :
    (checkCfg >>= fun _ => checkOut >>= fun _ => flushPartial >>= fun _ => modify State.reportPacked) s =
      (flushPartial >>= fun _ => modify State.reportPacked) s := by
  rw [Cmd.bind_run_ok (checkCfg_ok hformat), Cmd.bind_run_ok (checkOut_ok hout)]

/-- The partial byte, completed with zero bits. -/
theorem toNat_shiftLeft_of_packer (h : s.pk.acc.toNat < 2 ^ s.pk.fill.toNat) :
    (s.pk.acc <<< (8 - s.pk.fill.toNat)).toNat = s.pk.acc.toNat * 2 ^ (8 - s.pk.fill.toNat) := by
  have hfill := s.pk.fill.isLt
  rw [BitVec.toNat_shiftLeft, Nat.shiftLeft_eq, Nat.mod_eq_of_lt]
  calc s.pk.acc.toNat * 2 ^ (8 - s.pk.fill.toNat) < 2 ^ s.pk.fill.toNat * 2 ^ (8 - s.pk.fill.toNat) :=
        Nat.mul_lt_mul_of_pos_right h (Nat.pow_pos (by decide))
    _ = 2 ^ 8 := by rw [← Nat.pow_add, Nat.add_sub_cancel' (by omega)]

/-- The completed run of a command that marks its bytes, where it wrote memory, the packer and OUT_SIZE. -/
theorem finish_markSince {m : Memory} {p : Packer} {n : Word} :
    (s.markSince { s with mem := m, pk := p, outSize := n }).finish = { s with
      mem := m.markRun (s.outAddr.toNat + s.pk.ptr.toNat) (p.ptr.toNat - s.pk.ptr.toNat), pk := p, outSize := n
      phase := .idle, done := true } := rfl

/-- Settles O45. -/
theorem pkFlushWritesPartialByte : Obligations.PkFlushWritesPartialByte := by
  intro s h hformat hout
  have hrun := pkFlush_run hformat hout
  have hne : s.pk.fill ≠ 0 → s.pk.fill.toNat ≠ 0 := fun hfill h0 => hfill (BitVec.eq_of_toNat_eq h0)
  refine ⟨fun hfill => ?_, fun hfill hroom hwrite => ?_, fun hfill hfull => ?_⟩
  · have hflush : flushPartial s = .ok () s := by rw [flushPartial_run, if_pos (by rw [hfill]; rfl)]
    have hexec : exec .pkFlush s = .next ({ s.markSince s with outSize := s.pk.ptr }).finish :=
      commandEmit_of_ok (hrun.trans (Cmd.bind_run_ok hflush))
    rw [hexec, State.markSince_self]
    rfl
  · have hflush : flushPartial s = .ok () (s.emitted (s.pk.acc <<< (8 - s.pk.fill.toNat))).emptyPacker := by
      rw [flushPartial_run, if_neg (hne hfill), emitByte_run, if_pos hroom, if_pos (hwrite _ (Nat.lt_succ_self _) le_rfl)]
    have hexec := commandEmit_of_ok (hrun.trans (Cmd.bind_run_ok (f := fun _ => modify State.reportPacked) hflush))
    refine ⟨_, hexec.trans (congrArg _ finish_markSince), rfl, ?_, fun a ha => ?_⟩
    · refine Eq.trans (congrArg BitVec.toNat ?_) (toNat_shiftLeft_of_packer h.packer)
      exact (Memory.read_markRun _ _ _ _).trans (Memory.read_write_same h.mem _ _)
    · exact (Memory.read_markRun _ _ _ _).trans (Memory.read_write_other h.mem _ ha)
  · have hflush : flushPartial s = .error (.raise .outOverflow s.pk.ptr) s := by
      rw [flushPartial_run, if_neg (hne hfill), emitByte_run, if_neg (not_lt.2 hfull)]
    exact stopsUnwritten_of_error h (hrun.trans (Cmd.bind_run_error hflush))

end Sys2Proof.Machine
end

section
/-! SUPPORT. The frames of the commands that store nothing (O22, O23): what the updates of each command leave unchanged. -/

namespace Sys2Proof.Machine

open Spec (withStatus nch alphabet argument)

variable {i : Instr} {s t u : State} {c : Ch}

/-! ### The unit commands that change no table -/

/-- A command that is one update after CheckCfg. -/
theorem update_outcome {f : State → State} (hexec : exec i s = command (checkCfg >>= fun _ => modify f) s)
    (h : exec i s = .next t) : t = (f s).finish ∨ t = s.stop .badCfg 0 := by
  rw [hexec, command, commandWith, Cmd.bind_run, checkCfg_run] at h
  cases hcfg : s.cfgOk <;> simp only [hcfg, Bool.false_eq_true, if_false, if_true] at h <;> cases h
  · exact .inr rfl
  · exact .inl rfl

theorem nop_frame (h : exec .nop s = .next t) : t = withStatus s t := by
  cases h
  rfl

theorem predReset_frame (h : exec .predReset s = .next t) : t = { withStatus s t with prev := t.prev, acc := t.acc } := by
  obtain rfl | rfl := update_outcome rfl h <;> rfl

theorem predFwd_frame (h : exec (.predFwd c) s = .next t) :
    t = { withStatus s t with prev := t.prev, resLo := t.resLo, resHi := t.resHi } ∧ ∀ d ≠ c, t.prev.get d = s.prev.get d := by
  obtain rfl | rfl := update_outcome rfl h
  · exact ⟨rfl, fun _ hd => Quad.get_set_other _ _ hd⟩
  · exact ⟨rfl, fun _ _ => rfl⟩

theorem predInv_frame (h : exec (.predInv c) s = .next t) :
    t = { withStatus s t with acc := t.acc, resLo := t.resLo, resHi := t.resHi } ∧ ∀ d ≠ c, t.acc.get d = s.acc.get d := by
  obtain rfl | rfl := update_outcome rfl h
  · exact ⟨rfl, fun _ hd => Quad.get_set_other _ _ hd⟩
  · exact ⟨rfl, fun _ _ => rfl⟩

theorem csc_frame (h : exec .csc s = .next t) : t = { withStatus s t with resLo := t.resLo, resHi := t.resHi } := by
  obtain rfl | rfl := update_outcome rfl h <;> rfl

theorem scale_frame (h : exec .scale s = .next t) : t = { withStatus s t with resLo := t.resLo, resHi := t.resHi } := by
  obtain rfl | rfl := update_outcome rfl h <;> rfl

theorem pkInit_frame (h : exec .pkInit s = .next t) : t = { withStatus s t with pk := t.pk } := by
  obtain rfl | rfl := update_outcome rfl h <;> rfl

theorem rdInit_frame (h : exec .rdInit s = .next t) : t = { withStatus s t with rd := t.rd } := by
  obtain rfl | rfl := update_outcome rfl h <;> rfl

/-- `u` is `s` but for the reader. -/
def ReaderOnly (s u : State) : Prop := ∃ d, u = s.setReader d

theorem ReaderOnly.bits (s : State) : BitReading (Diag (Within s (ReaderOnly s))) := bits_of fun _ d ⟨_, h⟩ => ⟨d, by rw [h]; rfl⟩

/-- RD_BITS and DEC_SYM. -/
theorem reader_frame (hrep : ∀ u w, Reports i u w → ∃ v, w = u.setResult v) (h : Ends (ReaderOnly s) id i s t) :
    t = { withStatus s t with rd := t.rd, resLo := t.resLo, resHi := t.resHi } := by
  obtain ⟨u, w, ⟨⟨d, rfl⟩, -⟩, hw, rfl⟩ | ⟨e, info, u, ⟨⟨d, rfl⟩, -⟩, rfl⟩ := h
  · obtain ⟨x, rfl⟩ := hrep _ _ hw
    rfl
  · rfl

/-- Settles O22. -/
theorem frameOfUnitCommands : Obligations.FrameOfUnitCommands := fun s _ c =>
  ⟨nop_frame, predReset_frame, predFwd_frame, predInv_frame, fun h => h.elim csc_frame scale_frame, pkInit_frame, rdInit_frame,
    fun h => h.elim (fun h => reader_frame (fun _ _ => id) (rdBits_ends ⟨s.rd, rfl⟩ (ReaderOnly.bits s) h)) fun h =>
      reader_frame (fun _ _ => id) (decSym_ends ⟨s.rd, rfl⟩ (ReaderOnly.bits s) c h)⟩

/-! ### The commands that change a table -/

theorem histClear_frame (h : exec .histClear s = .next t) : t = { withStatus s t with hist := t.hist } := by
  obtain rfl | rfl := update_outcome rfl h <;> rfl

theorem histAdd_frame (hs : Inv s) (h : exec (.histAdd c) s = .next t) : t = { withStatus s t with hist := t.hist } ∧
    ∀ (d : Ch) (i : Nat), i < 4096 → (d ≠ c ∨ i ≠ argument s) → t.histAt d i = s.histAt d i := by
  have hother : s.arg.toNat < s.alpha → ∀ (d : Ch) (i : Nat), i < 4096 → (d ≠ c ∨ i ≠ argument s) →
      (s.bumpHist c s.arg.toNat).histAt d i = s.histAt d i := fun hlt d i hi hne => by
    refine (hs.rising.histAt_setHist (hlt.trans_le s.alpha_le) hi _).trans (if_neg ?_)
    rw [argument_eq] at hne
    tauto
  obtain ⟨u, w, ⟨rfl | ⟨hlt, rfl⟩, -⟩, rfl, rfl⟩ | ⟨e, info, u, ⟨rfl | ⟨hlt, rfl⟩, -⟩, rfl⟩ :=
    histAdd_ends (P := fun u => u = s ∨ s.arg.toNat < s.alpha ∧ u = s.bumpHist c s.arg.toNat) (.inl rfl) c
      (fun hlt => .inr ⟨hlt, rfl⟩) h
  · exact ⟨rfl, fun _ _ _ _ => rfl⟩
  · exact ⟨rfl, hother hlt⟩
  · exact ⟨rfl, fun _ _ _ _ => rfl⟩
  · exact ⟨rfl, hother hlt⟩

theorem ne_of_below {n : Nat} {d : Ch} (hc : c.val < n) (hd : n ≤ d.val) : d ≠ c := by
  rintro rfl
  omega

/-- `u` is `s` but for counters inside the frame's channels and alphabet, PREV of those channels, and the record of scans. -/
structure ScanOnly (s u : State) : Prop where
  eq : ∃ l p m, u = { s with hist := l, prev := p, scans := m }
  rising : Rising u
  hist : ∀ (d : Ch) (i : Nat), i < 4096 → (nch s ≤ d.val ∨ alphabet s ≤ i) → u.histAt d i = s.histAt d i
  prev : ∀ d : Ch, nch s ≤ d.val → u.prev.get d = s.prev.get d

theorem ScanOnly.setPrev (hc : c.val < s.nch) (x : Nat) (h : ScanOnly s u) : ScanOnly s (u.setPrev c x) := by
  obtain ⟨⟨l, p, m, rfl⟩, hrising, hhist, hprev⟩ := h
  refine ⟨⟨l, _, m, rfl⟩, { hrising with }, hhist, fun d hd => ?_⟩
  exact (Quad.get_set_other _ _ (ne_of_below hc hd)).trans (hprev d hd)

theorem ScanOnly.bumpHist {d : Nat} (hc : c.val < s.nch) (hd : d < u.alpha) (h : ScanOnly s u) : ScanOnly s (u.bumpHist c d) := by
  obtain ⟨⟨l, p, m, rfl⟩, hrising, hhist, hprev⟩ := h
  refine ⟨⟨_, p, m, rfl⟩, hrising.setHist c d _, fun e i hi he => ?_, hprev⟩
  refine (hrising.histAt_setHist (hd.trans_le (State.alpha_le _)) hi _).trans ((if_neg ?_).trans (hhist e i hi he))
  rintro ⟨rfl, rfl⟩
  rw [alphabet_eq] at he
  exact he.elim (not_le.2 hc) (not_le.2 hd)

theorem ScanOnly.openScan (h : ScanOnly s u) : ScanOnly s u.openScan := by
  obtain ⟨⟨l, p, m, rfl⟩, hrising, hhist, hprev⟩ := h
  exact ⟨⟨l, p, _, rfl⟩, { hrising with }, hhist, hprev⟩

theorem histScan_frame (hs : Inv s) (h : exec .histScan s = .next t) :
    t = { withStatus s t with hist := t.hist, prev := t.prev, scans := t.scans } ∧
      (∀ (d : Ch) (i : Nat), i < 4096 → (nch s ≤ d.val ∨ alphabet s ≤ i) → t.histAt d i = s.histAt d i) ∧
      ∀ d : Ch, nch s ≤ d.val → t.prev.get d = s.prev.get d := by
  obtain ⟨_, _, ⟨⟨⟨l, p, m, rfl⟩, -, hhist, hprev⟩, -⟩, rfl, rfl⟩ | ⟨_, _, _, ⟨⟨⟨l, p, m, rfl⟩, -, hhist, hprev⟩, -⟩, rfl⟩ :=
    histScan_ends (P := ScanOnly s) ⟨⟨_, _, _, rfl⟩, hs.rising, fun _ _ _ _ => rfl, fun _ _ => rfl⟩
      (fun _ _ x hc h => h.setPrev hc x) (fun _ _ _ hc hd h => h.bumpHist hc hd) (fun _ h => h.openScan) h
  · exact ⟨rfl, hhist, hprev⟩
  · exact ⟨rfl, hhist, hprev⟩

theorem treeBuild_frame (hs : Inv s) (h : exec (.treeBuild c) s = .next t) :
    t = { withStatus s t with tree := t.tree, ncount := t.ncount, root := t.root } ∧
      ∀ d ≠ c, t.ncount.get d = s.ncount.get d ∧ t.root.get d = s.root.get d ∧ ∀ i < 4096, t.nodeAt d i = s.nodeAt d i := by
  obtain rfl | rfl := update_outcome rfl h
  · refine ⟨?_, fun d hd => ⟨Quad.get_set_other _ _ hd, Quad.get_set_other _ _ hd, fun i hi => ?_⟩⟩
    · rw [State.buildTree_eq]
      rfl
    · exact (hs.rising.nodeAt_buildTree hi).trans (if_neg fun hc => hd hc.1)
  · exact ⟨rfl, fun _ _ => ⟨rfl, rfl, fun _ _ => rfl⟩⟩

/-- `u` is `s` but for the codes of channel `c`. -/
structure CodesOnly (c : Ch) (s u : State) : Prop where
  eq : ∃ l, u = { s with code := l }
  rising : Rising u
  code : ∀ d ≠ c, ∀ i < 4096, u.codeAt d i = s.codeAt d i

theorem CodesOnly.clearCodes (h : CodesOnly c s u) : CodesOnly c s (u.clearCodes c) := by
  obtain ⟨⟨l, rfl⟩, hrising, hcode⟩ := h
  exact ⟨⟨_, rfl⟩, hrising.clearCodes c, fun d hd i hi =>
    (hrising.codeAt_clearCodes hi).trans ((if_neg hd).trans (hcode d hd i hi))⟩

theorem CodesOnly.setCode {sym : Nat} {e : CodeEntry} (hsym : sym < u.alpha) (h : CodesOnly c s u) :
    CodesOnly c s (u.setCode c sym e) := by
  obtain ⟨⟨l, rfl⟩, hrising, hcode⟩ := h
  exact ⟨⟨_, rfl⟩, hrising.setCode c sym e, fun d hd i hi => (hrising.codeAt_setCode (hsym.trans_le (State.alpha_le _)) hi e).trans
    ((if_neg fun hc => hd hc.1).trans (hcode d hd i hi))⟩

theorem codeGen_frame (hs : Inv s) (h : exec (.codeGen c) s = .next t) :
    t = { withStatus s t with code := t.code } ∧ ∀ d ≠ c, ∀ i < 4096, t.codeAt d i = s.codeAt d i := by
  obtain ⟨_, _, ⟨⟨⟨l, rfl⟩, -, hcode⟩, -⟩, rfl, rfl⟩ | ⟨_, _, _, ⟨⟨⟨l, rfl⟩, -, hcode⟩, -⟩, rfl⟩ :=
    codeGen_ends (P := CodesOnly c s) ⟨⟨_, rfl⟩, hs.rising, fun _ _ _ _ => rfl⟩
      (codeGenBody_keeps (fun _ h => h.clearCodes) fun _ _ _ hsym _ h => h.setCode hsym) h
  · exact ⟨rfl, hcode⟩
  · exact ⟨rfl, hcode⟩

/-- `u` is `s` but for the trees of the channels below NCH and RD_PTR. -/
structure HeadersOnly (s u : State) : Prop where
  eq : ∃ l n x k, u = { s with tree := l, ncount := n, root := x, rd := { s.rd with ptr := k } }
  rising : Rising u
  regs : ∀ d : Ch, nch s ≤ d.val → u.ncount.get d = s.ncount.get d ∧ u.root.get d = s.root.get d
  tree : ∀ d : Ch, nch s ≤ d.val → ∀ i < 4096, u.nodeAt d i = s.nodeAt d i

theorem HeadersOnly.advance (h : HeadersOnly s u) : HeadersOnly s (u.setReader { u.rd with ptr := u.rd.ptr + 1 }) := by
  obtain ⟨⟨l, n, x, k, rfl⟩, hrising, hregs, htree⟩ := h
  exact ⟨⟨l, n, x, _, rfl⟩, { hrising with }, hregs, htree⟩

theorem HeadersOnly.setNode {i : Nat} (hc : c.val < s.nch) (hi : i < Config.nodes) (n : Node) (h : HeadersOnly s u) :
    HeadersOnly s (u.setNode c i n) := by
  obtain ⟨⟨l, m, x, k, rfl⟩, hrising, hregs, htree⟩ := h
  refine ⟨⟨_, m, x, k, rfl⟩, hrising.setNode c i n, hregs, fun d hd j hj => ?_⟩
  have hsym : Config.nodes < Config.symbols := by decide
  exact (hrising.nodeAt_setNode (hi.trans hsym) hj n).trans
    ((if_neg fun h => ne_of_below hc hd h.1).trans (htree d hd j hj))

theorem HeadersOnly.setTreeRegs (hc : c.val < s.nch) (n x : Nat) (h : HeadersOnly s u) : HeadersOnly s (u.setTreeRegs c n x) := by
  obtain ⟨⟨l, m, y, k, rfl⟩, hrising, hregs, htree⟩ := h
  refine ⟨⟨l, _, _, k, rfl⟩, { hrising with }, fun d hd => ?_, htree⟩
  have hne := ne_of_below hc hd
  exact ⟨(Quad.get_set_other _ _ hne).trans (hregs d hd).1, (Quad.get_set_other _ _ hne).trans (hregs d hd).2⟩

theorem hdrRead_frame (hs : Inv s) (h : exec .hdrRead s = .next t) :
    t = { withStatus s t with tree := t.tree, ncount := t.ncount, root := t.root, rd := t.rd } ∧
      t.rd.bit = s.rd.bit ∧ t.rd.buf = s.rd.buf ∧
      ∀ d : Ch, nch s ≤ d.val → t.ncount.get d = s.ncount.get d ∧ t.root.get d = s.root.get d ∧
        ∀ i < 4096, t.nodeAt d i = s.nodeAt d i := by
  obtain ⟨_, _, ⟨⟨⟨l, n, x, k, rfl⟩, -, hregs, htree⟩, -⟩, rfl, rfl⟩ |
      ⟨_, _, _, ⟨⟨⟨l, n, x, k, rfl⟩, -, hregs, htree⟩, -⟩, rfl⟩ :=
    hdrRead_ends (P := HeadersOnly s) ⟨⟨_, _, _, _, rfl⟩, hs.rising, fun _ _ => ⟨rfl, rfl⟩, fun _ _ _ _ => rfl⟩
      (hdrReadBody_keeps (fun _ h => h.advance) (fun _ _ _ n hc hi h => h.setNode hc hi n)
        fun _ _ n x hc h => h.setTreeRegs hc n x) h
  · exact ⟨rfl, rfl, rfl, fun d hd => ⟨(hregs d hd).1, (hregs d hd).2, htree d hd⟩⟩
  · exact ⟨rfl, rfl, rfl, fun d hd => ⟨(hregs d hd).1, (hregs d hd).2, htree d hd⟩⟩

/-- Settles O23. -/
theorem frameOfTableCommands : Obligations.FrameOfTableCommands := fun _ _ _ hs =>
  ⟨histClear_frame, histAdd_frame hs, histScan_frame hs, treeBuild_frame hs, codeGen_frame hs, hdrRead_frame hs⟩

end Sys2Proof.Machine
end

section
/-! SUPPORT. Command words: decode and encode are inverse, and which words are illegal (O9, O10, O11). -/

namespace Sys2Proof.Machine

open Spec (IllegalWord ReservedOp formatC)

variable {w : Word} {i j : Instr} {c : Ch} {op : Nat}

/-! ### The fields of a word (R72) -/

theorem toNat_opOf (w : Word) : (opOf w).toNat = w.toNat % 256 := by
  rw [opOf, BitVec.extractLsb'_toNat, Nat.shiftRight_zero]

theorem val_chOf (w : Word) : (chOf w).val = w.toNat / 256 % 4 := by
  show (w.extractLsb' 8 2).toNat = _
  rw [BitVec.extractLsb'_toNat, Nat.shiftRight_eq_div_pow]

theorem reservedOf_eq_zero : reservedOf w = 0 ↔ w.toNat / 1024 = 0 := by
  have hw := w.isLt
  rw [← BitVec.toNat_inj, reservedOf, BitVec.extractLsb'_toNat, Nat.shiftRight_eq_div_pow]
  simp only [BitVec.ofNat_eq_ofNat, BitVec.toNat_ofNat]
  omega

/-- A word without reserved bits is its OP and its CH. -/
theorem eq_ofNat_fields (h : reservedOf w = 0) : w = BitVec.ofNat 32 ((opOf w).toNat + 256 * (chOf w).val) := by
  have hw := w.isLt
  rw [reservedOf_eq_zero] at h
  apply BitVec.eq_of_toNat_eq
  rw [BitVec.toNat_ofNat, toNat_opOf, val_chOf]
  omega

/-! ### Decoding (R73, R74) -/

theorem formatN_eq_ok : formatN c j = .ok i ↔ c = 0 ∧ j = i := by
  unfold formatN
  split <;> simp [*]

/-- A row of R73 that decodes to a command is the row of its word. -/
theorem encode_of_decodeOp (h : decodeOp op c = .ok i) : encode i = BitVec.ofNat 32 (op + 256 * c.val) := by
  unfold decodeOp at h
  split at h <;> simp only [formatN_eq_ok, Decoded.ok.injEq, reduceCtorEq] at h
  case h_4 | h_5 | h_6 | h_12 | h_16 | h_19 | h_20 =>
    subst h
    revert c
    decide
  all_goals
    obtain ⟨rfl, rfl⟩ := h
    rfl

theorem decode_eq_ok : decode w = .ok i ↔ reservedOf w = 0 ∧ decodeOp (opOf w).toNat (chOf w) = .ok i := by
  unfold decode
  by_cases h : reservedOf w = 0#22 <;> simp [h]

/-- Settles O9: the fields of a word that decodes are those of the encoded command. -/
theorem decodeAndEncodeAgree : Obligations.DecodeAndEncodeAgree := by
  refine fun w i => ⟨fun h => ?_, fun h => h ▸ decode_encode i⟩
  obtain ⟨hreserved, hop⟩ := decode_eq_ok.1 h
  rw [eq_ofNat_fields hreserved, encode_of_decodeOp hop]

/-- Which OP and CH values encode a command. -/
theorem exists_decodeOp (hop : op < 256) : (∃ i, decodeOp op c = .ok i) ↔ ¬(ReservedOp op ∨ op ∉ formatC ∧ c.val ≠ 0) := by
  generalize hd : decodeOp op c = d
  unfold decodeOp at hd
  split at hd <;> subst hd
  case h_26 =>
    refine iff_of_false nofun (not_not.2 ?_)
    unfold ReservedOp
    left
    simp only [imp_false] at *
    omega
  all_goals simp [formatN_eq_ok, ReservedOp, formatC]

theorem illegalWord_iff : IllegalWord w ↔ ¬∃ i, decode w = .ok i := by
  have hop : w.toNat % 256 < 256 := Nat.mod_lt _ (by decide)
  simp only [decode_eq_ok, exists_and_left, toNat_opOf, exists_decodeOp hop, reservedOf_eq_zero, val_chOf, IllegalWord]
  tauto

/-- Settles O10. -/
theorem illegalWordsStop : Obligations.IllegalWordsStop := by
  refine ⟨fun w => illegalWord_iff, fun s w hidle hw => ?_⟩
  have hstop : s.acceptCmd w = (s.start w).stop .badCmd 0 := by
    cases hdec : decode w with
    | ok i => exact absurd ⟨i, hdec⟩ (illegalWord_iff.1 hw)
    | illegal why => exact State.acceptCmd_of_illegal hdec
  exact (write_idle hidle .cmd (.inl nofun)).trans (congrArg _ hstop)

/-- Settles O11: each word is a literal, so the decoder runs on it. -/
theorem sampleWordsDecode : Obligations.SampleWordsDecode := by
  unfold Obligations.SampleWordsDecode
  decide

end Sys2Proof.Machine
end

section
/-! SUPPORT. A command whose host duties are kept ends, by completion or error stop, with the host's script as it was: nothing in
the pseudocode but the duties is refused (R65, R172). -/

namespace Sys2Proof.Machine

variable {α β : Type} {s : State} {i : Instr}

/-- However `m` ends, it is not refused and the host's script is as it was. -/
def Plain (m : Cmd α) : Prop :=
  ∀ s, (∃ a t, m s = .ok a t ∧ t.script = s.script) ∨ ∃ e info t, m s = .error (.raise e info) t ∧ t.script = s.script

namespace Plain

/-! ### Rules -/

theorem pure (a : α) : Plain (pure a : Cmd α) := fun s => .inl ⟨a, s, rfl, rfl⟩

theorem raise (e : ErrCode) (info : Word) : Plain (raise e info : Cmd α) := fun s => .inr ⟨e, info, s, rfl, rfl⟩

theorem modify {f : State → State} (h : ∀ s, (f s).script = s.script := by exact fun _ => rfl) :
    Plain (modify f : Cmd Unit) := fun s => .inl ⟨(), f s, rfl, h s⟩

theorem require (p : Bool) (e : ErrCode) (info : Word) : Plain (require p e info) := by
  cases p
  · exact raise e info
  · exact pure ()

theorem bind {m : Cmd α} {f : α → Cmd β} (hm : Plain m) (hf : ∀ a, Plain (f a)) : Plain (m >>= f) := fun s => by
  obtain ⟨a, t, ht, hscript⟩ | ⟨e, info, t, ht, hscript⟩ := hm s
  · rw [Cmd.bind_run_ok ht, ← hscript]
    exact hf a t
  · exact .inr ⟨e, info, t, Cmd.bind_run_error ht, hscript⟩

/-- What follows a read of the state. -/
theorem read {f : State → Cmd α} (hf : ∀ s, Plain (f s)) : Plain ((get : Cmd State) >>= f) := fun s => hf s s

/-- What follows a write of the state that was read. -/
theorem update {g : State → State} {f : State → Cmd α} (hf : ∀ s, Plain (f s))
    (h : ∀ s, (g s).script = s.script := by exact fun _ => rfl) :
    Plain ((get : Cmd State) >>= fun s => set (g s) >>= fun _ => f s) := fun s => by
  rw [← h s]
  exact hf s (g s)

theorem ite {p : Prop} [Decidable p] {m n : Cmd α} (hm : Plain m) (hn : Plain n) : Plain (if p then m else n) := by
  split
  · exact hm
  · exact hn

theorem forUp {f : Nat → Cmd Unit} (hf : ∀ k, Plain (f k)) (n i : Nat) : Plain (forUp n i f) := by
  induction n generalizing i with
  | zero => exact pure ()
  | succ n ih => exact (hf i).bind fun _ => ih (i + 1)

theorem forEach {f : α → Cmd Unit} (hf : ∀ x, Plain (f x)) (l : List α) : Plain (forEach l f) := by
  induction l with
  | nil => exact pure ()
  | cons x l ih => exact (hf x).bind fun _ => ih

theorem marking {m : Cmd Unit} (hm : Plain m) : Plain (marking m) := fun s => by
  unfold Machine.marking
  obtain ⟨a, t, ht, hscript⟩ | ⟨e, info, t, ht, hscript⟩ := hm s <;> rw [ht]
  · exact .inl ⟨(), _, rfl, hscript⟩
  · exact .inr ⟨e, info, _, rfl, hscript⟩

end Plain

/-! ### Shared operations -/

theorem memRead_plain (a : Nat) : Plain (memRead a) := .read fun _ => .ite (.pure _) (.raise _ _)

theorem memWrite_plain (a : Nat) (v : Byte) : Plain (memWrite a v) := fun s => by
  rw [memWrite_run]
  split
  · exact .inl ⟨(), _, rfl, rfl⟩
  · exact .inr ⟨_, _, s, rfl, rfl⟩

theorem checkCfg_plain : Plain checkCfg := .read fun _ => .require _ _ _

theorem checkCfgDecode_plain : Plain checkCfgDecode := checkCfg_plain.bind fun _ => .read fun _ => .require _ _ _

theorem checkIn_plain : Plain checkIn := .read fun _ => .require _ _ _

theorem checkOut_plain : Plain checkOut := .read fun _ => .require _ _ _

theorem checkRaw_plain : Plain checkRaw := .read fun _ => .require _ _ _

theorem checkOutSize_plain : Plain checkOutSize := .read fun _ => .require _ _ _

theorem validateTree_plain (c : Ch) : Plain (validateTree c) := .read fun s => by
  cases s.treeFault c
  · exact .pure ()
  · exact .raise _ _

theorem emitByte_plain (v : Byte) : Plain (emitByte v) :=
  .read fun _ => (Plain.require _ _ _).bind fun _ => (memWrite_plain _ _).bind fun _ => .modify

theorem writeBit_plain (b : Bool) : Plain (writeBit b) := fun s => by
  by_cases h : s.pk.fill = 7
  · obtain ⟨_, t, ht, hscript⟩ | ⟨e, info, t, ht, hscript⟩ := emitByte_plain (shiftIn s.pk.acc b) s <;>
      rw [writeBit_full h, ht]
    · exact .inl ⟨(), _, rfl, hscript⟩
    · exact .inr ⟨e, info, t, rfl, hscript⟩
  · exact .inl ⟨(), _, writeBit_room h b, rfl⟩

theorem writeBits_plain (v n : Nat) : Plain (writeBits v n) := by
  induction n with
  | zero => exact .pure ()
  | succ n ih => exact (writeBit_plain _).bind fun _ => ih

theorem emitCode_plain (c : Ch) (sym : Nat) : Plain (emitCode c sym) :=
  .read fun _ => (Plain.require _ _ _).bind fun _ => writeBits_plain _ _

theorem flushPartial_plain : Plain flushPartial :=
  .read fun _ => .ite (.pure ()) ((emitByte_plain _).bind fun _ => .modify)

theorem refill_plain : Plain refill := fun s => by
  rw [refill_run]
  split_ifs
  · exact .inl ⟨(), _, rfl, rfl⟩
  · exact .inr ⟨_, _, s, rfl, rfl⟩
  · exact .inr ⟨_, _, s, rfl, rfl⟩
  · exact .inl ⟨(), s, rfl, rfl⟩

theorem readBit_plain : Plain readBit := refill_plain.bind fun _ => .update (g := fun s => { s with rd := s.rd.next }) fun _ => .pure _

theorem readBits_plain (n v : Nat) : Plain (readBits n v) := by
  induction n generalizing v with
  | zero => exact .pure v
  | succ n ih => exact readBit_plain.bind fun _ => ih _

theorem readByte_plain : Plain readByte := fun s => by
  rw [readByte_run]
  split_ifs
  · exact .inl ⟨_, _, rfl, rfl⟩
  · exact .inr ⟨_, _, s, rfl, rfl⟩
  · exact .inr ⟨_, _, s, rfl, rfl⟩

theorem readLe_plain (n : Nat) : Plain (readLe n) := by
  induction n with
  | zero => exact .pure 0
  | succ n ih => exact readByte_plain.bind fun _ => ih.bind fun _ => .pure _

/-! ### Trees, codes and headers -/

theorem descend_plain (c : Ch) (fuel node : Nat) : Plain (descend c fuel node) := by
  induction fuel generalizing node with
  | zero => exact .read fun _ => .raise _ _
  | succ fuel ih => exact readBit_plain.bind fun _ => .read fun _ => .ite (.pure _) (ih _)

theorem decodeSymbol_plain (c : Ch) : Plain (decodeSymbol c) := .read fun _ => .ite (.pure _) (descend_plain c _ _)

theorem writeCode_plain (c : Ch) (sym len path : Nat) : Plain (writeCode c sym len path) := by
  unfold writeCode
  split
  · exact .bind (.raise _ _) fun _ => .modify
  · exact .modify

theorem visitChild_plain {c : Ch} {down : Nat → Nat → Nat → List Nat → Cmd (List Nat)}
    (hdown : ∀ i depth path seen, Plain (down i depth path seen)) (ref : BitVec 16) (len path : Nat) (seen : List Nat) :
    Plain (visitChild c down ref len path seen) :=
  .ite ((writeCode_plain c _ _ _).bind fun _ => .pure _) (hdown _ _ _ _)

theorem visit_plain (c : Ch) (fuel i depth path : Nat) (seen : List Nat) : Plain (visit c fuel i depth path seen) := by
  induction fuel generalizing i depth path seen with
  | zero => exact .raise _ _
  | succ fuel ih =>
    exact .ite (.raise _ _) (.read fun _ => (visitChild_plain ih _ _ _ _).bind fun _ => visitChild_plain ih _ _ _ _)

theorem codeGenBody_plain (c : Ch) : Plain (codeGenBody c) :=
  (validateTree_plain c).bind fun _ => .bind .modify fun _ => .read fun _ =>
    .ite .modify ((visit_plain c _ _ _ _ _).bind fun _ => .pure ())

theorem emitLe_plain (n v : Nat) : Plain (emitLe n v) := by
  induction n generalizing v with
  | zero => exact .pure ()
  | succ n ih => exact (emitByte_plain _).bind fun _ => ih _

theorem writeHeader_plain (c : Ch) : Plain (writeHeader c) :=
  .read fun _ => (emitLe_plain _ _).bind fun _ => (emitLe_plain _ _).bind fun _ =>
    .forUp (fun _ => (emitLe_plain _ _).bind fun _ => emitLe_plain _ _) _ _

theorem hdrWriteBody_plain : Plain hdrWriteBody :=
  .read fun _ => (Plain.require _ _ _).bind fun _ => (Plain.forEach validateTree_plain _).bind fun _ =>
    .forEach writeHeader_plain _

theorem readNode_plain (c : Ch) (i : Nat) : Plain (readNode c i) :=
  (readLe_plain 2).bind fun _ => .bind .modify fun _ => (readLe_plain 2).bind fun _ => .modify

theorem readHeader_plain (c : Ch) : Plain (readHeader c) :=
  (readLe_plain 4).bind fun _ => (readLe_plain 4).bind fun _ => .read fun _ => (Plain.require _ _ _).bind fun _ =>
    (Plain.forUp (readNode_plain c) _ _).bind fun _ => .bind .modify fun _ => validateTree_plain c

theorem hdrReadBody_plain : Plain hdrReadBody :=
  .read fun _ => (Plain.require _ _ _).bind fun _ => .forEach readHeader_plain _

/-! ### Frames -/

theorem packedBits_plain (n j v : Nat) : Plain (packedBits n j v) := by
  induction n generalizing j v with
  | zero => exact .pure v
  | succ n ih => exact .read fun _ => (memRead_plain _).bind fun _ => ih _ _

theorem sample_plain (k : Nat) : Plain (sample k) :=
  .read fun _ => .ite ((packedBits_plain _ _ _).bind fun _ => .pure _)
    (.ite ((memRead_plain _).bind fun _ => .pure _) ((memRead_plain _).bind fun _ => (memRead_plain _).bind fun _ => .pure _))

theorem rowScan_plain {visit : Nat → Ch → Nat → Cmd Unit} (hvisit : ∀ k c d, Plain (visit k c d)) : Plain (rowScan visit) :=
  .read fun _ => .forUp (fun _ => .read fun _ => (Plain.forEach (fun _ => .modify) _).bind fun _ =>
    .forUp (fun _ => .forEach (fun c => (sample_plain _).bind fun x =>
      .update (g := fun s => s.setPrev c x) fun _ => hvisit _ _ _) _) _ _) _ _

theorem decodeSample_plain (c : Ch) : Plain (decodeSample c) :=
  (decodeSymbol_plain c).bind fun d => .update (g := fun s => s.setAcc c (s.accumulated c d)) fun _ => .pure _

theorem decodePixel_plain (l : List Ch) (row : List Nat) : Plain (decodePixel l row) := by
  induction l generalizing row with
  | nil => exact .pure row
  | cons c l ih => exact (decodeSample_plain c).bind fun _ => ih _

theorem decodePixels_plain (l : List Ch) (n : Nat) (row : List Nat) : Plain (decodePixels l n row) := by
  induction n generalizing row with
  | zero => exact .pure row
  | succ n ih => exact (decodePixel_plain l row).bind fun _ => ih _

theorem putBytes_plain (o : Nat) (l : List Byte) : Plain (putBytes o l) := by
  induction l generalizing o with
  | nil => exact .pure ()
  | cons x l ih => exact .read fun _ => (memWrite_plain _ _).bind fun _ => ih _

theorem convertRow_plain (k : Nat) (row : List Nat) : Plain (convertRow k row) :=
  .read fun _ => .ite (.forEach (fun _ => writeBits_plain _ _) _) (putBytes_plain _ _)

theorem decodeRow_plain (k : Nat) : Plain (decodeRow k) :=
  .read fun _ => (Plain.forEach (fun _ => .modify) _).bind fun _ => (decodePixels_plain _ _ _).bind fun _ =>
    convertRow_plain _ _

theorem whenPacked_plain {m : Cmd Unit} (hm : Plain m) : Plain (whenPacked m) := .read fun _ => .ite hm (.pure ())

theorem decScanBody_plain : Plain decScanBody :=
  (whenPacked_plain .modify).bind fun _ => .read fun _ => (Plain.forUp decodeRow_plain _ _).bind fun _ =>
    (whenPacked_plain flushPartial_plain).bind fun _ => .modify

theorem packPass_plain : Plain packPass := rowScan_plain fun _ _ _ => emitCode_plain _ _

theorem histPass_plain : Plain histPass := rowScan_plain fun _ _ _ => .modify

theorem buildTree_script (s : State) (c : Ch) : (s.buildTree c).script = s.script :=
  (congrArg State.script (s.buildTree_eq c)).trans rfl

theorem buildChannel_plain (c : Ch) : Plain (buildChannel c) :=
  .bind (.modify fun s => buildTree_script s c) fun _ => codeGenBody_plain c

theorem encFrameBody_plain : Plain encFrameBody :=
  .bind .modify fun _ => .bind .modify fun _ => histPass_plain.bind fun _ => .read fun _ =>
    (Plain.forEach buildChannel_plain _).bind fun _ => .bind .modify fun _ => hdrWriteBody_plain.bind fun _ =>
      packPass_plain.bind fun _ => flushPartial_plain.bind fun _ => .modify

theorem copyByte_plain (k : Nat) : Plain (copyByte k) :=
  .read fun _ => (memRead_plain _).bind fun _ => memWrite_plain _ _

/-! ### Commands -/

/-- A command ended: the core is idle with DONE set, and the host's script is as it was (R157, R158). -/
def Ended (s : State) (o : Spec.Out) : Prop := ∃ t, o = .next t ∧ t.phase = .idle ∧ t.done = true ∧ t.script = s.script

theorem ended_of_plain {leave : ErrCode → State → State} (hleave : ∀ e t, (leave e t).script = t.script) {m : Cmd Unit}
    (hm : Plain m) (s : State) : Ended s (commandWith leave m s) := by
  unfold commandWith
  obtain ⟨_, t, ht, hscript⟩ | ⟨e, info, t, ht, hscript⟩ := hm s <;> rw [ht]
  · exact ⟨_, rfl, rfl, rfl, hscript⟩
  · exact ⟨_, rfl, rfl, rfl, (hleave e t).trans hscript⟩

theorem command_ended {m : Cmd Unit} (hm : Plain m) (s : State) : Ended s (command m s) := ended_of_plain (fun _ _ => rfl) hm s

theorem commandEmit_ended {m : Cmd Unit} (hm : Plain m) (s : State) : Ended s (commandEmit m s) :=
  ended_of_plain (leave := fun _ t => t.loosenUnwritten) (fun _ _ => rfl) hm.marking s

/-- A command that is one update after CheckCfg. -/
theorem update_ended {f : State → State} (s : State) (h : ∀ s, (f s).script = s.script := by exact fun _ => rfl) :
    Ended s (command (checkCfg >>= fun _ => modify f) s) := command_ended (checkCfg_plain.bind fun _ => .modify h) s

/-- A command with host duties, which it keeps. -/
theorem ended_of_duties {leave : ErrCode → State → State} (hduty : s.brokenDuty i = none)
    (hleave : ∀ e t, (leave e t).script = t.script) {m : Cmd Unit} (hm : Plain m) :
    Ended s (commandWith leave (duties i >>= fun _ => m) s) := by
  have hrun : (duties i >>= fun _ => m) s = m s := Cmd.bind_run_ok (by rw [duties_run, hduty])
  rw [commandWith, hrun]
  exact ended_of_plain hleave hm s

theorem commandLoose_ended (hduty : s.brokenDuty i = none) {m : Cmd Unit} (hm : Plain m) :
    Ended s (commandLoose (duties i >>= fun _ => m) s) := ended_of_duties hduty (leave := fun _ t => t.loosenOut) (fun _ _ => rfl) hm

theorem histAdd_plain (c : Ch) :
    Plain (get >>= fun t => require (decide (t.arg.toNat < t.alpha)) .badArg 0 >>= fun _ => set (t.bumpHist c t.arg.toNat)) :=
  fun s => by
    rw [Cmd.get_bind_run]
    cases decide (s.arg.toNat < s.alpha)
    · exact .inr ⟨_, _, s, rfl, rfl⟩
    · exact .inl ⟨(), s.bumpHist c s.arg.toNat, rfl, rfl⟩

/-- Every command whose host duties are kept ends. -/
theorem exec_ended (hduty : s.brokenDuty i = none) : Ended s (exec i s) := by
  cases i with
  | nop => exact command_ended (.pure ()) s
  | histClear | pkInit | rdInit | predReset | predFwd _ | predInv _ | csc | scale => exact update_ended s
  | treeBuild c => exact update_ended s fun s => buildTree_script s c
  | codeGen c => exact command_ended (checkCfg_plain.bind fun _ => codeGenBody_plain c) s
  | histAdd c => exact command_ended (checkCfg_plain.bind fun _ => histAdd_plain c) s
  | hdrRead => exact command_ended (checkCfg_plain.bind fun _ => checkIn_plain.bind fun _ => hdrReadBody_plain) s
  | rdBits =>
    exact command_ended (checkCfg_plain.bind fun _ => checkIn_plain.bind fun _ => .read fun _ =>
      (Plain.require _ _ _).bind fun _ => (readBits_plain _ _).bind fun _ => .modify) s
  | decSym c =>
    exact command_ended (checkCfg_plain.bind fun _ => checkIn_plain.bind fun _ => (validateTree_plain c).bind fun _ =>
      (decodeSymbol_plain c).bind fun _ => .modify) s
  | hdrWrite =>
    refine ended_of_plain (fun e t => ?_) (checkCfg_plain.bind fun _ => checkOut_plain.bind fun _ => hdrWriteBody_plain).marking s
    obtain h | h := State.headersLeft_cases e <;> rw [h]
    rfl
  | pkBits =>
    exact commandEmit_ended (checkCfg_plain.bind fun _ => checkOut_plain.bind fun _ => .read fun _ =>
      (Plain.require _ _ _).bind fun _ => writeBits_plain _ _) s
  | pkFlush =>
    exact commandEmit_ended (checkCfg_plain.bind fun _ => checkOut_plain.bind fun _ => flushPartial_plain.bind fun _ =>
      .modify) s
  | encSym c =>
    exact commandEmit_ended (checkCfg_plain.bind fun _ => checkOut_plain.bind fun _ => .read fun _ =>
      (Plain.require _ _ _).bind fun _ => emitCode_plain c _) s
  | histScan =>
    exact ended_of_duties hduty (fun _ _ => rfl) (checkCfg_plain.bind fun _ => checkIn_plain.bind fun _ =>
      checkRaw_plain.bind fun _ => histPass_plain.bind fun _ => .modify)
  | packScan =>
    exact commandLoose_ended hduty (checkCfg_plain.bind fun _ => checkIn_plain.bind fun _ =>
      checkOut_plain.bind fun _ => checkRaw_plain.bind fun _ => packPass_plain.bind fun _ => .modify)
  | encFrame =>
    exact commandLoose_ended hduty (checkCfg_plain.bind fun _ => checkIn_plain.bind fun _ =>
      checkOut_plain.bind fun _ => checkRaw_plain.bind fun _ => encFrameBody_plain)
  | decScan =>
    exact commandLoose_ended hduty (checkCfgDecode_plain.bind fun _ => checkIn_plain.bind fun _ =>
      checkOut_plain.bind fun _ => checkOutSize_plain.bind fun _ => .read fun _ =>
        (Plain.forEach validateTree_plain _).bind fun _ => decScanBody_plain)
  | decFrame =>
    exact commandLoose_ended hduty (checkCfgDecode_plain.bind fun _ => checkIn_plain.bind fun _ =>
      checkOut_plain.bind fun _ => checkOutSize_plain.bind fun _ => .bind .modify fun _ =>
        hdrReadBody_plain.bind fun _ => decScanBody_plain)
  | passthru =>
    exact commandLoose_ended hduty (checkCfg_plain.bind fun _ => checkIn_plain.bind fun _ =>
      checkOut_plain.bind fun _ => .read fun _ => (Plain.require _ _ _).bind fun _ => (Plain.require _ _ _).bind fun _ =>
        (Plain.forUp copyByte_plain _ _).bind fun _ => .modify)

/-! ### WAIT (R84, R172) -/

theorem coreTurn_of_wait {rest : List HostAction} (hbusy : s.phase ≠ .idle) (h : s.script = .wait :: rest) :
    step s = s.coreTurn := by
  show s.turn = _
  unfold State.turn
  rw [h]
  exact if_pos (bne_iff_ne.2 hbusy)

theorem step_wait_idle {rest : List HostAction} (hidle : s.phase = .idle) (h : s.script = .wait :: rest) :
    step s = .next ((s.proceed rest).deliver s.statusWord) := by
  show s.turn = _
  unfold State.turn
  rw [h]
  exact if_neg (bne_iff_ne.not.2 (not_not.2 hidle))

theorem statusWord_of_idle (hidle : s.phase = .idle) : s.statusWord.getLsbD 0 = false := by
  rw [(statusWord_fields s).1, State.busy, hidle]
  rfl

/-- Settles O14. -/
theorem waitEndsWithBusyClear : Obligations.WaitEndsWithBusyClear := by
  refine ⟨fun s i rest h hrun hdec hkept hscript => ?_, fun s rest hphase hscript => ?_⟩
  · obtain ⟨t, ht, hidle, hdone, hsame⟩ := exec_ended (brokenDuty_of_kept h hkept)
    have hturn : s.coreTurn = exec i s := by rw [State.coreTurn, hrun, ← runCommand_of_ok hdec]
    refine ⟨t, _, ?_, step_wait_idle hidle (hsame.trans hscript), rfl, hidle, statusWord_of_idle hidle, ?_⟩
    · rw [coreTurn_of_wait (by rw [hrun]; decide) hscript, hturn, ht]
    · exact (statusWord_fields t).2.1.trans hdone
  · have hturn : step s = .next { s with phase := .idle } := by
      rw [coreTurn_of_wait (by rw [hphase]; decide) hscript, State.coreTurn, hphase]
    exact ⟨_, hturn, step_wait_idle rfl hscript, statusWord_of_idle rfl⟩

end Sys2Proof.Machine
end

section
/-! SUPPORT. PRED_FWD, PRED_INV, CSC and SCALE complete, with their results (O28, O30). -/

namespace Sys2Proof.Machine

open Spec (FormatLegal argument alphabet bitWidth result colour clip255 completed)

variable {s : State} {c d : Ch}

/-- A command that is one update after CheckCfg completes for every legal format. -/
theorem update_completes (hformat : FormatLegal s) (f : State → State) :
    command (checkCfg >>= fun _ => modify f) s = completed (f s) :=
  command_of_ok (Cmd.bind_run_ok (checkCfg_ok hformat))

/-! ### RESULT (R36) -/

theorem result_setResult (s : State) (v : BitVec 64) : result (s.setResult v) = v.toNat := by
  have hv := v.isLt
  show (v.extractLsb' 32 32).toNat * 2 ^ 32 + (v.extractLsb' 0 32).toNat = v.toNat
  simp only [BitVec.extractLsb'_toNat, Nat.shiftRight_eq_div_pow]
  omega

theorem setResult_ofNat {n : Nat} (h : n < 2 ^ 32) :
    s.setResult (BitVec.ofNat 64 n) = { s with resLo := BitVec.ofNat 32 n, resHi := 0 } := by
  have hlo : (BitVec.ofNat 64 n).extractLsb' 0 32 = BitVec.ofNat 32 n := by
    apply BitVec.eq_of_toNat_eq
    simp only [BitVec.extractLsb'_toNat, Nat.shiftRight_eq_div_pow, BitVec.toNat_ofNat]
    omega
  have hhi : (BitVec.ofNat 64 n).extractLsb' 32 32 = 0 := by
    apply BitVec.eq_of_toNat_eq
    simp only [BitVec.extractLsb'_toNat, Nat.shiftRight_eq_div_pow, BitVec.toNat_ofNat, BitVec.ofNat_eq_ofNat]
    omega
  rw [State.setResult, hlo, hhi]

/-! ### The predictor (R90, R91) -/

theorem State.alpha_pos (s : State) : 0 < s.alpha := Nat.pow_pos (by decide)

theorem maskedArg_eq (s : State) : s.maskedArg = argument s % alphabet s := by
  rw [State.maskedArg, argument_eq, alphabet_eq]

/-- The difference mod `n` is the residue that gives the minuend back (R12). -/
theorem subMod_lt (a b : Nat) {n : Nat} (hn : 0 < n) : subMod a b n < n := by
  have := Int.emod_lt_of_pos ((a : Int) - b) (Int.natCast_pos.2 hn)
  have := Int.emod_nonneg ((a : Int) - b) (Int.natCast_ne_zero.2 hn.ne')
  unfold subMod
  omega

theorem subMod_add (a b : Nat) {n : Nat} (hn : 0 < n) : (subMod a b n + b) % n = a % n := by
  have hcast : ((subMod a b n : Nat) : Int) = ((a : Int) - b) % n :=
    Int.toNat_of_nonneg (Int.emod_nonneg _ (Int.natCast_ne_zero.2 hn.ne'))
  have hint : (((subMod a b n + b) % n : Nat) : Int) = ((a % n : Nat) : Int) := by
    rw [Int.natCast_emod, Nat.cast_add, hcast, Int.emod_add_emod, Int.sub_add_cancel, Int.natCast_emod]
  exact Int.natCast_inj.1 hint

theorem accumulated_maskedArg (s : State) (c : Ch) :
    s.accumulated c s.maskedArg = ((s.acc.get c).toNat + argument s) % s.alpha := by
  rw [State.accumulated, maskedArg_eq, alphabet_eq, Nat.add_mod_mod]

/-- Settles O28. -/
theorem predictorCommandsComplete : Obligations.PredictorCommandsComplete := by
  intro s c hformat
  have hsmall : ∀ n < s.alpha, (BitVec.ofNat 64 n).toNat = n := fun n hn => by
    have := s.alpha_le
    simp only [Config.symbols] at this
    rw [BitVec.toNat_ofNat, Nat.mod_eq_of_lt (by omega)]
  rw [alphabet_eq]
  refine ⟨⟨_, update_completes hformat _, rfl, fun d => ?_, ?_⟩, ⟨_, update_completes hformat _, rfl, fun d => ?_, ?_⟩⟩
  · rw [← alphabet_eq, ← maskedArg_eq]
    exact Quad.get_set _ _ _ _
  · have hlt : s.delta c s.maskedArg < s.alpha := subMod_lt _ _ s.alpha_pos
    have hresult := (result_setResult (s.setPrev c s.maskedArg) (BitVec.ofNat 64 (s.delta c s.maskedArg))).trans
      (hsmall _ hlt)
    refine ⟨hresult.trans_lt hlt, (congrArg (fun r => (r + (s.prev.get c).toNat) % s.alpha) hresult).trans ?_⟩
    rw [State.delta, subMod_add _ _ s.alpha_pos, maskedArg_eq, alphabet_eq, Nat.mod_mod]
  · rw [← accumulated_maskedArg]
    exact Quad.get_set _ _ _ _
  · rw [← accumulated_maskedArg]
    exact (result_setResult (s.setAcc c (s.accumulated c s.maskedArg)) _).trans (hsmall _ (Nat.mod_lt _ s.alpha_pos))

/-! ### CSC and SCALE (R142, R143) -/

theorem clip_eq (x : Int) : clip x = clip255 x := by
  unfold clip clip255
  split_ifs <;> omega

theorem clip255_le (x : Int) : clip255 x ≤ 255 := by
  unfold clip255
  split_ifs <;> omega

theorem cscPixel_eq (y u v : Nat) : cscPixel y u v = ⟨colour y u v 2, colour y u v 1, colour y u v 0⟩ := by
  simp only [cscPixel, clip_eq, colour, if_true, OfNat.ofNat_ne_zero, one_ne_zero, OfNat.ofNat_ne_one, if_false]

theorem colour_le (y u v i : Nat) : colour y u v i ≤ 255 := by
  unfold colour
  split_ifs <;> exact clip255_le _

theorem argByte_eq (s : State) (i : Nat) : s.argByte i = argument s / 2 ^ (8 * i) % 256 := by
  rw [State.argByte, argument_eq]

/-- Settles O30. -/
theorem pixelCommandsComplete : Obligations.PixelCommandsComplete := by
  intro s hformat
  refine ⟨(update_completes hformat _).trans (congrArg completed ?_), (update_completes hformat _).trans (congrArg completed ?_)⟩
  · have hr := colour_le (s.argByte 0) (s.argByte 1) (s.argByte 2) 2
    have hg := colour_le (s.argByte 0) (s.argByte 1) (s.argByte 2) 1
    have hb := colour_le (s.argByte 0) (s.argByte 1) (s.argByte 2) 0
    simp only [cscPixel_eq, Rgb.word]
    rw [setResult_ofNat (by omega)]
    simp only [argByte_eq, Nat.mul_zero, Nat.pow_zero, Nat.div_one, Nat.reduceMul, Nat.reducePow]
  · have hnarrow : narrow s.bw s.maskedArg < 2 ^ 32 := by
      have hle := Nat.div_le_self s.maskedArg (2 ^ (s.bw - 8))
      have hlt : s.maskedArg < s.alpha := Nat.mod_lt _ s.alpha_pos
      have halpha := s.alpha_le
      simp only [Config.symbols] at halpha
      unfold narrow
      omega
    rw [setResult_ofNat hnarrow, narrow, maskedArg_eq, bitWidth_eq]

end Sys2Proof.Machine
end

section
/-! SUPPORT. Lists of bits and the numbers they write. -/

namespace Sys2Proof.Machine

open Spec (valueOf bitsOf)

/-! ### The number of a list of bits, most significant first -/

@[simp] theorem valueOf_nil : valueOf [] = 0 := rfl

@[simp] theorem valueOf_concat (l : List Bool) (b : Bool) : valueOf (l ++ [b]) = 2 * valueOf l + b.toNat :=
  List.foldl_append.trans rfl

theorem valueOf_append (l m : List Bool) : valueOf (l ++ m) = valueOf l * 2 ^ m.length + valueOf m := by
  induction m using List.reverseRecOn with
  | nil => simp
  | append_singleton m b ih =>
    rw [← List.append_assoc, valueOf_concat, valueOf_concat, ih, List.length_append, List.length_singleton, Nat.pow_succ]
    ring

theorem valueOf_lt (l : List Bool) : valueOf l < 2 ^ l.length := by
  induction l using List.reverseRecOn with
  | nil => exact Nat.one_pos
  | append_singleton l b ih =>
    have hb := b.toNat_le
    rw [valueOf_concat, List.length_append, List.length_singleton, Nat.pow_succ]
    omega

/-! ### The low bits of a number -/

@[simp] theorem bitsOf_length (n v : Nat) : (bitsOf n v).length = n := by simp [bitsOf]

@[simp] theorem bitsOf_zero (v : Nat) : bitsOf 0 v = [] := rfl

theorem bitsOf_succ (n v : Nat) : bitsOf (n + 1) v = v.testBit n :: bitsOf n v := by
  rw [bitsOf, bitsOf, List.range_succ_eq_map, List.map_cons, List.map_map]
  refine congrArg₂ _ rfl (List.map_congr_left fun i _ => ?_)
  simp only [Function.comp_apply]
  congr 1
  omega

theorem bitsOf_succ_concat (n a : Nat) (b : Bool) : bitsOf (n + 1) (2 * a + b.toNat) = bitsOf n a ++ [b] := by
  have hb := b.toNat_le
  rw [bitsOf, bitsOf, List.range_succ, List.map_append]
  refine congrArg₂ _ (List.map_congr_left fun i hi => ?_) ?_
  · rw [List.mem_range] at hi
    rw [show n + 1 - 1 - i = n - 1 - i + 1 by omega, Nat.testBit_succ, show (2 * a + b.toNat) / 2 = a by omega]
  · rw [List.map_singleton, show n + 1 - 1 - n = 0 by omega, Nat.testBit_zero]
    cases b <;> simp

theorem bitsOf_valueOf (l : List Bool) : bitsOf l.length (valueOf l) = l := by
  induction l using List.reverseRecOn with
  | nil => rfl
  | append_singleton l b ih => rw [valueOf_concat, List.length_append, List.length_singleton, bitsOf_succ_concat, ih]

theorem valueOf_bitsOf (n v : Nat) : valueOf (bitsOf n v) = v % 2 ^ n := by
  induction n generalizing v with
  | zero => simp [Nat.mod_one]
  | succ n ih =>
    have hbit : (v.testBit 0).toNat = v % 2 := by rw [Nat.testBit_zero]; rcases Nat.mod_two_eq_zero_or_one v with h | h <;> simp [h]
    have hv : v = 2 * (v / 2) + (v.testBit 0).toNat := by omega
    conv_lhs => rw [hv, bitsOf_succ_concat, valueOf_concat, ih, hbit]
    rw [Nat.pow_succ', Nat.mod_mul]
    omega

end Sys2Proof.Machine
end

section
/-! SUPPORT. The paths of a stored tree: how a walk goes on, which node a path reaches, and that a leaf ends it. -/

namespace Sys2Proof.Spec

open Sys2Proof.Machine (Node)

variable {t : Tree} {p q : List Bool} {i j v w : Nat} {r : BitVec 16} {b : Bool}

namespace Tree

/-! ### Walks -/

theorem follow_singleton (t : Tree) (b : Bool) (i : Nat) : t.follow [b] i = t.nodes[i]?.map (·.child b) := by
  unfold follow
  cases t.nodes[i]? <;> simp [Node.child]

theorem follow_cons (hq : q ≠ []) : t.follow (b :: q) i = some r ↔
    ∃ n, t.nodes[i]? = some n ∧ 0x8000 ≤ (n.child b).toNat ∧ t.follow q ((n.child b).toNat - 0x8000) = some r := by
  conv_lhs => unfold follow
  cases t.nodes[i]? with
  | none => simp
  | some n => simp [hq, Node.child]

theorem follow_append (hp : p ≠ []) (hq : q ≠ []) : t.follow (p ++ q) i = some r ↔
    ∃ x, t.follow p i = some x ∧ 0x8000 ≤ x.toNat ∧ t.follow q (x.toNat - 0x8000) = some r := by
  induction p generalizing i with
  | nil => exact absurd rfl hp
  | cons b p ih =>
    rw [List.cons_append, follow_cons (List.append_ne_nil_of_right_ne_nil p hq)]
    by_cases hnil : p = []
    · subst hnil
      simp [follow_singleton]
    · simp only [ih hnil, follow_cons hnil]
      constructor
      · rintro ⟨n, hn, hle, x, hx, hrest⟩
        exact ⟨x, ⟨n, hn, hle, hx⟩, hrest⟩
      · rintro ⟨x, ⟨n, hn, hle, hx⟩, hrest⟩
        exact ⟨n, hn, hle, x, hx, hrest⟩

/-- Path `p` from the root ends at node `i`. -/
def Reaches (t : Tree) (p : List Bool) (i : Nat) : Prop :=
  p = [] ∧ i = t.root ∨ ∃ r, t.follow p t.root = some r ∧ 0x8000 ≤ r.toNat ∧ i = r.toNat - 0x8000

theorem reaches_root (t : Tree) : t.Reaches [] t.root := .inl ⟨rfl, rfl⟩

theorem Reaches.follow (h : t.Reaches p i) (hq : q ≠ []) : t.follow (p ++ q) t.root = some r ↔ t.follow q i = some r := by
  obtain ⟨rfl, rfl⟩ | ⟨x, hx, hle, hi⟩ := h
  · rfl
  · have hp : p ≠ [] := by rintro rfl; cases hx
    rw [follow_append hp hq, hi]
    constructor
    · rintro ⟨y, hy, -, hr⟩
      cases hx.symm.trans hy
      exact hr
    · exact fun hr => ⟨x, hx, hle, hr⟩

/-- The reference at the end of a path one longer. -/
theorem Reaches.child {n : Node} (h : t.Reaches p i) (hn : t.nodes[i]? = some n) (b : Bool) :
    t.follow (p ++ [b]) t.root = some (n.child b) := by
  rw [h.follow (List.cons_ne_nil b []), follow_singleton, hn]
  rfl

/-- In a tree without shared nodes a node is reached by one path. -/
theorem Unshared.path_unique (h : t.Unshared) (hp : t.Reaches p i) (hq : t.Reaches q i) : p = q := by
  obtain ⟨rfl, rfl⟩ | ⟨x, hx, hxle, hxi⟩ := hp
  · obtain ⟨rfl, -⟩ | ⟨y, hy, hyle, hyi⟩ := hq
    · rfl
    · exact absurd hyi.symm (h q q y hy hy hyle).2
  · obtain ⟨rfl, rfl⟩ | ⟨y, hy, hyle, hyi⟩ := hq
    · exact absurd hxi.symm (h p p x hx hx hxle).2
    · obtain rfl : x = y := BitVec.eq_of_toNat_eq (by omega)
      exact (h p q x hx hy hxle).1

/-! ### Leaves -/

theorem codePath_iff (h : t.nodes ≠ []) :
    t.CodePath v p ↔ ∃ r, t.follow p t.root = some r ∧ r.toNat < 0x8000 ∧ r.toNat = v := by
  rw [CodePath, if_neg h]

/-- Below a leaf there is nothing. -/
theorem not_codePath_append (hr : t.follow p t.root = some r) (hlt : r.toNat < 0x8000) (hq : q ≠ [])
    (h : t.nodes ≠ []) : ¬t.CodePath v (p ++ q) := by
  have hp : p ≠ [] := by rintro rfl; cases hr
  rw [codePath_iff h]
  rintro ⟨x, hx, -⟩
  obtain ⟨y, hy, hle, -⟩ := (follow_append hp hq).1 hx
  cases hr.symm.trans hy
  omega

/-- No code path is the beginning of another (R79). -/
theorem codePath_of_prefix (hp : t.CodePath v p) (hq : t.CodePath w q) (h : p <+: q) : v = w := by
  by_cases hnil : t.nodes = []
  · rw [CodePath, if_pos hnil] at hp hq
    exact hp.2.symm.trans hq.2
  · obtain ⟨x, hx, hlt, rfl⟩ := (codePath_iff hnil).1 hp
    obtain ⟨rest, rfl⟩ := h
    by_cases hrest : rest = []
    · subst hrest
      rw [List.append_nil] at hq
      obtain ⟨y, hy, -, rfl⟩ := (codePath_iff hnil).1 hq
      cases hx.symm.trans hy
      rfl
    · exact absurd hq (not_codePath_append hx hlt hrest hnil)

/-- A path that ends at a node has no code. -/
theorem Reaches.not_codePath (h : t.Reaches p i) (hnil : t.nodes ≠ []) : ¬t.CodePath v p := by
  rw [codePath_iff hnil]
  rintro ⟨x, hx, hlt, -⟩
  obtain ⟨rfl, -⟩ | ⟨y, hy, hle, -⟩ := h
  · cases hx
  · cases hx.symm.trans hy
    omega

end Tree

/-! ### The order of a walk (R105) -/

theorem walkedBefore_of_branch (p x y : List Bool) : walkedBefore (p ++ false :: x) (p ++ true :: y) = true := by
  induction p with
  | nil => rfl
  | cons b p ih => simpa [walkedBefore] using ih

theorem not_walkedBefore_of_branch (p x y : List Bool) : walkedBefore (p ++ true :: y) (p ++ false :: x) = false := by
  induction p with
  | nil => rfl
  | cons b p ih => simpa [walkedBefore] using ih

theorem walkedBefore_asymm (h : walkedBefore p q = true) : walkedBefore q p = false := by
  induction p generalizing q with
  | nil => cases h
  | cons a p ih =>
    cases q with
    | nil => cases h
    | cons b q =>
      by_cases hab : a = b
      · subst hab
        simp only [walkedBefore, if_true] at h ⊢
        exact ih h
      · cases a <;> cases b <;> simp_all [walkedBefore]

end Sys2Proof.Spec
end

section
/-! SUPPORT. CODE_GEN: the walk over a legal tree gives each symbol the path walked last (O35, O38). -/

namespace Sys2Proof.Machine

open Spec

variable {s u x : State} {t : Tree} {c : Ch} {p q : List Bool} {i v : Nat}

/-! ### Stored trees -/

theorem treeOf_nodes_getElem? (s : State) (c : Ch) (i : Nat) :
    (treeOf s c).nodes[i]? = if i < (s.ncount.get c).toNat then some (s.nodeAt c i) else none := by
  rw [treeOf, List.getElem?_map]
  by_cases h : i < (s.ncount.get c).toNat
  · rw [if_pos h, List.getElem?_range h]
    rfl
  · rw [if_neg h, List.getElem?_eq_none (by simpa using h)]
    rfl

theorem treeOf_nodes_length (s : State) (c : Ch) : (treeOf s c).nodes.length = (s.ncount.get c).toNat := by simp [treeOf]

theorem treeOf_nodes_eq_nil : (treeOf s c).nodes = [] ↔ (s.ncount.get c).toNat = 0 := by
  rw [← List.length_eq_zero_iff, treeOf_nodes_length]

theorem refLegal_iff {a n : Nat} {r : BitVec 16} : RefLegal a n r ↔ refOk a n r = true := by
  have hleaf : Config.leafLimit = 0x8000 := rfl
  unfold RefLegal refOk
  rw [hleaf]
  by_cases h : r.toNat < 0x8000 <;> simp [h]

/-- ValidateTree accepts the legal trees (R109). -/
theorem legal_iff : (treeOf s c).Legal (alphabet s) ↔ s.treeFault c = none := by
  simp only [Tree.Legal, treeOf_nodes_length, treeOf_nodes_eq_nil, alphabet_eq]
  have hrefs : (∀ n ∈ (treeOf s c).nodes, RefLegal s.alpha (s.ncount.get c).toNat n.left ∧
      RefLegal s.alpha (s.ncount.get c).toNat n.right) ↔ s.refsOk c = true := by
    simp [treeOf, State.refsOk, refLegal_iff]
  rw [hrefs]
  unfold State.treeFault
  show _ ∧ (if _ then (s.root.get c).toNat < _ else (s.root.get c).toNat < _) ∧ _ ↔ _
  have hempty : (s.ncount.get c).toNat = 0 → s.refsOk c = true := fun h => by simp [State.refsOk, h]
  split_ifs <;> simp_all

/-! ### What a walk leaves in the code table -/

/-- The code of a leaf at path `p` (R106). -/
def codeOf (p : List Bool) : CodeEntry := ⟨true, BitVec.ofNat 7 p.length, BitVec.ofNat 64 (valueOf p)⟩

theorem codeBits_codeOf (h : p.length ≤ 64) : codeBits (codeOf p) = p := by
  have hlt := valueOf_lt p
  have hpow : 2 ^ p.length ≤ 2 ^ 64 := Nat.pow_le_pow_right (by decide) h
  rw [codeBits, codeOf, BitVec.toNat_ofNat, BitVec.toNat_ofNat, Nat.mod_eq_of_lt (by omega), Nat.mod_eq_of_lt (by omega),
    bitsOf_valueOf]

/-- Among the code paths of symbol `v` that begin with `p`, `q` is walked last, and it is no longer than 64. -/
structure LastBelow (t : Tree) (p : List Bool) (v : Nat) (q : List Bool) : Prop where
  below : p <+: q
  code : t.CodePath v q
  short : q.length ≤ 64
  last : ∀ o, p <+: o → t.CodePath v o → o = q ∨ walkedBefore o q = true

/-- From `s` to `u` the walk below path `p` gave every symbol with a leaf there the path walked last, and changed no more. -/
structure CodesBelow (t : Tree) (c : Ch) (p : List Bool) (s u : State) : Prop where
  same : ∃ l, u = { s with code := l }
  rising : Rising u
  codes : ∀ v < Config.symbols, (∃ q, LastBelow t p v q ∧ u.codeAt c v = codeOf q) ∨
    (∀ q, p <+: q → ¬t.CodePath v q) ∧ u.codeAt c v = s.codeAt c v

/-- A path to a leaf below a node goes on left or right. -/
theorem below_child (h : t.Reaches p i) (hnil : t.nodes ≠ []) (hpq : p <+: q) (hq : t.CodePath v q) :
    p ++ [false] <+: q ∨ p ++ [true] <+: q := by
  obtain ⟨rest, rfl⟩ := hpq
  cases rest with
  | nil => exact absurd (List.append_nil p ▸ hq) (h.not_codePath hnil)
  | cons b rest =>
    have hb : p ++ [b] <+: p ++ b :: rest := ⟨rest, by simp⟩
    cases b
    · exact .inl hb
    · exact .inr hb

theorem below_of_child {b : Bool} (h : p ++ [b] <+: q) : p <+: q := (List.prefix_append p [b]).trans h

theorem walkedBefore_of_below (hp : p ++ [false] <+: q) {o : List Bool} (ho : p ++ [true] <+: o) :
    walkedBefore q o = true ∧ walkedBefore o q = false := by
  obtain ⟨x, rfl⟩ := hp
  obtain ⟨y, rfl⟩ := ho
  simp only [List.append_assoc, List.singleton_append]
  exact ⟨walkedBefore_of_branch p x y, not_walkedBefore_of_branch p x y⟩

/-- The walk below the left child and then below the right one. -/
theorem CodesBelow.children (h : t.Reaches p i) (hnil : t.nodes ≠ []) (hl : CodesBelow t c (p ++ [false]) s x)
    (hr : CodesBelow t c (p ++ [true]) x u) : CodesBelow t c p s u := by
  obtain ⟨k, hk⟩ := hl.same
  obtain ⟨l, hl'⟩ := hr.same
  refine ⟨⟨l, by rw [hl', hk]⟩, hr.rising, fun v hv => ?_⟩
  obtain ⟨q, hq, hcode⟩ | ⟨hno, hsame⟩ := hr.codes v hv
  · refine .inl ⟨q, ⟨below_of_child hq.below, hq.code, hq.short, fun o ho hov => ?_⟩, hcode⟩
    obtain ho | ho := below_child h hnil ho hov
    · exact .inr (walkedBefore_of_below ho hq.below).1
    · exact hq.last o ho hov
  · obtain ⟨q, hq, hcode⟩ | ⟨hno', hsame'⟩ := hl.codes v hv
    · refine .inl ⟨q, ⟨below_of_child hq.below, hq.code, hq.short, fun o ho hov => ?_⟩, hsame.trans hcode⟩
      obtain ho | ho := below_child h hnil ho hov
      · exact hq.last o ho hov
      · exact absurd hov (hno o ho)
    · refine .inr ⟨fun o ho hov => ?_, hsame.trans hsame'⟩
      obtain ho | ho := below_child h hnil ho hov
      · exact hno' o ho hov
      · exact hno o ho hov

/-! ### The walk (R106) -/

/-- Before node `i` at the end of path `p` is visited: every node seen so far is on a path that does not begin with `p`. -/
structure Pending (t : Tree) (p : List Bool) (seen : List Nat) : Prop where
  nodup : seen.Nodup
  below : ∀ j ∈ seen, j < t.nodes.length
  apart : ∀ j ∈ seen, ∃ q, t.Reaches q j ∧ ¬p <+: q

/-- After the walk below path `p`: the nodes seen since are on paths that begin with `p`. -/
structure Visited (t : Tree) (p : List Bool) (seen seen' : List Nat) : Prop where
  nodup : seen'.Nodup
  below : ∀ j ∈ seen', j < t.nodes.length
  grows : seen.length ≤ seen'.length
  reached : ∀ j ∈ seen', j ∈ seen ∨ ∃ q, t.Reaches q j ∧ p <+: q

/-- How the walk below path `p` ends: with its codes, or with the error that says what is wrong with the tree (R106). -/
def WalkEnds (t : Tree) (c : Ch) (p : List Bool) (s : State) (seen : List Nat) (x : EStateM.Result Stop State (List Nat)) :
    Prop :=
  (∃ seen' u, x = .ok seen' u ∧ CodesBelow t c p s u ∧ Visited t p seen seen') ∨
    (∃ u, x = .error (.raise .badRef (chanInfo c)) u ∧ ¬t.Unshared) ∨
    ∃ u, x = .error (.raise .codeOverflow (chanInfo c)) u ∧ ¬t.Shallow

variable {seen seen' : List Nat} {b : Bool} {r : BitVec 16} {a : Nat}

theorem not_prefix_of_longer : ¬p ++ [b] <+: p := fun h => by simpa using h.length_le

theorem not_prefix_both (h : p ++ [false] <+: q) : ¬p ++ [true] <+: q := by
  rintro ⟨y, hy⟩
  obtain ⟨x, rfl⟩ := h
  simp at hy

theorem Pending.nodup_cons (h : Pending t p seen) (hi : t.Reaches p i) (hnew : i ∉ seen) (hlt : i < t.nodes.length) (b : Bool) :
    Pending t (p ++ [b]) (i :: seen) where
  nodup := List.nodup_cons.2 ⟨hnew, h.nodup⟩
  below := List.forall_mem_cons.2 ⟨hlt, h.below⟩
  apart := List.forall_mem_cons.2 ⟨⟨p, hi, not_prefix_of_longer⟩, fun j hj => by
    obtain ⟨q, hq, hno⟩ := h.apart j hj
    exact ⟨q, hq, fun hb => hno (below_of_child hb)⟩⟩

theorem Visited.pending (h : Visited t (p ++ [false]) seen seen') (hs : Pending t (p ++ [true]) seen) :
    Pending t (p ++ [true]) seen' where
  nodup := h.nodup
  below := h.below
  apart j hj := by
    obtain hj | ⟨q, hq, hpre⟩ := h.reached j hj
    · exact hs.apart j hj
    · exact ⟨q, hq, not_prefix_both hpre⟩

/-- The nodes seen below the left child and then below the right one. -/
theorem Visited.children {all : List Nat} (hi : t.Reaches p i) (hl : Visited t (p ++ [false]) (i :: seen) seen')
    (hr : Visited t (p ++ [true]) seen' all) : Visited t p seen all where
  nodup := hr.nodup
  below := hr.below
  grows := (Nat.le_succ _).trans (hl.grows.trans hr.grows)
  reached j hj := by
    obtain hj | ⟨q, hq, hpre⟩ := hr.reached j hj
    · obtain hj | ⟨q, hq, hpre⟩ := hl.reached j hj
      · obtain rfl | hj := List.mem_cons.1 hj
        · exact .inr ⟨p, hi, List.prefix_rfl⟩
        · exact .inl hj
      · exact .inr ⟨q, hq, below_of_child hpre⟩
    · exact .inr ⟨q, hq, below_of_child hpre⟩

/-- A node seen twice is shared (R106). -/
theorem Pending.shared (h : Pending t p seen) (hi : t.Reaches p i) (hseen : i ∈ seen) : ¬t.Unshared := fun hu => by
  obtain ⟨q, hq, hno⟩ := h.apart i hseen
  exact hno (hu.path_unique hi hq ▸ List.prefix_rfl)

theorem writeCode_run (c : Ch) (sym len path : Nat) (s : State) :
    writeCode c sym len path s = if 64 < len then .error (.raise .codeOverflow (chanInfo c)) s
      else .ok () (s.setCode c sym ⟨true, BitVec.ofNat 7 len, BitVec.ofNat 64 path⟩) := by
  have hmax : Config.maxCodeLen = 64 := rfl
  unfold writeCode
  rw [hmax]
  split <;> rfl

/-- The code of a leaf at path `p`. -/
theorem CodesBelow.leaf (hs : Rising s) (hnil : t.nodes ≠ []) (hr : t.follow p t.root = some r) (hlt : r.toNat < 0x8000)
    (hsym : r.toNat < Config.symbols) (hlen : p.length ≤ 64) : CodesBelow t c p s (s.setCode c r.toNat (codeOf p)) := by
  have honly : ∀ v o, p <+: o → t.CodePath v o → o = p ∧ v = r.toNat := by
    rintro v _ ⟨rest, rfl⟩ ho
    cases rest with
    | nil =>
      rw [List.append_nil] at ho ⊢
      obtain ⟨y, hy, -, rfl⟩ := (Tree.codePath_iff hnil).1 ho
      exact ⟨rfl, by rw [Option.some.inj (hr.symm.trans hy)]⟩
    | cons d rest => exact absurd ho (Tree.not_codePath_append hr hlt (List.cons_ne_nil d rest) hnil)
  refine ⟨⟨_, rfl⟩, hs.setCode c _ _, fun v hv => ?_⟩
  rw [hs.codeAt_setCode hsym hv]
  by_cases hvr : v = r.toNat
  · refine .inl ⟨p, ⟨List.prefix_rfl, ?_, hlen, fun o ho hov => .inl (honly v o ho hov).1⟩, if_pos ⟨rfl, hvr⟩⟩
    exact (Tree.codePath_iff hnil).2 ⟨r, hr, hlt, hvr.symm⟩
  · exact .inr ⟨fun o ho hov => hvr (honly v o ho hov).2, if_neg fun hc => hvr hc.2⟩

theorem visitChild_ends {down : Nat → Nat → Nat → List Nat → Cmd (List Nat)} (hs : Rising s) (hnil : t.nodes ≠ [])
    (hseen : Pending t p seen) (hr : t.follow p t.root = some r) (hlegal : RefLegal a t.nodes.length r)
    (ha : a ≤ Config.symbols)
    (hdown : ∀ j, t.Reaches p j → j < t.nodes.length → WalkEnds t c p s seen (down j p.length (valueOf p) seen s)) :
    WalkEnds t c p s seen (visitChild c down r p.length (valueOf p) seen s) := by
  unfold RefLegal at hlegal
  have hleaf : Config.leafLimit = 0x8000 := rfl
  unfold visitChild
  rw [hleaf]
  by_cases hlt : r.toNat < 0x8000
  · rw [if_pos hlt] at hlegal
    rw [if_pos hlt, Cmd.bind_run, writeCode_run]
    by_cases hlen : 64 < p.length
    · rw [if_pos hlen]
      exact .inr (.inr ⟨s, rfl, fun hshallow => absurd (hshallow p r hr hlt) (not_le.2 hlen)⟩)
    · rw [if_neg hlen]
      exact .inl ⟨seen, _, rfl, .leaf hs hnil hr hlt (hlegal.trans_le ha) (not_lt.1 hlen),
        ⟨hseen.nodup, hseen.below, le_rfl, fun j hj => .inl hj⟩⟩
  · rw [if_neg hlt] at hlegal
    rw [if_neg hlt]
    exact hdown _ (.inr ⟨r, hr, not_lt.1 hlt, rfl⟩) hlegal

/-- The walk from node `i` at the end of path `p`. The fuel is not used up: every node seen is another one. -/
theorem visit_ends (hlegal : t.Legal a) (ha : a ≤ Config.symbols) (hnil : t.nodes ≠ []) {fuel : Nat} (hs : Rising s)
    (htree : treeOf s c = t) (hi : t.Reaches p i) (hlt : i < t.nodes.length) (hseen : Pending t p seen)
    (hfuel : t.nodes.length + 1 ≤ fuel + seen.length) :
    WalkEnds t c p s seen (visit c fuel i p.length (valueOf p) seen s) := by
  induction fuel generalizing s i p seen with
  | zero =>
    have hcard := (List.Nodup.subperm hseen.nodup fun j hj => List.mem_range.2 (hseen.below j hj)).length_le
    rw [List.length_range] at hcard
    omega
  | succ fuel ih =>
    unfold visit
    by_cases hin : i ∈ seen
    · rw [if_pos (by simpa using hin)]
      exact .inr (.inl ⟨s, rfl, hseen.shared hi hin⟩)
    rw [if_neg (by simpa using hin), Cmd.get_bind_run]
    have hnode : t.nodes[i]? = some (s.nodeAt c i) := by
      rw [← htree] at hlt ⊢
      rw [treeOf_nodes_getElem?, if_pos (treeOf_nodes_length s c ▸ hlt)]
    obtain ⟨hleft, hright⟩ := hlegal.2.2 _ (List.mem_of_getElem? hnode)
    have hpath : valueOf (p ++ [false]) = 2 * valueOf p := valueOf_concat p false
    have hpath' : valueOf (p ++ [true]) = 2 * valueOf p + 1 := valueOf_concat p true
    have hlen (b : Bool) : (p ++ [b]).length = p.length + 1 := List.length_append
    have hpend (b : Bool) : Pending t (p ++ [b]) (i :: seen) := hseen.nodup_cons hi hin hlt b
    have hl : WalkEnds t c (p ++ [false]) s (i :: seen)
        (visitChild c (visit c fuel) (s.nodeAt c i).left (p ++ [false]).length (valueOf (p ++ [false])) (i :: seen) s) :=
      visitChild_ends hs hnil (hpend false) (hi.child hnode false) hleft ha fun j hj hjlt =>
        ih hs htree hj hjlt (hpend false) (by rw [List.length_cons]; omega)
    rw [hlen, hpath] at hl
    obtain ⟨seen', x, hx, hcodes, hvisited⟩ | hbad := hl
    · rw [Cmd.bind_run_ok hx]
      obtain ⟨l, hl⟩ := hcodes.same
      have htree' : treeOf x c = t := by rw [hl]; exact htree
      have hgrows : seen.length + 1 ≤ seen'.length := hvisited.grows
      have hr : WalkEnds t c (p ++ [true]) x seen'
          (visitChild c (visit c fuel) (s.nodeAt c i).right (p ++ [true]).length (valueOf (p ++ [true])) seen' x) :=
        visitChild_ends hcodes.rising hnil (hvisited.pending (hpend true)) (hi.child hnode true) hright ha fun j hj hjlt =>
          ih hcodes.rising htree' hj hjlt (hvisited.pending (hpend true)) (by omega)
      rw [hlen, hpath'] at hr
      obtain ⟨seen'', u, hu, hcodes', hvisited'⟩ | hbad := hr
      · exact .inl ⟨seen'', u, hu, hcodes.children hi hnil hcodes', hvisited.children hi hvisited'⟩
      · exact .inr hbad
    · obtain ⟨u, hu, h⟩ | ⟨u, hu, h⟩ := hbad <;> rw [Cmd.bind_run_error hu]
      · exact .inr (.inl ⟨u, rfl, h⟩)
      · exact .inr (.inr ⟨u, rfl, h⟩)

/-! ### CODE_GEN (R106) -/

/-- The code of a channel without nodes. -/
theorem CodesBelow.degenerate (hs : Rising s) (hnil : t.nodes = []) (hroot : t.root < Config.symbols) :
    CodesBelow t c [] s (s.setCode c t.root (codeOf [])) := by
  have hpath : ∀ v q, t.CodePath v q ↔ q = [] ∧ t.root = v := fun v q => by rw [Tree.CodePath, if_pos hnil]
  refine ⟨⟨_, rfl⟩, hs.setCode c _ _, fun v hv => ?_⟩
  rw [hs.codeAt_setCode hroot hv]
  by_cases hvr : v = t.root
  · refine .inl ⟨[], ⟨List.prefix_rfl, (hpath v []).2 ⟨rfl, hvr.symm⟩, by decide, fun o _ ho => ?_⟩, if_pos ⟨rfl, hvr⟩⟩
    exact .inl ((hpath v o).1 ho).1
  · exact .inr ⟨fun o _ ho => hvr ((hpath v o).1 ho).2.symm, if_neg fun hc => hvr hc.2⟩

/-- How CODE_GEN ends on a legal tree. -/
theorem codeGenBody_ends (hs : Rising s) (hlegal : s.treeFault c = none) :
    (∃ u, codeGenBody c s = .ok () u ∧ CodesBelow (treeOf s c) c [] (s.clearCodes c) u) ∨
      (∃ u, codeGenBody c s = .error (.raise .badRef (chanInfo c)) u ∧ ¬(treeOf s c).Unshared) ∨
        ∃ u, codeGenBody c s = .error (.raise .codeOverflow (chanInfo c)) u ∧ ¬(treeOf s c).Shallow := by
  have hclear := hs.clearCodes c
  have hroot := State.root_of_treeFault hlegal
  have hvalid : validateTree c s = .ok () s := by rw [validateTree_run, hlegal]
  have hrun : codeGenBody c s = (if (s.ncount.get c).toNat = 0 then
      modify fun t => t.setCode c (s.root.get c).toNat (codeOf [])
    else visit c ((s.ncount.get c).toNat + 1) (s.root.get c).toNat 0 0 [] >>= fun _ => pure () : Cmd Unit) (s.clearCodes c) :=
    Cmd.bind_run_ok hvalid
  rw [hrun]
  by_cases hnil : (s.ncount.get c).toNat = 0
  · rw [if_pos hnil] at hroot ⊢
    exact .inl ⟨_, rfl, .degenerate hclear (treeOf_nodes_eq_nil.2 hnil) (hroot.trans_le s.alpha_le)⟩
  · rw [if_neg hnil] at hroot ⊢
    have hends := visit_ends (c := c) (a := alphabet s) (legal_iff.2 hlegal) (alphabet_eq s ▸ s.alpha_le)
      (mt treeOf_nodes_eq_nil.1 hnil) hclear rfl (Tree.reaches_root _) (hroot.trans_eq (treeOf_nodes_length s c).symm)
      ⟨List.nodup_nil, nofun, nofun⟩ (fuel := (s.ncount.get c).toNat + 1) (by rw [treeOf_nodes_length]; rfl)
    obtain ⟨seen, u, hu, hcodes, -⟩ | ⟨u, hu, hbad⟩ | ⟨u, hu, hbad⟩ := hends
    · exact .inl ⟨u, Cmd.bind_run_ok hu, hcodes⟩
    · exact .inr (.inl ⟨u, Cmd.bind_run_error hu, hbad⟩)
    · exact .inr (.inr ⟨u, Cmd.bind_run_error hu, hbad⟩)

/-- In a channel whose codes were cleared, an entry is the code of the path walked last, or invalid. -/
theorem CodesBelow.codeAt (h : CodesBelow t c [] (s.clearCodes c) u) (hs : Rising s) (hv : v < Config.symbols) :
    (∃ q, LastBelow t [] v q ∧ u.codeAt c v = codeOf q) ∨ (∀ q, ¬t.CodePath v q) ∧ u.codeAt c v = CodeEntry.none := by
  obtain hq | ⟨hno, hsame⟩ := h.codes v hv
  · exact .inl hq
  · exact .inr ⟨fun q => hno q List.nil_prefix, hsame.trans ((hs.codeAt_clearCodes hv).trans (if_pos rfl))⟩

/-- Settles O35. -/
theorem codeGenAssignsPaths : Obligations.CodeGenAssignsPaths := by
  intro s c h hformat hlegal hunshared hshallow
  obtain ⟨u, hu, hcodes⟩ | ⟨_, _, hbad⟩ | ⟨_, _, hbad⟩ := codeGenBody_ends h.rising (legal_iff.1 hlegal)
  case inr.inl => exact absurd hunshared hbad
  case inr.inr => exact absurd hshallow hbad
  have hexec : exec (.codeGen c) s = .next u.finish := command_of_ok (Cmd.bind_run_ok (checkCfg_ok hformat) |>.trans hu)
  obtain ⟨l, rfl⟩ := hcodes.same
  refine ⟨_, hexec, rfl, fun v hv p hp hlast => ?_, fun v hv hno => ?_, (codeGen_frame h hexec).2⟩
  · obtain ⟨q, hq, hcode⟩ | ⟨hno, -⟩ := hcodes.codeAt h.rising hv
    · obtain rfl | hpq := hq.last p List.nil_prefix hp
      · exact hcode
      · obtain rfl | hqp := hlast q hq.code
        · exact hcode
        · exact Bool.noConfusion (hqp.symm.trans (walkedBefore_asymm hpq))
    · exact absurd hp (hno p)
  · obtain ⟨q, hq, -⟩ | ⟨-, hcode⟩ := hcodes.codeAt h.rising hv
    · exact absurd ⟨q, hq.code⟩ hno
    · exact hcode

/-- A CODE_GEN that completes ran over a legal tree. -/
theorem codeGen_completed {t : State} (herr : s.err = false) (ht : exec (.codeGen c) s = .next t) (hno : t.err = false) :
    s.treeFault c = none ∧ ∃ u, codeGenBody c s = .ok () u ∧ t = u.finish := by
  obtain ⟨u, hu, hexec⟩ | ⟨e, info, u, -, hexec⟩ | ⟨r, u, -, hexec⟩ :=
      command_cases (checkCfg >>= fun _ => codeGenBody c) s <;> cases hexec.symm.trans ht
  · obtain ⟨_, x, hx, hbody⟩ := Cmd.bind_ok.1 hu
    have hsame : x = s := by
      rw [checkCfg_run] at hx
      split at hx <;> cases hx
      rfl
    subst hsame
    refine ⟨?_, u, hbody, rfl⟩
    cases hfault : x.treeFault c with
    | none => rfl
    | some e =>
      have hraise : codeGenBody c x = .error (.raise e (chanInfo c)) x :=
        Cmd.bind_run_error (by rw [validateTree_run, hfault])
      cases hraise.symm.trans hbody
  · cases hno

/-- Settles O38: every code of the channel is a path of one tree. -/
theorem codesArePrefixFree : Obligations.CodesArePrefixFree := by
  intro s t c h herr ht hno v hv w hw hne hvalid hwvalid hprefix
  obtain ⟨hlegal, u, hu, rfl⟩ := codeGen_completed herr ht hno
  obtain ⟨x, hx, hcodes⟩ | ⟨x, hx, -⟩ | ⟨x, hx, -⟩ := codeGenBody_ends h.rising hlegal <;> cases hx.symm.trans hu
  have hpath : ∀ y < 4096, (u.codeAt c y).valid = true → (treeOf s c).CodePath y (codeBits (u.codeAt c y)) :=
      fun y hy hyvalid => by
    obtain ⟨q, hq, hcode⟩ | ⟨-, hcode⟩ := hcodes.codeAt h.rising hy
    · rw [hcode, codeBits_codeOf hq.short]
      exact hq.code
    · rw [hcode] at hyvalid
      cases hyvalid
  exact hne (Tree.codePath_of_prefix (hpath v hv hvalid) (hpath w hw hwvalid) hprefix)

end Sys2Proof.Machine
end

section
/-! SUPPORT. The packer: what a run of WriteBit leaves, with room for its bytes and without (R113, R114). -/

namespace Sys2Proof.Machine

open Spec

variable {s t u : State} {l m : List Bool} {b : Bool} {n : Nat}

/-! ### Bits and bytes -/

/-- A whole byte of a list of bits stays when bits are appended. -/
theorem byte_append {j : Nat} (hj : j < l.length / 8) : ((l ++ m).drop (8 * j)).take 8 = (l.drop (8 * j)).take 8 := by
  rw [List.drop_append_of_le_length (by omega), List.take_append_of_le_length (by rw [List.length_drop]; omega)]

/-- (PK_ACC << 1) | b as a number, while PK_ACC has room (R114). -/
theorem toNat_shiftIn {acc : Byte} (h : acc.toNat < 128) (b : Bool) : (shiftIn acc b).toNat = 2 * acc.toNat + b.toNat := by
  have hb : ((BitVec.ofBool b).setWidth 8).toNat = b.toNat := by cases b <;> rfl
  have hshift : (acc <<< 1).toNat = 2 ^ 1 * acc.toNat := by
    rw [BitVec.toNat_shiftLeft, Nat.shiftLeft_eq]
    omega
  rw [shiftIn, BitVec.toNat_or, hshift, hb, ← Nat.two_pow_add_eq_or_of_lt b.toNat_lt]

theorem heldBits_length (p : Packer) : (heldBits p).length = p.fill.toNat := bitsOf_length _ _

/-! ### What has been written -/

/-- Address `a` is one of `n` bytes from the packer's of `s` on. -/
def Slot (s : State) (n a : Nat) : Prop := s.outAddr.toNat + s.pk.ptr.toNat ≤ a ∧ a < s.outAddr.toNat + s.pk.ptr.toNat + n

/-- From `s` to `t` the packer and the bytes it stored come to hold the bits `l`, the bits held in `s` first, and no other byte
changes. -/
structure Wrote (s : State) (l : List Bool) (t : State) : Prop where
  setup : t.setup = s.setup
  deny : t.deny = s.deny
  drawn : t.mem.Drawn s.draws
  ptr : t.pk.ptr.toNat = s.pk.ptr.toNat + l.length / 8
  fill : t.pk.fill.toNat = l.length % 8
  acc : t.pk.acc.toNat = valueOf (l.drop (8 * (l.length / 8)))
  bytes : ∀ j < l.length / 8,
    (t.mem.read (s.outAddr.toNat + s.pk.ptr.toNat + j)).toNat = valueOf ((l.drop (8 * j)).take 8)
  known : ∀ a, Slot s (l.length / 8) a → ∀ q ∈ t.mem.loose, q.covers a = false
  others : ∀ a, ¬Slot s (l.length / 8) a → t.mem.read a = s.mem.read a ∧ t.mem.isEmitted a = s.mem.isEmitted a

theorem Wrote.start (hmem : s.mem.Drawn s.draws) (hpk : s.pk.acc.toNat < 2 ^ s.pk.fill.toNat) : Wrote s (heldBits s.pk) s := by
  have hfill := s.pk.fill.isLt
  have hlen := heldBits_length s.pk
  have hzero : (heldBits s.pk).length / 8 = 0 := by omega
  refine ⟨rfl, rfl, hmem, ?_, ?_, ?_, ?_, ?_, fun _ _ => ⟨rfl, rfl⟩⟩
  · rw [hzero, Nat.add_zero]
  · omega
  · rw [hzero, Nat.mul_zero, List.drop_zero, heldBits, valueOf_bitsOf, Nat.mod_eq_of_lt hpk]
  · rw [hzero]
    exact fun j hj => absurd hj (Nat.not_lt_zero j)
  · rw [hzero]
    exact fun a ha => absurd ha.2 (not_lt.2 ha.1)

namespace Wrote

variable (h : Wrote s l t)
include h

theorem outAddr : t.outAddr = s.outAddr := Setup.outAddr_eq h.setup
theorem outCap : t.outCap = s.outCap := Setup.outCap_eq h.setup
theorem memOk (k : AccessKind) (a : Nat) : t.memOk k a = s.memOk k a := by rw [State.memOk, State.memOk, h.deny]

/-- PK_ACC holds fewer than 8 bits. -/
theorem acc_lt : t.pk.acc.toNat < 2 ^ (l.length % 8) := by
  have hlt := valueOf_lt (l.drop (8 * (l.length / 8)))
  rw [h.acc]
  rwa [List.length_drop, show l.length - 8 * (l.length / 8) = l.length % 8 by omega] at hlt

/-- The updated PK_ACC: the bits of the byte not yet complete. -/
theorem acc_shiftIn (b : Bool) : (shiftIn t.pk.acc b).toNat = valueOf ((l ++ [b]).drop (8 * (l.length / 8))) := by
  have hpow : 2 ^ (l.length % 8) ≤ 2 ^ 7 := Nat.pow_le_pow_right (by decide) (by omega)
  rw [toNat_shiftIn (h.acc_lt.trans_le hpow), h.acc, List.drop_append_of_le_length (by omega), valueOf_concat]

/-- A bit goes into the partial byte. -/
theorem pushBit (hfill : t.pk.fill ≠ 7) (b : Bool) : Wrote s (l ++ [b]) (t.pushBit b) := by
  have hne : l.length % 8 ≠ 7 := fun h7 => hfill (BitVec.eq_of_toNat_eq (h.fill.trans h7))
  have hlen : (l ++ [b]).length = l.length + 1 := List.length_append
  have hdiv : (l ++ [b]).length / 8 = l.length / 8 := by omega
  refine ⟨h.setup, h.deny, h.drawn, ?_, ?_, ?_, ?_, ?_, ?_⟩
  · rw [hdiv]
    exact h.ptr
  · have hfill' := h.fill
    show (t.pk.fill + 1).toNat = _
    bv_omega
  · rw [hdiv]
    exact h.acc_shiftIn b
  · rw [hdiv]
    exact fun j hj => (h.bytes j hj).trans (by rw [byte_append hj])
  · rw [hdiv]
    exact h.known
  · rw [hdiv]
    exact h.others

/-- A byte is stored: the held bits and those of `m` that complete it. -/
theorem emitted (hout : OutFits s) (hroom : t.pk.ptr.toNat < s.outCap.toNat) {x : Byte}
    (hlen : (l ++ m).length = 8 * (l.length / 8) + 8) (hx : x.toNat = valueOf ((l ++ m).drop (8 * (l.length / 8)))) :
    Wrote s (l ++ m) (t.emitted x).emptyPacker := by
  have hdiv : (l ++ m).length / 8 = l.length / 8 + 1 := by omega
  have haddr : t.outAddr.toNat + t.pk.ptr.toNat = s.outAddr.toNat + s.pk.ptr.toNat + l.length / 8 := by
    rw [h.outAddr, h.ptr, Nat.add_assoc]
  have hspace : s.outAddr.toNat + s.pk.ptr.toNat + l.length / 8 < Config.memSize := by
    have : s.outAddr.toNat + s.outCap.toNat ≤ Config.memSize := hout
    have := h.ptr
    omega
  have hmem : (t.emitted x).emptyPacker.mem = t.mem.write (s.outAddr.toNat + s.pk.ptr.toNat + l.length / 8) x := haddr ▸ rfl
  have hslot (a : Nat) : Slot s (l.length / 8 + 1) a ↔
      Slot s (l.length / 8) a ∨ a = s.outAddr.toNat + s.pk.ptr.toNat + l.length / 8 := by
    unfold Slot
    omega
  refine ⟨h.setup, h.deny, hmem ▸ h.drawn.write hspace _, ?_, ?_, ?_, ?_, ?_, ?_⟩
  · have hnext := toNat_add_one_of_lt hroom s.outCap.isLt
    have hptr := h.ptr
    show (t.pk.ptr + 1).toNat = _
    omega
  · rw [hlen]
    show 0 = _
    omega
  · rw [hdiv, List.drop_eq_nil_of_le (by omega)]
    rfl
  · rw [hdiv]
    intro j hj
    rw [hmem, Memory.read_write h.drawn.1]
    by_cases hjn : j = l.length / 8
    · rw [if_pos (by rw [hjn]), hjn, List.take_of_length_le (by rw [List.length_drop]; omega)]
      exact hx
    · rw [if_neg (by omega), byte_append (by omega)]
      exact h.bytes j (by omega)
  · rw [hdiv]
    intro a ha
    rw [hmem]
    obtain ha | rfl := (hslot a).1 ha
    · exact Memory.write_keeps_known (h.known a ha) _ _
    · exact Memory.write_known _ _ _
  · rw [hdiv]
    intro a ha
    obtain ⟨hno, hne⟩ := not_or.1 (mt (hslot a).2 ha)
    rw [hmem, Memory.read_write h.drawn.1, Memory.isEmitted_write h.drawn.1, if_neg hne, if_neg hne]
    exact h.others a hno

/-- A bit completes a byte. -/
theorem emitBit (hfill : t.pk.fill = 7) (hout : OutFits s) (hroom : t.pk.ptr.toNat < s.outCap.toNat) (b : Bool) :
    Wrote s (l ++ [b]) (t.emitted (shiftIn t.pk.acc b)).emptyPacker := by
  have h7 : l.length % 8 = 7 := h.fill.symm.trans (congrArg BitVec.toNat hfill)
  refine h.emitted hout hroom ?_ (h.acc_shiftIn b)
  rw [List.length_append, List.length_singleton]
  omega

end Wrote

/-! ### A run of WriteBit (R114, R115) -/

/-- The whole bytes of `k` bits from the packer's first held bit on fit the output region and MEM_OK accepts them. -/
def Spare (s : State) (k : Nat) : Prop :=
  (k / 8 ≠ 0 → s.pk.ptr.toNat + k / 8 ≤ s.outCap.toNat) ∧ Writable s s.pk.ptr.toNat (s.pk.ptr.toNat + k / 8)

theorem Spare.mono {k : Nat} (h : Spare s k) {j : Nat} (hj : j ≤ k) : Spare s j := by
  have hdiv : j / 8 ≤ k / 8 := Nat.div_le_div_right hj
  refine ⟨fun hne => (Nat.add_le_add_left hdiv _).trans (h.1 (by omega)), fun a ha => h.2 a (by omega)⟩

/-- Only the packer and memory change from `t` to `u`. -/
def PackerOnly (t u : State) : Prop := u = { t with mem := u.mem, pk := u.pk }

theorem PackerOnly.trans {v : State} (h1 : PackerOnly s t) (h2 : PackerOnly t v) : PackerOnly s v := by
  unfold PackerOnly at *
  rw [h2, h1]

/-- EmitByte with room. -/
theorem Wrote.emitByte_completes (h : Wrote s l t) (hroom : Spare s (8 * (l.length / 8) + 8)) (x : Byte) :
    t.pk.ptr.toNat < s.outCap.toNat ∧ emitByte x t = .ok () (t.emitted x) := by
  have hcap := hroom.1 (by omega)
  have hptr : t.pk.ptr.toNat < s.outCap.toNat := by
    rw [h.ptr]
    omega
  have hok : t.memOk .write (t.outAddr.toNat + t.pk.ptr.toNat) = true := by
    rw [h.memOk, h.outAddr, h.ptr]
    exact hroom.2 _ (by omega) (Nat.le_add_right _ _)
  exact ⟨hptr, by rw [emitByte_run, h.outCap, if_pos hptr, if_pos hok]⟩

theorem Wrote.writeBit_completes (h : Wrote s l t) (hout : OutFits s) (hroom : Spare s (l.length + 1)) (b : Bool) :
    ∃ u, writeBit b t = .ok () u ∧ Wrote s (l ++ [b]) u ∧ PackerOnly t u := by
  by_cases hfill : t.pk.fill = 7
  · have h7 : l.length % 8 = 7 := h.fill.symm.trans (congrArg BitVec.toNat hfill)
    obtain ⟨hptr, hrun⟩ := h.emitByte_completes (hroom.mono (by omega)) (shiftIn t.pk.acc b)
    exact ⟨_, by rw [writeBit_full hfill, hrun], h.emitBit hfill hout hptr b, rfl⟩
  · exact ⟨_, writeBit_room hfill b, h.pushBit hfill b, rfl⟩

theorem Wrote.writeBits_completes (h : Wrote s l t) (hout : OutFits s) (v : Nat) (hroom : Spare s (l.length + n)) :
    ∃ u, writeBits v n t = .ok () u ∧ Wrote s (l ++ bitsOf n v) u ∧ PackerOnly t u := by
  induction n generalizing l t with
  | zero => exact ⟨t, rfl, by simpa using h, rfl⟩
  | succ n ih =>
    obtain ⟨u, hu, hwrote, hframe⟩ := h.writeBit_completes hout (hroom.mono (by omega)) (v.testBit n)
    obtain ⟨w, hw, hwrote', hframe'⟩ := ih hwrote (by rwa [List.length_append, List.length_singleton, Nat.add_assoc,
      Nat.add_comm 1])
    refine ⟨w, (Cmd.bind_run_ok hu).trans hw, ?_, hframe.trans hframe'⟩
    rwa [bitsOf_succ, List.append_cons]

/-- The bits are appended up to the one that completes a byte without room, which raises OUT_OVERFLOW. -/
theorem Wrote.writeBits_overflows (h : Wrote s l t) (hout : OutFits s) (v : Nat)
    (hok : Writable s s.pk.ptr.toNat s.outCap.toNat) {k : Nat} (hk : k < n)
    (hfull : l.length + k = 8 * (s.outCap.toNat - s.pk.ptr.toNat) + 7) :
    ∃ u, writeBits v n t = .error (.raise .outOverflow u.pk.ptr) u ∧ Wrote s (l ++ (bitsOf n v).take k) u ∧
      PackerOnly t u := by
  obtain ⟨n, rfl⟩ : ∃ m, n = m + 1 := ⟨n - 1, by omega⟩
  induction k generalizing l t n with
  | zero =>
    have hfill : t.pk.fill = 7 := BitVec.eq_of_toNat_eq (h.fill.trans (show _ = 7 by omega))
    have hptr : ¬t.pk.ptr.toNat < s.outCap.toNat := by
      rw [h.ptr]
      omega
    refine ⟨t, Cmd.bind_run_error ?_, by simpa using h, rfl⟩
    rw [writeBit_full hfill, emitByte_run, h.outCap, if_neg hptr]
  | succ k ih =>
    obtain ⟨n, rfl⟩ : ∃ m, n = m + 1 := ⟨n - 1, by omega⟩
    have hroom : Spare s (l.length + 1) := ⟨by omega, fun a ha hlo => hok a (by omega) hlo⟩
    obtain ⟨u, hu, hwrote, hframe⟩ := h.writeBit_completes hout hroom (v.testBit (n + 1))
    obtain ⟨w, hw, hwrote', hframe'⟩ := ih hwrote (by rw [List.length_append, List.length_singleton]; omega) n (by omega)
    refine ⟨w, (Cmd.bind_run_ok hu).trans hw, ?_, hframe.trans hframe'⟩
    rwa [bitsOf_succ, List.take_succ_cons, List.append_cons]

end Sys2Proof.Machine
end

section
/-! SUPPORT, and the settled ENC_SYM (O46): the ends of the commands that append bits. -/

namespace Sys2Proof.Machine

open Spec

variable {s t u : State} {bits : List Bool} {m : Cmd Unit}

theorem heldBits_append_length (s : State) (bits : List Bool) :
    (heldBits s.pk ++ bits).length = s.pk.fill.toNat + bits.length := by rw [List.length_append, heldBits_length]

/-- The bytes stored from `s` to `t` are those the packer moved over. -/
theorem Wrote.slot_iff {l : List Bool} (h : Wrote s l t) (a : Nat) : Slot s (l.length / 8) a ↔ Stored s t a := by
  unfold Slot Stored
  rw [h.ptr, Nat.add_assoc]

theorem Wrote.packed (h : Wrote s (heldBits s.pk ++ bits) t) : Packed s t bits := ⟨h.ptr, h.fill, h.acc, h.bytes⟩

/-- The packer and the bytes the model reads decide what has been appended. -/
theorem packed_of_reads (h : Packed s t bits) (hpk : u.pk = t.pk)
    (hread : ∀ a, Stored s t a → u.mem.read a = t.mem.read a) : Packed s u bits := by
  obtain ⟨hptr, hfill, hacc, hbytes⟩ := h
  refine ⟨hpk ▸ hptr, hpk ▸ hfill, hpk ▸ hacc, fun j hj => ?_⟩
  rw [hread _ ⟨by omega, by omega⟩, hbytes j hj]

/-- A command that emits completes with `bits` appended (R114). -/
theorem commandEmit_appends (hw : Wrote s (heldBits s.pk ++ bits) u) (hframe : PackerOnly s u) (hrun : m s = .ok () u) :
    ∃ t, commandEmit m s = .next t ∧ t = { s with mem := t.mem, pk := t.pk, phase := .idle, done := true } ∧
      Appended s t bits := by
  refine ⟨_, commandEmit_of_ok hrun, ?_, packed_of_reads hw.packed rfl fun _ _ => Memory.read_markRun _ _ _ _, fun a ha => ?_⟩
  · unfold PackerOnly at hframe
    rw [hframe]
    rfl
  · exact (Memory.read_markRun _ _ _ _).trans (hw.others a ha).1

/-- What marking the bytes stored from `s` to `t` leaves: known draws, and which bytes are EmitByte's (I6). -/
theorem Wrote.markSince_spec {l : List Bool} (hw : Wrote s l u)
    (hfits : s.pk.ptr.toNat < u.pk.ptr.toNat → s.outAddr.toNat + u.pk.ptr.toNat ≤ Config.memSize) :
    (s.markSince u).mem.Drawn s.draws ∧
      ∀ a, Stored s u a ∨ u.mem.isEmitted a = true → (s.markSince u).mem.isEmitted a = true := by
  have hptr := hw.ptr
  by_cases hlt : s.pk.ptr.toNat < u.pk.ptr.toNat
  · have hbound := hfits hlt
    have hend : s.outAddr.toNat + s.pk.ptr.toNat + (u.pk.ptr.toNat - s.pk.ptr.toNat) = s.outAddr.toNat + u.pk.ptr.toNat := by
      omega
    obtain ⟨hwf, hmarked⟩ := Memory.markRun_spec hw.drawn.1 (hend.trans_le hbound) fun a hlo hhi =>
      hw.known a ((hw.slot_iff a).2 ⟨hlo, hend ▸ hhi⟩)
    refine ⟨⟨hwf, fun p hp => hw.drawn.2 p (Memory.markRun_loose _ _ _ ▸ hp)⟩, fun a ha => (hmarked a).trans ?_⟩
    rw [hend, ite_eq_left_iff]
    exact fun hno => ha.resolve_left hno
  · have hzero : s.markSince u = u := by
      unfold State.markSince
      rw [Nat.sub_eq_zero_of_le (not_lt.1 hlt)]
      rfl
    rw [hzero]
    refine ⟨hw.drawn, fun a ha => ha.resolve_left fun hstored => ?_⟩
    obtain ⟨hlo, hhi⟩ := hstored
    omega

/-- The bytes that a stop on an error keeps, after bits were appended (R67, I6). -/
theorem Wrote.read_loosened {l : List Bool} (hw : Wrote s l u) (hframe : PackerOnly s u)
    (hfits : s.pk.ptr.toNat < u.pk.ptr.toNat → s.outAddr.toNat + u.pk.ptr.toNat ≤ Config.memSize) {a : Nat}
    (ha : Stored s u a ∨ Kept s a) : (s.markSince u).loosenUnwritten.mem.read a = u.mem.read a := by
  obtain ⟨hdrawn, hmarked⟩ := hw.markSince_spec hfits
  have hdraws : (s.markSince u).draws = s.draws := by
    unfold PackerOnly at hframe
    rw [hframe]
    rfl
  have haddr : (s.markSince u).outAddr = s.outAddr := hw.outAddr
  have hcap : (s.markSince u).outCap = s.outCap := hw.outCap
  obtain ⟨-, hread⟩ := Memory.loosenUnwritten_spec hdrawn.1 (lo := (s.markSince u).outAddr.toNat)
    (n := (s.markSince u).draws) (s.markSince u).outTop_le fun p hp => (hdraws ▸ hdrawn.2 p hp).ne
  refine (hread a).1.trans (Eq.trans (if_neg fun hfree => ?_) (Memory.read_markRun _ _ _ _))
  obtain ⟨⟨hlo, hhi⟩, hunwritten⟩ := hfree
  have hregion : OutRegion s a := ⟨haddr ▸ hlo, by
    rw [← haddr, ← hcap]
    exact hhi.trans_le (Nat.min_le_left _ _)⟩
  have hemitted : Stored s u a ∨ u.mem.isEmitted a = true := or_iff_not_imp_left.2 fun hstored =>
    (hw.others a (mt (hw.slot_iff a).1 hstored)).2.trans ((ha.resolve_left hstored).resolve_left (not_not.2 hregion))
  exact Bool.noConfusion (hunwritten.symm.trans (hmarked a hemitted))

/-- A command that emits stops with OUT_OVERFLOW, `bits` appended before the bit without room (R113, R67). -/
theorem commandEmit_overflows {kept : Nat} (hout : OutFits s) (hfull : NoRoomAt s kept) (hkept : kept < bits.length)
    (hw : Wrote s (heldBits s.pk ++ bits.take kept) u) (hframe : PackerOnly s u)
    (hrun : m s = .error (.raise .outOverflow u.pk.ptr) u) : Overflowed s (commandEmit m s) bits kept := by
  have hrun' : commandEmit m s = .next ((s.markSince u).loosenUnwritten.stop .outOverflow u.pk.ptr) := by
    unfold commandEmit commandWith marking
    rw [hrun]
  have hptr : u.pk.ptr.toNat = s.pk.ptr.toNat + (s.outCap.toNat - s.pk.ptr.toNat) := by
    have hlen := heldBits_append_length s (bits.take kept)
    rw [List.length_take_of_le hkept.le] at hlen
    unfold NoRoomAt at hfull
    have := hw.ptr
    omega
  have hfits : s.pk.ptr.toNat < u.pk.ptr.toNat → s.outAddr.toNat + u.pk.ptr.toNat ≤ Config.memSize := fun hlt => by
    have : s.outAddr.toNat + s.outCap.toNat ≤ Config.memSize := hout
    omega
  refine ⟨_, hrun', ?_, rfl, rfl, rfl, rfl, rfl, ?_, ?_, fun a hstored ha => ?_⟩
  · unfold PackerOnly at hframe
    rw [hframe]
    rfl
  · refine BitVec.eq_of_toNat_eq (hptr.trans ?_)
    unfold greater
    split <;> omega
  · exact packed_of_reads hw.packed rfl fun a ha => hw.read_loosened hframe hfits (.inl ha)
  · exact (hw.read_loosened hframe hfits (.inr ha)).trans (hw.others a (mt (hw.slot_iff a).1 hstored)).1

/-! ### ENC_SYM (R121) -/

/-- The pseudocode of ENC_SYM, of which `exec` is `commandEmit`. -/
def encSymBody (c : Ch) : Cmd Unit := do
  checkCfg
  checkOut
  let t ← get
  require (decide (t.arg.toNat < t.alpha)) .badArg 0
  emitCode c t.arg.toNat

theorem exec_encSym (c : Ch) (s : State) : exec (.encSym c) s = commandEmit (encSymBody c) s := rfl

/-- ENC_SYM with legal registers and a symbol of the alphabet runs EmitCode. -/
theorem encSym_run {c : Ch} (hformat : FormatLegal s) (hout : OutFits s) (harg : argument s < alphabet s) :
    encSymBody c s = emitCode c (argument s) s := by
  unfold encSymBody
  rw [Cmd.bind_run_ok (checkCfg_ok hformat), Cmd.bind_run_ok (checkOut_ok hout)]
  show (require _ _ _ >>= fun _ => emitCode c s.arg.toNat) s = _
  rw [argument_eq, alphabet_eq] at harg
  rw [Cmd.bind_run, require_run, argument_eq, decide_eq_true harg]
  rfl

theorem encSym_badArg (c : Ch) (hformat : FormatLegal s) (hout : OutFits s) (harg : alphabet s ≤ argument s) :
    encSymBody c s = .error (.raise .badArg 0) s := by
  unfold encSymBody
  rw [Cmd.bind_run_ok (checkCfg_ok hformat), Cmd.bind_run_ok (checkOut_ok hout)]
  show (require _ _ _ >>= fun _ => emitCode c s.arg.toNat) s = _
  rw [argument_eq, alphabet_eq] at harg
  rw [Cmd.bind_run, require_run, decide_eq_false (not_lt.2 harg)]
  rfl

/-- Settles O46. -/
theorem encSymAppendsCode : Obligations.EncSymAppendsCode := by
  intro s c h hformat hout
  rw [exec_encSym]
  have hlen : (codeBits (s.codeAt c (argument s))).length = (s.codeAt c (argument s)).len.toNat := bitsOf_length _ _
  refine ⟨fun harg hvalid hroom => ?_, fun harg hvalid kept hkept hfull hok => ?_, fun harg hvalid => ?_, fun harg => ?_⟩
  · have hspare : Spare s ((heldBits s.pk).length + (s.codeAt c (argument s)).len.toNat) := by
      rw [heldBits_length, ← hlen]
      exact hroom
    obtain ⟨u, hu, hw, hframe⟩ :=
      (Wrote.start h.memory h.packer).writeBits_completes hout (s.codeAt c (argument s)).bits.toNat hspare
    exact commandEmit_appends hw hframe (by rw [encSym_run hformat hout harg, emitCode_run, if_pos hvalid, hu])
  · obtain ⟨u, hu, hw, hframe⟩ :=
      (Wrote.start h.memory h.packer).writeBits_overflows hout (s.codeAt c (argument s)).bits.toNat hok
      (hlen ▸ hkept) (by rw [heldBits_length]; exact hfull)
    exact commandEmit_overflows hout hfull hkept hw hframe
      (by rw [encSym_run hformat hout harg, emitCode_run, if_pos hvalid, hu])
  · refine stopsUnwritten_of_error (e := .noCode) (info := noCodeInfo c (argument s)) h ((encSym_run hformat hout harg).trans ?_)
    rw [emitCode_run, if_neg (by rw [hvalid]; exact Bool.false_ne_true)]
  · exact stopsUnwritten_of_error h (encSym_badArg c hformat hout harg)

end Sys2Proof.Machine
end

section
/-! SUPPORT. The merges of the work list (R97): which references the nodes hold, and how deep they lie (R107). -/

namespace Sys2Proof.Spec

open Sys2Proof.Machine (Node)

variable {n m : Nat} {l front back rest : List (Nat × Nat)} {second tail : Nat × Nat} {nodes acc : List Node}

/-- The entry that a merge makes node `n` from two. -/
def mergedEntry (n : Nat) (second tail : Nat × Nat) : Nat × Nat := (0x8000 + n, tail.2 + second.2)

/-- The node that a merge makes. -/
def mergedNode (second tail : Nat × Nat) : Node := ⟨BitVec.ofNat 16 second.1, BitVec.ofNat 16 tail.1⟩

/-! ### References -/

/-- The references of a work list are to symbols and to the nodes below `n`, and 16 bits are enough for those to come. -/
structure RefsBelow (n : Nat) (l : List (Nat × Nat)) : Prop where
  below : ∀ e ∈ l, e.1 < 0x8000 + n
  room : n + l.length ≤ 0x8000

theorem RefsBelow.merge (h : RefsBelow n (front ++ back ++ [second, tail])) :
    RefsBelow (n + 1) (front ++ mergedEntry n second tail :: back) where
  below e he := by
    have hold : e ∈ front ++ back → e.1 < 0x8000 + n := fun he => h.below e (List.mem_append_left _ he)
    obtain he | rfl | he : e ∈ front ∨ e = mergedEntry n second tail ∨ e ∈ back := by simpa using he
    · exact (hold (List.mem_append_left _ he)).trans (Nat.lt_succ_self _)
    · exact Nat.lt_succ_self _
    · exact (hold (List.mem_append_right _ he)).trans (Nat.lt_succ_self _)
  room := by
    have := h.room
    simp only [List.length_append, List.length_cons, List.length_nil] at this ⊢
    omega

theorem RefsBelow.mergedNode (h : RefsBelow n (front ++ back ++ [second, tail])) :
    (mergedNode second tail).left.toNat = second.1 ∧ (mergedNode second tail).right.toNat = tail.1 ∧
      second.1 < 0x8000 + n ∧ tail.1 < 0x8000 + n := by
  have hs := h.below second (by simp)
  have ht := h.below tail (by simp)
  have := h.room
  simp only [List.length_append, List.length_cons, List.length_nil] at this
  refine ⟨?_, ?_, hs, ht⟩ <;> exact (BitVec.toNat_ofNat _ _).trans (Nat.mod_eq_of_lt (by omega))

/-- The references that nodes hold. -/
def childRefs (nodes : List Node) : List Nat := nodes.flatMap fun x => [x.left.toNat, x.right.toNat]

/-- Every entry of the work list and every node made becomes a child once, but for the entries that are left. -/
theorem Merges.childRefs_perm (h : Merges n l nodes rest) (hl : RefsBelow n l) :
    (l.map Prod.fst ++ List.range' (0x8000 + n) nodes.length).Perm (childRefs nodes ++ rest.map Prod.fst) := by
  induction h with
  | stop => simp [childRefs]
  | @merge n front back rest second tail nodes _ _ _ ih =>
    obtain ⟨hleft, hright, -, -⟩ := hl.mergedNode
    have ih := ih hl.merge
    rw [List.perm_iff_count] at ih ⊢
    intro x
    have ih := ih x
    have hrefs : childRefs (mergedNode second tail :: nodes) = second.1 :: tail.1 :: childRefs nodes := by
      rw [childRefs, List.flatMap_cons, hleft, hright]
      rfl
    have hrange : List.range' (0x8000 + n) (nodes.length + 1) = (0x8000 + n) :: List.range' (0x8000 + (n + 1)) nodes.length :=
      List.range'_succ
    show _ = List.count x (childRefs (mergedNode second tail :: nodes) ++ _)
    rw [hrefs, List.length_cons, hrange]
    simp only [List.map_append, List.map_cons, List.map_nil, List.count_append, List.count_cons, List.count_nil] at ih ⊢
    omega

theorem Merges.length_eq (h : Merges n l nodes rest) : nodes.length = l.length - 1 := by
  induction h with
  | stop h => exact (Nat.sub_eq_zero_of_le h).symm
  | merge _ _ _ ih =>
    simp only [List.length_append, List.length_cons, List.length_nil] at ih ⊢
    omega

theorem Merges.rest_length_le (h : Merges n l nodes rest) : rest.length ≤ 1 := by
  induction h with
  | stop h => exact h
  | merge _ _ _ ih => exact ih

/-- A run that makes no node leaves the work list as it is. -/
theorem Merges.rest_eq_of_nil (h : Merges n l nodes rest) (hnil : nodes = []) : rest = l := by
  cases h with
  | stop => rfl
  | merge => cases hnil

/-- One entry is left: the last node, if any was made. -/
theorem Merges.rest_eq (h : Merges n l nodes rest) (hl : l ≠ []) :
    ∃ e, rest = [e] ∧ (nodes ≠ [] → e.1 + 1 = 0x8000 + n + nodes.length) := by
  induction h with
  | @stop n l h =>
    obtain ⟨e, rfl⟩ := List.length_eq_one_iff.1 (le_antisymm h (List.length_pos_iff.2 hl))
    exact ⟨e, rfl, fun hne => absurd rfl hne⟩
  | @merge n front back rest second tail nodes _ _ next ih =>
    obtain ⟨e, rfl, hlast⟩ := ih (by simp)
    refine ⟨e, rfl, fun _ => ?_⟩
    rw [List.length_cons]
    by_cases hnodes : nodes = []
    · subst hnodes
      have hone := next.rest_eq_of_nil rfl
      have hmem : (0x8000 + n, tail.2 + second.2) ∈ [e] := hone ▸ List.mem_append_right _ List.mem_cons_self
      obtain rfl := List.mem_singleton.1 hmem
      rfl
    · have := hlast hnodes
      omega

/-- The children of a node are symbols or nodes made before it. -/
theorem Merges.child_lt (h : Merges n l nodes rest) (hl : RefsBelow n l) {i : Nat} {x : Node} (hx : nodes[i]? = some x)
    (b : Bool) : (x.child b).toNat < 0x8000 + n + i := by
  induction h generalizing i with
  | stop => cases hx
  | @merge n front back rest second tail nodes _ _ _ ih =>
    cases i with
    | zero =>
      obtain ⟨hleft, hright, hs, ht⟩ := hl.mergedNode
      obtain rfl : mergedNode second tail = x := Option.some.inj hx
      cases b
      · exact hleft.trans_lt hs
      · exact hright.trans_lt ht
    | succ i =>
      have := ih hl.merge hx
      omega

/-! ### Depth (R107) -/

/-- Every path below reference `r` ends at a leaf in at most `h` steps. -/
inductive EndsWithin (nodes : List Node) : Nat → Nat → Prop
  | leaf {r h : Nat} : r < 0x8000 → EndsWithin nodes r h
  | node {i h : Nat} {x : Node} : nodes[i]? = some x → EndsWithin nodes x.left.toNat h → EndsWithin nodes x.right.toNat h →
      EndsWithin nodes (0x8000 + i) (h + 1)

theorem EndsWithin.mono {r h k : Nat} (hr : EndsWithin nodes r h) (hk : h ≤ k) : EndsWithin nodes r k := by
  induction hr generalizing k with
  | leaf h => exact .leaf h
  | node hx _ _ ihl ihr =>
    obtain ⟨k, rfl⟩ : ∃ j, k = j + 1 := ⟨k - 1, by omega⟩
    exact .node hx (ihl (by omega)) (ihr (by omega))

theorem EndsWithin.append {r h : Nat} (hr : EndsWithin acc r h) (nodes : List Node) : EndsWithin (acc ++ nodes) r h := by
  induction hr with
  | leaf h => exact .leaf h
  | node hx _ _ ihl ihr => exact .node (List.getElem?_append_left (List.getElem?_eq_some_iff.1 hx).1 ▸ hx) ihl ihr

/-- The work list during the merges: in descending frequency, none below `m`, and the frequency of an entry grows with its
height as the Fibonacci numbers do; an entry one lower has at most frequency `m`. -/
structure Slender (acc : List Node) (m : Nat) (l : List (Nat × Nat)) : Prop where
  sorted : l.Pairwise fun e f => f.2 ≤ e.2
  least : ∀ e ∈ l, m ≤ e.2
  deep : ∀ e ∈ l, ∃ h, EndsWithin acc e.1 h ∧ Nat.fib (h + 2) ≤ e.2 ∧ Nat.fib (h + 1) ≤ m

/-- The two entries of least frequency become a node of at least the Fibonacci number of its height. -/
theorem Slender.merge (h : Slender acc m (front ++ back ++ [second, tail]))
    (hl : RefsBelow acc.length (front ++ back ++ [second, tail]))
    (stays : ∀ e, front.getLast? = some e → tail.2 + second.2 ≤ e.2) (passed : ∀ e ∈ back, e.2 < tail.2 + second.2) :
    Slender (acc ++ [mergedNode second tail]) second.2 (front ++ mergedEntry acc.length second tail :: back) := by
  obtain ⟨hleft, hright, -, -⟩ := hl.mergedNode
  obtain ⟨hfb, hst, hlast⟩ := List.pairwise_append.1 h.sorted
  obtain ⟨hfront, hback, hcross⟩ := List.pairwise_append.1 hfb
  have htail : tail.2 ≤ second.2 := (List.pairwise_cons.1 hst).1 tail (by simp)
  have hstays : ∀ e ∈ front, tail.2 + second.2 ≤ e.2 := fun e he => by
    rcases front.eq_nil_or_concat' with rfl | ⟨init, last, rfl⟩
    · cases he
    · have hle := stays last List.getLast?_concat
      obtain he | he := List.mem_append.1 he
      · exact hle.trans ((List.pairwise_append.1 hfront).2.2 e he last (List.mem_singleton_self _))
      · exact List.mem_singleton.1 he ▸ hle
  have hm : m ≤ tail.2 := h.least tail (by simp)
  have hold : ∀ e ∈ front ++ back, second.2 ≤ e.2 ∧ ∃ h, EndsWithin (acc ++ [mergedNode second tail]) e.1 h ∧
      Nat.fib (h + 2) ≤ e.2 ∧ Nat.fib (h + 1) ≤ second.2 := fun e he => by
    obtain ⟨k, hk, hfib, hfib'⟩ := h.deep e (List.mem_append_left _ he)
    exact ⟨hlast e he second (by simp), k, hk.append _, hfib, by omega⟩
  have hnew : second.2 ≤ (mergedEntry acc.length second tail).2 ∧ ∃ h, EndsWithin (acc ++ [mergedNode second tail])
      (mergedEntry acc.length second tail).1 h ∧ Nat.fib (h + 2) ≤ (mergedEntry acc.length second tail).2 ∧
      Nat.fib (h + 1) ≤ second.2 := by
    obtain ⟨j, hj, hfibj, hfibj'⟩ := h.deep second (by simp)
    obtain ⟨k, hk, hfibk, hfibk'⟩ := h.deep tail (by simp)
    have hnode : (acc ++ [mergedNode second tail])[acc.length]? = some (mergedNode second tail) := List.getElem?_concat_length
    refine ⟨Nat.le_add_left _ _, max j k + 1, .node hnode ?_ ?_, ?_⟩
    · exact hleft ▸ (hj.append _).mono (le_max_left j k)
    · exact hright ▸ (hk.append _).mono (le_max_right j k)
    · have hfib : Nat.fib (max j k + 3) = Nat.fib (max j k + 1) + Nat.fib (max j k + 2) := Nat.fib_add_two
      show Nat.fib (max j k + 3) ≤ tail.2 + second.2 ∧ Nat.fib (max j k + 2) ≤ second.2
      obtain hmax | hmax := max_choice j k <;> rw [hmax] at hfib ⊢ <;> omega
  have hall : ∀ e ∈ front ++ mergedEntry acc.length second tail :: back, second.2 ≤ e.2 ∧
      ∃ h, EndsWithin (acc ++ [mergedNode second tail]) e.1 h ∧ Nat.fib (h + 2) ≤ e.2 ∧ Nat.fib (h + 1) ≤ second.2 :=
    fun e he => by
      obtain rfl | he := List.mem_cons.1 (List.perm_middle.mem_iff.1 he)
      · exact hnew
      · exact hold e he
  refine ⟨?_, fun e he => (hall e he).1, fun e he => (hall e he).2⟩
  refine List.pairwise_append.2 ⟨hfront, List.pairwise_cons.2 ⟨fun e he => (passed e he).le, hback⟩, fun e he f hf => ?_⟩
  obtain rfl | hf := List.mem_cons.1 hf
  · exact hstays e he
  · exact hcross e he f hf

theorem Merges.slender (h : Merges n l nodes rest) (hn : acc.length = n) (hl : RefsBelow n l) (hs : Slender acc m l) :
    ∃ k, Slender (acc ++ nodes) k rest := by
  induction h generalizing acc m with
  | stop => exact ⟨m, by rwa [List.append_nil]⟩
  | @merge n front back rest second tail nodes stays passed _ ih =>
    subst hn
    obtain ⟨k, hk⟩ := ih (by rw [List.length_append, List.length_singleton]) hl.merge (hs.merge hl stays passed)
    exact ⟨k, by rwa [List.append_assoc] at hk⟩

/-- A merge keeps the sum of the frequencies. -/
theorem Merges.sum_eq (h : Merges n l nodes rest) : (rest.map Prod.snd).sum = (l.map Prod.snd).sum := by
  induction h with
  | stop => rfl
  | merge _ _ _ ih =>
    rw [ih]
    simp only [List.map_append, List.map_cons, List.map_nil, List.sum_append, List.sum_cons, List.sum_nil]
    omega

end Sys2Proof.Spec
end

section
/-! SUPPORT. The tree that the merges make: legal, no node shared, no leaf deeper than 64, every symbol of nonzero count a
leaf (R98, R107). -/

namespace Sys2Proof.Spec

open Sys2Proof.Machine (Node State)

variable {t : Tree} {p q : List Bool} {i j v : Nat} {b d : Bool} {r : BitVec 16} {x y : Node} {nodes : List Node}

/-! ### Parents -/

namespace Tree

/-- A path to a reference goes on from a path to the node that holds it. -/
theorem follow_parent (h : t.follow p t.root = some r) :
    ∃ o b j x, p = o ++ [b] ∧ t.Reaches o j ∧ t.nodes[j]? = some x ∧ x.child b = r := by
  obtain rfl | ⟨o, b, rfl⟩ := p.eq_nil_or_concat'
  · cases h
  · by_cases ho : o = []
    · subst ho
      rw [List.nil_append, follow_singleton] at h
      obtain ⟨x, hx, hr⟩ := Option.map_eq_some_iff.1 h
      exact ⟨[], b, t.root, x, rfl, t.reaches_root, hx, hr⟩
    · obtain ⟨y, hy, hle, hr⟩ := (follow_append ho (List.cons_ne_nil b [])).1 h
      rw [follow_singleton] at hr
      obtain ⟨x, hx, hr⟩ := Option.map_eq_some_iff.1 hr
      exact ⟨o, b, _, x, rfl, .inr ⟨y, hy, hle, rfl⟩, hx, hr⟩

/-- Each reference stands in one place, a child node has a smaller index, and the root is the last node. -/
structure Proper (t : Tree) : Prop where
  child_inj : ∀ {i j : Nat} {x y : Node} {b d : Bool}, t.nodes[i]? = some x → t.nodes[j]? = some y →
    x.child b = y.child d → i = j ∧ b = d
  child_lt : ∀ {i : Nat} {x : Node} (b : Bool), t.nodes[i]? = some x → (x.child b).toNat < 0x8000 + i
  root_last : t.nodes ≠ [] → t.root + 1 = t.nodes.length

theorem Proper.child_ne_root (h : t.Proper) (hx : t.nodes[i]? = some x) (b : Bool) : (x.child b).toNat ≠ 0x8000 + t.root := by
  have hi := (List.getElem?_eq_some_iff.1 hx).1
  have hroot := h.root_last (List.ne_nil_of_length_pos (by omega))
  have := h.child_lt b hx
  omega

theorem Proper.path_unique (h : t.Proper) (hp : t.Reaches p i) (hq : t.Reaches q i) : p = q := by
  have hparent : ∀ {o k}, t.Reaches o k → o = [] ∧ k = t.root ∨
      ∃ (o' : List Bool) (b : Bool) (j : Nat) (x : Node), o = o' ++ [b] ∧ t.Reaches o' j ∧ t.nodes[j]? = some x ∧
        (x.child b).toNat = 0x8000 + k := by
    rintro o k (hroot | ⟨r, hr, hle, hk⟩)
    · exact .inl hroot
    · obtain ⟨o', b, j, x, ho, hreach, hx, rfl⟩ := follow_parent hr
      exact .inr ⟨o', b, j, x, ho, hreach, hx, by omega⟩
  induction p using List.reverseRecOn generalizing q i with
  | nil =>
    obtain ⟨-, rfl⟩ | ⟨o, b, j, x, ho, -⟩ := hparent hp
    · obtain ⟨rfl, -⟩ | ⟨_, b, j, x, -, -, hx, hr⟩ := hparent hq
      · rfl
      · exact absurd hr (h.child_ne_root hx b)
    · exact absurd ho.symm (by simp)
  | append_singleton p b ih =>
    obtain ⟨hnil, -⟩ | ⟨o, b', j, x, ho, hreach, hx, hr⟩ := hparent hp
    · exact absurd hnil (by simp)
    · obtain ⟨rfl, rfl⟩ := List.append_inj' ho rfl |>.imp_right List.singleton_inj.1
      obtain ⟨-, rfl⟩ | ⟨o, d, k, y, rfl, hreach', hy, hr'⟩ := hparent hq
      · exact absurd hr (h.child_ne_root hx b)
      · obtain ⟨rfl, rfl⟩ := h.child_inj hx hy (BitVec.eq_of_toNat_eq (hr.trans hr'.symm))
        rw [ih hreach hreach']

theorem Proper.unshared (h : t.Proper) : t.Unshared := fun p q r hp hq hle => by
  refine ⟨h.path_unique (.inr ⟨r, hp, hle, rfl⟩) (.inr ⟨r, hq, hle, rfl⟩), fun hroot => ?_⟩
  obtain ⟨-, b, j, x, -, -, hx, rfl⟩ := follow_parent hp
  exact h.child_ne_root hx b (by omega)

/-- When every node but the last is a child of another, each node is reached from the root. -/
theorem Proper.reaches (h : t.Proper)
    (hchild : ∀ i, i + 1 < t.nodes.length → ∃ (j : Nat) (x : Node) (b : Bool), t.nodes[j]? = some x ∧
      (x.child b).toNat = 0x8000 + i)
    (hi : i < t.nodes.length) : ∃ p, t.Reaches p i := by
  have hroot := h.root_last (List.ne_nil_of_length_pos (by omega))
  induction hk : t.nodes.length - i using Nat.strong_induction_on generalizing i with
  | _ k ih =>
    by_cases hlast : i + 1 = t.nodes.length
    · obtain rfl : i = t.root := by omega
      exact ⟨[], t.reaches_root⟩
    · obtain ⟨j, x, b, hx, hr⟩ := hchild i (by omega)
      have hlt := h.child_lt b hx
      have hj := (List.getElem?_eq_some_iff.1 hx).1
      obtain ⟨p, hp⟩ := ih (t.nodes.length - j) (by omega) hj rfl
      exact ⟨p ++ [b], .inr ⟨x.child b, hp.child hx b, by omega, by omega⟩⟩

end Tree

/-! ### Depth -/

theorem EndsWithin.children {h : Nat} (hi : EndsWithin nodes (0x8000 + i) h) (hx : nodes[i]? = some x) :
    ∃ k, h = k + 1 ∧ ∀ b, EndsWithin nodes (x.child b).toNat k := by
  generalize hr : 0x8000 + i = r at hi
  cases hi with
  | leaf => omega
  | @node j h y hy hl hr =>
    obtain rfl : i = j := by omega
    cases hx.symm.trans hy
    exact ⟨h, rfl, fun b => by cases b <;> assumption⟩

theorem EndsWithin.length_le {h : Nat} (hi : EndsWithin t.nodes (0x8000 + i) h) (hp : t.follow p i = some r) : p.length ≤ h := by
  induction p generalizing i h with
  | nil => exact Nat.zero_le _
  | cons b q ih =>
    by_cases hq : q = []
    · subst hq
      rw [Tree.follow_singleton] at hp
      obtain ⟨x, hx, -⟩ := Option.map_eq_some_iff.1 hp
      obtain ⟨k, rfl, -⟩ := hi.children hx
      exact Nat.succ_le_succ (Nat.zero_le k)
    · obtain ⟨x, hx, hle, hp⟩ := (Tree.follow_cons hq).1 hp
      obtain ⟨k, rfl, hk⟩ := hi.children hx
      have hk := hk b
      rw [← Nat.add_sub_of_le hle] at hk
      exact Nat.succ_le_succ (ih hk hp)

/-! ### References by their place -/

theorem childRefs_getElem? (nodes : List Node) (i : Nat) (b : Bool) :
    (childRefs nodes)[2 * i + b.toNat]? = nodes[i]?.map fun x => (x.child b).toNat := by
  induction nodes generalizing i with
  | nil => rfl
  | cons x nodes ih =>
    cases i with
    | zero => cases b <;> rfl
    | succ i => exact (congrArg _ (by omega : 2 * (i + 1) + b.toNat = (2 * i + b.toNat) + 2)).trans (ih i)

theorem mem_childRefs : v ∈ childRefs nodes ↔
    ∃ (i : Nat) (x : Node) (b : Bool), nodes[i]? = some x ∧ (x.child b).toNat = v := by
  rw [childRefs, List.mem_flatMap]
  constructor
  · rintro ⟨x, hx, hv⟩
    obtain ⟨i, hi⟩ := List.mem_iff_getElem?.1 hx
    obtain rfl | rfl : v = x.left.toNat ∨ v = x.right.toNat := by simpa using hv
    · exact ⟨i, x, false, hi, rfl⟩
    · exact ⟨i, x, true, hi, rfl⟩
  · rintro ⟨i, x, b, hi, rfl⟩
    exact ⟨x, List.mem_of_getElem? hi, by cases b <;> simp [Node.child]⟩

theorem child_inj_of_nodup (h : (childRefs nodes).Nodup) (hx : nodes[i]? = some x) (hy : nodes[j]? = some y)
    (heq : x.child b = y.child d) : i = j ∧ b = d := by
  have hi := childRefs_getElem? nodes i b
  have hj := childRefs_getElem? nodes j d
  rw [hx, Option.map_some, heq] at hi
  rw [hy, Option.map_some] at hj
  have hsame := (List.getElem?_inj (List.getElem?_eq_some_iff.1 hi).1 h).1 (hi.trans hj.symm)
  have hb := b.toNat_le
  have hd := d.toNat_le
  exact ⟨by omega, Function.LeftInverse.injective Bool.ofNat_toNat (by omega)⟩

/-! ### The work list (R96) -/

section
variable {s : State} {c : Ch} {l rest : List (Nat × Nat)} (hl : WorkList s c l)
include hl

theorem WorkList.lt {e : Nat × Nat} (he : e ∈ l) : e.1 < alphabet s := ((hl.2 e.1 e.2).1 he).1

theorem WorkList.nodup : (l.map Prod.fst).Nodup := by
  refine List.pairwise_map.2 (hl.1.imp_of_mem fun {e f} he hf h heq => ?_)
  obtain ⟨-, hfe, -⟩ := (hl.2 e.1 e.2).1 he
  obtain ⟨-, hff, -⟩ := (hl.2 f.1 f.2).1 hf
  rw [heq] at hfe
  omega

theorem WorkList.length_le : l.length ≤ alphabet s := by
  have hsub : l.map Prod.fst ⊆ List.range (alphabet s) := fun v hv => by
    obtain ⟨e, he, rfl⟩ := List.mem_map.1 hv
    exact List.mem_range.2 (hl.lt he)
  simpa using (hl.nodup.subperm hsub).length_le

theorem WorkList.refsBelow (hA : alphabet s ≤ 4096) : RefsBelow 0 l :=
  ⟨fun e he => by have := hl.lt he; omega, by have := hl.length_le; omega⟩

theorem WorkList.slender (hA : alphabet s ≤ 4096) : Slender [] 1 l where
  sorted := hl.1.imp fun h => by omega
  least e he := Nat.one_le_iff_ne_zero.2 ((hl.2 e.1 e.2).1 he).2.2
  deep e he := ⟨0, .leaf (by have := hl.lt he; omega), Nat.one_le_iff_ne_zero.2 ((hl.2 e.1 e.2).1 he).2.2, le_rfl⟩

theorem WorkList.sum_lt (hA : alphabet s ≤ 4096) : (l.map Prod.snd).sum < 2 ^ 44 := by
  have hle : (l.map Prod.snd).sum ≤ (l.map Prod.snd).length • (2 ^ 32 - 1) := List.sum_le_card_nsmul _ _ fun f hf => by
    obtain ⟨e, he, rfl⟩ := List.mem_map.1 hf
    obtain ⟨-, hf, -⟩ := (hl.2 e.1 e.2).1 he
    have := (s.histAt c e.1).isLt
    omega
  have := hl.length_le
  rw [List.length_map, smul_eq_mul] at hle
  omega

end

/-! ### The tree (R98, R107) -/

section
variable {s : State} {c : Ch} {l rest : List (Nat × Nat)} (hA : alphabet s ≤ 4096) (hl : WorkList s c l)
  (hm : Merges 0 l t.nodes rest) (hroot : t.root = rootAfter t.nodes rest)
include hA hl hm

theorem Merges.mem_childRefs_or (hv : v ∈ l.map Prod.fst ∨ 0x8000 ≤ v ∧ v < 0x8000 + t.nodes.length) :
    v ∈ childRefs t.nodes ∨ v ∈ rest.map Prod.fst :=
  List.mem_append.1 ((hm.childRefs_perm (hl.refsBelow hA)).mem_iff.1
    (List.mem_append.2 (hv.imp_right fun h => List.mem_range'_1.2 h)))

theorem Merges.child_cases (hx : t.nodes[i]? = some x) (b : Bool) :
    (x.child b).toNat < alphabet s ∨ 0x8000 ≤ (x.child b).toNat ∧ (x.child b).toNat < 0x8000 + t.nodes.length := by
  have hmem := (hm.childRefs_perm (hl.refsBelow hA)).mem_iff.2 (List.mem_append_left _ (mem_childRefs.2 ⟨i, x, b, hx, rfl⟩))
  refine (List.mem_append.1 hmem).imp (fun h => ?_) List.mem_range'_1.1
  obtain ⟨e, he, hv⟩ := List.mem_map.1 h
  exact hv ▸ hl.lt he

include hroot

theorem Merges.proper : t.Proper where
  child_inj hx hy heq := by
    refine child_inj_of_nodup ?_ hx hy heq
    refine List.Nodup.of_append_left ((hm.childRefs_perm (hl.refsBelow hA)).nodup_iff.1 ?_)
    refine List.nodup_append.2 ⟨hl.nodup, List.nodup_range', fun v hv w hw => ?_⟩
    obtain ⟨e, he, rfl⟩ := List.mem_map.1 hv
    have := hl.lt he
    have := List.mem_range'_1.1 hw
    omega
  child_lt b hx := hm.child_lt (hl.refsBelow hA) hx b
  root_last hne := by
    have hpos := List.length_pos_iff.2 hne
    rw [hroot, rootAfter, if_pos hpos.ne']
    omega

theorem Merges.legal : t.Legal (alphabet s) := by
  have hlen := hm.length_eq
  have hle := hl.length_le
  have hproper := hm.proper hA hl hroot
  refine ⟨by omega, ?_, fun x hx => ?_⟩
  · by_cases hnil : t.nodes = []
    · rw [if_pos hnil, hroot, rootAfter, if_neg (by simp [hnil]), hm.rest_eq_of_nil hnil]
      cases l with
      | nil => exact Nat.pow_pos Nat.two_pos
      | cons e l => exact hl.lt List.mem_cons_self
    · have := hproper.root_last hnil
      rw [if_neg hnil]
      omega
  · obtain ⟨i, hi⟩ := List.mem_iff_getElem?.1 hx
    have hchild : ∀ b, RefLegal (alphabet s) t.nodes.length (x.child b) := fun b => by
      have := hm.child_cases hA hl hi b
      unfold RefLegal
      split <;> omega
    exact ⟨hchild false, hchild true⟩

theorem Merges.shallow : t.Shallow := fun p r hp _ => by
  by_cases hnil : t.nodes = []
  · obtain ⟨o, b, j, x, -, -, hx, -⟩ := Tree.follow_parent hp
    rw [hnil] at hx
    cases hx
  have hlen := hm.length_eq
  have hpos := List.length_pos_iff.2 hnil
  obtain ⟨e, rfl, hlast⟩ := hm.rest_eq (List.ne_nil_of_length_pos (by omega))
  have hlast := hlast hnil
  have hrootlast := (hm.proper hA hl hroot).root_last hnil
  obtain ⟨k, hslender⟩ := hm.slender (acc := []) rfl (hl.refsBelow hA) (hl.slender hA)
  obtain ⟨h, hends, hfib, -⟩ := hslender.deep e (List.mem_singleton_self e)
  rw [List.nil_append, show e.1 = 0x8000 + t.root by omega] at hends
  have hsum : e.2 < 2 ^ 44 := by
    have := hm.sum_eq
    rw [List.map_singleton, List.sum_singleton] at this
    exact this ▸ hl.sum_lt hA
  refine (hends.length_le hp).trans (not_lt.1 fun hdeep => ?_)
  have hmono : Nat.fib 67 ≤ Nat.fib (h + 2) := Nat.fib_mono (by omega)
  have hbig : 2 ^ 44 ≤ Nat.fib 67 := by norm_num
  omega

/-- Every symbol of the work list is a leaf. -/
theorem Merges.exists_codePath (hv : v ∈ l.map Prod.fst) : ∃ p, t.CodePath v p := by
  by_cases hnil : t.nodes = []
  · refine ⟨[], ?_⟩
    have hlen := hm.length_eq
    rw [hnil] at hlen
    obtain ⟨e, rfl⟩ : ∃ e, l = [e] := List.length_eq_one_iff.1 (by
      have := List.length_pos_of_mem hv
      rw [List.length_map, List.length_nil] at *
      omega)
    rw [Tree.CodePath, if_pos hnil, hroot, rootAfter, if_neg (by simp [hnil]), hm.rest_eq_of_nil hnil]
    exact ⟨rfl, (List.mem_singleton.1 hv).symm⟩
  have hlen := hm.length_eq
  have hpos := List.length_pos_iff.2 hnil
  have hproper := hm.proper hA hl hroot
  obtain ⟨e, rfl, hlast⟩ := hm.rest_eq (List.ne_nil_of_length_pos (by omega))
  have hlast := hlast hnil
  have hnode : ∀ i, i + 1 < t.nodes.length → ∃ (j : Nat) (x : Node) (b : Bool), t.nodes[j]? = some x ∧
      (x.child b).toNat = 0x8000 + i := fun i hi => by
    obtain h | h := hm.mem_childRefs_or hA hl (.inr ⟨Nat.le_add_right _ i, by omega⟩)
    · exact mem_childRefs.1 h
    · have := List.mem_singleton.1 h
      omega
  have hleaf : v ∈ childRefs t.nodes := (hm.mem_childRefs_or hA hl (.inl hv)).resolve_right fun h => by
    obtain ⟨f, hf, rfl⟩ := List.mem_map.1 hv
    have := hl.lt hf
    have := List.mem_singleton.1 h
    omega
  obtain ⟨i, x, b, hx, rfl⟩ := mem_childRefs.1 hleaf
  obtain ⟨p, hp⟩ := hproper.reaches hnode (List.getElem?_eq_some_iff.1 hx).1
  obtain ⟨f, hf, hfv⟩ := List.mem_map.1 hv
  have := hl.lt hf
  exact ⟨p ++ [b], (Tree.codePath_iff hnil).2 ⟨_, hp.child hx b, by omega, rfl⟩⟩

end

/-- What TREE_BUILD gives is a legal tree that CODE_GEN accepts, with a code for every symbol of nonzero count (R98, R107). -/
theorem BuiltTree.facts {s : State} {c : Ch} (hA : alphabet s ≤ 4096) (h : BuiltTree s c t) :
    t.Legal (alphabet s) ∧ t.Unshared ∧ t.Shallow ∧
      ∀ v < alphabet s, s.histAt c v ≠ 0 → ∃ p, t.CodePath v p := by
  obtain ⟨l, rest, hl, hm, hroot⟩ := h
  refine ⟨hm.legal hA hl hroot, (hm.proper hA hl hroot).unshared, hm.shallow hA hl hroot, fun v hv hne => ?_⟩
  have hmem := (hl.2 v (s.histAt c v).toNat).2 ⟨hv, rfl, fun h0 => hne (BitVec.eq_of_toNat_eq h0)⟩
  exact hm.exists_codePath hA hl hroot (List.mem_map.2 ⟨_, hmem, rfl⟩)

end Sys2Proof.Spec
end

section
/-! SUPPORT. TREE_BUILD refines the merges of R96 to R98: the model holds its work list tail first. -/

namespace Sys2Proof.Machine

open Spec

variable {s : State} {c d : Ch} {e x : Entry} {l : List Entry} {i n v : Nat}

/-! ### Insertion (R97) -/

/-- The entries of strictly lower frequency that a new entry passes, then it, then the rest. -/
theorem insertEntry_eq (e : Entry) (l : List Entry) :
    insertEntry e l = l.takeWhile (fun x => x.freq < e.freq) ++ e :: l.dropWhile fun x => x.freq < e.freq := by
  induction l with
  | nil => rfl
  | cons x l ih =>
    unfold insertEntry
    by_cases h : x.freq < e.freq
    · rw [if_pos h, ih, List.takeWhile_cons_of_pos (by simpa using h), List.dropWhile_cons_of_pos (by simpa using h)]
      rfl
    · rw [if_neg h, List.takeWhile_cons_of_neg (by simpa using h), List.dropWhile_cons_of_neg (by simpa using h)]
      rfl

theorem mem_insertEntry : x ∈ insertEntry e l ↔ x = e ∨ x ∈ l := by
  rw [insertEntry_eq, List.perm_middle.mem_iff, List.mem_cons, List.takeWhile_append_dropWhile]

/-- Tail first: ascending frequency, equal frequencies in descending symbol order (R96). -/
def TailFirst (l : List Entry) : Prop :=
  l.Pairwise fun x y => x.freq < y.freq ∨ x.freq = y.freq ∧ y.val.toNat < x.val.toNat

/-- An entry of a later symbol goes after its equals. -/
theorem TailFirst.insertEntry (h : TailFirst l) (hlater : ∀ x ∈ l, x.val.toNat < e.val.toNat) :
    TailFirst (insertEntry e l) := by
  induction l with
  | nil => exact List.pairwise_singleton _ _
  | cons x l ih =>
    obtain ⟨hx, hrest⟩ := List.pairwise_cons.1 h
    unfold Machine.insertEntry
    by_cases hlt : x.freq < e.freq
    · rw [if_pos hlt]
      refine List.pairwise_cons.2 ⟨fun y hy => ?_, ih hrest fun y hy => hlater y (List.mem_cons_of_mem x hy)⟩
      obtain rfl | hy := mem_insertEntry.1 hy
      · exact .inl hlt
      · exact hx y hy
    · rw [if_neg hlt]
      refine List.pairwise_cons.2 ⟨fun y hy => ?_, h⟩
      have hval := hlater y hy
      obtain rfl | hy := List.mem_cons.1 hy
      · omega
      · have := hx y hy
        omega

/-! ### The work list (R96) -/

/-- The work list of the symbols below `i`. -/
structure WorkBelow (s : State) (c : Ch) (i : Nat) (l : List Entry) : Prop where
  order : TailFirst l
  mem : ∀ x, x ∈ l ↔ x.val.toNat < i ∧ x.freq = (s.histAt c x.val.toNat).toNat ∧ x.freq ≠ 0

theorem WorkBelow.step (h : WorkBelow s c i l) (hi : i < 2 ^ 16) : WorkBelow s c (i + 1)
    (if s.histAt c i = 0 then l else insertEntry ⟨BitVec.ofNat 16 i, (s.histAt c i).toNat⟩ l) := by
  have hval : (BitVec.ofNat 16 i).toNat = i := (BitVec.toNat_ofNat _ _).trans (Nat.mod_eq_of_lt hi)
  have hlast : ∀ x : Entry, x.val.toNat < i + 1 ↔ x.val.toNat < i ∨ x.val.toNat = i := fun x => by omega
  by_cases hzero : s.histAt c i = 0
  · rw [if_pos hzero]
    refine ⟨h.order, fun x => (h.mem x).trans ?_⟩
    rw [hlast]
    refine and_congr_left fun hx => (or_iff_left fun hxi => ?_).symm
    rw [hxi, hzero] at hx
    exact hx.2 hx.1
  · have hne : (s.histAt c i).toNat ≠ 0 := fun h0 => hzero (BitVec.eq_of_toNat_eq h0)
    rw [if_neg hzero]
    refine ⟨h.order.insertEntry fun x hx => hval.symm ▸ ((h.mem x).1 hx).1, fun x => ?_⟩
    rw [mem_insertEntry, h.mem, hlast]
    constructor
    · rintro (rfl | ⟨hlt, hx⟩)
      · exact ⟨.inr hval, congrArg (fun k => (s.histAt c k).toNat) hval.symm, hne⟩
      · exact ⟨.inl hlt, hx⟩
    · rintro ⟨hlt | hxi, hx⟩
      · exact .inr ⟨hlt, hx⟩
      · obtain ⟨val, freq⟩ := x
        obtain rfl : val = BitVec.ofNat 16 i := BitVec.eq_of_toNat_eq (hxi.trans hval.symm)
        exact .inl (congrArg _ (hx.1.trans (by rw [hval])))

theorem workFrom_below (h : WorkBelow s c i l) (hn : i + n ≤ 2 ^ 16) : WorkBelow s c (i + n) (workFrom s c n i l) := by
  induction n generalizing i l with
  | zero => exact h
  | succ n ih =>
    have := ih (h.step (by omega)) (by omega)
    rwa [Nat.add_assoc, Nat.add_comm 1] at this

theorem workList_below (s : State) (c : Ch) : WorkBelow s c s.alpha (workList s c) := by
  have hA : s.alpha ≤ 4096 := s.alpha_le
  have := workFrom_below (s := s) (c := c) (i := 0) (l := []) (n := s.alpha) ⟨.nil, fun x => by simp⟩ (by omega)
  rwa [Nat.zero_add] at this

/-- A work list as the specification writes it: head first. -/
def headFirst (l : List Entry) : List (Nat × Nat) := (l.map fun e => (e.val.toNat, e.freq)).reverse

@[simp] theorem headFirst_length (l : List Entry) : (headFirst l).length = l.length := by simp [headFirst]

theorem workList_spec (s : State) (c : Ch) : WorkList s c (headFirst (workList s c)) := by
  have hA : s.alpha ≤ 4096 := s.alpha_le
  obtain ⟨horder, hmem⟩ := workList_below s c
  refine ⟨List.pairwise_reverse.2 (List.pairwise_map.2 horder), fun v f => ?_⟩
  rw [headFirst, List.mem_reverse, List.mem_map, alphabet_eq]
  constructor
  · rintro ⟨x, hx, heq⟩
    obtain ⟨rfl, rfl⟩ := Prod.mk.inj heq
    exact (hmem x).1 hx
  · rintro ⟨hv, hf⟩
    have hval : (BitVec.ofNat 16 v).toNat = v := (BitVec.toNat_ofNat _ _).trans (Nat.mod_eq_of_lt (by omega))
    exact ⟨⟨BitVec.ofNat 16 v, f⟩, (hmem _).2 (by rw [hval]; exact ⟨hv, hf⟩), by rw [hval]⟩

/-! ### The merges (R97) -/

theorem headFirst_insertEntry (e : Entry) (l : List Entry) :
    headFirst (insertEntry e l) = headFirst (l.dropWhile fun x => x.freq < e.freq) ++
      (e.val.toNat, e.freq) :: headFirst (l.takeWhile fun x => x.freq < e.freq) := by
  simp [headFirst, insertEntry_eq]

theorem headFirst_append (k l : List Entry) : headFirst (k ++ l) = headFirst l ++ headFirst k := by simp [headFirst]

theorem mergeAll_merges {fuel : Nat} (hfuel : l.length ≤ fuel) (hroom : n + l.length ≤ 0x8000) :
    Merges n (headFirst l) (mergeAll fuel n l).1 (headFirst (mergeAll fuel n l).2) := by
  induction fuel generalizing n l with
  | zero => exact .stop (by rw [headFirst_length]; omega)
  | succ fuel ih =>
    match l with
    | [] => exact .stop (Nat.zero_le 1)
    | [_] => exact .stop le_rfl
    | a :: b :: rest =>
      simp only [List.length_cons] at hfuel hroom
      have hval : (BitVec.ofNat 16 (Config.leafLimit + n)).toNat = 0x8000 + n :=
        (BitVec.toNat_ofNat _ _).trans (Nat.mod_eq_of_lt (show 0x8000 + n < 2 ^ 16 by omega))
      have hnext := ih (n := n + 1) (l := insertEntry ⟨BitVec.ofNat 16 (Config.leafLimit + n), a.freq + b.freq⟩ rest)
        (by rw [insertEntry_length]; omega) (by rw [insertEntry_length]; omega)
      rw [headFirst_insertEntry, hval] at hnext
      have hmerge := Merges.merge (second := (b.val.toNat, b.freq)) (tail := (a.val.toNat, a.freq)) ?_ ?_ hnext
      · rw [← headFirst_append, List.takeWhile_append_dropWhile] at hmerge
        simpa [headFirst, mergeAll] using hmerge
      · intro e he
        rw [headFirst, List.getLast?_reverse, List.head?_map] at he
        obtain ⟨x, hx, rfl⟩ := Option.map_eq_some_iff.1 he
        have := List.head?_dropWhile_not (fun x : Entry => x.freq < a.freq + b.freq) rest
        rw [hx] at this
        simpa using this
      · intro e he
        rw [headFirst, List.mem_reverse] at he
        obtain ⟨x, hx, rfl⟩ := List.mem_map.1 he
        simpa using List.mem_takeWhile_imp hx

/-! ### TREE_BUILD (R98) -/

theorem rootOf_toNat {nodes : List Node} {rest : List Entry} (hnodes : nodes.length < 2 ^ 32) (hrest : rest.length ≤ 1) :
    (rootOf nodes rest).toNat = rootAfter nodes (headFirst rest) := by
  match nodes, rest with
  | x :: nodes, rest =>
    rw [List.length_cons] at hnodes
    exact (BitVec.toNat_ofNat _ _).trans (Nat.mod_eq_of_lt (by omega))
  | [], [] => rfl
  | [], [e] =>
    show (e.val.setWidth 32).toNat = e.val.toNat
    have := e.val.isLt
    rw [BitVec.toNat_setWidth, Nat.mod_eq_of_lt (by omega)]
  | [], _ :: _ :: _ => simp at hrest

/-- TREE_BUILD stores the tree of R96 to R98. -/
theorem builtTree_buildTree (hs : Rising s) (c : Ch) : BuiltTree s c (treeOf (s.buildTree c) c) := by
  have hA : s.alpha ≤ 4096 := s.alpha_le
  have hlist := workList_spec s c
  have hlen : (workList s c).length ≤ s.alpha := by
    have := hlist.length_le
    rwa [headFirst_length, alphabet_eq] at this
  have hnodes : (merges s c).1.length ≤ 4095 := merges_length_le s c
  have hmerges : Merges 0 (headFirst (workList s c)) (merges s c).1 (headFirst (merges s c).2) :=
    mergeAll_merges le_rfl (by omega)
  have hncount : ((s.buildTree c).ncount.get c).toNat = (merges s c).1.length := by
    rw [State.buildTree_eq]
    simp only [Quad.get_set_same]
    exact (BitVec.toNat_ofNat _ _).trans (Nat.mod_eq_of_lt (by omega))
  have htree : (treeOf (s.buildTree c) c).nodes = (merges s c).1 := List.ext_getElem? fun j => by
    rw [treeOf_nodes_getElem?, hncount]
    by_cases hj : j < (merges s c).1.length
    · have hsym : j < Config.symbols := show j < 4096 by omega
      rw [if_pos hj, hs.nodeAt_buildTree hsym, if_pos ⟨rfl, hj⟩, List.getElem?_eq_getElem hj, List.getD_eq_getElem _ _ hj]
    · rw [if_neg hj, List.getElem?_eq_none (not_lt.1 hj)]
  refine ⟨_, headFirst (merges s c).2, hlist, htree ▸ hmerges, ?_⟩
  rw [htree, ← rootOf_toNat (by omega) ((headFirst_length _).symm.trans_le hmerges.rest_length_le)]
  show ((s.buildTree c).root.get c).toNat = _
  rw [State.buildTree_eq]
  simp only [Quad.get_set_same]

end Sys2Proof.Machine
end

section
/-! SUPPORT. The second part of ENC_FRAME: the tree of every channel from its counts, and the codes in it (R145). -/

namespace Sys2Proof.Machine

open Spec

variable {s t u v : State} {c d : Ch}

/-- Only the trees and the codes change from `s` to `u`. -/
def TablesOnly (s u : State) : Prop := u = { s with tree := u.tree, ncount := u.ncount, root := u.root, code := u.code }

theorem TablesOnly.trans (h1 : TablesOnly s t) (h2 : TablesOnly t u) : TablesOnly s u := by
  unfold TablesOnly at *
  rw [h2, h1]

theorem TablesOnly.hist_eq (h : TablesOnly s u) : u.hist = s.hist := by rw [h]

theorem TablesOnly.alphabet_eq (h : TablesOnly s u) : alphabet u = alphabet s := by
  unfold TablesOnly at h
  rw [h]
  rfl

/-- The tree of a channel and its codes: the tree that TREE_BUILD makes from the counters, and the path of every symbol of
nonzero count. -/
structure Coded (s : State) (c : Ch) : Prop where
  built : BuiltTree s c (treeOf s c)
  legal : (treeOf s c).Legal (alphabet s)
  codes : ∀ v < alphabet s, s.histAt c v ≠ 0 → (s.codeAt c v).valid = true ∧
    (treeOf s c).CodePath v (codeBits (s.codeAt c v)) ∧ (codeBits (s.codeAt c v)).length ≤ 64

theorem histAt_congr (hhist : u.hist = s.hist) (c : Ch) (v : Nat) : u.histAt c v = s.histAt c v := by
  rw [State.histAt, hhist, State.histAt]

theorem builtTree_congr {x : Tree} (h : BuiltTree s c x) (hhist : u.hist = s.hist) (halpha : alphabet u = alphabet s) :
    BuiltTree u c x := by
  obtain ⟨l, rest, hlist, hrest⟩ := h
  refine ⟨l, rest, ?_, hrest⟩
  unfold WorkList at hlist ⊢
  simp only [histAt_congr hhist, halpha]
  exact hlist

/-- The tree and the codes of a channel do not depend on the rest of the state. -/
theorem Coded.congr (h : Coded s c) (hhist : u.hist = s.hist) (halpha : alphabet u = alphabet s)
    (htree : treeOf u c = treeOf s c) (hcode : ∀ v < alphabet s, u.codeAt c v = s.codeAt c v) : Coded u c := by
  refine ⟨htree ▸ builtTree_congr h.built hhist halpha, halpha ▸ htree ▸ h.legal, fun v hv hne => ?_⟩
  rw [halpha] at hv
  rw [htree, hcode v hv]
  exact h.codes v hv (histAt_congr hhist c v ▸ hne)

theorem alphabet_le (s : State) : alphabet s ≤ 4096 := alphabet_eq s ▸ s.alpha_le

theorem buildTree_tablesOnly (s : State) (c : Ch) : TablesOnly s (s.buildTree c) := by
  unfold TablesOnly
  rw [State.buildTree_eq]

/-- TREE_BUILD leaves the trees of the other channels, where their count is legal. -/
theorem treeOf_buildTree_other (hs : Rising s) (hd : d ≠ c) (hlegal : (treeOf s d).Legal (alphabet s)) :
    treeOf (s.buildTree c) d = treeOf s d := by
  have hcount : (s.ncount.get d).toNat ≤ alphabet s - 1 := treeOf_nodes_length s d ▸ hlegal.1
  have hA := alphabet_le s
  have hncount : (s.buildTree c).ncount.get d = s.ncount.get d := by
    rw [State.buildTree_eq]
    exact Quad.get_set_other _ _ hd
  have hroot : (s.buildTree c).root.get d = s.root.get d := by
    rw [State.buildTree_eq]
    exact Quad.get_set_other _ _ hd
  unfold treeOf
  rw [hncount, hroot]
  refine congrArg _ (List.map_congr_left fun i hi => ?_)
  have hi := List.mem_range.1 hi
  exact (hs.nodeAt_buildTree (show i < 4096 by omega)).trans (if_neg fun h => hd h.1)

/-- The run of CODE_GEN leaves the codes of the other channels. -/
theorem codeGenBody_codesOnly (hs : Rising s) (h : codeGenBody c s = .ok () u) : CodesOnly c s u := by
  have hkeeps := codeGenBody_keeps (r := s) (P := CodesOnly c s) (fun _ h => h.clearCodes) (fun _ _ _ hsym _ h => h.setCode hsym)
    s s ⟨rfl, ⟨⟨_, rfl⟩, hs, fun _ _ _ _ => rfl⟩, rfl⟩
  obtain ⟨_, x, y, hx, -, rfl, hcodes, -⟩ | ⟨e, info, x, y, hx, -⟩ := hkeeps
  · cases hx.symm.trans h
    exact hcodes
  · cases hx.symm.trans h

theorem buildChannel_completes (hs : Rising s) (c : Ch) : ∃ u, buildChannel c s = .ok () u ∧ TablesOnly s u ∧ Rising u ∧
    Coded u c ∧ ∀ d ≠ c, Coded s d → Coded u d := by
  have hbuilt := builtTree_buildTree hs c
  have htables := buildTree_tablesOnly s c
  have hrising := hs.buildTree c
  obtain ⟨hlegal, hunshared, hshallow, hpaths⟩ := hbuilt.facts (alphabet_le s)
  have hfault := legal_iff.1 (htables.alphabet_eq.symm ▸ hlegal)
  obtain ⟨u, hu, hcodes⟩ | ⟨_, _, hbad⟩ | ⟨_, _, hbad⟩ := codeGenBody_ends hrising hfault
  case inr.inl => exact absurd hunshared hbad
  case inr.inr => exact absurd hshallow hbad
  have honly := codeGenBody_codesOnly hrising hu
  have htrees : ∀ d, treeOf u d = treeOf (s.buildTree c) d := fun d => by
    obtain ⟨l, rfl⟩ := honly.eq
    rfl
  have htables' : TablesOnly (s.buildTree c) u := by
    obtain ⟨l, rfl⟩ := honly.eq
    rfl
  have hall := htables.trans htables'
  refine ⟨u, hu, hall, honly.rising, ?_, fun d hd h => ?_⟩
  · refine ⟨htrees c ▸ builtTree_congr hbuilt hall.hist_eq hall.alphabet_eq, htrees c ▸ hall.alphabet_eq.symm ▸ hlegal,
      fun v hv hne => ?_⟩
    rw [hall.alphabet_eq] at hv
    obtain ⟨p, hp⟩ := hpaths v hv (histAt_congr hall.hist_eq c v ▸ hne)
    obtain ⟨q, hq, hcode⟩ | ⟨hno, -⟩ := hcodes.codeAt hrising (hv.trans_le (alphabet_le s))
    · rw [htrees, hcode, codeBits_codeOf hq.short]
      exact ⟨rfl, hq.code, hq.short⟩
    · exact absurd hp (hno p)
  · refine h.congr hall.hist_eq hall.alphabet_eq ((htrees d).trans (treeOf_buildTree_other hs hd h.legal)) fun v hv => ?_
    refine (honly.code d hd v (hv.trans_le (alphabet_le s))).trans ?_
    rw [State.buildTree_eq]
    rfl

/-- The channels of `l` but those of `rest` have their trees and codes. -/
def CodedBut (s : State) (l rest : List Ch) (u : State) : Prop :=
  TablesOnly s u ∧ Rising u ∧ ∀ c ∈ l, c ∉ rest → Coded u c

theorem buildChannels_complete (hs : Rising s) (l : List Ch) : ∃ u, forEach l buildChannel s = .ok () u ∧ TablesOnly s u ∧
    Rising u ∧ ∀ c ∈ l, Coded u c := by
  have hstep : ∀ c rest u, CodedBut s l (c :: rest) u → ∃ w, buildChannel c u = .ok () w ∧ CodedBut s l rest w := by
    rintro c rest u ⟨htables, hrising, hcoded⟩
    obtain ⟨w, hw, htables', hrising', hc, hothers⟩ := buildChannel_completes hrising c
    refine ⟨w, hw, htables.trans htables', hrising', fun d hd hno => ?_⟩
    by_cases hdc : d = c
    · exact hdc ▸ hc
    · exact hothers d hdc (hcoded d hd (fun hmem => (List.mem_cons.1 hmem).elim hdc hno))
  obtain ⟨u, hu, htables, hrising, hcoded⟩ := forEach_completes (CodedBut s l) hstep
    (show CodedBut s l l s from ⟨rfl, hs, fun c hc hno => absurd hc hno⟩)
  exact ⟨u, hu, htables, hrising, fun c hc => hcoded c hc List.not_mem_nil⟩

end Sys2Proof.Machine
end

section
/-! SUPPORT. The samples of the input region, where MEM_OK accepts their bytes (R81, R85, R86). -/

namespace Sys2Proof.Machine

open Spec

variable {r s t u : State} {k n j v : Nat}

/-- `t` has the setup of `r` and its raw frame. -/
structure SameInput (r t : State) : Prop where
  setup : t.setup = r.setup
  deny : t.deny = r.deny
  bytes : ∀ k < rawBytes r, t.mem.read (r.inAddr.toNat + k) = r.mem.read (r.inAddr.toNat + k)

theorem SameInput.refl (r : State) : SameInput r r := ⟨rfl, rfl, fun _ _ => rfl⟩

/-- One byte of the raw frame. -/
theorem SameInput.memRead_run (h : SameInput r t) (hread : Readable r (rawBytes r)) (hk : k < rawBytes r) :
    memRead (r.inAddr.toNat + k) t = .ok (r.mem.read (r.inAddr.toNat + k)) t := by
  have hok : t.memOk .read (r.inAddr.toNat + k) = true := by
    rw [State.memOk, h.deny]
    exact hread k hk
  rw [Machine.memRead_run, if_pos hok, h.bytes k hk]

theorem valueOf_cons (b : Bool) (l : List Bool) : valueOf (b :: l) = b.toNat * 2 ^ l.length + valueOf l := by
  rw [← List.singleton_append, valueOf_append]
  simp [valueOf]

/-- The bits of the packed frame from bit `j` on. -/
def packedList (r : State) (n j : Nat) : List Bool :=
  (List.range n).map fun i => bitOfByte (r.mem.read (r.inAddr.toNat + (j + i) / 8)) (j + i)

theorem packedList_succ (r : State) (n j : Nat) :
    packedList r (n + 1) j = bitOfByte (r.mem.read (r.inAddr.toNat + j / 8)) j :: packedList r n (j + 1) := by
  rw [packedList, packedList, List.range_succ_eq_map, List.map_cons, List.map_map]
  refine congrArg₂ _ rfl (List.map_congr_left fun i _ => ?_)
  rw [Function.comp_apply, Nat.succ_eq_add_one, Nat.add_right_comm, Nat.add_assoc]

@[simp] theorem packedList_length (r : State) (n j : Nat) : (packedList r n j).length = n := by simp [packedList]

theorem SameInput.packedBits_run (h : SameInput r t) (hread : Readable r (rawBytes r)) (hj : (j + n + 7) / 8 ≤ rawBytes r) :
    packedBits n j v t = .ok (v * 2 ^ n + valueOf (packedList r n j)) t := by
  induction n generalizing j v with
  | zero => simp [packedBits, packedList]
  | succ n ih =>
    have haddr : t.inAddr = r.inAddr := State.eq_of_setup h.setup (f := State.inAddr) fun _ => rfl
    unfold packedBits
    rw [Cmd.get_bind_run, haddr, Cmd.bind_run_ok (h.memRead_run hread (by omega)), ih (by omega), packedList_succ,
      valueOf_cons, packedList_length, Nat.pow_succ]
    have hbit : streamBit = bitOfByte := rfl
    rw [hbit]
    congr 1
    ring

theorem sampleAt_lt (s : State) (k : Nat) : sampleAt s k < alphabet s := by
  unfold sampleAt
  split
  · have := valueOf_lt (packedList s (bitWidth s) (k * bitWidth s))
    rwa [packedList_length] at this
  · split
    · rename_i h8
      rw [alphabet, h8]
      exact BitVec.isLt _
    · exact Nat.mod_lt _ (Nat.pow_pos Nat.two_pos)

/-- Sample(k) of a frame that stands in the input region. -/
theorem SameInput.sample_run (h : SameInput r t) (hread : Readable r (rawBytes r)) (hk : k < frameSamples r) :
    sample k t = .ok (sampleAt r k) t := by
  have hcfg : t.cfg = r.cfg := State.eq_of_setup h.setup (f := State.cfg) fun _ => rfl
  have haddr : t.inAddr = r.inAddr := State.eq_of_setup h.setup (f := State.inAddr) fun _ => rfl
  have hbw : t.bw = bitWidth r := by rw [State.bw, hcfg, bitWidth_eq, State.bw]
  have halpha : t.alpha = alphabet r := by rw [State.alpha, hbw, alphabet]
  have hmod := Nat.mod_eq_of_lt (sampleAt_lt r k)
  have hraw : rawBytes r = if r.cfg.packed then (frameSamples r * bitWidth r + 7) / 8
      else frameSamples r * if bitWidth r = 8 then 1 else 2 := rfl
  unfold sample
  rw [Cmd.get_bind_run, hcfg, hbw, halpha, haddr]
  unfold sampleAt at hmod ⊢
  by_cases hp : r.cfg.packed = true
  · rw [if_pos hp] at hmod hraw ⊢
    rw [if_pos hp]
    have hle : k * bitWidth r + bitWidth r ≤ frameSamples r * bitWidth r := by
      rw [← Nat.succ_mul]
      exact Nat.mul_le_mul_right _ hk
    have hrun := h.packedBits_run (v := 0) (n := bitWidth r) (j := k * bitWidth r) hread (by omega)
    rw [Nat.zero_mul, Nat.zero_add] at hrun
    rw [Cmd.bind_run_ok hrun]
    exact congrArg (EStateM.Result.ok · t) hmod
  · rw [if_neg hp] at hmod hraw ⊢
    rw [if_neg hp]
    by_cases h8 : bitWidth r = 8
    · rw [if_pos h8] at hmod hraw ⊢
      rw [if_pos h8, Cmd.bind_run_ok (h.memRead_run hread (by omega))]
      exact congrArg (EStateM.Result.ok · t) hmod
    · rw [if_neg h8] at hraw ⊢
      rw [if_neg h8, Nat.add_assoc, Cmd.bind_run_ok (h.memRead_run hread (by omega)), Cmd.bind_run_ok (h.memRead_run hread (by omega))]
      rfl

end Sys2Proof.Machine
end

section
/-! SUPPORT. RowScan with a visit that completes: the visits in raster order with the deltas of the frame, and PREV (R80, R87,
R88). -/

namespace Sys2Proof.Machine

open Spec

variable {r s t u : State} {k n row x : Nat} {c d : Ch} {Q : Nat → State → Prop} {visit : Nat → Ch → Nat → Cmd Unit}

/-! ### Loops over the channels -/

theorem channels_getElem? (hn : n ≤ 4) {j : Nat} (hj : j < n) : ∃ c : Ch, (channels n)[j]? = some c ∧ c.val = j := by
  refine ⟨⟨j, by omega⟩, ?_, rfl⟩
  rw [channels, List.getElem?_take_of_lt hj]
  obtain rfl | rfl | rfl | rfl : j = 0 ∨ j = 1 ∨ j = 2 ∨ j = 3 := by omega
  all_goals rfl

theorem channels_length (hn : n ≤ 4) : (channels n).length = n := by simp [channels, hn]

/-- A loop over the channels completes where its body does, with an invariant indexed by the channel. -/
theorem forEach_channels_completes {f : Ch → Cmd Unit} (P : Nat → State → Prop) (hn : n ≤ 4)
    (hf : ∀ (c : Ch) s, c.val < n → P c.val s → ∃ t, f c s = .ok () t ∧ P (c.val + 1) t) (h : P 0 s) :
    ∃ t, forEach (channels n) f s = .ok () t ∧ P n t := by
  have hstep : ∀ c rest s, (∃ j ≤ n, c :: rest = (channels n).drop j ∧ P j s) →
      ∃ t, f c s = .ok () t ∧ ∃ j ≤ n, rest = (channels n).drop j ∧ P j t := by
    rintro c rest s ⟨j, -, hdrop, hP⟩
    have hj : j < n := by
      have := congrArg List.length hdrop
      rw [List.length_cons, List.length_drop, channels_length hn] at this
      omega
    obtain ⟨d, hd, rfl⟩ := channels_getElem? hn hj
    obtain ⟨hlt, hget⟩ := List.getElem?_eq_some_iff.1 hd
    rw [List.drop_eq_getElem_cons hlt, hget] at hdrop
    obtain ⟨rfl, rfl⟩ := List.cons.inj hdrop
    obtain ⟨t, ht, hP'⟩ := hf c s hj hP
    exact ⟨t, ht, c.val + 1, hj, rfl, hP'⟩
  obtain ⟨t, ht, j, hj, hdrop, hP⟩ := forEach_completes (fun rest s => ∃ j ≤ n, rest = (channels n).drop j ∧ P j s) hstep
    ⟨0, Nat.zero_le n, rfl, h⟩
  have hle : n ≤ j := by
    have := List.drop_eq_nil_iff.1 hdrop.symm
    rwa [channels_length hn] at this
  exact ⟨t, ht, le_antisymm hj hle ▸ hP⟩

/-! ### What a visit and PREV hold -/

/-- A visit of every sample completes, with its delta, and keeps the frame and PREV; `Q` says how far the visits have come. -/
structure Visits (r : State) (Q : Nat → State → Prop) (visit : Nat → Ch → Nat → Cmd Unit) : Prop where
  setPrev : ∀ {k t} (c : Ch) (v : Nat), Q k t → Q k (t.setPrev c v)
  step : ∀ {k t}, k < frameSamples r → SameInput r t → Q k t →
    ∃ u, visit k (channelOf (nch r) k) (deltaAt r k) t = .ok () u ∧
    Q (k + 1) u ∧ SameInput r u ∧ u.prev = t.prev

/-- PREV before column `x` of a row: 0 at its start, else the sample before. -/
def prevAt (r : State) (row x : Nat) (c : Ch) : BitVec 12 :=
  if c.val < nch r then
    if x = 0 then 0 else BitVec.ofNat 12 (sampleAt r ((row * r.width.toNat + (x - 1)) * nch r + c.val))
  else r.prev.get c

/-- PREV before a row. -/
def prevBefore (r : State) (row : Nat) (c : Ch) : BitVec 12 :=
  if row = 0 then r.prev.get c else prevAt r (row - 1) r.width.toNat c

theorem prevBefore_height (r : State) (c : Ch) : prevBefore r r.height.toNat c = prevAfterScan r c := by
  have hzero {w : Nat} (v : BitVec w) : v.toNat = 0 ↔ v = 0 := ⟨fun h => BitVec.eq_of_toNat_eq h, fun h => h ▸ rfl⟩
  unfold prevBefore prevAt prevAfterScan
  by_cases hheight : r.height = 0 <;> by_cases hwidth : r.width = 0 <;> by_cases hc : c.val < nch r <;>
    simp [hzero, hheight, hwidth, hc]

/-- The scan has come to channel `c` of column `x` in a row. -/
structure Scanned (r : State) (Q : Nat → State → Prop) (row x c : Nat) (t : State) : Prop where
  input : SameInput r t
  progress : Q ((row * r.width.toNat + x) * nch r + c) t
  prev : ∀ d : Ch, t.prev.get d = if d.val < c then prevAt r row (x + 1) d else prevAt r row x d

/-! ### One sample -/

/-- The place of a sample in the frame (R80). -/
theorem sample_place {m W row x c : Nat} (hx : x < W) (hc : c < m) : ((row * W + x) * m + c) % m = c ∧
    ((row * W + x) * m + c) / m = row * W + x ∧ (row * W + x) % W = x := by
  refine ⟨?_, ?_, ?_⟩
  · rw [Nat.mul_add_mod_self_right, Nat.mod_eq_of_lt hc]
  · rw [Nat.mul_comm, Nat.mul_add_div (by omega), Nat.div_eq_of_lt hc, Nat.add_zero]
  · rw [Nat.mul_add_mod_self_right, Nat.mod_eq_of_lt hx]

theorem sample_lt_frameSamples (hrow : row < r.height.toNat) (hx : x < r.width.toNat) (hc : c.val < nch r) :
    (row * r.width.toNat + x) * nch r + c.val < frameSamples r := by
  have hplace : row * r.width.toNat + x < r.width.toNat * r.height.toNat :=
    calc row * r.width.toNat + x < (row + 1) * r.width.toNat := by rw [Nat.succ_mul]; omega
      _ ≤ r.height.toNat * r.width.toNat := Nat.mul_le_mul_right _ hrow
      _ = r.width.toNat * r.height.toNat := Nat.mul_comm _ _
  calc (row * r.width.toNat + x) * nch r + c.val < (row * r.width.toNat + x + 1) * nch r := by rw [Nat.succ_mul]; omega
    _ ≤ frameSamples r := Nat.mul_le_mul_right _ hplace

theorem channelOf_of_mod (h : k % n = c.val) : channelOf n k = c := by
  rw [channelOf, h]
  exact Fin.ext (Nat.mod_eq_of_lt c.isLt)

theorem subMod_eq {a b m : Nat} (hb : b ≤ m) (hm : 0 < m) : subMod a b m = (a + m - b) % m := by
  have hcast : ((a + m - b : Nat) : Int) = (a : Int) - b + m := by omega
  have hint : ((subMod a b m : Nat) : Int) = (((a + m - b) % m : Nat) : Int) := by
    rw [Int.natCast_emod, hcast, Int.add_emod_right]
    exact Int.toNat_of_nonneg (Int.emod_nonneg _ (Int.natCast_ne_zero.2 hm.ne'))
  exact Int.natCast_inj.1 hint

theorem Scanned.delta_eq (h : Scanned r Q row x c.val t) (hx : x < r.width.toNat) (hc : c.val < nch r) :
    t.delta c (sampleAt r ((row * r.width.toNat + x) * nch r + c.val)) =
      deltaAt r ((row * r.width.toNat + x) * nch r + c.val) := by
  obtain ⟨-, hdiv, hcol⟩ := sample_place (row := row) hx hc
  have hA : 0 < alphabet r := Nat.pow_pos Nat.two_pos
  have halpha : t.alpha = alphabet r := (Setup.alpha_eq h.input.setup).trans (alphabet_eq r).symm
  have hlt := sampleAt_lt r ((row * r.width.toNat + x) * nch r + c.val)
  have hprev : t.prev.get c = prevAt r row x c := (h.prev c).trans (if_neg (lt_irrefl _))
  rw [State.delta, halpha, hprev, deltaAt, hdiv, hcol, prevAt, if_pos hc]
  by_cases hzero : x = 0
  · rw [if_pos hzero, if_pos hzero]
    exact (subMod_eq (Nat.zero_le _) hA).trans (by rw [Nat.sub_zero, Nat.add_mod_right, Nat.mod_eq_of_lt hlt])
  · obtain ⟨x, rfl⟩ : ∃ y, x = y + 1 := ⟨x - 1, by omega⟩
    have hback : (row * r.width.toNat + (x + 1)) * nch r + c.val - nch r = (row * r.width.toNat + x) * nch r + c.val := by
      rw [← Nat.add_assoc, Nat.succ_mul]
      omega
    have hbefore := sampleAt_lt r ((row * r.width.toNat + x) * nch r + c.val)
    have hle := alphabet_le r
    rw [if_neg hzero, if_neg hzero, Nat.add_sub_cancel, BitVec.toNat_ofNat, Nat.mod_eq_of_lt (by omega),
      subMod_eq hbefore.le hA, hback]

theorem Visits.scanSample_completes (hv : Visits r Q visit) (hread : Readable r (rawBytes r)) (hrow : row < r.height.toNat)
    (hx : x < r.width.toNat) (hc : c.val < nch r) (h : Scanned r Q row x c.val t) :
    ∃ u, scanSample visit ((row * r.width.toNat + x) * nch r + c.val) c t = .ok () u ∧ Scanned r Q row x (c.val + 1) u := by
  have hk := sample_lt_frameSamples hrow hx hc
  obtain ⟨hmod, -, -⟩ := sample_place (row := row) hx hc
  have hdelta := h.delta_eq hx hc
  obtain ⟨hinput, hprogress, hprev⟩ := h
  obtain ⟨u, hu, hQ, hinput', hsame⟩ := hv.step hk
    (t := t.setPrev c (sampleAt r ((row * r.width.toNat + x) * nch r + c.val))) { hinput with } (hv.setPrev c _ hprogress)
  rw [channelOf_of_mod hmod] at hu
  refine ⟨u, ?_, hinput', hQ, fun d => ?_⟩
  · unfold scanSample
    rw [Cmd.bind_run_ok (hinput.sample_run hread hk), Cmd.get_bind_run, hdelta]
    exact hu
  · rw [hsame]
    show (t.prev.set c _).get d = _
    rw [Quad.get_set, hprev]
    by_cases hd : d = c
    · rw [if_pos hd, hd, if_pos (Nat.lt_succ_self _), prevAt, if_pos hc, if_neg (Nat.succ_ne_zero x), Nat.add_sub_cancel]
    · have hne : d.val ≠ c.val := fun h => hd (Fin.ext h)
      have hiff : d.val < c.val + 1 ↔ d.val < c.val := by omega
      simp only [if_neg hd, hiff]

/-! ### One row, and the frame -/

theorem Scanned.next_column (h : Scanned r Q row x (nch r) t) : Scanned r Q row (x + 1) 0 t := by
  obtain ⟨hinput, hprogress, hprev⟩ := h
  refine ⟨hinput, ?_, fun d => (hprev d).trans ?_⟩
  · rwa [Nat.add_zero, ← Nat.add_assoc, Nat.succ_mul]
  · rw [if_neg (Nat.not_lt_zero _)]
    by_cases hd : d.val < nch r
    · rw [if_pos hd]
    · rw [if_neg hd, prevAt, prevAt, if_neg hd, if_neg hd]

/-- The rows before `row` are done. -/
structure RowsDone (r : State) (Q : Nat → State → Prop) (row : Nat) (t : State) : Prop where
  input : SameInput r t
  progress : Q (row * r.width.toNat * nch r) t
  prev : ∀ d : Ch, nch r ≤ d.val ∨ row ≠ 0 ∨ r.height = 0 → t.prev.get d = prevBefore r row d

theorem prevBefore_of_le (h : nch r ≤ c.val) : prevBefore r row c = r.prev.get c := by
  rw [prevBefore, prevAt, if_neg (not_lt.2 h), ite_self]

theorem RowsDone.start_row (hv : Visits r Q visit) (hn : nch r ≤ 4) (h : RowsDone r Q row t) :
    ∃ u, forEach (channels (nch r)) (fun c => modify fun s : State => s.setPrev c 0) t = .ok () u ∧ Scanned r Q row 0 0 u := by
  obtain ⟨u, hu, hinput, hprogress, hzero, hkept⟩ := forEach_channels_completes (s := t)
    (f := fun c => modify fun s : State => s.setPrev c 0)
    (fun j u => SameInput r u ∧ Q (row * r.width.toNat * nch r) u ∧ (∀ d : Ch, d.val < j → u.prev.get d = 0) ∧
      ∀ d : Ch, nch r ≤ d.val → u.prev.get d = r.prev.get d) hn
    (by
      rintro c u hc ⟨hinput, hprogress, hzero, hkept⟩
      refine ⟨u.setPrev c 0, rfl, { hinput with }, hv.setPrev c 0 hprogress, fun d hd => ?_, fun d hd => ?_⟩ <;>
        refine (Quad.get_set _ _ _ _).trans ?_
      · by_cases hdc : d = c
        · rw [if_pos hdc]
          rfl
        · have hne : d.val ≠ c.val := fun h => hdc (Fin.ext h)
          rw [if_neg hdc, hzero d (by omega)]
      · have hdc : d ≠ c := by
          rintro rfl
          omega
        rw [if_neg hdc, hkept d hd])
    ⟨h.input, h.progress, fun d hd => absurd hd (Nat.not_lt_zero _),
      fun d hd => (h.prev d (.inl hd)).trans (prevBefore_of_le hd)⟩
  refine ⟨u, hu, hinput, hprogress, fun d => ?_⟩
  rw [if_neg (Nat.not_lt_zero _), prevAt, if_pos rfl]
  by_cases hd : d.val < nch r
  · rw [if_pos hd, hzero d hd]
  · rw [if_neg hd, hkept d (not_lt.1 hd)]

theorem Visits.scanRow_completes (hv : Visits r Q visit) (hn : nch r ≤ 4) (hread : Readable r (rawBytes r))
    (hrow : row < r.height.toNat) (h : RowsDone r Q row t) :
    ∃ u, scanRow visit row t = .ok () u ∧ RowsDone r Q (row + 1) u := by
  have hnch : t.nch = nch r := Setup.nch_eq h.input.setup
  have hwidth : t.width = r.width := Setup.width_eq h.input.setup
  obtain ⟨u, hu, hstart⟩ := h.start_row hv hn
  obtain ⟨w, hw, hend⟩ := forUp_completes (i := 0) (n := r.width.toNat) (s := u) (fun x u => Scanned r Q row x 0 u)
    (f := fun x => forEach (channels (nch r)) fun c =>
      scanSample visit ((row * r.width.toNat + x) * nch r + c.val) c)
    (fun x u _ hx hs => by
      obtain ⟨w, hw, hs⟩ := forEach_channels_completes (fun j u => Scanned r Q row x j u) hn
        (fun c u hc hs => hv.scanSample_completes hread hrow (by omega) hc hs) hs
      exact ⟨w, hw, hs.next_column⟩)
    hstart
  refine ⟨w, ?_, hend.input, ?_, fun d _ => ?_⟩
  · unfold scanRow
    rw [Cmd.get_bind_run, hnch, hwidth, Cmd.bind_run_ok hu]
    exact hw
  · have hQ := hend.progress
    rwa [Nat.zero_add, Nat.add_zero, ← Nat.succ_mul] at hQ
  · rw [hend.prev, if_neg (Nat.not_lt_zero _), Nat.zero_add, prevBefore, if_neg (Nat.succ_ne_zero row), Nat.add_sub_cancel]

/-- RowScan visits every sample in raster order with its delta, and leaves the last row's samples in PREV (R88). PREV of the
channels in the frame may hold anything before it, if there is a row. -/
theorem Visits.rowScan_completes (hv : Visits r Q visit) (hn : nch r ≤ 4) (hread : Readable r (rawBytes r))
    (hinput : SameInput r s) (hprev : ∀ d : Ch, nch r ≤ d.val ∨ r.height = 0 → s.prev.get d = r.prev.get d) (h : Q 0 s) :
    ∃ u, rowScan visit s = .ok () u ∧ Q (frameSamples r) u ∧ SameInput r u ∧ ∀ d, u.prev.get d = prevAfterScan r d := by
  have hheight : s.height = r.height := Setup.height_eq hinput.setup
  obtain ⟨u, hu, hdone⟩ := forUp_completes (i := 0) (n := r.height.toNat) (s := s) (RowsDone r Q) (f := scanRow visit)
    (fun row t _ hrow ht => hv.scanRow_completes hn hread (by omega) ht)
    ⟨hinput, by rwa [Nat.zero_mul, Nat.zero_mul], fun d hd => by
      rw [hprev d (hd.imp_right fun h => h.resolve_left (not_not.2 rfl)), prevBefore, if_pos rfl]⟩
  rw [Nat.zero_add] at hdone
  refine ⟨u, ?_, ?_, hdone.input, fun d => (hdone.prev d ?_).trans (prevBefore_height r d)⟩
  · unfold rowScan
    rw [Cmd.get_bind_run, hheight]
    exact hu
  · have hQ := hdone.progress
    rwa [Nat.mul_comm r.height.toNat] at hQ
  · exact .inr ((em (r.height = 0)).symm.imp_left fun hne h0 => hne (BitVec.eq_of_toNat_eq h0))

end Sys2Proof.Machine
end

section
/-! SUPPORT. The first pass of ENC_FRAME: the counts of this frame alone (R94, R145). -/

namespace Sys2Proof.Machine

open Spec

variable {r s t u : State} {k i : Nat} {c : Ch}

theorem deltaAt_lt (s : State) (k : Nat) : deltaAt s k < alphabet s := by
  unfold deltaAt
  split
  · exact sampleAt_lt s k
  · exact Nat.mod_lt _ (Nat.pow_pos Nat.two_pos)

/-- How often symbol `d` is the delta of one of the first `k` samples of channel `c`. -/
def seenBefore (s : State) (k : Nat) (c : Ch) (d : Nat) : Nat :=
  ((List.range k).filter fun k => k % nch s == c.val && deltaAt s k == d).length

theorem seenBefore_succ (s : State) (k : Nat) (c : Ch) (d : Nat) : seenBefore s (k + 1) c d =
    seenBefore s k c d + if k % nch s = c.val ∧ deltaAt s k = d then 1 else 0 := by
  rw [seenBefore, List.range_succ, List.filter_append, List.length_append, ← seenBefore, List.filter_singleton]
  by_cases h : k % nch s = c.val ∧ deltaAt s k = d
  · rw [if_pos h, h.1, h.2]
    simp
  · rw [if_neg h, show (k % nch s == c.val && deltaAt s k == d) = false by simpa using h]
    rfl

theorem seenBefore_le (s : State) (k : Nat) (c : Ch) (d : Nat) : seenBefore s k c d ≤ k :=
  (List.length_filter_le _ _).trans_eq List.length_range

/-- The delta of a sample occurs. -/
theorem occurrences_pos (hk : k < frameSamples s) (hc : k % nch s = c.val) : 0 < occurrences s c (deltaAt s k) :=
  List.length_pos_of_mem (List.mem_filter.2 ⟨List.mem_range.2 hk, by simp [hc]⟩)

/-- After `k` samples of the first pass from `s` over the frame of `r`: the counts of those samples, and no other change. -/
structure Counted (r s : State) (k : Nat) (t : State) : Prop where
  same : t = { s with hist := t.hist, prev := t.prev }
  rising : Rising t
  counts : ∀ (c : Ch) (i : Nat), i < 4096 → t.histAt c i = BitVec.ofNat 32 (seenBefore r k c i)

theorem Counted.bumpHist (h : Counted r s k t) (hk : k % nch r = c.val) :
    Counted r s (k + 1) (t.bumpHist c (deltaAt r k)) := by
  obtain ⟨hsame, hrising, hcounts⟩ := h
  have hd : deltaAt r k < 4096 := (deltaAt_lt r k).trans_le (alphabet_le r)
  refine ⟨by rw [hsame]; rfl, hrising.setHist _ _ _, fun d i hi => ?_⟩
  refine (hrising.histAt_setHist hd hi _).trans ?_
  rw [seenBefore_succ]
  by_cases hdi : d = c ∧ i = deltaAt r k
  · obtain ⟨rfl, rfl⟩ := hdi
    rw [if_pos ⟨rfl, rfl⟩, if_pos ⟨hk, rfl⟩, hcounts _ _ hi, BitVec.ofNat_add]
    rfl
  · rw [if_neg hdi, if_neg fun h => hdi ⟨Fin.ext (h.1.symm.trans hk), h.2.symm⟩, hcounts d i hi, Nat.add_zero]

theorem Counted.visits (hn : 1 ≤ nch r) (hn4 : nch r ≤ 4) :
    Visits r (Counted r s) fun _ c d => modify fun t => t.bumpHist c d where
  setPrev c v h := ⟨by rw [h.same]; rfl, { h.rising with }, h.counts⟩
  step {k t} hk hinput h := by
    have hmod : k % nch r = (channelOf (nch r) k).val := by
      have := Nat.mod_lt k hn
      exact (Nat.mod_eq_of_lt (show k % nch r < 4 by omega)).symm
    exact ⟨_, rfl, h.bumpHist hmod, { hinput with }, rfl⟩

/-- The first pass of ENC_FRAME completes (R145). -/
theorem histPass_completes (hr : Rising r) (hn : 1 ≤ nch r) (hn4 : nch r ≤ 4) (hread : Readable r (rawBytes r)) :
    ∃ u, histPass r.forgetScans.clearHist = .ok () u ∧ u = { r with hist := u.hist, prev := u.prev, scans := [] } ∧ Rising u ∧
      (∀ (c : Ch) (i : Nat), i < 4096 → u.histAt c i = BitVec.ofNat 32 (occurrences r c i)) ∧
      ∀ c, u.prev.get c = prevAfterScan r c := by
  have hstart : Counted r r.forgetScans.clearHist 0 r.forgetScans.clearHist :=
    ⟨rfl, { hr with hist := .nil }, fun _ _ _ => rfl⟩
  obtain ⟨u, hu, hcounted, -, hprev⟩ := (Counted.visits hn hn4).rowScan_completes hn4 hread
    (show SameInput r r.forgetScans.clearHist from { SameInput.refl r with }) (fun _ _ => rfl) hstart
  exact ⟨u, hu, hcounted.same, hcounted.rising, hcounted.counts, hprev⟩

end Sys2Proof.Machine
end

section
/-! SUPPORT. Whole bytes through the empty packer: the headers (R76, R77, R110). -/

namespace Sys2Proof.Machine

open Spec

variable {s t u : State} {l : List Bool} {m : Cmd Unit} {L L' : List Byte} {n v : Nat} {c : Ch}

/-- The bits of bytes, each most significant first (R114). -/
def bitsOfBytes (L : List Byte) : List Bool := L.flatMap fun x => bitsOf 8 x.toNat

@[simp] theorem bitsOfBytes_nil : bitsOfBytes [] = [] := rfl

theorem bitsOfBytes_cons (x : Byte) (L : List Byte) : bitsOfBytes (x :: L) = bitsOf 8 x.toNat ++ bitsOfBytes L := List.flatMap_cons

theorem bitsOfBytes_append (L L' : List Byte) : bitsOfBytes (L ++ L') = bitsOfBytes L ++ bitsOfBytes L' := List.flatMap_append

@[simp] theorem bitsOfBytes_length (L : List Byte) : (bitsOfBytes L).length = 8 * L.length := by
  induction L with
  | nil => rfl
  | cons x L ih =>
    rw [bitsOfBytes_cons, List.length_append, bitsOf_length, ih, List.length_cons]
    omega

theorem emptyPacker_eq (hacc : s.pk.acc = 0) (hfill : s.pk.fill = 0) : s.emptyPacker = s := by
  have hpk : ∀ p : Packer, p.acc = 0 → p.fill = 0 → { p with acc := 0, fill := 0 } = p := by
    rintro ⟨ptr, _, _⟩ rfl rfl
    rfl
  exact congrArg (fun p => { s with pk := p }) (hpk s.pk hacc hfill)

theorem Wrote.emitByte_aligned (h : Wrote s l t) (hl : l.length % 8 = 0) (hout : OutFits s) (hroom : Spare s (l.length + 8))
    (x : Byte) : ∃ u, emitByte x t = .ok () u ∧ Wrote s (l ++ bitsOf 8 x.toNat) u ∧ PackerOnly t u := by
  obtain ⟨hptr, hrun⟩ := h.emitByte_completes (hroom.mono (by omega)) x
  have hacc := h.acc
  rw [List.drop_eq_nil_of_le (by omega)] at hacc
  have hempty : (t.emitted x).emptyPacker = t.emitted x :=
    emptyPacker_eq (BitVec.eq_of_toNat_eq hacc) (BitVec.eq_of_toNat_eq (h.fill.trans hl))
  refine ⟨_, hrun, ?_, rfl⟩
  rw [← hempty]
  refine h.emitted hout hptr ?_ ?_
  · rw [List.length_append, bitsOf_length]
    omega
  · rw [List.drop_append_of_le_length (by omega), List.drop_eq_nil_of_le (by omega), List.nil_append, valueOf_bitsOf,
      Nat.mod_eq_of_lt x.isLt]

/-- From `s` on, `m` writes the bytes `L` through the empty packer, where they have room, and changes no more. -/
def Writes (s : State) (m : Cmd Unit) (L : List Byte) : Prop := ∀ l t, Wrote s l t → PackerOnly s t → l.length % 8 = 0 →
  Spare s (l.length + 8 * L.length) → ∃ u, m t = .ok () u ∧ Wrote s (l ++ bitsOfBytes L) u ∧ PackerOnly s u

theorem Writes.nil : Writes s (pure ()) [] := fun l t h hframe _ _ => ⟨t, rfl, by rwa [bitsOfBytes_nil, List.append_nil], hframe⟩

theorem Writes.seq {f : Cmd Unit} (hm : Writes s m L) (hf : Writes s f L') : Writes s (m >>= fun _ => f) (L ++ L') :=
  fun l t h hframe hl hroom => by
    rw [List.length_append] at hroom
    obtain ⟨u, hu, hwrote, hframe⟩ := hm l t h hframe hl (hroom.mono (by omega))
    have hlen : (l ++ bitsOfBytes L).length = l.length + 8 * L.length := by rw [List.length_append, bitsOfBytes_length]
    obtain ⟨w, hw, hwrote, hframe⟩ := hf _ u hwrote hframe (by omega) (hroom.mono (by omega))
    exact ⟨w, (Cmd.bind_run_ok hu).trans hw, by rwa [bitsOfBytes_append, ← List.append_assoc], hframe⟩

theorem Writes.get {f : State → Cmd Unit} (hf : ∀ t, PackerOnly s t → Writes s (f t) L) : Writes s (get >>= f) L :=
  fun l t h hframe hl hroom => hf t hframe l t h hframe hl hroom

theorem Writes.emitByte (hout : OutFits s) (x : Byte) : Writes s (emitByte x) [x] := fun l t h hframe hl hroom => by
  obtain ⟨u, hu, hwrote, hframe'⟩ := h.emitByte_aligned hl hout hroom x
  exact ⟨u, hu, by rwa [bitsOfBytes_cons, bitsOfBytes_nil, List.append_nil], hframe.trans hframe'⟩

theorem littleEndian_succ (n v : Nat) : littleEndian (n + 1) v = BitVec.ofNat 8 (v % 256) :: littleEndian n (v / 256) := by
  rw [littleEndian, littleEndian, List.range_succ_eq_map, List.map_cons, List.map_map, Nat.pow_zero, Nat.div_one]
  refine congrArg₂ _ (BitVec.eq_of_toNat_eq ?_) (List.map_congr_left fun i _ => ?_)
  · rw [BitVec.toNat_ofNat, BitVec.toNat_ofNat, Nat.mod_mod]
  · rw [Function.comp_apply, Nat.pow_succ', Nat.div_div_eq_div_mul]

@[simp] theorem littleEndian_length (n v : Nat) : (littleEndian n v).length = n := by simp [littleEndian]

theorem Writes.emitLe (hout : OutFits s) (n v : Nat) : Writes s (emitLe n v) (littleEndian n v) := by
  induction n generalizing v with
  | zero => exact .nil
  | succ n ih =>
    rw [littleEndian_succ, ← List.singleton_append]
    exact (Writes.emitByte hout _).seq (ih _)

theorem Writes.forUp {f : Nat → Cmd Unit} {g : Nat → List Byte} (hf : ∀ k, Writes s (f k) (g k)) (n i : Nat) :
    Writes s (Machine.forUp n i f) ((List.range' i n).flatMap g) := by
  induction n generalizing i with
  | zero => exact .nil
  | succ n ih => exact (hf i).seq (ih (i + 1))

theorem Writes.forEach {α : Type} {f : α → Cmd Unit} {g : α → List Byte} (hf : ∀ x, Writes s (f x) (g x)) (l : List α) :
    Writes s (Machine.forEach l f) (l.flatMap g) := by
  induction l with
  | nil => exact .nil
  | cons x l ih => exact (hf x).seq ih

/-! ### The headers (R76, R77, R110) -/

theorem Writes.writeHeader (hout : OutFits s) (c : Ch) : Writes s (writeHeader c) (treeOf s c).header := by
  have hheader : (treeOf s c).header = littleEndian 4 (s.ncount.get c).toNat ++ (littleEndian 4 (s.root.get c).toNat ++
      (List.range' 0 (s.ncount.get c).toNat).flatMap fun i =>
        littleEndian 2 (s.nodeAt c i).left.toNat ++ littleEndian 2 (s.nodeAt c i).right.toNat) := by
    rw [Tree.header, treeOf_nodes_length, List.append_assoc, ← List.range_eq_range', treeOf, List.flatMap_map]
  rw [hheader]
  refine .get fun t ht => ?_
  unfold PackerOnly at ht
  rw [ht]
  exact (Writes.emitLe hout 4 _).seq ((Writes.emitLe hout 4 _).seq
    (Writes.forUp (fun i => (Writes.emitLe hout 2 _).seq (Writes.emitLe hout 2 _)) _ 0))

theorem channels_eq (hn : n ≤ 4) : channels n = (List.range n).map (Fin.ofNat 4) := by
  obtain rfl | rfl | rfl | rfl | rfl : n = 0 ∨ n = 1 ∨ n = 2 ∨ n = 3 ∨ n = 4 := by omega
  all_goals rfl

theorem forEach_validateTree {l : List Ch} (h : ∀ c ∈ l, s.treeFault c = none) : forEach l validateTree s = .ok () s := by
  induction l with
  | nil => rfl
  | cons c l ih =>
    have hc : validateTree c s = .ok () s := by rw [validateTree_run, h c List.mem_cons_self]
    exact (Cmd.bind_run_ok hc).trans (ih fun d hd => h d (List.mem_cons_of_mem c hd))

theorem hdrWriteBody_completes (hn : nch s ≤ 4) (hout : OutFits s) (hmem : s.mem.Drawn s.draws) (hpk : s.pk = ⟨0, 0, 0⟩)
    (hlegal : ∀ c : Ch, c.val < nch s → (treeOf s c).Legal (alphabet s)) (hroom : Spare s (8 * (headersOf s).length)) :
    ∃ u, hdrWriteBody s = .ok () u ∧ Wrote s (bitsOfBytes (headersOf s)) u ∧ PackerOnly s u := by
  have hheld : heldBits s.pk = [] := by rw [hpk]; rfl
  have hstart := Wrote.start hmem (by rw [hpk]; decide)
  rw [hheld] at hstart
  have hvalid := forEach_validateTree (s := s) (l := channels (nch s)) fun c hc => legal_iff.1 (hlegal c (mem_channels.1 hc))
  have hheaders : Writes s (forEach (channels (nch s)) writeHeader) (headersOf s) := by
    have heq : headersOf s = (channels (nch s)).flatMap fun c => (treeOf s c).header := by
      rw [channels_eq hn, List.flatMap_map]
      rfl
    exact heq ▸ .forEach (Writes.writeHeader hout) _
  obtain ⟨u, hu, hwrote, hframe⟩ := hheaders [] s hstart rfl rfl (by rwa [List.length_nil, Nat.zero_add])
  refine ⟨u, ?_, hwrote, hframe⟩
  have hfill : decide (s.pk.fill.toNat = 0) = true := by rw [hpk]; rfl
  unfold hdrWriteBody
  rw [Cmd.get_bind_run, Cmd.bind_run, require_run, hfill]
  exact (Cmd.bind_run_ok hvalid).trans hu

theorem header_length_le {x : Tree} {a : Nat} (h : x.Legal a) : x.header.length ≤ 8 + 4 * (a - 1) := by
  have hnodes : (x.nodes.flatMap fun n => littleEndian 2 n.left.toNat ++ littleEndian 2 n.right.toNat).length =
      4 * x.nodes.length := by
    rw [List.length_flatMap]
    simp [Nat.mul_comm]
  have := h.1
  rw [Tree.header, List.length_append, List.length_append, hnodes, littleEndian_length, littleEndian_length]
  omega

theorem headersOf_length_le (hn : nch s ≤ 4) (hlegal : ∀ c : Ch, c.val < nch s → (treeOf s c).Legal (alphabet s)) :
    (headersOf s).length ≤ nch s * (8 + 4 * (alphabet s - 1)) := by
  rw [headersOf, List.length_flatMap]
  refine (List.sum_le_card_nsmul _ (8 + 4 * (alphabet s - 1)) fun k hk => ?_).trans_eq (by simp)
  obtain ⟨c, hc, rfl⟩ := List.mem_map.1 hk
  have hc := List.mem_range.1 hc
  exact header_length_le (hlegal _ ((Nat.mod_eq_of_lt (show c < 4 by omega)).trans_lt hc))

end Sys2Proof.Machine
end

section
/-! SUPPORT. The second pass of ENC_FRAME and its last byte (R78, R115, R120, R145). -/

namespace Sys2Proof.Machine

open Spec

variable {r b s t u : State} {l pre : List Bool} {S : List Byte} {k j : Nat} {c : Ch}

/-! ### Bits as bytes -/

theorem valueOf_zeros (n : Nat) : valueOf (List.replicate n false) = 0 := by
  induction n with
  | zero => rfl
  | succ n ih => rw [List.replicate_succ, valueOf_cons, ih, Bool.toNat_false, Nat.zero_mul]

theorem bitsOfBytes_byte (hj : j < S.length) : ((bitsOfBytes S).drop (8 * j)).take 8 = bitsOf 8 (S.getD j 0).toNat := by
  induction S generalizing j with
  | nil => exact absurd hj (Nat.not_lt_zero j)
  | cons x S ih =>
    rw [bitsOfBytes_cons]
    cases j with
    | zero => exact List.take_left' (bitsOf_length _ _)
    | succ j =>
      rw [Nat.mul_succ, Nat.add_comm, ← List.drop_drop, List.drop_left' (bitsOf_length _ _), ih (Nat.lt_of_succ_lt_succ hj)]
      rfl

/-- Whole bytes of bits, as bytes. -/
theorem bitsOfBytes_map (n : Nat) (h : l.length = 8 * n) :
    bitsOfBytes ((List.range n).map fun j => BitVec.ofNat 8 (valueOf ((l.drop (8 * j)).take 8))) = l := by
  induction n generalizing l with
  | zero => exact (List.eq_nil_of_length_eq_zero h).symm
  | succ n ih =>
    have hlen : (l.take 8).length = 8 := by rw [List.length_take]; omega
    have hlt := valueOf_lt (l.take 8)
    rw [hlen] at hlt
    have hfirst : bitsOf 8 (BitVec.ofNat 8 (valueOf (l.take 8))).toNat = l.take 8 := by
      rw [BitVec.toNat_ofNat, Nat.mod_eq_of_lt hlt]
      exact (congrArg (bitsOf · _) hlen.symm).trans (bitsOf_valueOf _)
    have hrest := ih (l := l.drop 8) (by rw [List.length_drop]; omega)
    rw [List.range_succ_eq_map, List.map_cons, List.map_map, bitsOfBytes_cons, Nat.mul_zero, List.drop_zero, hfirst]
    conv_rhs => rw [← List.take_append_drop 8 l, ← hrest]
    refine congrArg (l.take 8 ++ bitsOfBytes ·) (List.map_congr_left fun j _ => ?_)
    rw [Function.comp_apply, List.drop_drop, Nat.mul_succ, Nat.add_comm]

/-- How many zero bits complete the last byte. -/
def padding (n : Nat) : Nat := (8 - n % 8) % 8

theorem bitsOfBytes_paddedBytes (l : List Bool) :
    bitsOfBytes (paddedBytes l) = l ++ List.replicate (padding l.length) false := by
  have hpad : padding l.length ≤ 7 ∧ l.length + padding l.length = 8 * ((l.length + 7) / 8) := by
    unfold padding
    omega
  have hlen : (l ++ List.replicate (padding l.length) false).length = 8 * ((l.length + 7) / 8) := by
    rw [List.length_append, List.length_replicate]
    exact hpad.2
  have hsplit : l ++ List.replicate 7 false =
      (l ++ List.replicate (padding l.length) false) ++ List.replicate (7 - padding l.length) false := by
    rw [List.append_assoc, List.replicate_append_replicate, Nat.add_sub_cancel' hpad.1]
  rw [← bitsOfBytes_map _ hlen, paddedBytes, hsplit]
  refine congrArg bitsOfBytes (List.map_congr_left fun j hj => ?_)
  have hj := List.mem_range.1 hj
  rw [byte_append (by omega)]

/-! ### The packer as bytes -/

theorem Wrote.bytesAt (h : Wrote b (bitsOfBytes S) t) (hptr : b.pk.ptr = 0) : BytesAt t.mem b.outAddr.toNat S := fun j hj => by
  have hbyte := h.bytes j (by rw [bitsOfBytes_length]; omega)
  rw [bitsOfBytes_byte hj, valueOf_bitsOf, Nat.mod_eq_of_lt (S.getD j 0).isLt, hptr] at hbyte
  exact BitVec.eq_of_toNat_eq hbyte

theorem Wrote.pk_eq (h : Wrote b (bitsOfBytes S) t) (hptr : b.pk.ptr = 0) : t.pk = ⟨BitVec.ofNat 32 S.length, 0, 0⟩ := by
  have hlen := bitsOfBytes_length S
  have hp := h.ptr
  have hacc := h.acc
  have hfill := h.fill
  rw [List.drop_eq_nil_of_le (by omega)] at hacc
  rw [hlen, Nat.mul_mod_right] at hfill
  rw [hlen, hptr, Nat.mul_div_cancel_left _ (by decide)] at hp
  have hlength : t.pk.ptr.toNat = S.length := hp.trans (Nat.zero_add _)
  have hptr' : t.pk.ptr = BitVec.ofNat 32 S.length := BitVec.eq_of_toNat_eq (by
    rw [BitVec.toNat_ofNat, ← hlength, Nat.mod_eq_of_lt t.pk.ptr.isLt])
  have hext : ∀ p : Packer, p.ptr = BitVec.ofNat 32 S.length → p.acc = 0 → p.fill = 0 →
      p = ⟨BitVec.ofNat 32 S.length, 0, 0⟩ := by
    rintro ⟨_, _, _⟩ rfl rfl rfl
    rfl
  exact hext t.pk hptr' (BitVec.eq_of_toNat_eq hacc) (BitVec.eq_of_toNat_eq hfill)

/-- The last byte is completed with zero bits (R120). -/
theorem Wrote.flushPartial_completes (h : Wrote b l t) (hout : OutFits b) (hroom : Spare b (l.length + padding l.length)) :
    ∃ u, flushPartial t = .ok () u ∧ Wrote b (l ++ List.replicate (padding l.length) false) u ∧ PackerOnly t u := by
  have hfill := h.fill
  rw [flushPartial_run, hfill]
  by_cases hzero : l.length % 8 = 0
  · rw [if_pos hzero, padding, hzero]
    exact ⟨t, rfl, by simpa using h, rfl⟩
  · have hpad : padding l.length = 8 - l.length % 8 := Nat.mod_eq_of_lt (by omega)
    rw [hpad] at hroom ⊢
    obtain ⟨hptr, hrun⟩ := h.emitByte_completes (hroom.mono (by omega)) (t.pk.acc <<< (8 - l.length % 8))
    rw [if_neg hzero, hrun]
    refine ⟨_, rfl, h.emitted hout hptr ?_ ?_, rfl⟩
    · rw [List.length_append, List.length_replicate]
      omega
    · rw [List.drop_append_of_le_length (by omega), valueOf_append, valueOf_zeros, List.length_replicate, ← h.acc, Nat.add_zero,
        ← hfill]
      exact toNat_shiftLeft_of_packer (hfill ▸ h.acc_lt)

/-! ### The second pass (R122, R145) -/

/-- The codes of the deltas of the first `k` samples of the frame of `r`. -/
def codesBefore (r b : State) (k : Nat) : List Bool :=
  (List.range k).flatMap fun k => codeBits (b.codeAt (channelOf (nch r) k) (deltaAt r k))

theorem codesBefore_succ (r b : State) (k : Nat) :
    codesBefore r b (k + 1) = codesBefore r b k ++ codeBits (b.codeAt (channelOf (nch r) k) (deltaAt r k)) := by
  rw [codesBefore, List.range_succ, List.flatMap_append, ← codesBefore, List.flatMap_singleton]

/-- The output region of `b` has an empty packer and room, and does not meet the raw frame of `r` in the input region. -/
structure PackingFrame (r b : State) (pre : List Bool) : Prop where
  input : SameInput r b
  raw : rawBytes r ≤ r.inLen.toNat
  apart : Apart r
  out : OutFits b
  ptr : b.pk.ptr = 0
  writable : Writable b 0 b.outCap.toNat
  room : pre.length + 64 * frameSamples r ≤ 8 * b.outCap.toNat
  codes : ∀ k < frameSamples r, (b.codeAt (channelOf (nch r) k) (deltaAt r k)).valid = true ∧
    (codeBits (b.codeAt (channelOf (nch r) k) (deltaAt r k))).length ≤ 64

theorem PackingFrame.spare (h : PackingFrame r b pre) (hk : k ≤ 8 * b.outCap.toNat) : Spare b k := by
  have hzero : b.pk.ptr.toNat = 0 := congrArg BitVec.toNat h.ptr
  exact ⟨fun _ => by omega, fun a ha _ => h.writable a (by omega) (Nat.zero_le a)⟩

/-- What the packer stores is not in the input region (R66). -/
theorem PackingFrame.sameInput (h : PackingFrame r b pre) (hw : Wrote b l t) (hlen : l.length ≤ 8 * b.outCap.toNat) :
    SameInput r t where
  setup := hw.setup.trans h.input.setup
  deny := hw.deny.trans h.input.deny
  bytes k hk := by
    have hzero : b.pk.ptr.toNat = 0 := congrArg BitVec.toNat h.ptr
    have haddr : b.outAddr = r.outAddr := Setup.outAddr_eq h.input.setup
    have hcap : b.outCap = r.outCap := Setup.outCap_eq h.input.setup
    have hraw := h.raw
    refine ((hw.others _ fun hslot => h.apart (r.inAddr.toNat + k) ?_).1).trans (h.input.bytes k hk)
    obtain ⟨hlo, hhi⟩ := hslot
    rw [hcap] at hlen
    rw [haddr, hzero] at hlo hhi
    exact ⟨⟨by omega, by omega⟩, by omega, by omega⟩

/-- After `k` samples of the second pass: their codes are packed, and nothing else changed but PREV. -/
structure PackedTo (r b : State) (pre : List Bool) (k : Nat) (t : State) : Prop where
  wrote : Wrote b (pre ++ codesBefore r b k) t
  same : t = { b with mem := t.mem, pk := t.pk, prev := t.prev }
  length : (pre ++ codesBefore r b k).length ≤ pre.length + 64 * k

theorem PackingFrame.visits (h : PackingFrame r b pre) :
    Visits r (PackedTo r b pre) fun _ c d => emitCode c d where
  setPrev c v hk := ⟨{ hk.wrote with }, by rw [hk.same]; rfl, hk.length⟩
  step {k t} hlt _ hk := by
    obtain ⟨hwrote, hsame, hlength⟩ := hk
    obtain ⟨hvalid, hshort⟩ := h.codes k hlt
    have hcode : t.codeAt (channelOf (nch r) k) (deltaAt r k) = b.codeAt (channelOf (nch r) k) (deltaAt r k) := by
      rw [hsame]
      rfl
    have hbits : (codeBits (b.codeAt (channelOf (nch r) k) (deltaAt r k))).length =
        (b.codeAt (channelOf (nch r) k) (deltaAt r k)).len.toNat := bitsOf_length _ _
    have hroom := h.room
    obtain ⟨u, hu, hwrote', hframe⟩ := hwrote.writeBits_completes h.out
      (b.codeAt (channelOf (nch r) k) (deltaAt r k)).bits.toNat (n := (b.codeAt (channelOf (nch r) k) (deltaAt r k)).len.toNat)
      (h.spare (by omega))
    have happend : pre ++ codesBefore r b (k + 1) =
        pre ++ codesBefore r b k ++ codeBits (b.codeAt (channelOf (nch r) k) (deltaAt r k)) := by
      rw [codesBefore_succ, List.append_assoc]
    have hlen : (pre ++ codesBefore r b (k + 1)).length ≤ pre.length + 64 * (k + 1) := by
      rw [happend, List.length_append]
      omega
    have hwrote'' : Wrote b (pre ++ codesBefore r b (k + 1)) u := happend ▸ hwrote'
    unfold PackerOnly at hframe
    refine ⟨u, ?_, ⟨hwrote'', ?_, hlen⟩, h.sameInput hwrote'' (by omega), ?_⟩
    · rw [emitCode_run, hcode, if_pos hvalid, hu]
    · rw [hframe, hsame]
    · rw [hframe]

end Sys2Proof.Machine
end

section
/-! SUPPORT, and the settled ENC_FRAME (O55). -/

namespace Sys2Proof.Machine

open Spec

variable {s b t u : State} {c d : Ch}

/-! ### The counts, the trees and the codes -/

/-- `b` is `s` after the first pass and the builds of an ENC_FRAME, with an empty packer. -/
structure Prepared (s b : State) : Prop where
  same : b = { s with
    hist := b.hist, tree := b.tree, ncount := b.ncount, root := b.root, code := b.code, prev := b.prev
    scans := [], pk := ⟨0, 0, 0⟩ }
  counts : ∀ (c : Ch) (i : Nat), i < 4096 → b.histAt c i = BitVec.ofNat 32 (occurrences s c i)
  prev : ∀ c : Ch, b.prev.get c = prevAfterScan s c
  coded : ∀ c : Ch, c.val < nch s → Coded b c

/-- The part of ENC_FRAME that writes the output region (R145). -/
def writeStream : Cmd Unit := do
  hdrWriteBody
  packPass
  flushPartial
  modify State.reportPacked

theorem encFrameBody_prepares (hs : Rising s) (hn : 1 ≤ nch s) (hn4 : nch s ≤ 4) (hread : Readable s (rawBytes s)) :
    ∃ b, encFrameBody s = writeStream b ∧ Prepared s b := by
  obtain ⟨u, hu, hsame, hrising, hcounts, hprev⟩ := histPass_completes hs hn hn4 hread
  obtain ⟨w, hw, htables, -, hcoded⟩ := buildChannels_complete hrising (channels u.nch)
  have hnch : u.nch = nch s := by rw [hsame]; rfl
  refine ⟨w.initPacker, ?_, ?_, fun c i hi => ?_, fun c => ?_, fun c hc => ?_⟩
  · show (histPass >>= fun _ => _) s.forgetScans.clearHist = _
    rw [Cmd.bind_run_ok hu, Cmd.get_bind_run, Cmd.bind_run_ok hw]
    rfl
  · unfold TablesOnly at htables
    rw [htables, hsame]
    rfl
  · exact (histAt_congr htables.hist_eq c i).trans (hcounts c i hi)
  · refine Eq.trans (congrArg (Quad.get · c) ?_) (hprev c)
    unfold TablesOnly at htables
    rw [htables]
    rfl
  · exact (hcoded c (mem_channels.2 (hnch ▸ hc))).congr rfl rfl rfl fun _ _ => rfl

/-! ### The stream (R76 to R78) -/

/-- The headers and the codes of the deltas, zero-padded. -/
def streamOf (s b : State) : List Byte := headersOf b ++ paddedBytes (codesBefore s b (frameSamples s))

theorem prevAfterScan_of_kept (h : nch s ≤ c.val ∨ s.height = 0) : prevAfterScan s c = s.prev.get c :=
  if_neg fun hc => h.elim (not_le.2 hc.1) hc.2

/-- What follows the headers: the second pass and the last byte. -/
theorem PackingFrame.writeStream_completes (h : PackingFrame s b (bitsOfBytes (headersOf b))) (hn4 : nch s ≤ 4)
    (hread : Readable s (rawBytes s)) (hmem : b.mem.Drawn b.draws) (hpk : b.pk = ⟨0, 0, 0⟩)
    (hlegal : ∀ c : Ch, c.val < nch s → (treeOf b c).Legal (alphabet b)) (hprev : ∀ c : Ch, b.prev.get c = prevAfterScan s c) :
    ∃ u, writeStream b = .ok () u ∧ u = { b with
        mem := u.mem, pk := ⟨BitVec.ofNat 32 (streamOf s b).length, 0, 0⟩, prev := u.prev
        outSize := BitVec.ofNat 32 (streamOf s b).length } ∧
      (∀ c, u.prev.get c = prevAfterScan s c) ∧ (streamOf s b).length ≤ b.outCap.toNat ∧
      BytesAt u.mem b.outAddr.toNat (streamOf s b) := by
  have hnch : nch b = nch s := Setup.nch_eq h.input.setup
  have hroom := h.room
  have hlen := bitsOfBytes_length (headersOf b)
  obtain ⟨u, hu, hwrote, hframe⟩ := hdrWriteBody_completes (hnch ▸ hn4) h.out hmem hpk (hnch ▸ hlegal) (h.spare (by omega))
  have hsame : u = { b with mem := u.mem, pk := u.pk, prev := u.prev } := by
    unfold PackerOnly at hframe
    rw [hframe]
  have hprev' : u.prev = b.prev := by
    unfold PackerOnly at hframe
    rw [hframe]
  have hstart : PackedTo s b (bitsOfBytes (headersOf b)) 0 u := by
    have hnone : bitsOfBytes (headersOf b) ++ codesBefore s b 0 = bitsOfBytes (headersOf b) := List.append_nil _
    exact ⟨hnone.symm ▸ hwrote, hsame, (congrArg List.length hnone).le⟩
  obtain ⟨w, hw, ⟨hwrote, hsame, hlength⟩, -, hprevw⟩ := h.visits.rowScan_completes hn4 hread (h.sameInput hwrote (by omega))
    (fun c hc => by rw [hprev', hprev c, prevAfterScan_of_kept hc]) hstart
  generalize hl : bitsOfBytes (headersOf b) ++ codesBefore s b (frameSamples s) = l at hwrote hlength
  have hpad : l.length + padding l.length ≤ 8 * b.outCap.toNat := by
    unfold padding
    omega
  obtain ⟨x, hx, hwrote, hframe⟩ := hwrote.flushPartial_completes h.out (h.spare hpad)
  have hstream : l ++ List.replicate (padding l.length) false = bitsOfBytes (streamOf s b) := by
    have hpadding : padding l.length = padding (codesBefore s b (frameSamples s)).length := by
      rw [← hl, List.length_append, hlen]
      unfold padding
      omega
    rw [streamOf, bitsOfBytes_append, bitsOfBytes_paddedBytes, hpadding, ← hl, List.append_assoc]
  have hbound : (streamOf s b).length ≤ b.outCap.toNat := by
    have := congrArg List.length hstream
    rw [List.length_append, List.length_replicate, bitsOfBytes_length] at this
    omega
  rw [hstream] at hwrote
  have hpkx := hwrote.pk_eq h.ptr
  refine ⟨x.reportPacked, ?_, ?_, fun c => ?_, hbound, hwrote.bytesAt h.ptr⟩
  · unfold writeStream
    have hpass : packPass u = .ok () w := hw
    rw [Cmd.bind_run_ok hu, Cmd.bind_run_ok hpass, Cmd.bind_run_ok hx]
    rfl
  · unfold PackerOnly at hframe
    unfold State.reportPacked
    rw [hpkx, hframe, hsame]
  · unfold PackerOnly at hframe
    rw [hframe]
    exact hprevw c

/-! ### ENC_FRAME (R145) -/

namespace Prepared

variable (h : Prepared s b)
include h

theorem setup_eq : b.setup = s.setup := by
  rw [h.same]
  rfl

theorem alphabet_eq : alphabet b = alphabet s := by
  rw [h.same]
  rfl

theorem nch_eq : nch b = nch s := Setup.nch_eq h.setup_eq

theorem legal (hc : c.val < nch s) : (treeOf b c).Legal (alphabet b) := (h.coded c hc).legal

/-- The delta of every sample has a code, the path of its leaf. -/
theorem codes (hsmall : frameSamples s < 2 ^ 32) (hn : 1 ≤ nch s) (hn4 : nch s ≤ 4) {k : Nat} (hk : k < frameSamples s) :
    (b.codeAt (channelOf (nch s) k) (deltaAt s k)).valid = true ∧
      (treeOf b (channelOf (nch s) k)).CodePath (deltaAt s k) (codeBits (b.codeAt (channelOf (nch s) k) (deltaAt s k))) ∧
      (codeBits (b.codeAt (channelOf (nch s) k) (deltaAt s k))).length ≤ 64 := by
  have hlt := Nat.mod_lt k hn
  have hmod : (channelOf (nch s) k).val = k % nch s := Nat.mod_eq_of_lt (show k % nch s < 4 by omega)
  have hdelta := deltaAt_lt s k
  refine (h.coded _ (hmod ▸ hlt)).codes _ (h.alphabet_eq ▸ hdelta) fun hzero => ?_
  have hpos := occurrences_pos hk hmod.symm
  have hle : occurrences s (channelOf (nch s) k) (deltaAt s k) ≤ frameSamples s := seenBefore_le s _ _ _
  have hcount := congrArg BitVec.toNat ((h.counts _ _ (hdelta.trans_le (alphabet_le s))).symm.trans hzero)
  rw [BitVec.toNat_ofNat, Nat.mod_eq_of_lt (hle.trans_lt hsmall)] at hcount
  exact hpos.ne' hcount

theorem packingFrame (hn : 1 ≤ nch s) (hn4 : nch s ≤ 4) (hout : OutFits s) (hraw : rawBytes s ≤ s.inLen.toNat) (hapart : Apart s)
    (hwrite : Writable s 0 s.outCap.toNat)
    (hcap : nch s * (8 + 4 * (alphabet s - 1)) + 8 * frameSamples s ≤ s.outCap.toNat) :
    PackingFrame s b (bitsOfBytes (headersOf b)) := by
  have hlegal : ∀ c : Ch, c.val < nch b → (treeOf b c).Legal (alphabet b) := fun c hc => h.legal (h.nch_eq ▸ hc)
  have hheaders := headersOf_length_le (h.nch_eq ▸ hn4) hlegal
  rw [h.nch_eq, h.alphabet_eq] at hheaders
  have houtCap : b.outCap = s.outCap := Setup.outCap_eq h.setup_eq
  have hinput : SameInput s b := ⟨h.setup_eq, by rw [h.same], fun k _ => by rw [h.same]⟩
  refine ⟨hinput, hraw, hapart, ?_, ?_, ?_, ?_, fun k hk => ?_⟩
  · rw [h.same]
    exact hout
  · rw [h.same]
  · rw [h.same]
    exact hwrite
  · rw [bitsOfBytes_length, houtCap]
    omega
  · have hsmall : frameSamples s < 2 ^ 32 := by
      have := s.outCap.isLt
      omega
    obtain ⟨hvalid, -, hshort⟩ := h.codes hsmall hn hn4 hk
    exact ⟨hvalid, hshort⟩

end Prepared

/-- Settles O55: the two passes and the builds between them complete, and the stream is what the packer stored. -/
theorem encFrameWritesStream : Obligations.EncFrameWritesStream := by
  intro s h hformat hin hout hraw hapart hread hwrite hcap
  obtain ⟨-, hn, hn4⟩ := id hformat
  obtain ⟨b, hb, hprep⟩ := encFrameBody_prepares h.rising hn hn4 hread
  have hpacking := hprep.packingFrame hn hn4 hout hraw hapart hwrite hcap
  have hdrawn : b.mem.Drawn b.draws := by
    rw [hprep.same]
    exact h.memory
  have hpk : b.pk = ⟨0, 0, 0⟩ := by rw [hprep.same]
  obtain ⟨u, hu, hsame, hprev, hlen, hbytes⟩ :=
    hpacking.writeStream_completes hn4 hread hdrawn hpk (fun c hc => hprep.legal hc) hprep.prev
  have hduties : duties .encFrame s = .ok () s := by
    rw [duties_run, brokenDuty_of_kept (i := .encFrame) h ⟨fun _ => hapart, nofun⟩]
  have hcheck : checkRaw s = .ok () s := by rw [checkRaw_run, if_pos (rawBytes_eq s ▸ hraw)]
  have hexec : exec .encFrame s = .next u.finish := commandLoose_of_ok <| by
    rw [Cmd.bind_run_ok hduties, Cmd.bind_run_ok (checkCfg_ok hformat), Cmd.bind_run_ok (checkIn_ok hin),
      Cmd.bind_run_ok (checkOut_ok hout), Cmd.bind_run_ok hcheck, hb, hu]
  have hsmall : frameSamples s < 2 ^ 32 := by
    have := s.outCap.isLt
    omega
  obtain ⟨m, q, rfl⟩ : ∃ m q, u = { b with
      mem := m, pk := ⟨BitVec.ofNat 32 (streamOf s b).length, 0, 0⟩, prev := q
      outSize := BitVec.ofNat 32 (streamOf s b).length } := ⟨_, _, hsame⟩
  refine ⟨_, streamOf s b, hexec, ?_, hprep.counts, hprev, fun c hc => ?_, fun k hk => ?_, rfl, ?_, ?_⟩
  · rw [hprep.same]
    rfl
  · have hcoded := hprep.coded c hc
    exact ⟨hprep.alphabet_eq ▸ hcoded.legal, hcoded.built⟩
  · obtain ⟨hvalid, hpath, -⟩ := hprep.codes hsmall hn hn4 hk
    exact ⟨hvalid, hpath⟩
  · rwa [← Setup.outCap_eq hprep.setup_eq]
  · rwa [← Setup.outAddr_eq hprep.setup_eq]

end Sys2Proof.Machine
end
